-- ==== Sys2Proof/Word.lean ====
section
/-!
DEFINITION. The words of the Caernum 9616 and the one sparse table that every storage of the model uses.
-/
namespace Sys2Proof

/-- One byte of storage. -/
abbrev Byte := BitVec 8
/-- A 32-bit register word (R68). -/
abbrev Word := BitVec 32
/-- A 64-bit value: a register pair or an address before it is checked (R136). -/
abbrev DWord := BitVec 64

/-- A sparse table from natural keys to `w`-bit values: keys strictly rising, no entry equal to 0.
A key that is not listed reads 0. Memory, registers, accumulators, weight units and scratchpads are such tables. -/
abbrev Tab (w : Nat) := List (Nat × BitVec w)

namespace Tab

/-- The value at a key: 0 when the key is not listed. -/
def get {w : Nat} : Tab w → Nat → BitVec w
  | [], _ => 0
  | (k, v) :: t, n => if k = n then v else get t n

/-- Put a value at a key in the order of the keys. -/
def put {w : Nat} : Tab w → Nat → BitVec w → Tab w
  | [], n, x => [(n, x)]
  | (k, v) :: t, n, x => if n < k then (n, x) :: (k, v) :: t else if n = k then (n, x) :: t else (k, v) :: put t n x

/-- Keep the entries whose keys pass a test. -/
def keep {w : Nat} (p : Nat → Bool) (t : Tab w) : Tab w := t.filter fun e => p e.1

/-- Put a value at a key, keeping the canonical form: a 0 removes the entry. -/
def set {w : Nat} (t : Tab w) (n : Nat) (x : BitVec w) : Tab w := if x = 0 then keep (fun k => k != n) t else put t n x

/-- Every key of the table is above `n`. -/
def above {w : Nat} (n : Nat) : Tab w → Bool
  | [] => true
  | (k, _) :: t => decide (n < k) && above n t

/-- The canonical form: keys strictly rising and no value 0. -/
def wf {w : Nat} : Tab w → Bool
  | [] => true
  | (k, v) :: t => above k t && (v != 0) && wf t

end Tab
end Sys2Proof
end

