-- ==== Sys2Proof/Syntax.lean ====
section
/-!
DEFINITION. The instructions: one constructor per row of the opcode table. The first part are the 96-bit words of a
swarm (R48, R62), the second the 32-bit words of an epilogue program (R249, R252), the third the commands of a
management queue (R404), the fourth the events of the part, each a whole and indivisible step.
-/
namespace Sys2Proof

/-- The view of a main-level operand (R51). -/
inductive View where | v | t | a | b
deriving DecidableEq, Repr

/-- An operand field (R51): a latch, an operand-file entry, a main-register index under a view, or an 18-bit
immediate. `m` is the modifier nibble. -/
inductive Opnd where
  | lat (i : BitVec 1) (m : BitVec 4)
  | opf (i : BitVec 3) (m : BitVec 4)
  | main (w : View) (i : BitVec 12) (m : BitVec 4)
  | imm (x : BitVec 18)
deriving DecidableEq, Repr

/-- The empty operand field 0x0_0000 (R52, R56). -/
abbrev Opnd.zero : Opnd := .lat 0 0

/-- What every swarm word carries: guard (R50), operand fields and hints (R57). -/
structure Wd where
  inv   : Bool
  pred  : BitVec 3
  d     : Opnd
  a     : Opnd
  b     : Opnd
  stall : BitVec 4
  yld   : Bool
  keep  : BitVec 3
  dlev  : BitVec 2
deriving DecidableEq, Repr

/-- Counter class of a memory word (R57). -/
inductive Cls where | none | ld | st | cp
deriving DecidableEq, Repr
/-- Memory order (R57, R163). -/
inductive Ord where | rlx | acq | rel | ar
deriving DecidableEq, Repr
/-- Scopes (R8). -/
inductive Scope where | core | clus | die | stk | seg | pkg | fab | sys
deriving DecidableEq, Repr

/-- The memory part of a class M word: class, order, scope, non-temporal (R57, R60). -/
structure MemQ where
  cls   : Cls
  ord   : Ord
  scope : Scope
  nt    : Bool
deriving DecidableEq, Repr

/-- IT (R61). -/
inductive IntTy where | s32 | n32 | s64 | n64
deriving DecidableEq, Repr
/-- Floating types of FR (R61). -/
inductive FTy where | f32 | f16 | bf16
deriving DecidableEq, Repr
/-- Rounding modes (R37, R61). -/
inductive Rnd where | rne | rz | rd | ru
deriving DecidableEq, Repr
/-- Integer conditions of CC (R61). -/
inductive ICond where | eq | ne | lt | le | gt | ge
deriving DecidableEq, Repr
/-- Float conditions of CC (R61, R105). -/
inductive FCond where | eq | ne | lt | le | gt | ge | un | num
deriving DecidableEq, Repr
/-- Address spaces SP (R61, R136). -/
inductive Space where | g | s | c | l3
deriving DecidableEq, Repr
/-- Access sizes of LD and ST (R149). -/
inductive Sz where | s8 | s16 | s32 | s64
deriving DecidableEq, Repr
/-- Register counts of LDV and STV (R150). -/
inductive VecN where | x2 | x4 | x8
deriving DecidableEq, Repr
/-- Atomic operations AO (R61, R177). -/
inductive AO where | add | minS | minN | maxS | maxN | and | or | xor | exch | cas | addF32 | addBf16x2
deriving DecidableEq, Repr
/-- Forms of ATOM and RED: global 32 and 64 bits, scratchpad 32 bits (R177, R179). -/
inductive AForm where | g32 | g64 | s32
deriving DecidableEq, Repr
/-- SHFL modes (R112). -/
inductive ShflMode where | at | back | fwd | mix | rot
deriving DecidableEq, Repr
/-- VOTE forms (R113). -/
inductive VoteOp where | every | some | alike | mask | count
deriving DecidableEq, Repr
/-- REDX and SCANX operations (R62, R115). -/
inductive RedOp where
  | addS | addN | addF | minS | minN | minF | maxS | maxN | maxF | and | or | xor
deriving DecidableEq, Repr
/-- Cache levels of IPREF, IPIN, IUNPIN (R132) and PREF (R151). -/
inductive Lvl3 where | l1 | l2 | l3
deriving DecidableEq, Repr
/-- CCTL operations (R152). -/
inductive CctlOp where | inv | wb | wbinv
deriving DecidableEq, Repr
/-- A types of MMA (R237) and of tile-task records (R244). -/
inductive AType where | bf16 | e4m3 | e5m2
deriving DecidableEq, Repr
/-- Element sizes of GATH and SCAT (R216). -/
inductive ESz where | b4 | b8 | b16
deriving DecidableEq, Repr
/-- Outstanding counters (R214). -/
inductive Cnt where | ld | st | cp | tile
deriving DecidableEq, Repr
/-- Coherence modes (R142 to R144). -/
inductive CohMode where | coh | swc | prv
deriving DecidableEq, Repr
/-- Translation stages (R346). -/
inductive Stage where | s1 | s2 | s3
deriving DecidableEq, Repr
/-- FRED operations (R387). -/
inductive FredOp where | add | max | amax | min
deriving DecidableEq, Repr

/-- Register of the epilogue processor: y0 to y7 or s0 to s7 (R249). -/
inductive EReg where
  | y (i : BitVec 3)
  | s (i : BitVec 3)
deriving DecidableEq, Repr

/-- A management queue: firmware's on function 0, a partition's, or a slice's (R401). -/
inductive QId where
  | fw
  | part (p : Nat)
  | slice (p s : Nat)
deriving DecidableEq, Repr

/-- The arguments a0 to a5 of a management command with the queue it stands on and its record index (R402). -/
structure Cmd where
  q  : QId
  e  : Nat
  a0 : DWord
  a1 : DWord
  a2 : DWord
  a3 : DWord
  a4 : DWord
  a5 : DWord
deriving DecidableEq, Repr

/-- A team: its grid's id and its index in the grid, or a continuation running in that grid (R271, R282). -/
structure TeamId where
  grid : Nat
  idx  : Nat
  cont : Option Nat
deriving DecidableEq, Repr

/-- Directory levels (R167). -/
inductive DirLevel where | clus | die | stk | seg | pkg | fab | sys
deriving DecidableEq, Repr

/-- Units of the ready map (R410). -/
inductive UnitId where
  | tier (g : Nat) | pulse | fw | lrx (g : Nat) | lnk (g : Nat) | port (m : Nat) | eng (c : Nat) | clu (c : Nat)
  | die (d : Nat) | stk (s : Nat)
deriving DecidableEq, Repr

/-- Kinds of access a walk is made for (R347). -/
inductive AccNeed where | read | write | rw | fetch
deriving DecidableEq, Repr

/-- A fabric request's kind as it arrives at this package (R376). -/
inductive FabOp where
  | read (n : Nat)
  | write (bytes : List Byte)
  | atomic (ao : AO) (wide : Bool) (d c : DWord)
deriving DecidableEq, Repr

/-- The answer to an outbound fabric or host request (R377, R380). -/
inductive Reply where
  | ok (data : List Byte)
  | refused | aborted | notAdmitted | poisoned | hostError
deriving DecidableEq, Repr

/-- The outcome of a back-invalidation snoop (R368). -/
inductive BiAnswer where
  | clean
  | dirty (bytes : List Byte)
deriving DecidableEq, Repr

/-- A contribution of another package that has reached a hive node's slot (R386): its index, round, operation, N,
timeout, lanes and values, and when it arrived by the node's time base. -/
structure FredIn where
  me    : Nat
  round : Nat
  op    : FredOp
  n     : Nat
  tmo   : Nat
  mask  : BitVec 32
  vals  : List Word
  at_   : Nat
deriving DecidableEq, Repr

/-- What the claim plane of the fabric brings to a group from other packages (R299, R305): a member has joined or left, or a
claim with its proposer's package, member, target as this package addresses it, size, value and stamp. -/
inductive PlaneMsg where
  | join (member : Nat)
  | leave (member : Nat)
  | claim (pkg member pa : Nat) (va : DWord) (wide : Bool) (value : DWord) (ts : Nat)
deriving DecidableEq, Repr

/-- A number of this package (a group's address or a claim's id), and for an event of the claim plane that another package
causes what it brings. -/
structure OnPlane (α : Type) where
  no   : Nat
  peer : Option α
deriving DecidableEq, Repr

/-- One constructor per row of the opcode table. -/
inductive Instr where
  -- Integer and address (R92 to R101)
  | iadd (t : IntTy) (sat : Bool) (o : Wd)
  | isub (t : IntTy) (sat : Bool) (o : Wd)
  | iaddc (t : IntTy) (sat : Bool) (o : Wd)
  | imul (t : IntTy) (sat : Bool) (o : Wd)
  | imulhi (t : IntTy) (o : Wd)
  | imad (t : IntTy) (sat : Bool) (o : Wd)
  | imin (t : IntTy) (o : Wd)
  | imax (t : IntTy) (o : Wd)
  | iabs (wide : Bool) (sat : Bool) (o : Wd)
  | shl (wide : Bool) (o : Wd)
  | shr (wide : Bool) (o : Wd)
  | sar (wide : Bool) (o : Wd)
  | rot (wide : Bool) (o : Wd)
  | and (wide : Bool) (o : Wd)
  | or (wide : Bool) (o : Wd)
  | xor (wide : Bool) (o : Wd)
  | not (wide : Bool) (o : Wd)
  | lop3 (tt : BitVec 8) (o : Wd)
  | bfx (signed : Bool) (o : Wd)
  | bfi (o : Wd)
  | popc (wide : Bool) (o : Wd)
  | clz (wide : Bool) (o : Wd)
  | brev (wide : Bool) (o : Wd)
  | icmp (wide : Bool) (c : ICond) (uns : Bool) (o : Wd)
  | sel (np : Bool) (p : BitVec 3) (o : Wd)
  | lea (sh : BitVec 4) (o : Wd)
  | mov (wide : Bool) (o : Wd)
  | movi (c : BitVec 32) (o : Wd)
  -- Register space (R83 to R87)
  | view (o : Wd)
  | ldix (o : Wd)
  | stix (o : Wd)
  | regfree (o : Wd)
  | rdsr (o : Wd)
  | wrsr (o : Wd)
  -- Floating point (R102 to R111)
  | fadd (r : Rnd) (t : FTy) (slot : BitVec 3) (sat : Bool) (o : Wd)
  | fsub (r : Rnd) (t : FTy) (slot : BitVec 3) (sat : Bool) (o : Wd)
  | fmul (r : Rnd) (t : FTy) (slot : BitVec 3) (sat : Bool) (o : Wd)
  | ffma (r : Rnd) (t : FTy) (slot : BitVec 3) (sat : Bool) (o : Wd)
  | ffmaL (r : Rnd) (t : FTy) (slot : BitVec 3) (sat : Bool) (o : Wd)
  | fmin (t : FTy) (o : Wd)
  | fmax (t : FTy) (o : Wd)
  | fcmp (t : FTy) (c : FCond) (o : Wd)
  | frcp (r : Rnd) (t : FTy) (slot : BitVec 3) (sat : Bool) (o : Wd)
  | frsq (r : Rnd) (t : FTy) (slot : BitVec 3) (sat : Bool) (o : Wd)
  | fsqrt (r : Rnd) (t : FTy) (slot : BitVec 3) (sat : Bool) (o : Wd)
  | fexp2 (r : Rnd) (t : FTy) (slot : BitVec 3) (sat : Bool) (o : Wd)
  | flog2 (r : Rnd) (t : FTy) (slot : BitVec 3) (sat : Bool) (o : Wd)
  | fsin (r : Rnd) (t : FTy) (slot : BitVec 3) (sat : Bool) (o : Wd)
  | fcos (r : Rnd) (t : FTy) (slot : BitVec 3) (sat : Bool) (o : Wd)
  | frnd (r : Rnd) (t : FTy) (o : Wd)
  | fcvt (fromSlot : Bool) (r : Rnd) (slot : BitVec 3) (sat : Bool) (o : Wd)
  | hfma2 (r : Rnd) (pr : BitVec 2) (slot : BitVec 3) (sat : Bool) (o : Wd)
  | fdot4 (r : Rnd) (e5 : Bool) (slot : BitVec 3) (sat : Bool) (o : Wd)
  | fsplit3 (o : Wd)
  -- Cross-lane and predicate (R112 to R117)
  | shfl (m : ShflMode) (o : Wd)
  | vote (v : VoteOp) (o : Wd)
  | matchL (wide : Bool) (o : Wd)
  | redx (op : RedOp) (o : Wd)
  | scanx (op : RedOp) (o : Wd)
  | scanxEx (op : RedOp) (o : Wd)
  | pset (o : Wd)
  | plop (tt : BitVec 8) (o : Wd)
  | pmovGet (o : Wd)
  | pmovSet (o : Wd)
  -- Control (R126 to R132)
  | bra (o : Wd)
  | brx (o : Wd)
  | call (o : Wd)
  | ret (o : Wd)
  | loop (o : Wd)
  | bmark (o : Wd)
  | bsync (o : Wd)
  | exit (o : Wd)
  | yield (o : Wd)
  | nop (o : Wd)
  | ipref (l : Lvl3) (o : Wd)
  | ipin (l : Lvl3) (o : Wd)
  | iunpin (l : Lvl3) (o : Wd)
  -- Memory (R149 to R157, R171 to R181)
  | ld (z : Sz) (sp : Space) (sx : Bool) (q : MemQ) (o : Wd)
  | st (z : Sz) (sp : Space) (q : MemQ) (o : Wd)
  | ldv (n : VecN) (sp : Space) (q : MemQ) (o : Wd)
  | stv (n : VecN) (sp : Space) (q : MemQ) (o : Wd)
  | pref (l : Lvl3) (q : MemQ) (o : Wd)
  | cctl (op : CctlOp) (q : MemQ) (o : Wd)
  | wpset (r w : Bool) (q : MemQ) (o : Wd)
  | wpclr (q : MemQ) (o : Wd)
  | fence (q : MemQ) (o : Wd)
  | fenceSc (q : MemQ) (o : Wd)
  | fenceLy (q : MemQ) (o : Wd)
  | atom (f : AForm) (ao : AO) (q : MemQ) (o : Wd)
  | atomv (ao : AO) (q : MemQ) (o : Wd)
  | red (f : AForm) (ao : AO) (q : MemQ) (o : Wd)
  | waitc (c : ICond) (uns : Bool) (q : MemQ) (o : Wd)
  -- Matrix (R236 to R247)
  | mmaz (t : AType) (spad : Bool) (o : Wd)
  | mma (t : AType) (spad : Bool) (o : Wd)
  | wbld (slot : BitVec 3) (o : Wd)
  | accld (q : MemQ) (o : Wd)
  | accst (q : MemQ) (o : Wd)
  | accdr (slot : BitVec 3) (sat : Bool) (o : Wd)
  | epil (o : Wd)
  | ttask (q : MemQ) (o : Wd)
  -- Queue (R215 to R229)
  | cpy (o : Wd)
  | cpy2d (o : Wd)
  | gath (z : ESz) (o : Wd)
  | scat (z : ESz) (o : Wd)
  | bread (o : Wd)
  | chapp (o : Wd)
  | waittl (q : MemQ) (o : Wd)
  | rdtl (o : Wd)
  | waitcnt (c : Cnt) (o : Wd)
  | ctxtlOpen (o : Wd)
  | ctxtlClose (o : Wd)
  | ctxtlReset (o : Wd)
  -- Barrier (R188 to R192)
  | bar (o : Wd)
  | bararv (o : Wd)
  | barwt (o : Wd)
  | gbar (o : Wd)
  | syncwi (o : Wd)
  | syncwt (q : MemQ) (o : Wd)
  -- Kernel and group (R287 to R292, R303 to R311)
  | launch (o : Wd)
  | spawn (o : Wd)
  | join (o : Wd)
  | ticket (o : Wd)
  | kstat (o : Wd)
  | grpdecl (fab : Bool) (o : Wd)
  | grpdrop (o : Wd)
  | claim (b8 : Bool) (o : Wd)
  | object (o : Wd)
  | clwait (o : Wd)
  | clinbox (o : Wd)
  -- Context (R323, R332, R336)
  | live (o : Wd)
  | trap (o : Wd)
  | tret (o : Wd)
  | ctxsave (o : Wd)
  | ctxload (o : Wd)
  | oplogrd (o : Wd)
  | progrd (o : Wd)
  | progwr (o : Wd)
  | eret (o : Wd)
  | eretOff (o : Wd)
  | eretEnd (o : Wd)
  -- Page and link (R353 to R362, R381 to R388)
  | pagemode (m : CohMode) (o : Wd)
  | tlbinv (all : Bool) (k : Stage) (o : Wd)
  | probe (k : Stage) (o : Wd)
  | bmaprd (o : Wd)
  | remapPage (o : Wd)
  | remapBank (o : Wd)
  | chainst (q : MemQ) (o : Wd)
  | fred (op : FredOp) (q : MemQ) (o : Wd)
  | fredwt (q : MemQ) (o : Wd)
  | vfctlEnable (o : Wd)
  | vfctlDrain (o : Wd)
  | vfctlStatus (o : Wd)
  -- Epilogue words (R252)
  | eNop
  | eMov (d a : EReg)
  | eMovl (d : BitVec 3) (k : BitVec 16)
  | eMovh (d : BitVec 3) (k : BitVec 16)
  | eAdd (d a b : EReg)
  | eSub (d a b : EReg)
  | eMul (d a b : EReg)
  | eFma (d a b c : EReg)
  | eMin (d a b : EReg)
  | eMax (d a b : EReg)
  | eRelu (d a : EReg)
  | eGelu (d a : EReg)
  | eClamp (d a b c : EReg)
  | eAbsmaxRow (d : BitVec 3) (a : BitVec 3)
  | eAbsmaxBlk (d : BitVec 3) (a : BitVec 3)
  | eSum (d : BitVec 3) (a : BitVec 3)
  | eIdx (d : EReg)
  | eBscale (a : BitVec 3)
  | eQ8 (d : BitVec 3) (a : BitVec 3)
  | eCvt (d : BitVec 3) (a : BitVec 3)
  | eLdbColF32 (d : BitVec 3) (p : BitVec 2) (k : BitVec 16)
  | eLdbColBf16 (d : BitVec 3) (p : BitVec 2) (k : BitVec 16)
  | eLdbRowF32 (d : BitVec 3) (p : BitVec 2) (k : BitVec 16)
  | eSt (a : BitVec 3) (k : BitVec 16)
  | eSts (p : BitVec 2)
  | eNext
  | eStop
  -- Management commands (R404)
  | slice (c : Cmd)
  | unslice (c : Cmd)
  | setq (c : Cmd)
  | root (c : Cmd)
  | hnd (c : Cmd)
  | grant (c : Cmd)
  | run (c : Cmd)
  | preempt (c : Cmd)
  | freeze (c : Cmd)
  | thaw (c : Cmd)
  | carve (c : Cmd)
  | admits (c : Cmd)
  | log (c : Cmd)
  | part (c : Cmd)
  | unpart (c : Cmd)
  | vfassign (c : Cmd)
  | hdm (c : Cmd)
  | frgrant (c : Cmd)
  | fwupd (c : Cmd)
  -- Events: memory, engines and matrix
  | accessCompletion (tm : TeamId) (sw : Nat) (n : Nat) (lane : Nat)
  | monitorFire (pa : Nat)
  | monitorParkTimeout (tm : TeamId) (sw lane : Nat)
  | pulseTick (s : Scope)
  | mmaKStep (tm : TeamId) (sw : Nat)
  | tileTaskStart (n core : Nat)
  | tileTaskEnd (n : Nat)
  | epilogueRow
  | engineWalkEntry (tm : TeamId) (c : Nat)
  | operationEnd (tm : TeamId) (c : Nat) (n : Nat)
  | burstArrival (tm : TeamId) (c : Nat) (n : Nat) (j : Nat) (bad : Bool)
  | gatherWindowClose (tm : TeamId) (c : Nat) (n : Nat)
  | foragerStart (tm : TeamId) (c : Nat) (n : Nat)
  | finalHandlerStart (tm : TeamId) (c : Nat) (n : Nat)
  | syncArrival (tm : TeamId) (off n : Nat)
  -- Events: grids, continuations, groups
  | gridDispatch (p : Nat)
  | launchQueueAge (g : Nat)
  | ticketDraw (core : Nat)
  | teamStart (g unit core : Nat)
  | gangPlace (g unit : Nat)
  | gridRetire (g : Nat)
  | continuationDecrement (die : Nat)
  | continuationStart (core die prio : Nat)
  | claimProposalArrival (grp : Nat) (id : OnPlane PlaneMsg)
  | objectionArrival (grp : OnPlane (Nat × Nat × Nat))
  | claimDecision (grp : Nat) (id : OnPlane (Nat × Nat))
  -- Events: contexts
  | impreciseTrapDelivery (tm : TeamId)
  | preemptPointStop (tm : TeamId) (sw : Nat)
  | preemptOverdue (tm : TeamId)
  | parkedWake (tm : TeamId)
  | contextLoad (tm : TeamId) (core : Nat)
  | faultedRetire (tm : TeamId)
  | registerSpill (core : Nat)
  -- Events: pages and banks
  | tableWalk (core part slice asn : Nat) (va : DWord) (need : AccNeed)
  | foldLineMove (stack : Nat)
  | assayBeat (stack : Nat)
  | demandHold (stack : Nat)
  | bankSleep (stack pillar layer : Nat)
  | wakeSlot (stack : Nat)
  -- Events: coherence
  | getM (core line : Nat)
  | getS (core line : Nat)
  | inv (core line : Nat)
  | ack (core line : Nat) (l : DirLevel)
  | fwd (core line : Nat)
  | data (core line : Nat)
  | invDrain (core : Nat)
  | directoryError (l : DirLevel) (unit region : Nat) (owners : List Nat) (sharers : List Nat)
  | dieFailure (d : Nat)
  -- Events: the link
  | inboundWrite (die fn : Nat) (addr : DWord) (bytes : List Byte) (ro poison : Bool)
  | inboundRead (die fn : Nat) (addr : DWord) (n : Nat)
  | inboundAtomicop (die fn : Nat)
  | pieceAck (die w route : Nat)
  | functionLevelReset (die fn : Nat)
  | drainTimeout (die fn : Nat)
  | hostCompletion (n : Nat) (r : Reply)
  | completionTimeout (n : Nat)
  | biSnp (line : Nat)
  | biSnpAnswer (line : Nat) (r : BiAnswer)
  | cxlCacheSnoop (line : Nat) (invalidate : Bool)
  | fabricRequest (port pkg rpart p : Nat) (addr : DWord) (op : FabOp)
  | remoteReply (n : Nat) (r : Reply)
  | remoteTimeout (n : Nat)
  | snp (line : Nat)
  | flitCrcFail (port : Nat)
  | flitAcknowledge (port : Nat)
  | pulseCorrection (d : Int)
  | fredAnswer (n : Nat) (others : List FredIn) (now : Nat)
  | configurationWrite (die fn off : Nat) (val : Word)
  -- Events: bring-up
  | unitFailure (u : UnitId)
  | unitReady (u : UnitId) (cxl : Bool)
  | powerOn
  | conventionalReset
  | go
  | abort
  | recoveryReadCompletion (bytes : List Byte) (status : Nat)
  | recoveryVerifyDone
  | flashWriteDone (block : Option Nat)
  | registerWrite (off : Nat) (val : DWord)
deriving DecidableEq, Repr

end Sys2Proof
end

