-- ==== Sys2Proof/Config.lean ====
section
/-!
DEFINITION. The free values of the model: what the manual gives a bound for but no bits, and what it leaves to the
part. No constant here has a body, so no proof can see its value, and a claim holds whatever it is.
-/
namespace Sys2Proof.Config

/-- The part's one fixed evaluation of FRSQ, FEXP2, FLOG2, FSIN and FCOS on an .f32 operand under a rounding mode
(R102, R106), and of e.gelu (R253); used only where it keeps the manual's bound (assumption 8). -/
opaque frsq : BitVec 32 → Rnd → BitVec 32
opaque fexp2 : BitVec 32 → Rnd → BitVec 32
opaque flog2 : BitVec 32 → Rnd → BitVec 32
opaque fsin : BitVec 32 → Rnd → BitVec 32
opaque fcos : BitVec 32 → Rnd → BitVec 32
opaque gelu : BitVec 32 → BitVec 32

/-- Values that the manual leaves open, drawn by the model's own counter. -/
opaque free : Nat → BitVec 64

/-- The key that signs firmware images (R412), as modulus and exponent: the part holds its digest, which is not given. -/
opaque fwKey : Nat × Nat

/-- Which word of a function's configuration space is its Device Control (R367), whose place is not given. -/
opaque devCtl : Nat

/-- The 64 bytes of a log entry (R407), whose layout the manual does not give. -/
opaque logBytes : Nat → List Byte

/-- Where the firmware keeps the queue through which the host commands it (R401), in units of 64 KiB. -/
opaque fwQueue : Nat

/-- The hash of a line address that selects a Mirrek port (R371). -/
opaque portHash : Nat → Nat

end Sys2Proof.Config
end

