-- ==== Sys2Proof/WellFormed.lean ====
section
/-!
DEFINITION. Which instructions are well formed: the field rules of R51 to R60, R63 and the entries (check 4 of R64) for
swarm words. `Instr.fields` says once, per instruction, what each operand field may hold; check 4 (here) and the
register-view check 6 (Machine/Operands.lean) both read it.
-/
namespace Sys2Proof

/-- What an operand field of an instruction accepts. `wide` marks a 64-bit operand (R88), `lat0` one that takes no l1. `views`, `n`, `even` and `sz`
belong to check 6: the accepted views, the number of consecutive v-registers, an even first register, and the
alignment of a raw byte (R54). -/
structure FS where
  zero  : Bool := false
  lat   : Bool := false
  lat0  : Bool := false
  opf   : Bool := false
  main  : Bool := false
  imm   : Bool := false
  wide  : Bool := false
  sign  : Bool := false
  xl    : Bool := false
  dst   : Bool := false
  views : List View := [.v]
  n     : Nat := 1
  even  : Bool := false
  sz    : Nat := 4
  immOk : BitVec 18 → Bool := fun _ => true

namespace FS
/-- An unused field (R56). -/
def z : FS := { zero := true }
/-- A source of at most 32 bits (R88). -/
def src (sz : Nat) (sign xl : Bool) : FS :=
  { lat := true, opf := true, main := true, imm := true, views := [.v, .b], sz := sz, sign := sign, xl := xl }
/-- A 64-bit source (R88). A sign modifier is for a raw byte of an integer type alone, since a pair takes none (R55). -/
def src64 (sign xl : Bool) : FS :=
  { lat := true, main := true, imm := true, wide := true, views := [.v, .b], n := 2, even := true, sz := 8,
    sign := sign, xl := xl }
/-- A register destination of at most 32 bits (R58). -/
def dest (sz : Nat) : FS :=
  { lat := true, opf := true, main := true, views := [.v, .b], sz := sz, dst := true }
/-- A register destination that takes no raw byte. -/
def destV : FS := { lat := true, opf := true, main := true, views := [.v], dst := true }
/-- A 64-bit register destination. -/
def dest64 : FS :=
  { lat := true, main := true, wide := true, views := [.v, .b], n := 2, even := true, sz := 8, dst := true }
/-- `n` consecutive v-registers at level 10. -/
def vn (n : Nat) : FS := { main := true, n := n }
/-- A v-register pair at level 10. -/
def pair : FS := { main := true, wide := true, n := 2, even := true }
/-- The same field with cross-lane modifiers, which field A takes where its value is Src(A, i) (R27, R55, R90). -/
def cross (f : FS) : FS := { f with xl := true }
/-- A load destination (R149). -/
def load (sz : Nat) : FS := { main := true, views := [.v, .b], sz := sz }
/-- A 64-bit load destination (R149). -/
def load64 : FS := { main := true, wide := true, views := [.v, .b], n := 2, even := true, sz := 8 }
/-- Store or reduction data (R149, R179): of the latches, l0 alone. -/
def data (sz : Nat) (imm : Bool) : FS :=
  { lat := true, lat0 := true, opf := true, main := true, imm := imm, views := [.v, .b], sz := sz }
/-- 64-bit store data (R149). -/
def data64 : FS := { lat := true, main := true, wide := true, views := [.v, .b], n := 2, even := true, sz := 8 }
/-- 64-bit reduction data: a pair or the latch pair (R179). -/
def red64 : FS := { data64 with views := [.v] }
/-- An immediate of level 11 with its admitted values (R53). -/
def im (p : BitVec 18 → Bool) : FS := { imm := true, immOk := p }
/-- An immediate, or the empty field (BSYNC's B, R128). -/
def imZ (p : BitVec 18 → Bool) : FS := { imm := true, zero := true, immOk := p }
/-- A v-register or an immediate. -/
def vIm (p : BitVec 18 → Bool) : FS := { main := true, imm := true, immOk := p }
/-- A pair or an immediate. -/
def pairIm (p : BitVec 18 → Bool) : FS := { main := true, n := 2, even := true, imm := true, immOk := p }
/-- An accumulator. -/
def acc : FS := { main := true, views := [.a] }
/-- A tile. -/
def tile : FS := { main := true, views := [.t] }

/-- Modifier rule of R52 and R55 for fields A and B. -/
def modOk (f : FS) (m : BitVec 4) : Bool :=
  m == 0 || (f.sign && decide (1 ≤ m.toNat ∧ m.toNat ≤ 3)) || (f.xl && decide (4 ≤ m.toNat ∧ m.toNat ≤ 13))

/-- l1 is a latch of this field: a 64-bit operand is the latch pair l0 (R88). -/
def latOk (f : FS) (i : BitVec 1) : Bool := f.lat && ((!f.wide && !f.lat0) || i == 0)

/-- Check 4 of a field A or B. A 64-bit operand other than a raw byte is a pair, which takes no sign (R55). -/
def okSrc (f : FS) : Opnd → Bool
  | .lat i m => (f.zero && i == 0 && m == 0) || (f.latOk i && { f with sign := f.sign && !f.wide }.modOk m)
  | .opf _ m => f.opf && f.modOk m
  | .main w _ m => f.main && { f with sign := f.sign && (!f.wide || w == View.b) }.modOk m
  | .imm x => f.imm && f.immOk x

/-- Check 4 of field D with the destination level of R58: a modifier only as the operand-file index of the dual form. -/
def okD (f : FS) (dlev : BitVec 2) : Opnd → Bool
  | .lat i m =>
    (f.zero && i == 0 && m == 0) || (f.latOk i && m == 0)
  | .opf _ m => f.opf && m == 0
  | .main _ _ m => f.main && (m == 0 || (dlev == 3 && f.dst && !m.getLsbD 3))
  | .imm x => f.imm && f.immOk x

/-- The destination level agrees with D (R58). -/
def okLev (f : FS) (dlev : BitVec 2) : Opnd → Bool
  | .lat _ _ => if f.dst then dlev == 2 else dlev == 0
  | .opf _ _ => if f.dst then dlev == 1 else dlev == 0
  | .main w _ _ => dlev == 0 || (dlev == 3 && f.dst && !f.wide && (w == .v || w == .b))
  | .imm _ => dlev == 0
end FS

/-- An immediate between two bounds, read signed. -/
def immIn (lo hi : Int) (x : BitVec 18) : Bool := decide (lo ≤ x.toInt ∧ x.toInt ≤ hi)
/-- An immediate below a bound, read unsigned. -/
def immBelow (n : Nat) (x : BitVec 18) : Bool := decide (x.toNat < n)
def immAny (_ : BitVec 18) : Bool := true

def IntTy.wide : IntTy → Bool
  | .s32 | .n32 => false
  | .s64 | .n64 => true
def IntTy.signed : IntTy → Bool
  | .s32 | .s64 => true
  | .n32 | .n64 => false
def FTy.bytes : FTy → Nat
  | .f32 => 4
  | .f16 | .bf16 => 2
def Sz.bytes : Sz → Nat
  | .s8 => 1
  | .s16 => 2
  | .s32 => 4
  | .s64 => 8
def VecN.count : VecN → Nat
  | .x2 => 2
  | .x4 => 4
  | .x8 => 8

/-- The special registers of R81: number, whether 64 bits wide, whether RW. -/
def spReg (n : Nat) : Option (Bool × Bool) :=
  if n ≤ 0x0D then some (false, false)
  else if n = 0x10 then some (true, false)
  else if n = 0x11 then some (false, false)
  else if 0x12 ≤ n ∧ n ≤ 0x16 then some (false, false)
  else if n = 0x18 ∨ n = 0x19 then some (false, true)
  else if n = 0x1A ∨ n = 0x1B then some (false, false)
  else if n = 0x1C ∨ n = 0x1E then some (false, true)
  else if n = 0x1F then some (true, true)
  else none

/-- The immediate in a field, 0 otherwise. -/
def Opnd.immVal : Opnd → BitVec 18
  | .imm x => x
  | _ => 0

/-- The byte size of a format code of R41, for the formats FCVT takes (R108). -/
def fmtBytes (f : Nat) : Option Nat :=
  match f with
  | 0x00 => some 4
  | 0x01 | 0x02 => some 2
  | 0x03 | 0x04 => some 1
  | 0x08 | 0x0C => some 1
  | 0x09 | 0x0D => some 2
  | 0x0A | 0x0E => some 4
  | 0x0B | 0x0F => some 8
  | _ => none

/-- Source FMT of an FCVT word: B [9:5] (R108). -/
def fcvtSrc (b : Opnd) : Nat := (b.immVal.extractLsb' 5 5).toNat
/-- Destination FMT code of an FCVT word: B [4:0] (R108). -/
def fcvtDst (b : Opnd) : Nat := (b.immVal.extractLsb' 0 5).toNat

/-- A source field for an FCVT format: a pair for 64 bits. -/
def FS.fmtSrc (f : Nat) : FS :=
  match fmtBytes f with
  | some 8 => FS.src64 true true
  | some n => FS.src n true true
  | none => FS.src 4 true true

/-- A destination field for an FCVT format. The slot form (0x1F) may turn out wide only when the slot is read. -/
def FS.fmtDst (f : Nat) : FS :=
  match fmtBytes f with
  | some 8 => FS.dest64
  | some n => FS.dest n
  | none => FS.dest 1

/-- The row count of REDX and SCANX: the immediate of B (R115). -/
def redCount (b : Opnd) : Nat := b.immVal.toNat

/-- What fields D, A and B of a swarm word accept. Where an entry leaves a form open, the model's reading is that of
assumptions 12 and 97 (the dual destination), 14 (sign modifiers, and LEA), 15, 16 and 115 (an omitted immediate). -/
def Instr.fields : Instr → FS × FS × FS
  | .iadd t _ _ | .isub t _ _ | .imul t _ _ | .imulhi t _ | .imad t _ _ | .imin t _ | .imax t _ =>
    if t.wide then (.dest64, .src64 true true, .src64 true false) else (.dest 4, .src 4 true true, .src 4 true false)
  | .iaddc t _ _ =>
    if t.wide then ({ main := true, n := 3, even := true }, .src64 true true, .src64 true false)
    else (.pair, .src 4 true true, .src 4 true false)
  | .iabs w _ _ => if w then (.dest64, .src64 true true, .z) else (.dest 4, .src 4 true true, .z)
  | .shl w _ | .shr w _ | .sar w _ | .rot w _ =>
    if w then (.dest64, .src64 true true, .src 4 true false) else (.dest 4, .src 4 true true, .src 4 true false)
  | .and w _ | .or w _ | .xor w _ =>
    if w then (.dest64, .src64 false true, .src64 false false) else (.dest 4, .src 4 false true, .src 4 false false)
  | .not w _ => if w then (.dest64, .src64 false true, .z) else (.dest 4, .src 4 false true, .z)
  | .lop3 _ _ => (.dest 4, .src 4 false true, .src 4 false false)
  | .bfx _ _ => (.dest 4, .src 4 true true, .src 4 true false)
  | .bfi _ => (.dest 4, .src 4 false true, .src 4 false false)
  | .popc w _ | .clz w _ => if w then (.dest 4, .src64 true true, .z) else (.dest 4, .src 4 true true, .z)
  | .brev w _ => if w then (.dest64, .src64 true true, .z) else (.dest 4, .src 4 true true, .z)
  | .icmp w _ _ _ =>
    if w then (.im (immIn 1 7), .src64 true true, .src64 true false) else (.im (immIn 1 7), .src 4 true true, .src 4 true false)
  | .sel _ _ _ => (.dest 4, .src 4 false true, .src 4 false false)
  | .lea _ _ => (.pair, FS.pair.cross, .src 4 true false)
  | .mov w _ => if w then (.dest64, .src64 false true, .z) else (.dest 4, .src 4 false true, .z)
  | .movi _ _ => (.dest 4, .z, .z)
  | .view _ => (.z, .im immAny, .im immAny)
  | .ldix _ => (.destV, (FS.vn 1).cross, .vIm (immIn 0 511))
  | .stix _ => (.vIm immAny, (FS.vn 1).cross, .vIm (immIn 0 511))
  | .regfree o =>
    (.z, { main := true, views := [.v, .t], n := o.b.immVal.toNat },
      .im (match o.a with
        | .main .t _ _ => immIn 1 8
        | _ => immIn 1 64))
  | .rdsr o =>
    match spReg o.a.immVal.toNat with
    | some (true, _) => (.pair, .im fun x => (spReg x.toNat).isSome, .z)
    | _ => (.dest 4, .im fun x => (spReg x.toNat).isSome, .z)
  | .wrsr o =>
    let num := FS.im fun x => match spReg x.toNat with | some (_, rw) => rw | none => false
    match spReg o.d.immVal.toNat with
    | some (true, _) => (num, FS.pair.cross, .z)
    | _ => (num, (FS.vIm immAny).cross, .z)
  | .fadd _ t _ _ _ | .fsub _ t _ _ _ | .fmul _ t _ _ _ | .ffma _ t _ _ _ | .ffmaL _ t _ _ _ | .fmin t _ | .fmax t _ =>
    (.dest t.bytes, .src t.bytes true true, .src t.bytes true false)
  | .fcmp t _ _ => (.im (immIn 1 7), .src t.bytes true true, .src t.bytes true false)
  | .frcp _ t _ _ _ | .frsq _ t _ _ _ | .fsqrt _ t _ _ _ | .fexp2 _ t _ _ _ | .flog2 _ t _ _ _ | .fsin _ t _ _ _
  | .fcos _ t _ _ _ | .frnd _ t _ => (.dest t.bytes, .src t.bytes true true, .z)
  | .fcvt fromSlot _ _ _ o =>
    let dst := if fromSlot then FS.dest 1 else FS.fmtDst (fcvtDst o.b)
    (if fromSlot then { dst with sz := 1 } else dst, FS.fmtSrc (fcvtSrc o.b),
      .im fun x =>
        (x.extractLsb' 10 8 == 0) && (fmtBytes (x.extractLsb' 5 5).toNat).isSome &&
        (if fromSlot then (x.extractLsb' 0 5 == 0x1F)
         else (fmtBytes (x.extractLsb' 0 5).toNat).isSome))
  | .hfma2 _ _ _ _ _ | .fdot4 _ _ _ _ _ => (.dest 4, .src 4 true true, .src 4 true false)
  | .fsplit3 _ => (.pair, .src 4 true true, .z)
  | .shfl _ _ => (.dest 4, .src 4 false false, .src 4 true false)
  | .vote v _ =>
    match v with
    | .every | .some | .alike => (.im (immIn 1 7), .im (immBelow 16), .z)
    | .mask | .count => (.dest 4, .im (immBelow 16), .z)
  | .matchL w _ => if w then (.dest 4, .src64 false false, .z) else (.dest 4, .src 4 false false, .z)
  | .redx op o =>
    if redCount o.b ≤ 1 then
      (.dest 4, .src 4 (op != .and && op != .or && op != .xor) false, .im (immIn 1 64))
    else ({ main := true, dst := false }, .vn (redCount o.b), .im (immIn 1 64))
  | .scanx op o | .scanxEx op o =>
    if redCount o.b ≤ 1 then
      (.dest 4, .src 4 (op != .and && op != .or && op != .xor) false, .im (immIn 1 64))
    else (.vn (redCount o.b), .vn (redCount o.b), .im (immIn 1 64))
  | .pset _ => (.im (immIn 1 7), .src 4 false false, .z)
  | .plop _ _ => (.im (immIn 1 7), .im (immBelow 8), .im (immBelow 8))
  | .pmovGet _ => (.dest 4, .z, .z)
  | .pmovSet _ => (.z, .src 4 false false, .im fun x => immBelow 256 x && !x.getLsbD 0)
  | .bra _ => (.z, .z, .im immAny)
  | .brx _ => (.z, .pair, .im immAny)
  | .call _ => (.pair, .z, .pairIm immAny)
  | .ret _ => (.z, .pair, .z)
  | .loop _ => (.vn 1, .z, .im immAny)
  | .bmark _ => (.z, .im (immBelow 8), .z)
  | .bsync _ => (.z, .im (immBelow 8), .imZ (immIn 8 15))
  | .exit _ | .nop _ => (.z, .z, .z)
  | .yield _ => (.z, .im (immIn 0 4095), .z)
  | .ipref _ _ | .iunpin _ _ => (.z, .pair, .im (immIn 1 4096))
  | .ipin _ _ => (.vn 1, .pair, .im (immIn 1 4096))
  | .ld z _ _ _ _ => (if z == .s64 then .load64 else .load z.bytes, .pair, .im immAny)
  | .st z _ _ _ => (if z == .s64 then .data64 else .data z.bytes false, .pair, .im immAny)
  | .ldv n _ _ _ | .stv n _ _ _ => (.vn n.count, .pair, .im immAny)
  | .pref _ _ _ | .cctl _ _ _ => (.z, .pair, .im immAny)
  | .wpset _ _ _ _ =>
    (.z, .pair, .im fun x => (x.extractLsb' 8 10 == 0) && decide (2 ≤ (x.extractLsb' 0 6).toNat ∧ (x.extractLsb' 0 6).toNat ≤ 30))
  | .wpclr _ _ => (.vn 1, .z, .im (immBelow 4))
  | .fence _ _ | .fenceSc _ _ | .fenceLy _ _ => (.z, .z, .z)
  | .atom f ao _ _ =>
    (match f, ao with
      | .g64, .cas => { main := true, n := 4, even := true }
      | .g64, _ => .pair
      | _, .cas => .pair
      | _, _ => .vn 1, .pair, .im immAny)
  | .atomv _ _ o => (.vn ((o.b.immVal.extractLsb' 12 6).toNat + 1), .pair, .im immAny)
  | .red f _ _ _ => (if f == .g64 then .red64 else .data 4 true, .pair, .im immAny)
  | .waitc _ _ _ _ => (.vn 1, .pair, .im immAny)
  | .mmaz _ sp _ | .mma _ sp _ => (.acc, if sp then .pair else .tile, .vIm immAny)
  | .wbld _ _ => (.z, .pair, .vIm immAny)
  | .accld _ _ | .accst _ _ => (.acc, .pair, .im immAny)
  | .accdr _ _ _ => (.acc, .pair, .vIm (immBelow 65536))
  | .epil _ => (.acc, .pair, .im (immIn 1 64))
  | .ttask _ _ => (.pair, .pair, .im (immIn 1 16))
  | .cpy _ | .cpy2d _ | .gath _ _ | .scat _ _ | .bread _ => (.im (immBelow 8), .pair, .im immAny)
  | .chapp _ => (.pair, .pair, .im (immBelow 8))
  | .waittl _ _ => (.im (immBelow 8), .pairIm (immIn 0 131071), .z)
  | .rdtl _ => (.pair, .im (immBelow 8), .im (immBelow 3))
  | .waitcnt c _ => (.z, .im (if c == .tile then immBelow 16 else immBelow 64), .z)
  | .ctxtlOpen _ | .ctxtlClose _ | .ctxtlReset _ => (.vn 1, .im (immBelow 8), .z)
  | .bar _ => (.z, .im (immBelow 128), .im (immIn 0 32))
  | .bararv _ => (.destV, .im (immBelow 128), .im (immIn 0 32))
  | .barwt _ =>
    (.z, .im (immBelow 128), { lat := true, opf := true, main := true, imm := true })
  | .gbar _ => (.z, .im fun x => immBelow 128 x && (x.extractLsb' 0 4 == 0), .z)
  | .syncwi _ => (.vn 1, .pair, .im immAny)
  | .syncwt _ _ => (.vn 1, .pair, .im immAny)
  | .launch _ => (.pair, .pair, .im immAny)
  | .spawn _ => ({ lat := true, opf := true, main := true }, .pair, .im immAny)
  | .join _ => (.z, .pair, .im immAny)
  | .ticket o =>
    (.vn 1, .im (immBelow 4),
      if o.a.immVal == 0 then .z else { lat := true, opf := true, main := true, imm := true, views := [.v, .b] })
  | .kstat _ => (.pair, .src 4 false false, .im (immBelow 3))
  | .grpdecl _ _ => (.vn 1, .pair, .vIm (immBelow 256))
  | .grpdrop _ => (.vn 1, .im (immBelow 4), .z)
  | .claim b8 _ => (if b8 then { main := true, n := 3, even := true } else .vn 2, .pair, .im (immBelow 4))
  | .object _ => (.z, .vn 1, .im (immBelow 4))
  | .clwait _ => (.vn 1, .vn 1, .im (immBelow 4))
  | .clinbox _ => (.vn 8, .im (immBelow 4), .z)
  | .live _ => (.z, .im (immBelow 65536), .z)
  | .trap _ => (.z, .im (immBelow 4096), .z)
  | .tret _ => (.z, .z, .z)
  | .ctxsave _ | .ctxload _ => (.vn 1, .pair, .im (immBelow 256))
  | .oplogrd _ => (.vn 8, .im (immBelow 9), .z)
  | .progrd _ => (.vn 1, .vIm (immBelow 32), .z)
  | .progwr _ => (.z, .vIm (immBelow 32), .vIm (immIn 0 131071))
  | .eret _ => (.z, .im (immBelow 256), .z)
  | .eretOff _ => (.z, .im fun x => (x.extractLsb' 8 10 == 1), .z)
  | .eretEnd _ => (.z, .im fun x => (x.extractLsb' 8 10 == 2), .z)
  | .pagemode _ _ => (.vn 1, .pair, .z)
  | .tlbinv all k _ =>
    (.z, if all then .z else .pair, .im (match k with
      | .s1 => immBelow 2048
      | .s2 => fun x => immBelow 2048 x && (x.extractLsb' 0 8 == 0)
      | .s3 => immBelow 16))
  | .probe k _ =>
    ({ main := true, n := 3, even := true }, .pair, .im (match k with
      | .s1 => immBelow 2048
      | .s2 => fun x => immBelow 2048 x && (x.extractLsb' 0 8 == 0)
      | .s3 => immBelow 16))
  | .bmaprd _ => (.pair, .im (immBelow 8), .im (immBelow 132))
  | .remapPage _ => (.vn 1, .pair, .pair)
  | .remapBank _ => (.vn 1, .im (immBelow 32), .vIm (immBelow 8192))
  | .chainst _ _ => (.pair, .pair, .im fun x => x.extractLsb' 8 7 == 0)
  | .fred _ _ _ => ({ FS.data 4 false with lat0 := false }, .pair, .im immAny)
  | .fredwt _ _ => (.vn 3, .pair, .im immAny)
  | .vfctlEnable _ =>
    (.vn 1, .im fun x => (x.extractLsb' 9 9 == 0) && decide ((x.extractLsb' 0 8).toNat ≤ 128), .im (immBelow 16))
  | .vfctlDrain _ | .vfctlStatus _ =>
    (.vn 1, .im fun x => (x.extractLsb' 9 9 == 0) && decide ((x.extractLsb' 0 8).toNat ≤ 128), .z)
  | _ => (.z, .z, .z)

/-- Legal orders, classes and scopes of class M words (R59 and the entries), and whether `.nt` is legal (R60). -/
structure MRule where
  ords   : List Ord
  clss   : List Cls
  nt     : Bool := false
  scopes : List Scope := [.core, .clus, .die, .stk, .seg, .pkg, .fab, .sys]

/-- The rule of a class M word; none for a word of another class. -/
def Instr.mrule : Instr → Option MRule
  | .ld _ _ _ _ _ | .ldv _ _ _ _ => some { ords := [.rlx, .acq], clss := [.none, .ld, .st, .cp], nt := true }
  | .st _ _ _ _ | .stv _ _ _ _ => some { ords := [.rlx, .rel], clss := [.none, .ld, .st, .cp], nt := true }
  | .pref _ _ _ => some { ords := [.rlx], clss := [.none], nt := true }
  | .cctl _ _ _ => some { ords := [.rlx], clss := [.none, .st] }
  | .wpset _ _ _ _ | .wpclr _ _ | .fenceSc _ _ => some { ords := [.rlx], clss := [.none] }
  | .fenceLy _ _ => some { ords := [.rlx], clss := [.none], scopes := [.stk, .seg, .pkg] }
  | .fence _ _ => some { ords := [.acq, .rel, .ar], clss := [.none] }
  | .atom _ _ _ _ | .atomv _ _ _ => some { ords := [.rlx, .acq, .rel, .ar], clss := [.none, .ld] }
  | .red _ _ _ _ => some { ords := [.rlx, .rel], clss := [.none, .st] }
  | .waitc _ _ _ _ | .syncwt _ _ => some { ords := [.rlx, .acq], clss := [.none, .ld] }
  | .accld _ _ | .waittl _ _ => some { ords := [.rlx, .acq], clss := [.none] }
  | .accst _ _ | .ttask _ _ => some { ords := [.rlx, .rel], clss := [.none] }
  | .chainst _ _ => some { ords := [.rlx, .rel], clss := [.none, .st], scopes := [.pkg, .fab, .sys] }
  | .fred _ _ _ => some { ords := [.rlx, .rel], clss := [.none, .st], scopes := [.fab] }
  | .fredwt _ _ => some { ords := [.rlx, .acq], clss := [.none, .ld], scopes := [.fab] }
  | _ => none

/-- The memory part of a class M word satisfies its rule. -/
def MRule.ok (r : MRule) (q : MemQ) : Bool :=
  r.ords.contains q.ord && r.clss.contains q.cls && r.scopes.contains q.scope && (!q.nt || r.nt)

/-- The memory part of a word, if it is of class M. -/
def Instr.memq? : Instr → Option MemQ
  | .ld _ _ _ q _ | .st _ _ q _ | .ldv _ _ q _ | .stv _ _ q _ | .pref _ q _ | .cctl _ q _ | .wpset _ _ q _
  | .wpclr q _ | .fence q _ | .fenceSc q _ | .fenceLy q _ | .atom _ _ q _ | .atomv _ q _ | .red _ _ q _
  | .waitc _ _ q _ | .accld q _ | .accst q _ | .ttask q _ | .waittl q _ | .syncwt q _ | .chainst q _
  | .fred _ q _ | .fredwt q _ => some q
  | _ => none

/-- The common part of a swarm word; none for an epilogue word, a command or an event. -/
def Instr.wd? : Instr → Option Wd
  | .iadd _ _ o | .isub _ _ o | .iaddc _ _ o | .imul _ _ o | .imulhi _ o | .imad _ _ o | .imin _ o | .imax _ o
  | .iabs _ _ o | .shl _ o | .shr _ o | .sar _ o | .rot _ o | .and _ o | .or _ o | .xor _ o | .not _ o | .lop3 _ o
  | .bfx _ o | .bfi o | .popc _ o | .clz _ o | .brev _ o | .icmp _ _ _ o | .sel _ _ o | .lea _ o | .mov _ o
  | .movi _ o | .view o | .ldix o | .stix o | .regfree o | .rdsr o | .wrsr o
  | .fadd _ _ _ _ o | .fsub _ _ _ _ o | .fmul _ _ _ _ o | .ffma _ _ _ _ o | .ffmaL _ _ _ _ o | .fmin _ o | .fmax _ o
  | .fcmp _ _ o | .frcp _ _ _ _ o | .frsq _ _ _ _ o | .fsqrt _ _ _ _ o | .fexp2 _ _ _ _ o | .flog2 _ _ _ _ o
  | .fsin _ _ _ _ o | .fcos _ _ _ _ o | .frnd _ _ o | .fcvt _ _ _ _ o | .hfma2 _ _ _ _ o | .fdot4 _ _ _ _ o
  | .fsplit3 o | .shfl _ o | .vote _ o | .matchL _ o | .redx _ o | .scanx _ o | .scanxEx _ o | .pset o | .plop _ o
  | .pmovGet o | .pmovSet o | .bra o | .brx o | .call o | .ret o | .loop o | .bmark o | .bsync o | .exit o | .yield o
  | .nop o | .ipref _ o | .ipin _ o | .iunpin _ o | .ld _ _ _ _ o | .st _ _ _ o | .ldv _ _ _ o | .stv _ _ _ o
  | .pref _ _ o | .cctl _ _ o | .wpset _ _ _ o | .wpclr _ o | .fence _ o | .fenceSc _ o | .fenceLy _ o | .atom _ _ _ o
  | .atomv _ _ o | .red _ _ _ o | .waitc _ _ _ o | .mmaz _ _ o | .mma _ _ o | .wbld _ o | .accld _ o | .accst _ o
  | .accdr _ _ o | .epil o | .ttask _ o | .cpy o | .cpy2d o | .gath _ o | .scat _ o | .bread o | .chapp o
  | .waittl _ o | .rdtl o | .waitcnt _ o | .ctxtlOpen o | .ctxtlClose o | .ctxtlReset o | .bar o | .bararv o | .barwt o
  | .gbar o | .syncwi o | .syncwt _ o | .launch o | .spawn o | .join o | .ticket o | .kstat o | .grpdecl _ o
  | .grpdrop o | .claim _ o | .object o | .clwait o | .clinbox o | .live o | .trap o | .tret o | .ctxsave o
  | .ctxload o | .oplogrd o | .progrd o | .progwr o | .eret o | .eretOff o | .eretEnd o | .pagemode _ o
  | .tlbinv _ _ o | .probe _ o | .bmaprd o | .remapPage o | .remapBank o | .chainst _ o | .fred _ _ o | .fredwt _ o
  | .vfctlEnable o | .vfctlDrain o | .vfctlStatus o => some o
  | _ => none

/-- The rules of an entry that bind two fields together: the row ranges of REDX and SCANX (R116), the signs of loads (R149)
the space restrictions of stores (R63) and the rounding bits of FCVT's slot form (R108). -/
def Instr.extraOk : Instr → Bool
  | .fcvt fromSlot r _ _ _ => !fromSlot || r == .rne
  | .redx _ o =>
    match o.d, o.a with
    | .main .v d _, .main .v a _ =>
      redCount o.b ≤ 1 || !(a.toNat ≤ d.toNat && d.toNat < a.toNat + redCount o.b)
    | _, _ => true
  | .scanx _ o | .scanxEx _ o =>
    match o.d, o.a with
    | .main .v d _, .main .v a _ =>
      redCount o.b ≤ 1 || d.toNat + redCount o.b ≤ a.toNat || a.toNat + redCount o.b ≤ d.toNat
    | _, _ => true
  | .ld z _ sx _ _ => !sx || z == .s8 || z == .s16
  | .st _ sp _ _ | .stv _ sp _ _ => sp != .c
  | .wpset r w _ _ => r || w
  | .atomv ao _ _ => ao != .exch && ao != .cas
  | .atom .g64 ao _ _ => ao != .addF32 && ao != .addBf16x2
  | .red .g64 ao _ _ => ao != .exch && ao != .cas && ao != .addF32 && ao != .addBf16x2
  | .red _ ao _ _ => ao != .exch && ao != .cas
  | _ => true

/-- The words whose entry gives HINT 0: no stall, yield or keep hint either (R323, R332, R336, R352, R381). -/
def Instr.hint0 : Instr → Bool
  | .live _ | .ctxsave _ | .ctxload _ | .trap _ | .tret _ | .oplogrd _ | .progrd _ | .progwr _ | .eret _ | .eretOff _
  | .eretEnd _ | .pagemode _ _ | .tlbinv _ _ _ | .probe _ _ | .bmaprd _ | .remapPage _ | .remapBank _
  | .vfctlEnable _ | .vfctlDrain _ | .vfctlStatus _ => true
  | _ => false

/-- The field that check 4 of R64 finds forbidden: 0 D, 1 A, 2 B, 3 none of them; `none` when the word is legal.
Fields are examined in the order D, A, B, then the bits outside them. -/
def Instr.badField (i : Instr) : Option Nat :=
  match i.wd? with
  | none => none
  | some o =>
    let f := i.fields
    if !f.1.okD o.dlev o.d then some 0
    else if !f.2.1.okSrc o.a then some 1
    else if !f.2.2.okSrc o.b then some 2
    else if !f.1.okLev o.dlev o.d then some 3
    else if !(match i.mrule, i.memq? with
      | some r, some q => r.ok q
      | _, _ => true) then some 3
    else if !i.extraOk then some 3
    else if i.hint0 && !(o.stall == 0 && !o.yld && o.keep == 0) then some 3
    else none

/-- A destination and its sources are of one kind: an s destination takes only s sources (R252). -/
def EReg.isY : EReg → Bool
  | .y _ => true
  | .s _ => false

/-- Legality of an epilogue word (R252, R259): a scalar destination is given scalar sources only. -/
def Instr.epiOk : Instr → Bool
  | .eMov d a | .eRelu d a | .eGelu d a => d.isY || !a.isY
  | .eAdd d a b | .eSub d a b | .eMul d a b | .eMin d a b | .eMax d a b => d.isY || (!a.isY && !b.isY)
  | .eFma d a b c | .eClamp d a b c => d.isY || (!a.isY && !b.isY && !c.isY)
  | _ => true

/-- A well-formed instruction. -/
def Instr.wf (i : Instr) : Bool := i.badField.isNone && i.epiOk && match i with
  | .movi _ o => o.a == Opnd.zero && o.b == Opnd.zero
  | _ => true

/-- The instruction is an event of the part, not a word that is fetched nor a command. -/
def Instr.isEvent : Instr → Bool
  | .accessCompletion .. | .monitorFire .. | .monitorParkTimeout .. | .pulseTick .. | .mmaKStep .. | .tileTaskStart ..
  | .tileTaskEnd .. | .epilogueRow | .engineWalkEntry .. | .operationEnd .. | .burstArrival .. | .gatherWindowClose ..
  | .foragerStart .. | .finalHandlerStart .. | .syncArrival .. | .gridDispatch .. | .launchQueueAge .. | .ticketDraw ..
  | .teamStart .. | .gangPlace .. | .gridRetire .. | .continuationDecrement .. | .continuationStart ..
  | .claimProposalArrival .. | .objectionArrival .. | .claimDecision .. | .impreciseTrapDelivery .. | .preemptPointStop ..
  | .preemptOverdue .. | .parkedWake .. | .contextLoad .. | .faultedRetire .. | .registerSpill .. | .tableWalk ..
  | .foldLineMove .. | .assayBeat .. | .demandHold .. | .bankSleep .. | .wakeSlot .. | .getM .. | .getS .. | .inv ..
  | .ack .. | .fwd .. | .data .. | .invDrain .. | .directoryError .. | .dieFailure .. | .inboundWrite .. | .inboundRead ..
  | .inboundAtomicop .. | .pieceAck .. | .functionLevelReset .. | .drainTimeout .. | .hostCompletion ..
  | .completionTimeout .. | .biSnp .. | .biSnpAnswer .. | .cxlCacheSnoop .. | .fabricRequest .. | .remoteReply ..
  | .remoteTimeout .. | .snp .. | .flitCrcFail .. | .flitAcknowledge .. | .pulseCorrection .. | .fredAnswer ..
  | .configurationWrite .. | .unitFailure .. | .unitReady .. | .powerOn | .conventionalReset | .go | .abort
  | .recoveryReadCompletion .. | .recoveryVerifyDone | .flashWriteDone .. | .registerWrite .. => true
  | _ => false

end Sys2Proof
end

