-- ==== Sys2Proof/Decode.lean ====
section
/-!
DEFINITION. The decoder and the encoder. A 96-bit word is cut into the fields of R48 (`Raw`), the opcode map of R62
names the instruction, and checks 2 to 4 of R64 reject every other pattern with its cause and field. A 32-bit epilogue
word follows R249, R252 and R259.
-/
namespace Sys2Proof

/-- The fields of a 96-bit word (R48). -/
structure Raw where
  opc  : BitVec 8
  ext  : BitVec 4
  inv  : Bool
  pred : BitVec 3
  d    : BitVec 20
  a    : BitVec 20
  b    : BitVec 20
  hint : BitVec 16
  nib  : BitVec 4
deriving DecidableEq, Repr

/-- The answer of the decoder: an instruction, or a cause of R64 with the number of the field concerned (3 for none). -/
inductive DecRes where
  | ok (i : Instr)
  | bad (cause : Nat) (field : Nat)
deriving DecidableEq, Repr

/-- R48: the fields of a word. -/
def Raw.ofBits (w : BitVec 96) : Raw where
  opc  := w.extractLsb' 88 8
  ext  := w.extractLsb' 84 4
  inv  := w.getLsbD 83
  pred := w.extractLsb' 80 3
  d    := w.extractLsb' 60 20
  a    := w.extractLsb' 40 20
  b    := w.extractLsb' 20 20
  hint := w.extractLsb' 4 16
  nib  := w.extractLsb' 0 4

/-- R48: the word of some fields. -/
def Raw.toBits (r : Raw) : BitVec 96 :=
  r.opc ++ (r.ext ++ (BitVec.ofBool r.inv ++ (r.pred ++ (r.d ++ (r.a ++ (r.b ++ (r.hint ++ r.nib)))))))

/-- R51: an operand field; `none` for an illegal latch or operand-file field. -/
def decodeOpnd (x : BitVec 20) : Option Opnd :=
  let idx := x.extractLsb' 4 12
  let m := x.extractLsb' 0 4
  if x.extractLsb' 18 2 = 0 then
    if x.extractLsb' 16 2 = 0 ∧ idx.extractLsb' 1 11 = 0 then some (.lat (idx.extractLsb' 0 1) m) else none
  else if x.extractLsb' 18 2 = 1 then
    if x.extractLsb' 16 2 = 0 ∧ idx.extractLsb' 3 9 = 0 then some (.opf (idx.extractLsb' 0 3) m) else none
  else if x.extractLsb' 18 2 = 2 then
    some (.main (if x.extractLsb' 16 2 = 0 then .v else if x.extractLsb' 16 2 = 1 then .t
      else if x.extractLsb' 16 2 = 2 then .a else .b) idx m)
  else some (.imm (x.extractLsb' 0 18))

def View.code : View → BitVec 2
  | .v => 0
  | .t => 1
  | .a => 2
  | .b => 3

/-- R51: the bits of an operand field. -/
def encodeOpnd : Opnd → BitVec 20
  | .lat i m => 0#4 ++ (0#11 ++ (i ++ m))
  | .opf i m => 4#4 ++ (0#9 ++ (i ++ m))
  | .main w i m => 2#2 ++ (w.code ++ (i ++ m))
  | .imm x => 3#2 ++ x

/-! ### The shared extension codes of R61 -/

def IntTy.code : IntTy → BitVec 4
  | .s32 => 0
  | .n32 => 1
  | .s64 => 2
  | .n64 => 3
def IntTy.ofCode (x : BitVec 4) : Option IntTy :=
  if x = 0 then some .s32 else if x = 1 then some .n32 else if x = 2 then some .s64
  else if x = 3 then some .n64 else none
def Rnd.code : Rnd → BitVec 2
  | .rne => 0
  | .rz => 1
  | .rd => 2
  | .ru => 3
def Rnd.ofCode (x : BitVec 2) : Rnd :=
  if x = 0 then .rne else if x = 1 then .rz else if x = 2 then .rd else .ru
def FTy.code : FTy → BitVec 2
  | .f32 => 0
  | .f16 => 1
  | .bf16 => 2
def FTy.ofCode (x : BitVec 2) : Option FTy :=
  if x = 0 then some .f32 else if x = 1 then some .f16 else if x = 2 then some .bf16 else none
def ICond.code : ICond → BitVec 3
  | .eq => 0
  | .ne => 1
  | .lt => 2
  | .le => 3
  | .gt => 4
  | .ge => 5
def ICond.ofCode (x : BitVec 3) : Option ICond :=
  if x = 0 then some .eq else if x = 1 then some .ne else if x = 2 then some .lt else if x = 3 then some .le
  else if x = 4 then some .gt else if x = 5 then some .ge else none
def FCond.code : FCond → BitVec 3
  | .eq => 0
  | .ne => 1
  | .lt => 2
  | .le => 3
  | .gt => 4
  | .ge => 5
  | .un => 6
  | .num => 7
def FCond.ofCode (x : BitVec 3) : FCond :=
  if x = 0 then .eq else if x = 1 then .ne else if x = 2 then .lt else if x = 3 then .le
  else if x = 4 then .gt else if x = 5 then .ge else if x = 6 then .un else .num
def AO.code : AO → BitVec 4
  | .add => 0
  | .minS => 1
  | .minN => 2
  | .maxS => 3
  | .maxN => 4
  | .and => 5
  | .or => 6
  | .xor => 7
  | .exch => 8
  | .cas => 9
  | .addF32 => 10
  | .addBf16x2 => 11
def AO.ofCode (x : BitVec 4) : Option AO :=
  if x = 0 then some .add else if x = 1 then some .minS else if x = 2 then some .minN else if x = 3 then some .maxS
  else if x = 4 then some .maxN else if x = 5 then some .and else if x = 6 then some .or else if x = 7 then some .xor
  else if x = 8 then some .exch else if x = 9 then some .cas else if x = 10 then some .addF32
  else if x = 11 then some .addBf16x2 else none
def Space.code : Space → BitVec 2
  | .g => 0
  | .s => 1
  | .c => 2
  | .l3 => 3
def Space.ofCode (x : BitVec 2) : Space :=
  if x = 0 then .g else if x = 1 then .s else if x = 2 then .c else .l3
def RedOp.code : RedOp → BitVec 4
  | .addS => 0
  | .addN => 1
  | .addF => 2
  | .minS => 3
  | .minN => 4
  | .minF => 5
  | .maxS => 6
  | .maxN => 7
  | .maxF => 8
  | .and => 9
  | .or => 10
  | .xor => 11
def RedOp.ofCode (x : BitVec 4) : Option RedOp :=
  if x = 0 then some .addS else if x = 1 then some .addN else if x = 2 then some .addF else if x = 3 then some .minS
  else if x = 4 then some .minN else if x = 5 then some .minF else if x = 6 then some .maxS
  else if x = 7 then some .maxN else if x = 8 then some .maxF else if x = 9 then some .and
  else if x = 10 then some .or else if x = 11 then some .xor else none
def ShflMode.code : ShflMode → BitVec 4
  | .at => 0
  | .back => 1
  | .fwd => 2
  | .mix => 3
  | .rot => 4
def ShflMode.ofCode (x : BitVec 4) : Option ShflMode :=
  if x = 0 then some .at else if x = 1 then some .back else if x = 2 then some .fwd else if x = 3 then some .mix
  else if x = 4 then some .rot else none
def VoteOp.code (v : VoteOp) : BitVec 4 :=
  match v with
  | VoteOp.every => 0
  | VoteOp.some => 1
  | .alike => 2
  | .mask => 3
  | .count => 4
def VoteOp.ofCode (x : BitVec 4) : Option VoteOp :=
  if x = 0 then Option.some .every else if x = 1 then Option.some .some else if x = 2 then Option.some .alike
  else if x = 3 then Option.some .mask else if x = 4 then Option.some .count else Option.none
/-- A code of three values: 0 to 2 (IPREF, CCTL, PAGEMODE, the element sizes and the A types of MMA). -/
def pick3 {α : Type} (x : BitVec 4) (p q r : α) : Option α :=
  if x = 0 then some p else if x = 1 then some q else if x = 2 then some r else none
def Lvl3.code : Lvl3 → BitVec 4
  | .l1 => 0
  | .l2 => 1
  | .l3 => 2
def CctlOp.code : CctlOp → BitVec 4
  | .inv => 0
  | .wb => 1
  | .wbinv => 2
def ESz.code : ESz → BitVec 4
  | .b4 => 0
  | .b8 => 1
  | .b16 => 2
def CohMode.code : CohMode → BitVec 4
  | .coh => 0
  | .swc => 1
  | .prv => 2
def AType.code : AType → BitVec 2
  | .bf16 => 0
  | .e4m3 => 1
  | .e5m2 => 2
def Cnt.code : Cnt → BitVec 4
  | .ld => 0
  | .st => 1
  | .cp => 2
  | .tile => 3
def Stage.code : Stage → BitVec 2
  | .s1 => 1
  | .s2 => 2
  | .s3 => 3
def Stage.ofCode (x : BitVec 2) : Option Stage :=
  if x = 1 then some .s1 else if x = 2 then some .s2 else if x = 3 then some .s3 else none
def FredOp.code : FredOp → BitVec 4
  | .add => 0
  | .max => 1
  | .amax => 2
  | .min => 3
def VecN.code : VecN → BitVec 2
  | .x2 => 1
  | .x4 => 2
  | .x8 => 3
def VecN.ofCode (x : BitVec 2) : Option VecN :=
  if x = 1 then some .x2 else if x = 2 then some .x4 else if x = 3 then some .x8 else none
def Cls.code : Cls → BitVec 2
  | .none => 0
  | .ld => 1
  | .st => 2
  | .cp => 3
def Cls.ofCode (x : BitVec 2) : Cls :=
  if x = 0 then .none else if x = 1 then .ld else if x = 2 then .st else .cp
def Ord.code : Ord → BitVec 2
  | .rlx => 0
  | .acq => 1
  | .rel => 2
  | .ar => 3
def Ord.ofCode (x : BitVec 2) : Ord :=
  if x = 0 then .rlx else if x = 1 then .acq else if x = 2 then .rel else .ar
def Scope.code : Scope → BitVec 3
  | .core => 0
  | .clus => 1
  | .die => 2
  | .stk => 3
  | .seg => 4
  | .pkg => 5
  | .fab => 6
  | .sys => 7
def Scope.ofCode (x : BitVec 3) : Scope :=
  if x = 0 then .core else if x = 1 then .clus else if x = 2 then .die else if x = 3 then .stk
  else if x = 4 then .seg else if x = 5 then .pkg else if x = 6 then .fab else .sys

/-- The memory part of a word (R57, R60). -/
def MemQ.ofRaw (r : Raw) : MemQ where
  cls   := .ofCode (r.hint.extractLsb' 4 2)
  ord   := .ofCode (r.hint.extractLsb' 2 2)
  scope := .ofCode (r.nib.extractLsb' 1 3)
  nt    := r.nib.getLsbD 0

/-- The common part of a word, with fields of illegal level read as the empty field. -/
def Wd.ofRaw (r : Raw) : Wd where
  inv   := r.inv
  pred  := r.pred
  d     := (decodeOpnd r.d).getD .zero
  a     := (decodeOpnd r.a).getD .zero
  b     := (decodeOpnd r.b).getD .zero
  stall := r.hint.extractLsb' 12 4
  yld   := r.hint.getLsbD 11
  keep  := r.hint.extractLsb' 8 3
  dlev  := r.hint.extractLsb' 6 2

/-- MOVI: the constant in fields A and B (R101). -/
def moviConst (r : Raw) : BitVec 32 := r.a.extractLsb' 4 16 ++ r.b.extractLsb' 4 16

/-- The opcode map (R62): `none` when OPC is unassigned, `some none` when EXT is unassigned for it. -/
def pickInstr (r : Raw) : Option (Option Instr) :=
  let o := Wd.ofRaw r
  let q := MemQ.ofRaw r
  let e := r.ext
  let hi := e.extractLsb' 2 2
  let lo := e.extractLsb' 0 2
  let sat := r.nib.getLsbD 0
  let slot := r.nib.extractLsb' 1 3
  let int (f : IntTy → Instr) : Option (Option Instr) := some ((IntTy.ofCode e).map f)
  let fr (f : Rnd → FTy → Instr) : Option (Option Instr) := some ((FTy.ofCode lo).map (f (.ofCode hi)))
  let on0 (i : Instr) : Option (Option Instr) := some (if e = 0 then some i else none)
  let wid (f : Bool → Instr) : Option (Option Instr) :=
    some (if e = 0 then some (f false) else if e = 1 then some (f true) else none)
  let sp0 (f : Space → Instr) : Option (Option Instr) := some (if lo = 0 then some (f (.ofCode hi)) else none)
  let ao (p : AO → Bool) (f : AO → Instr) : Option (Option Instr) :=
    some (match AO.ofCode e with
      | some x => if p x then some (f x) else none
      | none => none)
  let redAO : AO → Bool := fun x => x != .exch && x != .cas
  let at3 (f : AType → Bool → Instr) : Option (Option Instr) :=
    some (if e.getLsbD 3 then none else (pick3 (0#2 ++ e.extractLsb' 1 2) AType.bf16 .e4m3 .e5m2).map fun t =>
      f t (e.getLsbD 0))
  let stg (f : Stage → Instr) : Option Instr := (Stage.ofCode lo).map f
  let icc (f : ICond → Bool → Instr) : Option (Option Instr) :=
    some ((ICond.ofCode (e.extractLsb' 1 3)).map fun c => f c (e.getLsbD 0))
  match r.opc with
  | 0x00#8 => int (.iadd · sat o)
  | 0x01#8 => int (.isub · sat o)
  | 0x02#8 => int (.iaddc · sat o)
  | 0x03#8 => int (.imul · sat o)
  | 0x04#8 => int (.imulhi · o)
  | 0x05#8 => int (.imad · sat o)
  | 0x06#8 => int (.imin · o)
  | 0x07#8 => int (.imax · o)
  | 0x08#8 => some (if e = 0 then some (.iabs false sat o) else if e = 2 then some (.iabs true sat o) else none)
  | 0x09#8 => some (if e.getLsbD 1 then none else
      let w := e.getLsbD 0
      some (if hi = 0 then .shl w o else if hi = 1 then .shr w o else if hi = 2 then .sar w o else .rot w o))
  | 0x0A#8 => some (if e.getLsbD 1 then none else
      let w := e.getLsbD 0
      some (if hi = 0 then .and w o else if hi = 1 then .or w o else if hi = 2 then .xor w o else .not w o))
  | 0x0B#8 => some (some (.lop3 (e ++ r.nib) o))
  | 0x0C#8 => wid (.bfx · o)
  | 0x0D#8 => on0 (.bfi o)
  | 0x0E#8 => some (if e = 0 then some (.popc false o) else if e = 1 then some (.clz false o)
      else if e = 2 then some (.brev false o) else if e = 4 then some (.popc true o)
      else if e = 5 then some (.clz true o) else if e = 6 then some (.brev true o) else none)
  | 0x0F#8 => icc (.icmp false · · o)
  | 0x10#8 => icc (.icmp true · · o)
  | 0x11#8 => some (some (.sel (e.getLsbD 3) (e.extractLsb' 0 3) o))
  | 0x12#8 => some (some (.lea e o))
  | 0x13#8 => wid (.mov · o)
  | 0x14#8 => on0 (.movi (moviConst r) { o with a := .zero, b := .zero })
  | 0x15#8 => on0 (.view o)
  | 0x16#8 => on0 (.ldix o)
  | 0x17#8 => on0 (.stix o)
  | 0x18#8 => on0 (.regfree o)
  | 0x19#8 => on0 (.rdsr o)
  | 0x1A#8 => on0 (.wrsr o)
  | 0x20#8 => fr (.fadd · · slot sat o)
  | 0x21#8 => fr (.fsub · · slot sat o)
  | 0x22#8 => fr (.fmul · · slot sat o)
  | 0x23#8 => fr (.ffma · · slot sat o)
  | 0x24#8 => fr (.ffmaL · · slot sat o)
  | 0x25#8 => some (if hi = 0 then (FTy.ofCode lo).map (.fmin · o) else none)
  | 0x26#8 => some (if hi = 0 then (FTy.ofCode lo).map (.fmax · o) else none)
  | 0x27#8 => some (if e.getLsbD 0 then none else some (.fcmp .f32 (.ofCode (e.extractLsb' 1 3)) o))
  | 0x28#8 => some (some (.fcmp (if e.getLsbD 0 then .bf16 else .f16) (.ofCode (e.extractLsb' 1 3)) o))
  | 0x29#8 => fr (.frcp · · slot sat o)
  | 0x2A#8 => fr (.frsq · · slot sat o)
  | 0x2B#8 => fr (.fsqrt · · slot sat o)
  | 0x2C#8 => fr (.fexp2 · · slot sat o)
  | 0x2D#8 => fr (.flog2 · · slot sat o)
  | 0x2E#8 => fr (.fsin · · slot sat o)
  | 0x2F#8 => fr (.fcos · · slot sat o)
  | 0x30#8 => fr (.frnd · · o)
  | 0x31#8 => some (if e.getLsbD 1 then none else some (.fcvt (e.getLsbD 0) (.ofCode hi) slot sat o))
  | 0x32#8 => some (some (.hfma2 (.ofCode hi) lo slot sat o))
  | 0x33#8 => some (if e.getLsbD 1 then none else some (.fdot4 (.ofCode hi) (e.getLsbD 0) slot sat o))
  | 0x34#8 => on0 (.fsplit3 o)
  | 0x40#8 => some ((ShflMode.ofCode e).map (.shfl · o))
  | 0x41#8 => some ((VoteOp.ofCode e).map (.vote · o))
  | 0x42#8 => wid (.matchL · o)
  | 0x43#8 => some ((RedOp.ofCode e).map (.redx · o))
  | 0x44#8 => some ((RedOp.ofCode e).map (.scanx · o))
  | 0x45#8 => some ((RedOp.ofCode e).map (.scanxEx · o))
  | 0x46#8 => on0 (.pset o)
  | 0x47#8 => some (some (.plop (e ++ r.nib) o))
  | 0x48#8 => some (if e = 0 then some (.pmovGet o) else if e = 1 then some (.pmovSet o) else none)
  | 0x50#8 => on0 (.bra o)
  | 0x51#8 => on0 (.brx o)
  | 0x52#8 => on0 (.call o)
  | 0x53#8 => on0 (.ret o)
  | 0x54#8 => on0 (.loop o)
  | 0x55#8 => on0 (.bmark o)
  | 0x56#8 => on0 (.bsync o)
  | 0x57#8 => on0 (.exit o)
  | 0x58#8 => on0 (.yield o)
  | 0x59#8 => on0 (.nop o)
  | 0x5A#8 => some ((pick3 e Lvl3.l1 .l2 .l3).map (.ipref · o))
  | 0x5B#8 => some ((pick3 e Lvl3.l1 .l2 .l3).map (.ipin · o))
  | 0x5C#8 => some ((pick3 e Lvl3.l1 .l2 .l3).map (.iunpin · o))
  | 0x60#8 => some (if e.getLsbD 0 then none else some (.ld .s8 (.ofCode hi) (e.getLsbD 1) q o))
  | 0x61#8 => some (if e.getLsbD 0 then none else some (.ld .s16 (.ofCode hi) (e.getLsbD 1) q o))
  | 0x62#8 => sp0 (.ld .s32 · false q o)
  | 0x63#8 => sp0 (.ld .s64 · false q o)
  | 0x64#8 => sp0 (.st .s8 · q o)
  | 0x65#8 => sp0 (.st .s16 · q o)
  | 0x66#8 => sp0 (.st .s32 · q o)
  | 0x67#8 => sp0 (.st .s64 · q o)
  | 0x68#8 => some ((VecN.ofCode lo).map (.ldv · (.ofCode hi) q o))
  | 0x69#8 => some ((VecN.ofCode lo).map (.stv · (.ofCode hi) q o))
  | 0x6A#8 => some ((pick3 e Lvl3.l1 .l2 .l3).map (.pref · q o))
  | 0x6B#8 => some ((pick3 e CctlOp.inv .wb .wbinv).map (.cctl · q o))
  | 0x6C#8 => some (if hi = 0 ∧ lo ≠ 0 then some (.wpset (e.getLsbD 0) (e.getLsbD 1) q o) else none)
  | 0x6D#8 => on0 (.wpclr q o)
  | 0x6E#8 => on0 (.fence q o)
  | 0x6F#8 => on0 (.fenceSc q o)
  | 0x70#8 => on0 (.fenceLy q o)
  | 0x71#8 => ao (fun _ => true) (.atom .g32 · q o)
  | 0x72#8 => ao (fun x => x != .addF32 && x != .addBf16x2) (.atom .g64 · q o)
  | 0x73#8 => ao (fun _ => true) (.atom .s32 · q o)
  | 0x74#8 => ao redAO (.atomv · q o)
  | 0x75#8 => ao redAO (.red .g32 · q o)
  | 0x76#8 => ao (fun x => redAO x && x != .addF32 && x != .addBf16x2) (.red .g64 · q o)
  | 0x77#8 => ao redAO (.red .s32 · q o)
  | 0x78#8 => icc (.waitc · · q o)
  | 0x80#8 => at3 (.mmaz · · o)
  | 0x81#8 => at3 (.mma · · o)
  | 0x82#8 => on0 (.wbld slot o)
  | 0x83#8 => on0 (.accld q o)
  | 0x84#8 => on0 (.accst q o)
  | 0x85#8 => on0 (.accdr slot sat o)
  | 0x86#8 => on0 (.epil o)
  | 0x87#8 => on0 (.ttask q o)
  | 0x90#8 => on0 (.cpy o)
  | 0x91#8 => on0 (.cpy2d o)
  | 0x92#8 => some ((pick3 e ESz.b4 .b8 .b16).map (.gath · o))
  | 0x93#8 => some ((pick3 e ESz.b4 .b8 .b16).map (.scat · o))
  | 0x94#8 => on0 (.bread o)
  | 0x95#8 => on0 (.chapp o)
  | 0x96#8 => on0 (.waittl q o)
  | 0x97#8 => on0 (.rdtl o)
  | 0x98#8 => some (if e = 3 then some (.waitcnt .tile o) else (pick3 e Cnt.ld .st .cp).map (.waitcnt · o))
  | 0x99#8 => some (pick3 e (.ctxtlOpen o) (.ctxtlClose o) (.ctxtlReset o))
  | 0xA0#8 => on0 (.bar o)
  | 0xA1#8 => on0 (.bararv o)
  | 0xA2#8 => on0 (.barwt o)
  | 0xA3#8 => on0 (.gbar o)
  | 0xA4#8 => on0 (.syncwi o)
  | 0xA5#8 => on0 (.syncwt q o)
  | 0xA6#8 => on0 (.launch o)
  | 0xA7#8 => on0 (.spawn o)
  | 0xA8#8 => on0 (.join o)
  | 0xA9#8 => on0 (.ticket o)
  | 0xAA#8 => wid (.grpdecl · o)
  | 0xAB#8 => on0 (.grpdrop o)
  | 0xAC#8 => wid (.claim · o)
  | 0xAD#8 => on0 (.object o)
  | 0xAE#8 => on0 (.clwait o)
  | 0xAF#8 => on0 (.clinbox o)
  | 0xB0#8 => on0 (.live o)
  | 0xB1#8 => on0 (.trap o)
  | 0xB2#8 => on0 (.tret o)
  | 0xB3#8 => on0 (.ctxsave o)
  | 0xB4#8 => on0 (.ctxload o)
  | 0xB5#8 => on0 (.oplogrd o)
  | 0xB6#8 => on0 (.progrd o)
  | 0xB7#8 => on0 (.progwr o)
  | 0xB8#8 => on0 (match o.a with
      | .imm x => if x.extractLsb' 8 10 = 1 then .eretOff o else if x.extractLsb' 8 10 = 2 then .eretEnd o else .eret o
      | _ => .eret o)
  | 0xB9#8 => on0 (.kstat o)
  | 0xC0#8 => some ((pick3 e CohMode.coh .swc .prv).map (.pagemode · o))
  | 0xC1#8 => some (if e.getLsbD 3 then none else stg (.tlbinv (e.getLsbD 2) · o))
  | 0xC2#8 => some (if hi = 0 then stg (.probe · o) else none)
  | 0xC3#8 => on0 (.bmaprd o)
  | 0xC4#8 => on0 (match o.a with
      | .imm _ => .remapBank o
      | _ => .remapPage o)
  | 0xC5#8 => on0 (.chainst q o)
  | 0xC6#8 => some (if e = 3 then some (.fred .min q o) else (pick3 e FredOp.add .max .amax).map (.fred · q o))
  | 0xC7#8 => on0 (.fredwt q o)
  | 0xC8#8 => some (pick3 e (.vfctlEnable o) (.vfctlDrain o) (.vfctlStatus o))
  | _ => none

/-- The nibble classes of R60: M words are checked by their rule, S words use every bit, T words are a table. -/
def nibZero : Instr → BitVec 4
  | .iadd .. | .isub .. | .iaddc .. | .imul .. | .imad .. | .iabs .. => 0xE
  | .lop3 .. | .plop .. => 0
  | .fadd .. | .fsub .. | .fmul .. | .ffma .. | .ffmaL .. | .frcp .. | .frsq .. | .fsqrt .. | .fexp2 .. | .flog2 ..
  | .fsin .. | .fcos .. | .fcvt .. | .hfma2 .. | .fdot4 .. | .accdr .. => 0
  | .wbld .. => 1
  | i => if i.mrule.isSome then 0 else 0xF

/-- The bits of a word outside its fields that must be 0 (R56, R59, R60): HINT [5:4], counter class and order of a
word that is not of class M, and the unused bits of NIB. The stall, yield and keep bits may be set in any word
(assumption 114). -/
def restOk (r : Raw) (i : Instr) : Bool :=
  r.hint.extractLsb' 0 2 == 0 && (i.mrule.isSome || r.hint.extractLsb' 2 4 == 0) && (r.nib &&& nibZero i == 0)

/-- Fields A and B of MOVI are data, not operand fields (R101). -/
def Instr.isMovi : Instr → Bool
  | .movi _ _ => true
  | _ => false

/-- A source field that is not one of R51; for MOVI, whose fields A and B are data (R101), the four bits of the field
that are not part of the constant. -/
def srcBad (i : Instr) (x : BitVec 20) : Bool :=
  if i.isMovi then x.extractLsb' 0 4 != 0 else (decodeOpnd x).isNone

/-- Check 4 of R64 over the fields in the order D, A, B and then the rest. -/
def check4 (r : Raw) (i : Instr) : Option Nat :=
  let bf := i.badField
  if (decodeOpnd r.d).isNone || bf == some 0 then some 0
  else if srcBad i r.a || bf == some 1 then some 1
  else if srcBad i r.b || bf == some 2 then some 2
  else if bf.isSome || !restOk r i then some 3
  else none

/-- Checks 2, 3 and 4 of R64. -/
def decodeRaw (r : Raw) : DecRes :=
  match pickInstr r with
  | none => .bad 1 3
  | some none => .bad 2 3
  | some (some i) =>
    match check4 r i with
    | some f => .bad 3 f
    | none => .ok i

/-- The instruction a 96-bit word stands for, or the failed check. -/
def decodeWord (w : BitVec 96) : DecRes := decodeRaw (Raw.ofBits w)

/-! ### Epilogue words (R249, R252, R259) -/

/-- The kind of a register code: y0 to y7 or s0 to s7 (R249). -/
def EReg.ofCode (x : BitVec 4) : EReg := if x.getLsbD 3 then .s (x.extractLsb' 0 3) else .y (x.extractLsb' 0 3)
def EReg.code : EReg → BitVec 4
  | .y i => 0#1 ++ i
  | .s i => 1#1 ++ i

/-- The epilogue word that 32 bits stand for; `none` where R259 calls it illegal. -/
def decodeEpi (w : BitVec 32) : Option Instr :=
  let dc := w.extractLsb' 22 4
  let ac := w.extractLsb' 18 4
  let d := EReg.ofCode dc
  let a := EReg.ofCode ac
  let b := EReg.ofCode (w.extractLsb' 14 4)
  let c := EReg.ofCode (w.extractLsb' 10 4)
  let dn := dc.extractLsb' 0 3
  let an := ac.extractLsb' 0 3
  let p := ac.extractLsb' 1 2
  let k := w.extractLsb' 0 16
  let mode := w.extractLsb' 16 2
  let dY := !dc.getLsbD 3
  let aY := !ac.getLsbD 3
  let aP := ac.getLsbD 3 && !ac.getLsbD 0
  let z (n : Nat) : Bool := w.extractLsb' 0 n == 0#n
  let ok (g : Bool) (i : Instr) : Option Instr := if g && i.epiOk then some i else none
  match w.extractLsb' 26 6 with
  | 0x00#6 => ok (z 26) .eNop
  | 0x01#6 => ok (z 18) (.eMov d a)
  | 0x02#6 => ok (!dY && ac == 0 && mode == 0) (.eMovl dn k)
  | 0x03#6 => ok (!dY && ac == 0 && mode == 0) (.eMovh dn k)
  | 0x04#6 => ok (z 14) (.eAdd d a b)
  | 0x05#6 => ok (z 14) (.eSub d a b)
  | 0x06#6 => ok (z 14) (.eMul d a b)
  | 0x07#6 => ok (z 10) (.eFma d a b c)
  | 0x08#6 => ok (z 14) (.eMin d a b)
  | 0x09#6 => ok (z 14) (.eMax d a b)
  | 0x0A#6 => ok (z 18) (.eRelu d a)
  | 0x0B#6 => ok (z 18) (.eGelu d a)
  | 0x0C#6 => ok (z 10) (.eClamp d a b c)
  | 0x0D#6 =>
    if w.extractLsb' 0 18 == 0 then ok (!dY && aY) (.eAbsmaxRow dn an)
    else if w.extractLsb' 0 18 == 0x100 then ok (dY && aY) (.eAbsmaxBlk dn an)
    else none
  | 0x0E#6 => ok (z 18 && !dY && aY) (.eSum dn an)
  | 0x0F#6 => ok (z 22) (.eIdx d)
  | 0x10#6 => ok (z 18 && dc == 0 && aY) (.eBscale an)
  | 0x11#6 => ok (z 18 && dY && aY) (.eQ8 dn an)
  | 0x12#6 => ok (z 18 && dY && aY) (.eCvt dn an)
  | 0x13#6 =>
    if mode == 0 then ok (dY && aP) (.eLdbColF32 dn p k)
    else if mode == 1 then ok (dY && aP) (.eLdbColBf16 dn p k)
    else if mode == 2 then ok (!dY && aP) (.eLdbRowF32 dn p k)
    else none
  | 0x14#6 => ok (dc == 0 && aY && mode == 0) (.eSt an k)
  | 0x15#6 => ok (dc == 0 && aP && z 18) (.eSts p)
  | 0x16#6 => ok (z 26) .eNext
  | 0x17#6 => ok (z 26) .eStop
  | _ => none

/-- R-form and I-form words (R249). -/
def epiR (op : BitVec 6) (d a b c : BitVec 4) (rest : BitVec 10) : BitVec 32 :=
  op ++ (d ++ (a ++ (b ++ (c ++ rest))))
def epiI (op : BitVec 6) (d a : BitVec 4) (mode : BitVec 2) (k : BitVec 16) : BitVec 32 :=
  op ++ (d ++ (a ++ (mode ++ k)))

/-- The 32-bit word of an epilogue instruction (R252). -/
def encodeEpi : Instr → Option (BitVec 32)
  | .eNop => some (epiR 0x00 0 0 0 0 0)
  | .eMov d a => some (epiR 0x01 d.code a.code 0 0 0)
  | .eMovl d k => some (epiI 0x02 (1#1 ++ d) 0 0 k)
  | .eMovh d k => some (epiI 0x03 (1#1 ++ d) 0 0 k)
  | .eAdd d a b => some (epiR 0x04 d.code a.code b.code 0 0)
  | .eSub d a b => some (epiR 0x05 d.code a.code b.code 0 0)
  | .eMul d a b => some (epiR 0x06 d.code a.code b.code 0 0)
  | .eFma d a b c => some (epiR 0x07 d.code a.code b.code c.code 0)
  | .eMin d a b => some (epiR 0x08 d.code a.code b.code 0 0)
  | .eMax d a b => some (epiR 0x09 d.code a.code b.code 0 0)
  | .eRelu d a => some (epiR 0x0A d.code a.code 0 0 0)
  | .eGelu d a => some (epiR 0x0B d.code a.code 0 0 0)
  | .eClamp d a b c => some (epiR 0x0C d.code a.code b.code c.code 0)
  | .eAbsmaxRow d a => some (epiR 0x0D (1#1 ++ d) (0#1 ++ a) 0 0 0)
  | .eAbsmaxBlk d a => some (epiR 0x0D (0#1 ++ d) (0#1 ++ a) 0 0 0x100)
  | .eSum d a => some (epiR 0x0E (1#1 ++ d) (0#1 ++ a) 0 0 0)
  | .eIdx d => some (epiR 0x0F d.code 0 0 0 0)
  | .eBscale a => some (epiR 0x10 0 (0#1 ++ a) 0 0 0)
  | .eQ8 d a => some (epiR 0x11 (0#1 ++ d) (0#1 ++ a) 0 0 0)
  | .eCvt d a => some (epiR 0x12 (0#1 ++ d) (0#1 ++ a) 0 0 0)
  | .eLdbColF32 d p k => some (epiI 0x13 (0#1 ++ d) (1#1 ++ (p ++ 0#1)) 0 k)
  | .eLdbColBf16 d p k => some (epiI 0x13 (0#1 ++ d) (1#1 ++ (p ++ 0#1)) 1 k)
  | .eLdbRowF32 d p k => some (epiI 0x13 (1#1 ++ d) (1#1 ++ (p ++ 0#1)) 2 k)
  | .eSt a k => some (epiI 0x14 0 (0#1 ++ a) 0 k)
  | .eSts p => some (epiI 0x15 0 (1#1 ++ (p ++ 0#1)) 0 0)
  | .eNext => some (epiR 0x16 0 0 0 0 0)
  | .eStop => some (epiR 0x17 0 0 0 0 0)
  | _ => none

/-! ### The encoder of swarm words (R48, R62) -/

/-- OPC, EXT and the nibble of a swarm word whose class is not M (R60 to R62). -/
def codeZ (opc : BitVec 8) (ext : BitVec 4) : Option (BitVec 8 × BitVec 4 × BitVec 4) := some (opc, ext, 0)
def codeI (opc : BitVec 8) (ext : BitVec 4) (sat : Bool) : Option (BitVec 8 × BitVec 4 × BitVec 4) :=
  some (opc, ext, 0#3 ++ BitVec.ofBool sat)
def codeF (opc : BitVec 8) (r : Rnd) (t : BitVec 2) (slot : BitVec 3) (sat : Bool) :
    Option (BitVec 8 × BitVec 4 × BitVec 4) :=
  some (opc, r.code ++ t, slot ++ BitVec.ofBool sat)
def codeM (opc : BitVec 8) (ext : BitVec 4) (q : MemQ) : Option (BitVec 8 × BitVec 4 × BitVec 4) :=
  some (opc, ext, q.scope.code ++ BitVec.ofBool q.nt)
def codeT (opc : BitVec 8) (tt : BitVec 8) : Option (BitVec 8 × BitVec 4 × BitVec 4) :=
  some (opc, tt.extractLsb' 4 4, tt.extractLsb' 0 4)

def bw (w : Bool) : BitVec 4 := if w then 1 else 0

/-- The opcode map read from instruction to code (R62). -/
def Instr.code : Instr → Option (BitVec 8 × BitVec 4 × BitVec 4)
  | .iadd t s _ => codeI 0x00 t.code s
  | .isub t s _ => codeI 0x01 t.code s
  | .iaddc t s _ => codeI 0x02 t.code s
  | .imul t s _ => codeI 0x03 t.code s
  | .imulhi t _ => codeZ 0x04 t.code
  | .imad t s _ => codeI 0x05 t.code s
  | .imin t _ => codeZ 0x06 t.code
  | .imax t _ => codeZ 0x07 t.code
  | .iabs w s _ => codeI 0x08 (if w then 2 else 0) s
  | .shl w _ => codeZ 0x09 (bw w)
  | .shr w _ => codeZ 0x09 (4 ||| bw w)
  | .sar w _ => codeZ 0x09 (8 ||| bw w)
  | .rot w _ => codeZ 0x09 (12 ||| bw w)
  | .and w _ => codeZ 0x0A (bw w)
  | .or w _ => codeZ 0x0A (4 ||| bw w)
  | .xor w _ => codeZ 0x0A (8 ||| bw w)
  | .not w _ => codeZ 0x0A (12 ||| bw w)
  | .lop3 tt _ => codeT 0x0B tt
  | .bfx s _ => codeZ 0x0C (bw s)
  | .bfi _ => codeZ 0x0D 0
  | .popc w _ => codeZ 0x0E (if w then 4 else 0)
  | .clz w _ => codeZ 0x0E (if w then 5 else 1)
  | .brev w _ => codeZ 0x0E (if w then 6 else 2)
  | .icmp w c u _ => codeZ (if w then 0x10 else 0x0F) (c.code ++ BitVec.ofBool u)
  | .sel np p _ => codeZ 0x11 (BitVec.ofBool np ++ p)
  | .lea s _ => codeZ 0x12 s
  | .mov w _ => codeZ 0x13 (bw w)
  | .movi _ _ => codeZ 0x14 0
  | .view _ => codeZ 0x15 0
  | .ldix _ => codeZ 0x16 0
  | .stix _ => codeZ 0x17 0
  | .regfree _ => codeZ 0x18 0
  | .rdsr _ => codeZ 0x19 0
  | .wrsr _ => codeZ 0x1A 0
  | .fadd r t k s _ => codeF 0x20 r t.code k s
  | .fsub r t k s _ => codeF 0x21 r t.code k s
  | .fmul r t k s _ => codeF 0x22 r t.code k s
  | .ffma r t k s _ => codeF 0x23 r t.code k s
  | .ffmaL r t k s _ => codeF 0x24 r t.code k s
  | .fmin t _ => codeZ 0x25 (0#2 ++ t.code)
  | .fmax t _ => codeZ 0x26 (0#2 ++ t.code)
  | .fcmp t c _ =>
    match t with
    | .f32 => codeZ 0x27 (c.code ++ 0#1)
    | .f16 => codeZ 0x28 (c.code ++ 0#1)
    | .bf16 => codeZ 0x28 (c.code ++ 1#1)
  | .frcp r t k s _ => codeF 0x29 r t.code k s
  | .frsq r t k s _ => codeF 0x2A r t.code k s
  | .fsqrt r t k s _ => codeF 0x2B r t.code k s
  | .fexp2 r t k s _ => codeF 0x2C r t.code k s
  | .flog2 r t k s _ => codeF 0x2D r t.code k s
  | .fsin r t k s _ => codeF 0x2E r t.code k s
  | .fcos r t k s _ => codeF 0x2F r t.code k s
  | .frnd r t _ => codeZ 0x30 (r.code ++ t.code)
  | .fcvt fs r k s _ => codeF 0x31 r (if fs then 1 else 0) k s
  | .hfma2 r pr k s _ => codeF 0x32 r pr k s
  | .fdot4 r e5 k s _ => codeF 0x33 r (if e5 then 1 else 0) k s
  | .fsplit3 _ => codeZ 0x34 0
  | .shfl m _ => codeZ 0x40 m.code
  | .vote v _ => codeZ 0x41 v.code
  | .matchL w _ => codeZ 0x42 (bw w)
  | .redx op _ => codeZ 0x43 op.code
  | .scanx op _ => codeZ 0x44 op.code
  | .scanxEx op _ => codeZ 0x45 op.code
  | .pset _ => codeZ 0x46 0
  | .plop tt _ => codeT 0x47 tt
  | .pmovGet _ => codeZ 0x48 0
  | .pmovSet _ => codeZ 0x48 1
  | .bra _ => codeZ 0x50 0
  | .brx _ => codeZ 0x51 0
  | .call _ => codeZ 0x52 0
  | .ret _ => codeZ 0x53 0
  | .loop _ => codeZ 0x54 0
  | .bmark _ => codeZ 0x55 0
  | .bsync _ => codeZ 0x56 0
  | .exit _ => codeZ 0x57 0
  | .yield _ => codeZ 0x58 0
  | .nop _ => codeZ 0x59 0
  | .ipref l _ => codeZ 0x5A l.code
  | .ipin l _ => codeZ 0x5B l.code
  | .iunpin l _ => codeZ 0x5C l.code
  | .ld z sp sx q _ =>
    match z with
    | .s8 => codeM 0x60 (sp.code ++ (BitVec.ofBool sx ++ 0#1)) q
    | .s16 => codeM 0x61 (sp.code ++ (BitVec.ofBool sx ++ 0#1)) q
    | .s32 => codeM 0x62 (sp.code ++ 0#2) q
    | .s64 => codeM 0x63 (sp.code ++ 0#2) q
  | .st z sp q _ =>
    match z with
    | .s8 => codeM 0x64 (sp.code ++ 0#2) q
    | .s16 => codeM 0x65 (sp.code ++ 0#2) q
    | .s32 => codeM 0x66 (sp.code ++ 0#2) q
    | .s64 => codeM 0x67 (sp.code ++ 0#2) q
  | .ldv n sp q _ => codeM 0x68 (sp.code ++ n.code) q
  | .stv n sp q _ => codeM 0x69 (sp.code ++ n.code) q
  | .pref l q _ => codeM 0x6A l.code q
  | .cctl op q _ => codeM 0x6B op.code q
  | .wpset r w q _ => codeM 0x6C (0#2 ++ (BitVec.ofBool w ++ BitVec.ofBool r)) q
  | .wpclr q _ => codeM 0x6D 0 q
  | .fence q _ => codeM 0x6E 0 q
  | .fenceSc q _ => codeM 0x6F 0 q
  | .fenceLy q _ => codeM 0x70 0 q
  | .atom f ao q _ =>
    match f with
    | .g32 => codeM 0x71 ao.code q
    | .g64 => codeM 0x72 ao.code q
    | .s32 => codeM 0x73 ao.code q
  | .atomv ao q _ => codeM 0x74 ao.code q
  | .red f ao q _ =>
    match f with
    | .g32 => codeM 0x75 ao.code q
    | .g64 => codeM 0x76 ao.code q
    | .s32 => codeM 0x77 ao.code q
  | .waitc c u q _ => codeM 0x78 (c.code ++ BitVec.ofBool u) q
  | .mmaz t sp _ => codeZ 0x80 (0#1 ++ (t.code ++ BitVec.ofBool sp))
  | .mma t sp _ => codeZ 0x81 (0#1 ++ (t.code ++ BitVec.ofBool sp))
  | .wbld k _ => some (0x82, 0, k ++ 0#1)
  | .accld q _ => codeM 0x83 0 q
  | .accst q _ => codeM 0x84 0 q
  | .accdr k s _ => some (0x85, 0, k ++ BitVec.ofBool s)
  | .epil _ => codeZ 0x86 0
  | .ttask q _ => codeM 0x87 0 q
  | .cpy _ => codeZ 0x90 0
  | .cpy2d _ => codeZ 0x91 0
  | .gath z _ => codeZ 0x92 z.code
  | .scat z _ => codeZ 0x93 z.code
  | .bread _ => codeZ 0x94 0
  | .chapp _ => codeZ 0x95 0
  | .waittl q _ => codeM 0x96 0 q
  | .rdtl _ => codeZ 0x97 0
  | .waitcnt c _ => codeZ 0x98 c.code
  | .ctxtlOpen _ => codeZ 0x99 0
  | .ctxtlClose _ => codeZ 0x99 1
  | .ctxtlReset _ => codeZ 0x99 2
  | .bar _ => codeZ 0xA0 0
  | .bararv _ => codeZ 0xA1 0
  | .barwt _ => codeZ 0xA2 0
  | .gbar _ => codeZ 0xA3 0
  | .syncwi _ => codeZ 0xA4 0
  | .syncwt q _ => codeM 0xA5 0 q
  | .launch _ => codeZ 0xA6 0
  | .spawn _ => codeZ 0xA7 0
  | .join _ => codeZ 0xA8 0
  | .ticket _ => codeZ 0xA9 0
  | .kstat _ => codeZ 0xB9 0
  | .grpdecl f _ => codeZ 0xAA (bw f)
  | .grpdrop _ => codeZ 0xAB 0
  | .claim w _ => codeZ 0xAC (bw w)
  | .object _ => codeZ 0xAD 0
  | .clwait _ => codeZ 0xAE 0
  | .clinbox _ => codeZ 0xAF 0
  | .live _ => codeZ 0xB0 0
  | .trap _ => codeZ 0xB1 0
  | .tret _ => codeZ 0xB2 0
  | .ctxsave _ => codeZ 0xB3 0
  | .ctxload _ => codeZ 0xB4 0
  | .oplogrd _ => codeZ 0xB5 0
  | .progrd _ => codeZ 0xB6 0
  | .progwr _ => codeZ 0xB7 0
  | .eret _ => codeZ 0xB8 0
  | .eretOff _ => codeZ 0xB8 0
  | .eretEnd _ => codeZ 0xB8 0
  | .pagemode m _ => codeZ 0xC0 m.code
  | .tlbinv al k _ => codeZ 0xC1 (0#1 ++ (BitVec.ofBool al ++ k.code))
  | .probe k _ => codeZ 0xC2 (0#2 ++ k.code)
  | .bmaprd _ => codeZ 0xC3 0
  | .remapPage _ => codeZ 0xC4 0
  | .remapBank _ => codeZ 0xC4 0
  | .chainst q _ => codeM 0xC5 0 q
  | .fred op q _ => codeM 0xC6 op.code q
  | .fredwt q _ => codeM 0xC7 0 q
  | .vfctlEnable _ => codeZ 0xC8 0
  | .vfctlDrain _ => codeZ 0xC8 1
  | .vfctlStatus _ => codeZ 0xC8 2
  | _ => none

/-- The counter class and memory order bits of HINT. -/
def MemQ.hint : Option MemQ → BitVec 4
  | some q => q.cls.code ++ q.ord.code
  | none => 0

/-- The fields of the word of a swarm instruction. -/
def encodeRaw (i : Instr) : Option Raw :=
  match i.code, i.wd? with
  | some (opc, ext, nib), some o =>
    let ab := match i with
      | .movi c _ => (0#0 ++ (c.extractLsb' 16 16 ++ 0#4), c.extractLsb' 0 16 ++ 0#4)
      | _ => (encodeOpnd o.a, encodeOpnd o.b)
    some { opc := opc, ext := ext, inv := o.inv, pred := o.pred, d := encodeOpnd o.d, a := ab.1, b := ab.2,
           hint := o.stall ++ (BitVec.ofBool o.yld ++ (o.keep ++ (o.dlev ++ (MemQ.hint i.memq? ++ 0#2)))), nib := nib }
  | _, _ => none

/-- The 96-bit word of a swarm instruction. -/
def encode (i : Instr) : Option (BitVec 96) := (encodeRaw i).map Raw.toBits

/-- A little-endian value of bytes: the first byte is the lowest. -/
def bytesVal : List Byte → Nat
  | [] => 0
  | b :: t => b.toNat + 256 * bytesVal t

/-- The `n` bytes of a value, lowest first. -/
def valBytes : Nat → Nat → List Byte
  | 0, _ => []
  | n + 1, x => BitVec.ofNat 8 x :: valBytes n (x / 256)

/-- Decode twelve bytes as a swarm word (R48: little-endian). -/
def decodeBytes (bs : List Byte) : DecRes := decodeWord (BitVec.ofNat 96 (bytesVal bs))

/-- The instruction of an opcode-table row's bits: 32 bits are an epilogue word, more a swarm word. -/
def decodeTableWord (nbits w : Nat) : Option Instr :=
  if nbits ≤ 32 then decodeEpi (BitVec.ofNat 32 w)
  else match decodeBytes (valBytes 12 w) with
    | .ok i => some i
    | .bad _ _ => none

end Sys2Proof
end

