-- ==== Sys2Proof/Machine/State.lean ====
section
/-!
DEFINITION. The state of the part as plain data: swarms and their frames, teams, grids, the memories and caches, the
tables of firmware and of the partitions, the link, and the schedule the step reads. Every storage that the manual
sizes in bytes or words is a sparse table in one canonical form (`Tab`, Word.lean).
-/
namespace Sys2Proof.Machine

/-- Why the machine stops. -/
inductive Fault where
  /-- Raised by the meaning of a swarm word when no resident swarm stands in the focus of the step, and by the meaning
  of an epilogue word when no drain is being run: there is no machine state such a word could act on. Safe. -/
  | noFocus
deriving DecidableEq, Repr

/-- Why the machine gives an instruction no meaning. -/
inductive Refusal where
  /-- Raised by an arm of the dispatcher for an instruction that is not modelled yet. Safe. -/
  | notModelled (mnemonic : String)
deriving DecidableEq, Repr

/-- The levels at which words execute (R62, R316). -/
inductive Level where | prog | two | one | fw
deriving DecidableEq, Repr

/-- What a lane is parked in (R125, R328, R331). -/
inductive Park where
  /-- WAITC with its monitor (R180, R181); whether its class is ld (R328), and the cause of failure, or 0, and the value
  that a remote read brought. -/
  | waitc (ld : Bool) (got : Option (Nat × Word))
  /-- WAITTL on a context for a value (R226). -/
  | waittl (ctx : Nat) (v : Nat)
  /-- SYNCWT on a sync word (R192); whether its class is ld, and the word's team and offset. -/
  | syncwt (ld : Bool) (u : TeamId) (off : Nat)
  /-- BARWT on a barrier's generation (R188). -/
  | barwt (b : Nat)
  /-- CLWAIT on a claim of a group slot (R311). -/
  | clwait (g : Nat)
  /-- CLAIM while its group forms or its result list is full (R304). -/
  | claim (g : Nat)
  /-- A wait of CLAIM or CLWAIT whose slot was dropped: its word traps when it is issued again (R303, R312). -/
  | dropped
  /-- A WAITTL whose context has been closed: the swarm's next act is the queue-use trap (R229). -/
  | closed
  /-- BAR, or the GBAR of a team with no gang: the token taken at the arrival (R188, R190). -/
  | bar (b : Nat) (tok : Word)
  /-- GBAR of a gang member: the generation at the arrival (R190). -/
  | gbar (tok : Word)
  /-- FREDWT on its reply (R388): whether its class is ld, and what the reply brought: the cause of a failure, the lane's
  element, the status word and the element mask. -/
  | fredwt (ld : Bool) (got : Option (Nat × Word × Word × Word))
  /-- FENCE.SC waits for a pulse tick of its scope after the given time (R172). -/
  | fenceSc (sc : Scope) (since : Nat)
  /-- Any other wait at issue: WAITCNT, JOIN, FENCE.LY, an engine or table entry that is not free. -/
  | other
deriving DecidableEq, Repr

/-- One lane of a swarm (R72, R81, R118). -/
structure Lane where
  pc     : DWord
  exited : Bool
  /-- Waiting at a BSYNC: mark number and mark to re-arm (R128). -/
  bsync  : Option (Nat × Option Nat)
  park   : Option Park
  /-- The wake source of the park has fired (R328). -/
  woken  : Bool
  l0     : Word
  l1     : Word
  ofile  : Tab 32
  preds  : BitVec 8
  fflags : BitVec 6
  bx     : Word
  by_    : Word
  bseq   : Word
  btag   : Word
  bn     : Word
  /-- Issue cycles of the swarm since the lane issued (R123). -/
  age    : Nat
deriving DecidableEq, Repr

/-- Where an access is performed once its address has been checked (R136 to R140, R343). -/
inductive Place where
  /-- A package physical address, with the page's mode. -/
  | pa (a : Nat) (m : CohMode)
  /-- Scratchpad of a team. -/
  | spad (tm : TeamId) (off : Nat)
  /-- Carved L3: the carve of a slice on a stack, numbered `(8 * partition + slice) * 8 + stack`. -/
  | l3 (carve off : Nat)
deriving DecidableEq, Repr

/-- One lane's record of an operand-log entry (R321, R329). -/
structure LaneRec where
  lane  : Nat
  va    : DWord
  data  : List Word
  cmp   : DWord
  place : Option Place
  /-- The access was forwarded by a stage-3 leaf (R350). -/
  fwd   : Bool
deriving DecidableEq, Repr

/-- An entry of the operand log of a swarm (R321). -/
structure LogEntry where
  /-- Entry number 0 to 7 (R321). -/
  num     : Nat
  /-- Age order. -/
  seq     : Nat
  ins     : Instr
  addr    : DWord
  /-- Lanes whose checks passed and whose access is not yet performed. -/
  todo    : BitVec 32
  /-- Lanes whose access travels over the link and awaits its answer. -/
  away    : BitVec 32
  /-- Lanes that performed the word. -/
  done    : BitVec 32
  faulted : BitVec 32
  cause   : BitVec 8
  stage   : Nat
  /-- The lowest-numbered lane with the reported cause (R146). -/
  flane   : Nat
  recs    : List LaneRec
  /-- The watchpoint that hit, which a re-issue does not check (R158). -/
  wp      : Option Nat
  /-- ERET.res has asked for the entry to be issued again, which it is before the next word (R322). -/
  again   : Bool
  /-- The word that the entry is an element of, by the age of its first (R178). -/
  word    : Nat
deriving DecidableEq, Repr

/-- A fence that still has earlier accesses to order (R171): the lanes whose later accesses wait for their earlier loads, and
those whose later stores wait for their earlier accesses. -/
structure FenceMark where
  seq   : Nat
  scope : Scope
  acq   : BitVec 32
  rel   : BitVec 32
deriving DecidableEq, Repr

/-- A live record (R324). -/
structure LiveRec where
  rows   : BitVec 512
  preds  : BitVec 8
  ranges : List (Nat × Nat)
deriving DecidableEq, Repr

/-- The registers and control state of one swarm in one mode (R68 to R75, R118, R314). -/
structure Frame where
  lanes   : List Lane
  /-- Row `n` of lane `i` at key `32 * n + i`. -/
  regs    : Tab 32
  /-- Bit `n` set: row `n` is live (R75). -/
  live    : BitVec 512
  /-- Row to the mask of lanes that have freed it (R86). -/
  freed   : Tab 32
  /-- Bit `n` set: row `n` stands in the spill region (R76). -/
  spilled : BitVec 512
  vcnt    : Nat
  tcnt    : Nat
  xlgw    : Nat
  prog    : Word
  marks   : Tab 32
  bcast   : DWord
  /-- The subgroup chosen last by rule 3 of R123, by its lowest lane. -/
  lastSub : Nat
  /-- The lanes whose word waited when it was chosen: the model's own, so that another group is chosen next (R123). -/
  tried   : BitVec 32
  cLd     : Nat
  cSt     : Nat
  cCp     : Nat
  cTile   : Nat
  log     : List LogEntry
  fences  : List FenceMark
  seq     : Nat
  liveSet : Option LiveRec
  /-- A word that keeps the swarm from issuing anything else is in progress at this address for these lanes: a
  macro-instruction (R14), or a fence that waits (R172, R174). -/
  macroAt : Option (DWord × BitVec 32)
  /-- Lanes that have arrived at team barrier `b` (key `b`, 0 to 15) and at the gang barrier (key 16) (R184). -/
  arrive  : Tab 32
deriving DecidableEq, Repr

/-- An arrival at a sync word that is not applied yet (R154, R212): the word's team and offset, the bytes, and the
operation whose bytes they are. -/
structure Arrival where
  owner : TeamId
  off   : Nat
  n     : Nat
  src   : Option (TeamId × Nat × Nat)
deriving DecidableEq, Repr

/-- What a swarm runs (R217, R220, R316). -/
inductive Mode where
  | program
  /-- A handler of a level, entered for a cause (R317). -/
  | handler (l : Level) (cause : Nat)
deriving DecidableEq, Repr

/-- A swarm of a team, or a forager or final-handler swarm of one of its handler reads (R220). -/
inductive SwKind where
  | team
  | forager (ctx : Nat) (op : Nat)
  | final (ctx : Nat) (op : Nat)
deriving DecidableEq, Repr

structure Swarm where
  num    : Nat
  /-- The swarm slot of its core: 12 × quadrant + slot (R219, R271). -/
  slot   : Nat
  kind   : SwKind
  /-- The swarm that issued the read of a forager (R40). -/
  issuer : Nat
  ended  : Bool
  mode   : Mode
  frame  : Frame
  /-- The program's state while the swarm is in handler mode (R317). -/
  hidden : Option Frame
  trapc  : Word
  trapa  : DWord
  /-- The forager record and merge count of the trap being delivered: SEQ, $bseq, fault address, merges (R320). -/
  frg    : Option (DWord × Word × DWord × Nat)
  /-- ERET.off executed (R333). -/
  off    : Bool
  /-- Stopped at a pre-emption point of a pending request (R323, R327). -/
  stopped : Bool
  /-- The program's frame as the swarm left its core: what the image areas laid out by the part stand for (R329). -/
  kept   : Option Frame
deriving DecidableEq, Repr

/-- The states of a context (R315). -/
inductive CtxSt where
  | running | resident | preempting | loading | saved | parked | faulted | frozen | retired
deriving DecidableEq, Repr

/-- A watchpoint (R155, R157). -/
structure Watch where
  armed  : Bool
  base   : Nat
  size   : Nat
  r      : Bool
  w      : Bool
  scope  : Scope
  status : Word
  /-- The physical ranges the range translated to when it was armed: virtual base, physical base, length. -/
  segs   : List (Nat × Nat × Nat)
deriving DecidableEq, Repr

/-- A pending imprecise trap (R320). -/
structure PendTrap where
  cause  : Nat
  frg    : Bool
  merges : Nat
  bseq   : Word
  addr   : DWord
  rseq   : DWord
  /-- The watchpoints whose hits the trap stands for (R158). -/
  wps    : BitVec 4
  /-- The swarm whose row a register-spill fault concerns (R76). -/
  sw     : Option Nat
deriving DecidableEq, Repr

/-! ### Engines (R202 to R226) -/

/-- Modes of an engine context (R202, R204). -/
inductive EngMode where | closed | opened | busy | halted
deriving DecidableEq, Repr

/-- One operation of an engine context from its append to its end (R203, R205, R218 to R225). -/
structure EngOp where
  n       : Nat
  /-- Address of its chain entry, or of its tile-task record. -/
  entry   : DWord
  /-- Walked (CHAPP), an issue form, or a tile task. -/
  walked  : Bool
  task    : Bool
  started : Bool
  /-- The level whose addresses the operation uses: its appender's (R316). -/
  lvl     : Level
  /-- The control word and the five words of BODY as read once (R209). -/
  ctl     : Word
  body    : List DWord
  count   : Nat
  /-- Elements requested (DONE). -/
  reqd    : Nat
  /-- 1 appended, 2 all requested, 3 done, 4 fault, 5 aborted (R205). -/
  stat    : Nat
  fcode   : Nat
  flags   : BitVec 6
  /-- Swarm whose cp counter it holds, and the number of the appending word (R214). -/
  issuer  : Nat
  isForager : Bool
  word    : Nat
  /-- The read whose forager or final handler appended it: context and number (R225). -/
  parent  : Option (Nat × Nat)
  /-- Handler read: bursts requested and not arrived. -/
  flight  : List Nat
  /-- Handler read: bursts of the open gather window, in order of arrival (R219). -/
  window  : List (Nat × List Byte)
  winOpen : Bool
  /-- Handler read: closed windows that wait for a swarm slot, each with its place in the order of closing (R219). -/
  closedW : List (Nat × List (Nat × List Byte))
  arrived : Nat
  finalOn : Bool
  finalDone : Bool
  /-- A fault has struck an element of the walked entry: the context halts when the operation ends (R213). -/
  halt    : Bool
deriving DecidableEq, Repr

/-- An engine context of a team (R202). -/
structure EngCtx where
  mode   : EngMode
  tl     : Nat
  last   : Nat
  tail   : DWord
  /-- Address and DONE of the entry being walked. -/
  cursor : DWord
  cdone  : Nat
  ops    : List EngOp
deriving DecidableEq, Repr

/-! ### Groups (R299 to R313) -/

/-- An own claim in the result list of a group slot (R302, R311). -/
structure ClaimRec where
  id   : Nat
  /-- The result word of R311, once decided. -/
  res  : Option Word
deriving DecidableEq, Repr

/-- An entry of a member's claim table (R302, R305). -/
structure ClaimEnt where
  id       : Nat
  proposer : Nat
  wide     : Bool
  target   : DWord
  value    : DWord
  deadline : DWord
  own      : Bool
  read     : Bool
deriving DecidableEq, Repr

/-- One of the four group slots of a team (R302). -/
structure GrpSlot where
  /-- The group, named by the physical address of its record; none when the slot is unbound. -/
  grp    : Option Nat
  member : Nat
  fab    : Bool
  win    : Nat
  serial : Nat
  table  : List ClaimEnt
  claims : List ClaimRec
deriving DecidableEq, Repr

/-- A claim on its way to its arbiter or held by it (R304 to R307). -/
structure Claim where
  id      : Nat
  member  : Nat
  /-- Where the arbiter writes: the checked place of the target. -/
  pa      : Nat
  va      : DWord
  wide    : Bool
  value   : DWord
  ts      : Nat
  arrived : Bool
  team    : TeamId
  slot    : Nat
  /-- The package of a proposer outside this one. -/
  pkg     : Option Nat
  /-- Objections that have arrived: stamp and member; 0x40 for an undelivered entry. -/
  objs    : List (Nat × Nat)
  /-- The proposer's partition was revoked (R313). -/
  revoked : Bool
deriving DecidableEq, Repr

/-- States of a group (R301). -/
inductive GrpSt where | prepared | forming | active | draining | closed
deriving DecidableEq, Repr

/-- A claim group as its arbiter knows it (R299 to R301). -/
structure Group where
  /-- Physical address of the record. -/
  addr    : Nat
  part    : Nat
  /-- The slice that declared first, through which writes leave the package. -/
  slice   : Nat
  fab     : Bool
  win     : Nat
  n       : Nat
  joined  : BitVec 64
  dropped : BitVec 64
  st      : GrpSt
  claims  : List Claim
  /-- Objections sent and not yet arrived: claim id, member, stamp. -/
  objs    : List (Nat × Nat × Nat)
  /-- Recently decided claims, with which a claim may still collide (R306). -/
  past    : List Claim
deriving DecidableEq, Repr

/-! ### Grids, gangs and continuations (R271 to R298) -/

/-- A launch record as it was read once (R271, R273). -/
structure LaunchRec where
  entry  : Nat
  cbase  : Nat
  spill  : Nat
  gx     : Nat
  gy     : Nat
  gz     : Nat
  csz    : Nat
  tsw    : Nat
  vcnt   : Nat
  tcnt   : Nat
  acnt   : Nat
  spadk  : Nat
  power  : Nat
  coldb  : Nat
  xlgw   : Nat
  prio   : Nat
  gsz    : Nat
  glvl   : Nat
  cont   : Nat
  kspill : Nat
  slots  : List Word
deriving DecidableEq, Repr

/-- The states of a grid (R274). -/
inductive GridSt where | queued | dispatching | running | joining | retired | aborted
deriving DecidableEq, Repr

/-- A ticket counter bound to a grid (R277, R278). -/
structure Ticket where
  die : Nat
  cur : Word
  hi  : Nat
deriving DecidableEq, Repr

structure Grid where
  /-- The model's own number of the grid, never given to a program. -/
  id       : Nat
  /-- The id that the program knows the grid by (R274, R288). -/
  gid      : Word
  part     : Nat
  slice    : Nat
  asn      : Nat
  depth    : Nat
  parent   : Option Nat
  launch   : LaunchRec
  st       : GridSt
  queuedAt : Nat
  aged     : Bool
  tickets  : List Ticket
  /-- Units drawn and not started: unit and the core that drew it. -/
  drawn    : List (Nat × Nat)
  started  : Nat
  ended    : Nat
  children : Nat
  conts    : Nat
  /-- The user counters U1 to U3 (R291). -/
  users    : Tab 32
  /-- The address of the notify word at the level that gave it and the retirement vector of RUN (R404), and the function
  that sends it. -/
  notify   : Option (Level × Nat)
  vec      : Nat
  func     : Nat
deriving DecidableEq, Repr

/-- The states of a gang (R297). -/
inductive GangSt where | drawn | pending | running
deriving DecidableEq, Repr

/-- A gang record (R293, R297). -/
structure Gang where
  num    : Nat
  grid   : Nat
  unit   : Nat
  st     : GangSt
  die    : Nat
  /-- Level (R271 GLVL) and number of the placement or target unit. -/
  lvl    : Nat
  place  : Nat
  /-- The members that have not ended, and the core of each. -/
  live   : BitVec 12
  cores  : List Nat
  /-- The gang barrier (R189). -/
  bar    : DWord
deriving DecidableEq, Repr

/-- States of a continuation that its die controller holds (R281). -/
inductive ContSt where | waiting | queued | running
deriving DecidableEq, Repr

/-- A spawned continuation (R280 to R283). -/
structure Cont where
  /-- Physical and virtual address of the record. -/
  pa     : Nat
  va     : DWord
  grid   : Nat
  die    : Nat
  prio   : Nat
  st     : ContSt
  join   : Word
  code   : Nat
  frame  : DWord
  vcnt   : Nat
  /-- PARENT, 0 for none. -/
  parent : DWord
  /-- The spawning team (R282). -/
  by_    : TeamId
  teamn  : Word
  gx     : Word
  gy     : Word
  gz     : Word
  num    : Nat
deriving DecidableEq, Repr

/-- A decrement on its way to a die controller (R281): the record, and the slice a fault is routed to. -/
structure Dec where
  die   : Nat
  pa    : Nat
  va    : DWord
  part  : Nat
  slice : Nat
  asn   : Nat
deriving DecidableEq, Repr

/-! ### Teams -/

/-- An MMA or MMAZ that has been issued and is not complete (R232): its swarm, the accumulator and the units it uses. It
is in progress while its swarm stands in it. -/
structure MmaRun where
  swarm : Nat
  ins   : Instr
  acc   : Nat
  unit  : Nat
  count : Nat
deriving DecidableEq, Repr

/-- A team with everything it has built up on its core (R314). -/
structure Team where
  id      : TeamId
  core    : Nat
  part    : Nat
  slice   : Nat
  /-- The level at which its program runs; grids run at program level (R316). -/
  level   : Level
  asn     : Nat
  st      : CtxSt
  /-- The state before Frozen (R315). -/
  before  : CtxSt
  swarms  : List Swarm
  /-- Team barriers, by number (R183). -/
  bars    : Tab 64
  acnt    : Nat
  /-- Accumulator word `64 m + n` of aJ at key `8192 J + 64 m + n` (R70). -/
  accs    : Tab 32
  units   : Tab 8
  tags    : Tab 16
  binds   : List (Nat × List (BitVec 32))
  mmas    : List MmaRun
  spad    : Tab 8
  spadSz  : Nat
  engs    : List EngCtx
  grps    : List GrpSlot
  watches : List Watch
  traps   : List PendTrap
  /-- The eight format slots of the grid (R41). -/
  fslots  : List Word
  clwin   : Word
  coldbase : Word
  teamn   : Word
  depth   : Word
  lin     : Word
  gx      : Word
  gy      : Word
  gz      : Word
  cbase   : Nat
  csize   : Nat
  spill   : Nat
  prio    : Nat
  /-- Gang number and member index (R293). -/
  gang    : Option (Nat × Nat)
  /-- A pre-emption request: its level, the pulse at which it was accepted, and the address of the handler record that
  its level then had (R327, R404). -/
  preempt : Option (Level × Nat × Nat)
  overdue : Bool
  /-- The handlers of the request in force have been entered (R327). -/
  entered : Bool
  /-- The level that saved the context and its resume token (R333). -/
  saver   : Level
  token   : DWord
  /-- Image address of the saved scratchpad (R138): set from `imageAt` when the team leaves its core, and cleared when
  its scratchpad is restored. -/
  image   : Option Nat
  /-- The image to which CTXSAVE last wrote the scratchpad. -/
  imageAt : Option Nat
  /-- Number of swarms of the launch record (R271). -/
  nsw     : Nat
  /-- The context has waited for a core since this step (R334). -/
  since   : Nat
  /-- The continuation record that JOIN named (R290). -/
  joins   : Option DWord
  /-- Units drawn by TICKET, which end with this team (R291). -/
  drew    : Nat
  /-- The grid's continuation spill base is not 0 (R289). -/
  kspill  : Nat
deriving DecidableEq, Repr

/-- The word being issued: swarm, lanes of its group, address (R123). -/
structure Focus where
  team  : TeamId
  swarm : Nat
  mask  : BitVec 32
  pc    : DWord
deriving DecidableEq, Repr

/-! ### Memory system -/

/-- States of a directory entry (R166). -/
inductive DirSt where | i | s | e | o | m | mv
deriving DecidableEq, Repr

/-- A line held in the L1 of a core (R141 to R144): its bytes; for SWC and PRV the dirty mask and the team whose stores are
dirty; for COH how the core holds it (S, E, O or M). -/
structure L1Line where
  core  : Nat
  line  : Nat
  mode  : CohMode
  bytes : Tab 8
  dirty : BitVec 128
  st    : DirSt
  by_   : TeamId
deriving DecidableEq, Repr

/-- A line held in the L2 of a die (R141): its bytes, which of them are dirty, and what stands beyond the L2 for those. -/
structure L2Line where
  die   : Nat
  line  : Nat
  mode  : CohMode
  bytes : Tab 8
  dirty : BitVec 128
  home  : Tab 8
deriving DecidableEq, Repr

/-- A line of uncarved L3 (R141), which stands at the home and holds what the home holds: whether the DRAM layers have not
yet accepted some of it (R174). -/
structure L3Line where
  line  : Nat
  dirty : Bool
deriving DecidableEq, Repr

/-- An invalidation queued at a core (R159, R168, R198): the narrowest scope of the core that covers the writer, and when it
arrived. -/
structure InvEnt where
  core : Nat
  line : Nat
  wide : Scope
  at_  : Nat
deriving DecidableEq, Repr

/-- A directory entry: its unit, region, owner branch and sharer branches (R166, R167). -/
structure DirEnt where
  level   : DirLevel
  unit    : Nat
  region  : Nat
  st      : DirSt
  owner   : Option Nat
  sharers : List Nat
deriving DecidableEq, Repr

/-- A coherence request climbing the directories (R167, R197, R199). -/
structure Miss where
  core   : Nat
  line   : Nat
  /-- GetM, not GetS. -/
  excl   : Bool
  /-- The levels whose combined Ack has come, or that it does not visit. -/
  acks   : List DirLevel
  fwd    : Bool
  data   : Bool
  /-- Cores that have read the line since. -/
  fresh  : List Nat
  /-- Cores with an acquire that covers the writer since. -/
  seen   : List Nat
deriving DecidableEq, Repr

/-- A condition monitor (R181): its point, the line it watches and the lane it wakes, of the handler frame or of the
program's. -/
structure Monitor where
  point : Scope
  unit  : Nat
  line  : Nat
  team  : TeamId
  swarm : Nat
  lane  : Nat
  inH   : Bool
deriving DecidableEq, Repr

/-- A translation held by a cluster's TLB (R348). -/
structure TlbEnt where
  clus  : Nat
  part  : Nat
  slice : Nat
  /-- Address-space number, and the level whose addresses are translated. -/
  asn   : Nat
  level : Level
  va    : Nat
  size  : Nat
  pa    : Nat
  r     : Bool
  w     : Bool
  x     : Bool
  pl    : Bool
  mode  : CohMode
  /-- Input pages of the entries used at stages 2 and 3, for TLBINV (R356). -/
  in2   : Nat
  in3   : Nat
  sz1   : Nat
  sz2   : Nat
  sz3   : Nat
deriving DecidableEq, Repr

/-- A pinned range of instruction lines (R132 to R134). -/
structure Pin where
  level : Lvl3
  team  : TeamId
  core  : Nat
  line  : Nat
  count : Nat
deriving DecidableEq, Repr

/-- A fold or unfold under way (R359 to R361). -/
structure Fold where
  bank   : Nat
  unfold : Bool
  thermal : Bool
  moved  : Nat
deriving DecidableEq, Repr

/-- The banks of one stack (R359 to R364). -/
structure StackSt where
  /-- Retired banks with thermal cause, oldest first. -/
  retired : List (Nat × Bool)
  gen     : Nat
  fold    : Option Fold
  /-- Units asleep: `8 * pillar + layer`. -/
  asleep  : List Nat
  /-- Units requested for waking and the slot of the run under way. -/
  waking  : List Nat
  run     : Option Nat
  pillar  : Nat
  bank    : Nat
  row     : Nat
  /-- 0 idle, 1 quiescing, 2 patterning, 3 restoring (R362). -/
  assay   : Nat
  holds   : Nat
deriving DecidableEq, Repr

/-- A page that moves out of the package (R354): its leaf, its old and new base, the log of its size. -/
structure Moving where
  leaf : Nat
  base : Nat
  to_  : Nat
  bits : Nat
deriving DecidableEq, Repr

/-- The memories, caches and directories of the package. -/
structure MemSys where
  /-- Package physical memory, stack DRAM and the second tier (R343), as the newest writes beyond the L1s have left it. -/
  ram    : Tab 8
  /-- Carved L3: byte `off` of carve `c` at key `2^28 c + off` (R140). -/
  l3     : Tab 8
  /-- The L1s, 2,048 lines each, and the L2s, 786,432 lines each: the longest held first. -/
  l1     : List L1Line
  l2     : List L2Line
  /-- Uncarved L3. -/
  l3c    : List L3Line
  invq   : List InvEnt
  dirs   : List DirEnt
  misses : List Miss
  mons   : List Monitor
  tlb    : List TlbEnt
  pins   : List Pin
  /-- Instruction lines a core holds (R132): core, line, bytes. -/
  icache : List (Nat × Nat × Tab 8)
  stackSts : List StackSt
  moving : List Moving
  /-- Lines whose data holds an uncorrectable error (R213, R223, R246). -/
  bad    : List Nat
  /-- Directory regions under rebuild, with the time at which it began (R170). -/
  rebuild : List (DirLevel × Nat × Nat × Nat)
  /-- Stores that no FENCE.LY has covered yet: team, swarm, lane and line (R174). -/
  unlaid : List (TeamId × Nat × Nat × Nat)
deriving DecidableEq, Repr

/-! ### Matrix engine drains and tile tasks (R243 to R250) -/

/-- A drain: an accumulator run through its epilogue program row by row (R248, R250). -/
structure Drain where
  team  : TeamId
  swarm : Nat
  lvl   : Level
  acc   : Nat
  /-- The tile task whose drain this is. -/
  task  : Option Nat
  base  : DWord
  pitch : Nat
  slot  : Word
  sat   : Bool
  prog  : List (BitVec 32)
  row   : Nat
  /-- Index of the word to be run; `none` between rows. -/
  ip    : Option Nat
  /-- The word to be run belongs to the setup part, which has not been completed (R250). -/
  inSetup : Bool
  /-- Element `n` of yK at key `64 K + n`. -/
  y     : Tab 32
  sreg  : Tab 32
  esc0  : Byte
  esc1  : Byte
  ySnap : Tab 32
  sSnap : Tab 32
  /-- The flags that the row in progress has raised (R40). -/
  flags : BitVec 6
  /-- The operand-log entry of the ACCDR (R243). -/
  entry : Nat
deriving DecidableEq, Repr

/-- A tile task held by a cluster's scheduler (R244 to R246). -/
structure TileTask where
  id    : Nat
  team  : TeamId
  swarm : Nat
  lvl   : Level
  clus  : Nat
  ctx   : Nat
  seq   : Nat
  entry : DWord
  /-- The 512 bits of the record (R244). -/
  trec  : Nat
  bslot : Word
  cslot : Word
  core  : Option Nat
  /-- The words at EPADDR, once read and checked (R245). -/
  prog  : Option (List (BitVec 32))
  acc   : Tab 32
  /-- K steps done. -/
  step  : Nat
  /-- Its drain is complete, or a fault has ended its work. -/
  finished : Bool
  fcode : Nat
  flags : BitVec 6
deriving DecidableEq, Repr

/-! ### Partitions and management (R399 to R409) -/

/-- A management queue's binding (R401, R404). -/
structure MgmtQ where
  base : Nat
  func : Nat
  evec : Nat
  err  : Bool
  /-- The record that takes time to perform, as it was read once, and its VEC (R402, R403). -/
  cur  : Option (Instr × Nat)
deriving DecidableEq, Repr

/-- A level-2 slice (R400). -/
structure Slice where
  num    : Nat
  clus   : BitVec 96
  root2  : Nat
  roots1 : Tab 64
  queue  : Option MgmtQ
  hnd    : Nat
  carve  : Tab 32
  rP     : Bool
  rF     : Bool
  rL     : Bool
deriving DecidableEq, Repr

/-- A level-1 partition (R399). -/
structure Part where
  num    : Nat
  clus   : BitVec 96
  root3  : Nat
  brood  : Nat
  slices : List Slice
  queue  : Option MgmtQ
  hnd    : Nat
  carve  : Tab 32
  /-- Admission entry `e`: package [11:0], partition [15:12], valid [16] (R376). -/
  grants : Tab 32
  /-- The id of the partition's next grid (R288). -/
  nextId : Word
  /-- Record addresses that brood queue `8 * die + priority` has put into the backing region (R283, R399). -/
  spilt  : Tab 32
  /-- Reduction grants: node, base, count (R385). -/
  fr     : List (Nat × Nat × Nat)
deriving DecidableEq, Repr

/-- A master that can be frozen (R404, R408). -/
inductive Master where
  | core (k : Nat)
  | eng (k : Nat)
  | fn (die f : Nat)
deriving DecidableEq, Repr

/-- A freeze in force and its owner (R409). -/
structure Freeze where
  master : Master
  owner  : Level
  part   : Nat
  slice  : Nat
deriving DecidableEq, Repr

/-- The holder of a log (R407). -/
inductive LogOwner where
  | fw
  | part (p : Nat)
  | slice (p s : Nat)
deriving DecidableEq, Repr

/-- An event of a log (R407). -/
inductive LogEv where
  | freeze (m : Master)
  | machineCheck (a : Nat)
  /-- An uncorrectable error of a directory entry (R169), by the first address it covers. -/
  | dirError (a : Nat)
  | rebuild (d : Nat)
  | softError (stack pillar : Nat)
  | unitFailure (u : UnitId)
  /-- A poisoned inbound write of a function (R367). -/
  | poison (die f : Nat)
  | fault (t : TeamId) (cause : Nat) (a : DWord)
deriving DecidableEq, Repr

structure LogLine where
  owner : LogOwner
  log   : Nat
  ev    : LogEv
  /-- Overrun count of the entry (R407). -/
  overruns : Nat
deriving DecidableEq, Repr

/-- The fault record of a context that became Faulted (R315). -/
structure FaultRec where
  team  : TeamId
  owner : Level
  trapc : Word
  trapa : DWord
deriving DecidableEq, Repr

/-- An MSI-X message sent (R407). -/
structure Msi where
  func : Nat
  vec  : Nat
deriving DecidableEq, Repr

/-! ### The link (R365 to R389) -/

/-- What an outbound request asks for. -/
inductive ReqOp where
  | read (n : Nat)
  | write (bytes : List Byte)
  | atomic (ao : AO) (wide : Bool) (d c : DWord)
  /-- A line taken through CXL.cache (R369). -/
  | line
  /-- A contribution to a reduction slot (R387): slot, round, operation, N, ME, TMO, lanes, values. -/
  | fred (slot : Nat) (c : FredIn)
  /-- A collect of a reduction slot (R388): slot, round, ME, TMO. -/
  | collect (slot round me tmo : Nat)
  /-- A snoop of the fabric filter (R372). -/
  | snp
deriving DecidableEq, Repr

/-- Who waits for the answer of a request. -/
inductive ReqFor where
  /-- A lane's access: team, swarm, operand-log entry and lane. -/
  | lane (t : TeamId) (sw entry lane : Nat)
  /-- A part of an element of an engine operation (R212): context and number, and for a read where its bytes go. -/
  | engine (t : TeamId) (ctx n : Nat) (dst : Option Place)
  /-- Bytes that a word, a drain or an engine reads outside the package before it goes on: the team and the reader's key,
  the address and length. -/
  | fetch (t : TeamId) (key pa n : Nat)
  /-- Bytes that such a reader writes outside the package. -/
  | post (t : TeamId) (key : Nat)
  /-- A chain store's target (R383): the chain. -/
  | chain (n : Nat)
  /-- A read of a WAITC whose word lies outside the package (R180): the lane, of the handler frame or of the program's. -/
  | wait (t : TeamId) (sw lane : Nat) (inH : Bool)
  /-- A collect (R388): the swarm, the lanes that wait and their frame. -/
  | collect (t : TeamId) (sw : Nat) (lanes : BitVec 32) (inH : Bool)
  /-- A fabric request that this package forwarded (R350): the requester and its number. -/
  | forward (pkg : Nat) (n : Nat)
  /-- The recovery run (R413). -/
  | boot
  /-- The fabric filter, for a region (R372). -/
  | snp (region : Nat)
deriving DecidableEq, Repr

structure LinkReq where
  n    : Nat
  addr : Nat
  op   : ReqOp
  who  : ReqFor
  at_  : DWord
  fwd  : Bool
  part : Nat
  die  : Nat
  fnum : Nat
  /-- The Mirrek port, none for the host link. -/
  port : Option Nat
deriving DecidableEq, Repr

/-- Bytes that a fetch outside the package has brought, or the cause of its failure (R377): the model's own. -/
structure RBuf where
  team  : TeamId
  key   : Nat
  pa    : Nat
  n     : Nat
  cause : Nat
  bytes : List Byte
deriving DecidableEq, Repr

/-- The states of a function (R380). -/
inductive FnSt where | disabled | enabled | frozen | draining | torn
deriving DecidableEq, Repr

/-- A function of a Lerxis die that is not as it was at reset (R379, R380). -/
structure Fn where
  die     : Nat
  num     : Nat
  st      : FnSt
  part    : Option Nat
  slice   : Nat
  inbound : Bool
  late    : Nat
  /-- Reply reservations kept while Draining, and since when. -/
  kept    : List Nat
  since   : Nat
  /-- Requests that a teardown has left behind: a reply to one is dropped and counted. -/
  dropped : List Nat
  /-- Configuration space (R367). -/
  cfg     : Tab 32
deriving DecidableEq, Repr

/-- A piece of an inbound write (R370): its route and its lines in order, each with its bytes. -/
structure Piece where
  route    : Nat
  lines    : List (Nat × List Byte)
  /-- The order of its release onto its route. -/
  released : Option Nat
  acked    : Bool
deriving DecidableEq, Repr

/-- An inbound write in the ordering point of a die (R370). -/
structure InWrite where
  die    : Nat
  num    : Nat
  ro     : Bool
  pieces : List Piece
deriving DecidableEq, Repr

/-- An answer of the part to the host (R367, R370, R380). -/
structure HostAns where
  die  : Nat
  fn   : Nat
  /-- 0 successful, 1 Unsupported Request, 4 Completer Abort. -/
  stat : Nat
  data : List Byte
deriving DecidableEq, Repr

/-- An answer of the part to a fabric request (R376, R377): requester, cause or 0, data. -/
structure FabAns where
  pkg   : Nat
  n     : Nat
  cause : Nat
  data  : List Byte
deriving DecidableEq, Repr

/-- A Mirrek port's transmit side (R374): flits that wait (partition and request) and copies awaiting acknowledgement. -/
structure Port where
  num    : Nat
  tx     : List (Nat × Nat)
  replay : List Nat
  /-- Flits put on the wire, resent ones included. -/
  sent   : Nat
deriving DecidableEq, Repr

/-- A host-window line held through CXL.cache (R369). -/
structure CxlLine where
  line  : Nat
  bytes : Tab 8
  dirty : Bool
deriving DecidableEq, Repr

/-- A chain store under way (R383): its issuer with the operand-log entry that it holds, data, scope, and the targets
left: DST, SYNC and DST's physical address. `out` says that the first of them has been sent. -/
structure Chain where
  num    : Nat
  team   : TeamId
  swarm  : Nat
  entry  : Nat
  lane   : Nat
  out    : Bool
  data   : List Byte
  scope  : Scope
  left   : List (DWord × DWord × Nat)
deriving DecidableEq, Repr

/-- A reduction slot of a hive node, as the contributions have left it (R386). -/
structure NodeSlot where
  node     : Nat
  slot     : Nat
  round    : Nat
  op       : FredOp
  n        : Nat
  count    : Nat
  who      : BitVec 64
  emask    : BitVec 32
  els      : List Word
  deadline : Nat
  /-- 0 open, 1 closed complete, 2 closed timeout. -/
  closed   : Nat
  late     : BitVec 64
  /-- Contributors answered mismatch in this round. -/
  mism     : BitVec 64
deriving DecidableEq, Repr

/-- The link's own state. -/
structure Link where
  fns       : List Fn
  /-- Lerxis dies whose host link trained as CXL (R368). -/
  cxlDies   : List Nat
  /-- The partition that decodes the HDM range (R368). -/
  hdm       : Option Nat
  inw       : List InWrite
  inNo      : Nat
  hostOut   : List HostAns
  fabOut    : List FabAns
  ports     : List Port
  /-- Lines recorded by the device-side directories, and back-invalidation snoops not yet answered (R368). -/
  hostLines : List Nat
  bis       : List Nat
  cxl       : List CxlLine
  /-- What the fabric filters record, oldest first: 512-byte region and package (R372). -/
  fabLines  : List (Nat × Nat)
  chains    : List Chain
  slots     : List NodeSlot
  reqs      : List LinkReq
  reqNo     : Nat
  bufs      : List RBuf
deriving DecidableEq, Repr

/-- Bring-up: ready map, recovery window and flash (R410 to R413). -/
structure Boot where
  ready : BitVec 512
  code  : Word
  done  : Word
  len   : Word
  addr  : DWord
  state : Nat
  /-- The bytes that the recovery run has read. -/
  buf   : List Byte
  /-- The image in flash. -/
  flash : List Byte
deriving DecidableEq, Repr

/-! ### The machine -/

/-- One entry of the schedule: what happens next. The manual leaves open how the agents interleave; the schedule is
plain data, so a claim about every schedule is a claim about every interleaving. -/
inductive Turn where
  /-- The lanes of one group of a swarm issue their word (R123, R124). -/
  | issue (tm : TeamId) (sw : Nat)
  /-- The same, where a swarm whose remote replies have come for some lanes splits (R378). -/
  | split (tm : TeamId) (sw : Nat)
  /-- An event of the part; events only. -/
  | event (i : Instr)
  /-- A management queue performs its next record (R403). -/
  | mgmt (q : QId)
  /-- The epilogue processor runs the next word of the drain in progress (R250). -/
  | epi
  /-- A line leaves a core's L1 (R141). -/
  | evict (core line : Nat)
  /-- A line leaves a die's L2 (R141). -/
  | evictL2 (die line : Nat)
  /-- An instruction line leaves a core (R132). -/
  | evictI (core line : Nat)
  /-- A translation leaves a cluster's TLB (R348). -/
  | evictT (n : Nat)
  /-- An uncorrectable error strikes the data of a line, or is gone from it (R213, R223, R246). -/
  | dataError (line : Nat) (on : Bool)
  /-- A home performs the next line of a released piece of an inbound write (R370). -/
  | homeLine (die w route : Nat)
  /-- Time passes: $pulse counts on. -/
  | wait (ns : Nat)
deriving DecidableEq, Repr

structure State where
  turns  : List Turn
  focus  : Option Focus
  /-- $pulse (R81). -/
  pulse  : DWord
  /-- The model's own counter that free values are drawn with. -/
  draws  : Nat
  pkgid  : Word
  teams  : List Team
  m      : MemSys
  arrivals : List Arrival
  /-- Gather windows closed so far: the model's own, for the order of closing (R219). -/
  winNo  : Nat
  drains : List Drain
  /-- The drain whose program word is run next: its position in the list. -/
  epi    : Option Nat
  tasks  : List TileTask
  taskNo : Nat
  parts  : List Part
  fwq    : Option MgmtQ
  freezes : List Freeze
  logs   : List LogLine
  faults : List FaultRec
  msis   : List Msi
  /-- Forwarded accesses counted per partition: log 3 (R407). -/
  forwarded : Tab 32
  grids  : List Grid
  gridNo : Nat
  gangs  : List Gang
  gangNo : Nat
  conts  : List Cont
  contNo : Nat
  decs   : List Dec
  groups : List Group
  link   : Link
  boot   : Boot
deriving DecidableEq, Repr

/-- The package's memories right after reset: nothing is listed, and nothing is held. -/
def MemSys.reset : MemSys where
  ram     := []
  l3      := []
  l1      := []
  l2      := []
  l3c     := []
  invq    := []
  dirs    := []
  misses  := []
  mons    := []
  tlb     := []
  pins    := []
  icache  := []
  stackSts := []
  moving  := []
  bad     := []
  rebuild := []
  unlaid  := []

def Link.reset : Link where
  fns       := []
  cxlDies   := []
  hdm       := none
  inw       := []
  inNo      := 0
  hostOut   := []
  fabOut    := []
  ports     := []
  hostLines := []
  bis       := []
  cxl       := []
  fabLines  := []
  chains    := []
  slots     := []
  reqs      := []
  reqNo     := 0
  bufs      := []

/-- Bring-up right after reset: every ready bit is 0 (R410) and the recovery window is idle (R413). What flash holds is
not given (assumption 1). -/
def Boot.reset : Boot where
  ready := 0
  code  := 0
  done  := 0
  len   := 0
  addr  := 0
  state := 0
  buf   := []
  flash := []

/-- The machine right after reset: no partition, grid or team exists, $pulse counts from 0 (R410), and nothing is
scheduled. -/
def State.reset : State where
  turns     := []
  focus     := none
  pulse     := 0
  draws     := 0
  pkgid     := 0
  teams     := []
  m         := MemSys.reset
  arrivals  := []
  winNo     := 0
  drains    := []
  epi       := none
  tasks     := []
  taskNo    := 0
  parts     := []
  fwq       := none
  freezes   := []
  logs      := []
  faults    := []
  msis      := []
  forwarded := []
  grids     := []
  gridNo    := 1
  gangs     := []
  gangNo    := 1
  conts     := []
  contNo    := 1
  decs      := []
  groups    := []
  link      := Link.reset
  boot      := Boot.reset

end Sys2Proof.Machine
end

