-- ==== Sys2Proof/Machine/Bits.lean ====
section
/-!
DEFINITION. Bit and list helpers shared by the meanings: signed readings, clamping, lists by index, lane masks.
-/
namespace Sys2Proof.Machine

/-- The signed reading of the low `w` bits of a natural. -/
def sInt (w n : Nat) : Int :=
  let x := n % 2 ^ w
  if x < 2 ^ (w - 1) then (x : Int) else (x : Int) - (2 ^ w : Nat)

/-- The residue of an integer modulo 2^w. -/
def modW (w : Nat) (x : Int) : Nat := (x % ((2 ^ w : Nat) : Int)).toNat

/-- The lowest value of an integer type of `w` bits. -/
def minOf (sg : Bool) (w : Nat) : Int := if sg then -((2 ^ (w - 1) : Nat) : Int) else 0
/-- The highest value of an integer type of `w` bits. -/
def maxOf (sg : Bool) (w : Nat) : Int := if sg then ((2 ^ (w - 1) : Nat) : Int) - 1 else ((2 ^ w : Nat) : Int) - 1

/-- An integer read from bits by its type. -/
def readInt (sg : Bool) (w n : Nat) : Int := if sg then sInt w n else ((n % 2 ^ w : Nat) : Int)

/-- An 18-bit immediate extended to 64 bits by its sign (R51). -/
def imm64 (x : BitVec 18) : DWord := x.signExtend 64

/-- The `n`-th member of a list, or a default. -/
def nth {α : Type} (d : α) : List α → Nat → α
  | [], _ => d
  | x :: _, 0 => x
  | _ :: t, n + 1 => nth d t n

/-- Change the `n`-th member of a list. -/
def upd {α : Type} (f : α → α) : List α → Nat → List α
  | [], _ => []
  | x :: t, 0 => f x :: t
  | x :: t, n + 1 => x :: upd f t n

/-- The numbers 0 to 31. -/
def lanes32 : List Nat := List.range 32

/-- The lanes of a mask in ascending order. -/
def lanesOf (m : BitVec 32) : List Nat := lanes32.filter m.getLsbD

/-- The lowest lane of a mask. -/
def lowest (m : BitVec 32) : Option Nat := (lanesOf m).head?

/-- The highest lane of a mask. -/
def highest (m : BitVec 32) : Option Nat := (lanesOf m).getLast?

/-- The mask of the lanes that satisfy a test. -/
def maskOf (p : Nat → Bool) : BitVec 32 := lanes32.foldl (fun m i => if p i then m ||| (1#32 <<< i) else m) 0

/-- A mask with one lane. -/
def bit32 (i : Nat) : BitVec 32 := 1#32 <<< i

/-- How many lanes a mask holds. -/
def countOf (m : BitVec 32) : Nat := (lanesOf m).length

/-- The bits of a natural as Booleans, lowest first. -/
def bitsOf (w n : Nat) : List Bool := (List.range w).map n.testBit

/-- The natural of a list of bits, lowest first. -/
def ofBits : List Bool → Nat
  | [] => 0
  | b :: t => (if b then 1 else 0) + 2 * ofBits t

/-- Widen a result of `w` bits to 32 by its type (R72, R88). -/
def widen (sg : Bool) (w n : Nat) : Word := if sg then BitVec.ofInt 32 (sInt w n) else BitVec.ofNat 32 (n % 2 ^ w)

/-- The low and high words of a pair. -/
def loW (x : DWord) : Word := x.extractLsb' 0 32
def hiW (x : DWord) : Word := x.extractLsb' 32 32
def pairOf (lo hi : Word) : DWord := hi ++ lo

/-- Division rounded up. -/
def ceilDiv (a b : Nat) : Nat := (a + b - 1) / b

end Sys2Proof.Machine
end

