-- ==== Sys2Proof/Machine/Float.lean ====
section
/-!
DEFINITION. Numbers to the bit (R28 to R45): the five formats, exact values, the one rounding function with its flags,
exact sums of products, conversions, and MXFP8 quantisation.
-/
namespace Sys2Proof.Machine

/-- A floating-point format: exponent and mantissa widths, bias, and whether it is E4M3, which has no infinity and one
NaN mantissa (R28). -/
structure Fmt where
  eb   : Nat
  mb   : Nat
  bias : Nat
  e4   : Bool
deriving DecidableEq, Repr

def fF32 : Fmt := ⟨8, 23, 127, false⟩
def fF16 : Fmt := ⟨5, 10, 15, false⟩
def fBf16 : Fmt := ⟨8, 7, 127, false⟩
def fE4m3 : Fmt := ⟨4, 3, 7, true⟩
def fE5m2 : Fmt := ⟨5, 2, 15, false⟩

/-- The format of an FR type (R61). -/
def ftyFmt : FTy → Fmt
  | .f32 => fF32
  | .f16 => fF16
  | .bf16 => fBf16

/-- Width of a format in bits. -/
def Fmt.width (f : Fmt) : Nat := 1 + f.eb + f.mb

/-- Sticky flags as $fflags [5:0] lays them out (R39). -/
abbrev Flags := BitVec 6
def flSA : Flags := 32
def flNV : Flags := 16
def flDZ : Flags := 8
def flOF : Flags := 4
def flUF : Flags := 2
def flNX : Flags := 1

/-- A floating-point datum: a NaN (signalling or quiet), an infinity, or the exact value ±m × 2^e. -/
inductive FV where
  | nan (sig : Bool)
  | inf (neg : Bool)
  | fin (neg : Bool) (m : Nat) (e : Int)
deriving DecidableEq, Repr

/-- R28, R29: the datum that bits encode. -/
def unpackF (f : Fmt) (x : Nat) : FV :=
  let man := x % 2 ^ f.mb
  let ex := x / 2 ^ f.mb % 2 ^ f.eb
  let neg := x.testBit (f.eb + f.mb)
  let top := 2 ^ f.eb - 1
  if f.e4 && ex == top && man == 2 ^ f.mb - 1 then .nan false
  else if !f.e4 && ex == top then (if man = 0 then .inf neg else .nan (!man.testBit (f.mb - 1)))
  else if ex = 0 then .fin neg man (1 - (f.bias : Int) - f.mb)
  else .fin neg (2 ^ f.mb + man) ((ex : Int) - f.bias - f.mb)

/-- The canonical NaN (R28, R30). -/
def nanBits (f : Fmt) : Nat :=
  if f.e4 then 0x7F else (2 ^ f.eb - 1) * 2 ^ f.mb + 2 ^ (f.mb - 1)

/-- The largest finite magnitude as bits (R28). -/
def maxBits (f : Fmt) : Nat := if f.e4 then 0x7E else (2 ^ f.eb - 1) * 2 ^ f.mb - 1

/-- The bit of the sign. -/
def signBit (f : Fmt) (neg : Bool) : Nat := if neg then 2 ^ (f.eb + f.mb) else 0

/-- An infinity; E4M3 holds its NaN instead (R37). -/
def infBits (f : Fmt) (neg : Bool) : Nat :=
  if f.e4 then 0x7F else signBit f neg + (2 ^ f.eb - 1) * 2 ^ f.mb

/-- A zero. -/
def zeroBits (f : Fmt) (neg : Bool) : Nat := signBit f neg

/-- Whether a truncated magnitude is moved up by a mode (R37): `odd` of the kept part, and the comparison of the
dropped part with one half. -/
def roundsUp (r : Rnd) (neg odd : Bool) (rem half2 : Nat) : Bool :=
  match r with
  | .rne => decide (half2 < 2 * rem) || (decide (2 * rem = half2) && odd)
  | .rz => false
  | .rd => neg && rem != 0
  | .ru => !neg && rem != 0

/-- Round m × 2^e to a multiple of 2^q: the multiple and whether the result is inexact. -/
def roundAt (r : Rnd) (neg : Bool) (m : Nat) (e q : Int) : Nat × Bool :=
  if q ≤ e then (m * 2 ^ (e - q).toNat, false)
  else
    let d := 2 ^ (q - e).toNat
    let n := m / d
    let rem := m % d
    (if roundsUp r neg (n % 2 == 1) rem d then n + 1 else n, rem != 0)

/-- R37: the exact non-zero value ±m × 2^e rounded into a format, with its flags. -/
def roundF (f : Fmt) (r : Rnd) (sat : Bool) (neg : Bool) (m : Nat) (e : Int) : Nat × Flags :=
  if m = 0 then (zeroBits f neg, 0)
  else
    let top : Int := e + Nat.log2 m
    let emin : Int := 1 - f.bias
    let qu : Int := top - f.mb
    let q : Int := max top emin - f.mb
    let (n, inexact) := roundAt r neg m e q
    let (nu, _) := roundAt r neg m e qu
    let packed := (q + f.mb + f.bias - 1).toNat * 2 ^ f.mb + n
    let tiny : Bool := decide (top < emin) && !(decide (top = emin - 1) && nu == 2 ^ (f.mb + 1))
    if maxBits f < packed then
      if sat then (signBit f neg + maxBits f, flSA ||| flNX)
      else
        let toInf : Bool := match r with
          | .rne => true
          | .rz => false
          | .rd => neg
          | .ru => !neg
        (if toInf then infBits f neg else signBit f neg + maxBits f, flOF ||| flNX)
    else (signBit f neg + packed, (if inexact then flNX else 0) ||| (if tiny && inexact then flUF else 0))

/-- The exact value of a finite datum as a multiple of 2^q, for q at or below its exponent. -/
def FV.scaled (q : Int) : FV → Int
  | .fin neg m e => let x : Int := (m * 2 ^ (e - q).toNat : Nat); if neg then -x else x
  | _ => 0

/-- The exponent of a finite datum, above every other kind. -/
def FV.expo : FV → Option Int
  | .fin _ _ e => some e
  | _ => none

/-- The lowest exponent of a list of data. -/
def minExpo : List FV → Int
  | [] => 0
  | v :: t =>
    match v.expo, t with
    | some e, [] => e
    | some e, _ => min e (minExpo t)
    | none, _ => minExpo t

def FV.isNan : FV → Bool
  | .nan _ => true
  | _ => false
def FV.isSnan : FV → Bool
  | .nan s => s
  | _ => false
def FV.isInf : FV → Bool
  | .inf _ => true
  | _ => false
def FV.isZero : FV → Bool
  | .fin _ m _ => m == 0
  | _ => false
def FV.neg : FV → Bool
  | .nan _ => false
  | .inf n => n
  | .fin n _ _ => n

/-- The exact product of two data; 0 × ∞ is a signalling NaN here, since it sets NV (R103). -/
def mulFV (a b : FV) : FV :=
  match a, b with
  | .nan s, .nan t => .nan (s || t)
  | .nan s, _ => .nan s
  | _, .nan t => .nan t
  | .inf n, .inf k => .inf (n != k)
  | .inf n, .fin k m _ => if m = 0 then .nan true else .inf (n != k)
  | .fin n m _, .inf k => if m = 0 then .nan true else .inf (n != k)
  | .fin n m e, .fin k p g => .fin (n != k) (m * p) (e + g)

/-- An exact sum of finite data rounded once; an exact zero takes its sign by R29. -/
def sumRound (f : Fmt) (r : Rnd) (sat : Bool) (ts : List FV) : Nat × Flags :=
  let q := minExpo ts
  let x := ts.foldl (fun s t => s + t.scaled q) (0 : Int)
  if x = 0 then
    if ts.all (fun t => t.isZero && t.neg) then (zeroBits f true, 0)
    else if ts.all (fun t => t.isZero && !t.neg) then (zeroBits f false, 0)
    else (zeroBits f (r == .rd), 0)
  else roundF f r sat (decide (x < 0)) x.natAbs q

/-- IEEE 754 addition of exact data with one rounding (R103): ∞ − ∞ sets NV, a signalling NaN sets NV. -/
def addFV (f : Fmt) (r : Rnd) (sat : Bool) (a b : FV) : Nat × Flags :=
  match a, b with
  | .nan s, .nan t => (nanBits f, if s || t then flNV else 0)
  | .nan s, _ => (nanBits f, if s then flNV else 0)
  | _, .nan t => (nanBits f, if t then flNV else 0)
  | .inf n, .inf k => if n = k then (infBits f n, 0) else (nanBits f, flNV)
  | .inf n, _ => (infBits f n, 0)
  | _, .inf k => (infBits f k, 0)
  | a, b => sumRound f r sat [a, b]

/-- A × B rounded once (R103). -/
def mulRound (f : Fmt) (r : Rnd) (sat : Bool) (a b : FV) : Nat × Flags :=
  match mulFV a b with
  | .nan s => (nanBits f, if s then flNV else 0)
  | .inf n => (infBits f n, 0)
  | .fin n m e => roundF f r sat n m e

def negFV : FV → FV
  | .nan s => .nan s
  | .inf n => .inf (!n)
  | .fin n m e => .fin (!n) m e

/-- A × B + C rounded once (R103). -/
def fmaFV (f : Fmt) (r : Rnd) (sat : Bool) (a b c : FV) : Nat × Flags := addFV f r sat (mulFV a b) c

/-- R44, R45: an exact sum of products and an addend, rounded once. R45 gives an exact zero sum its sign, and an overflow its
value, under RNE, which MMA has; for FDOT4 in another mode both go by the mode (assumption 94). -/
def dotFV (f : Fmt) (r : Rnd) (sat : Bool) (ps : List (FV × FV)) (c : FV) : Nat × Flags :=
  let prods := ps.map fun p => mulFV p.1 p.2
  let anyNan := ps.any (fun p => p.1.isNan || p.2.isNan) || prods.any FV.isNan
  let infs := (prods ++ [c]).filter FV.isInf
  let mixed := infs.any FV.neg && infs.any (fun v => !v.neg)
  if anyNan || mixed then (nanBits f, flNV)
  else if c.isNan then (nanBits f, if c.isSnan then flNV else 0)
  else match infs with
    | v :: _ => (infBits f v.neg, 0)
    | [] => sumRound f r sat (c :: prods)

/-- The value order of two data that are not NaN, with −0 equal to +0. -/
def ltFV (a b : FV) : Bool :=
  match a, b with
  | .inf n, .inf k => n && !k
  | .inf n, _ => n
  | _, .inf k => !k
  | a, b => let q := minExpo [a, b]; decide (a.scaled q < b.scaled q)

def eqFV (a b : FV) : Bool :=
  match a, b with
  | .inf n, .inf k => n == k
  | .inf _, _ => false
  | _, .inf _ => false
  | a, b => let q := minExpo [a, b]; decide (a.scaled q = b.scaled q)

/-- R104: minimumNumber and maximumNumber on bits, taking −0 below +0. -/
def minmaxF (f : Fmt) (isMax : Bool) (x y : Nat) : Nat × Flags :=
  let a := unpackF f x
  let b := unpackF f y
  let fl : Flags := if a.isSnan || b.isSnan then flNV else 0
  if a.isNan && b.isNan then (nanBits f, fl)
  else if a.isNan then (y, fl)
  else if b.isNan then (x, fl)
  else
    let less : Bool := ltFV a b || (eqFV a b && a.neg && !b.neg)
    (if less != isMax then x else y, fl)

/-- R105: a comparison and its flags. -/
def cmpF (f : Fmt) (c : FCond) (x y : Nat) : Bool × Flags :=
  let a := unpackF f x
  let b := unpackF f y
  let un := a.isNan || b.isNan
  let snan := a.isSnan || b.isSnan
  let fl : Flags := match c with
    | .lt | .le | .gt | .ge => if un then flNV else 0
    | _ => if snan then flNV else 0
  (match c with
    | .eq => !un && eqFV a b
    | .ne => un || !eqFV a b
    | .lt => !un && ltFV a b
    | .le => !un && (ltFV a b || eqFV a b)
    | .gt => !un && ltFV b a
    | .ge => !un && (ltFV b a || eqFV a b)
    | .un => un
    | .num => !un, fl)

/-- A datum rounded into a format; a NaN canonical, an infinity kept (R37, R38 for the formats with infinities). -/
def packFV (f : Fmt) (r : Rnd) (sat : Bool) (v : FV) : Nat × Flags :=
  match v with
  | .nan s => (nanBits f, if s then flNV else 0)
  | .inf n => (infBits f n, 0)
  | .fin n m e => roundF f r sat n m e

/-- R38: a float converted to another float format. An infinity into E4M3 sets NV, and SA too when saturated; an
infinity into E5M2 under saturation becomes its largest finite value and sets SA. -/
def cvtFF (src dst : Fmt) (r : Rnd) (sat : Bool) (x : Nat) : Nat × Flags :=
  let v := unpackF src x
  if src = dst then
    match v with
    | .nan s => (nanBits dst, if s then flNV else 0)
    | _ => (x % 2 ^ src.width, 0)
  else match v with
    | .inf n =>
      if dst.e4 then
        if sat then (signBit dst n + maxBits dst, flNV ||| flSA) else (nanBits dst, flNV)
      else if dst = fE5m2 ∧ sat then (signBit dst n + maxBits dst, flSA)
      else (infBits dst n, 0)
    | _ => packFV dst r sat v

/-- R38: a float converted to an integer type; always saturates. -/
def cvtFI (src : Fmt) (sg : Bool) (w : Nat) (r : Rnd) (x : Nat) : Nat × Flags :=
  match unpackF src x with
  | .nan _ => (0, flNV)
  | .inf n => (modW w (if n then minOf sg w else maxOf sg w), flNV)
  | .fin n m e =>
    let (k, inexact) := roundAt r n m e 0
    let y : Int := if n then -(k : Int) else k
    let lo := minOf sg w
    let hi := maxOf sg w
    if ltFV (.fin n m e) (.fin (decide (lo < 0)) lo.natAbs 0) then (modW w lo, flNV)
    else if ltFV (.fin false hi.natAbs 0) (.fin n m e) then (modW w hi, flNV)
    else (modW w y, if inexact then flNX else 0)

/-- R38: an integer converted to a float. -/
def cvtIF (sg : Bool) (w : Nat) (dst : Fmt) (r : Rnd) (sat : Bool) (x : Nat) : Nat × Flags :=
  let y := readInt sg w x
  if y = 0 then (0, 0) else roundF dst r sat (decide (y < 0)) y.natAbs 0

/-- R108: an integer converted to an integer. -/
def cvtII (sg : Bool) (w : Nat) (sg' : Bool) (w' : Nat) (sat : Bool) (x : Nat) : Nat × Flags :=
  let y := readInt sg w x
  let lo := minOf sg' w'
  let hi := maxOf sg' w'
  if sat ∧ (y < lo ∨ hi < y) then (modW w' (if y < lo then lo else hi), flSA) else (modW w' y, 0)

/-- The float format of a format code, or its integer type (R41). -/
inductive Num where
  | flt (f : Fmt)
  | int (sg : Bool) (w : Nat)
deriving DecidableEq, Repr

def numOf (code : Nat) : Option Num :=
  match code with
  | 0x00 => some (.flt fF32)
  | 0x01 => some (.flt fF16)
  | 0x02 => some (.flt fBf16)
  | 0x03 => some (.flt fE4m3)
  | 0x04 => some (.flt fE5m2)
  | 0x08 => some (.int true 8)
  | 0x09 => some (.int true 16)
  | 0x0A => some (.int true 32)
  | 0x0B => some (.int true 64)
  | 0x0C => some (.int false 8)
  | 0x0D => some (.int false 16)
  | 0x0E => some (.int false 32)
  | 0x0F => some (.int false 64)
  | _ => none

def Num.width : Num → Nat
  | .flt f => f.width
  | .int _ w => w
def Num.signed : Num → Bool
  | .flt _ => false
  | .int sg _ => sg

/-- R38, R108: conversion between any two formats that FCVT takes. -/
def convert (src dst : Num) (r : Rnd) (sat : Bool) (x : Nat) : Nat × Flags :=
  match src, dst with
  | .flt f, .flt g => cvtFF f g r sat x
  | .flt f, .int sg w => cvtFI f sg w r x
  | .int sg w, .flt g => cvtIF sg w g r sat x
  | .int sg w, .int sg' w' => cvtII sg w sg' w' sat x

/-- R104 to R106: a reciprocal, correctly rounded. -/
def recipF (f : Fmt) (r : Rnd) (sat : Bool) (x : Nat) : Nat × Flags :=
  match unpackF f x with
  | .nan s => (nanBits f, if s then flNV else 0)
  | .inf n => (zeroBits f n, 0)
  | .fin n m e =>
    if m = 0 then (infBits f n, flDZ)
    else
      let k := Nat.log2 m + f.mb + 4
      let q := 2 ^ k / m
      let st := if 2 ^ k % m = 0 then 0 else 1
      roundF f r sat n (2 * q + st) (-(k : Int) - e - 1)

/-- The integer square root by bits, from bit `k` down. -/
def isqrtGo (n : Nat) : Nat → Nat → Nat
  | 0, acc => acc
  | k + 1, acc =>
    let t := acc + 2 ^ k
    isqrtGo n k (if t * t ≤ n then t else acc)

def isqrt (n : Nat) : Nat := isqrtGo n (Nat.log2 n / 2 + 1) 0

/-- R106: a square root, correctly rounded. -/
def sqrtF (f : Fmt) (r : Rnd) (sat : Bool) (x : Nat) : Nat × Flags :=
  match unpackF f x with
  | .nan s => (nanBits f, if s then flNV else 0)
  | .inf n => if n then (nanBits f, flNV) else (infBits f false, 0)
  | .fin n m e =>
    if m = 0 then (zeroBits f n, 0)
    else if n then (nanBits f, flNV)
    else
      let sh := 2 * f.mb + 8 + (if (e - (2 * f.mb + 8 : Nat)) % 2 = 0 then 0 else 1)
      let big := m * 2 ^ sh
      let s := isqrt big
      let st := if s * s = big then 0 else 1
      roundF f r sat false (2 * s + st) ((e - sh) / 2 - 1)

/-- R107: rounding to an integral value in the same format; no NX. -/
def rndF (f : Fmt) (r : Rnd) (x : Nat) : Nat × Flags :=
  match unpackF f x with
  | .nan s => (nanBits f, if s then flNV else 0)
  | .inf n => (infBits f n, 0)
  | .fin n m e =>
    let (k, _) := roundAt r n m e 0
    if k = 0 then (zeroBits f n, 0) else ((roundF f .rz false n k 0).1, 0)

/-! ### Scales and MXFP8 blocks (R32 to R36) -/

/-- An E8M0 scale's exponent, or none for NaN (R32). -/
def scaleExp (e : Nat) : Option Int := if e = 0xFF then none else some ((e : Int) - 127)

/-- R34: a group-scaled integer expanded to BF16. -/
def expandQ (x : Int) (scale : Nat) : Nat × Flags :=
  match scaleExp scale with
  | none => (0x7FC0, 0)
  | some s =>
    if x = 0 then (0, 0)
    else
      let (b, fl) := roundF fBf16 .rne false (decide (x < 0)) x.natAbs s
      if fl &&& flOF = 0 then (b, 0) else (infBits fBf16 (decide (x < 0)), flOF)

/-- The largest finite magnitude of an MXFP8 element format, as 7 × 2^k (R36). -/
def mxTop (e4 : Bool) : Nat := if e4 then 6 else 13

/-- R36: the scale of 32 magnitudes, each an exact datum; NV on an infinity. -/
def blockScale (e4 : Bool) (vs : List FV) : Nat × Flags :=
  if vs.any (fun v => v.isNan || v.isInf) then
    (0xFF, if vs.any (fun v => v.isInf || v.isSnan) then flNV else 0)
  else
    let q := minExpo vs
    let a := vs.foldl (fun s v => max s (v.scaled q).natAbs) 0
    if a = 0 then (0, 0)
    else
      let l := Nat.log2 a + 1
      let u : Int := if 8 * a ≤ 7 * 2 ^ l then (l : Int) - 3 else (l : Int) - 2
      let e := 127 + u + q - mxTop e4
      ((max 0 (min 254 e)).toNat, 0)

/-- R36, R255: one element quantised under a scale, saturating to ±M. -/
def quantElem (e4 : Bool) (r : Rnd) (scale : Nat) (v : FV) : Nat × Flags :=
  let f := if e4 then fE4m3 else fE5m2
  match scaleExp scale, v with
  | none, v => (nanBits f, if v.isSnan then flNV else 0)
  | _, .nan s => (nanBits f, if s then flNV else 0)
  | _, .inf n => (signBit f n + maxBits f, flNV ||| flSA)
  | some s, .fin n m e => roundF f r true n m (e - s)

end Sys2Proof.Machine
end

