-- ==== Sys2Proof/Machine/Operands.lean ====
section
/-!
DEFINITION. Registers and operands: the register space and its views (R68 to R75), latches and operand file (R72),
sources with their modifiers (R55, R88, R90), and destinations (R58, R72, R88).
-/
namespace Sys2Proof.Machine

/-- A lane that is not there. -/
def deadLane : Lane where
  pc := 0
  exited := true
  bsync := none
  park := none
  woken := false
  l0 := 0
  l1 := 0
  ofile := []
  preds := 1
  fflags := 0
  bx := 0
  by_ := 0
  bseq := 0
  btag := 0
  bn := 0
  age := 0

def lane (fr : Frame) (i : Nat) : Lane := nth deadLane fr.lanes i
def updLane (fr : Frame) (i : Nat) (f : Lane → Lane) : Frame := { fr with lanes := upd f fr.lanes i }

/-- The non-exited lanes of a frame. -/
def liveLanes (fr : Frame) : BitVec 32 := maskOf fun i => !(lane fr i).exited

/-- Row `n` is live for lane `i` (R75, R86). -/
def rowLive (fr : Frame) (n i : Nat) : Bool := fr.live.getLsbD n && !(fr.freed.get n).getLsbD i

/-- The stored word of row `n` and lane `i`, whether or not the lane has freed it. -/
def rawReg (fr : Frame) (i n : Nat) : Word := fr.regs.get (32 * n + i)

/-- RegV(i, n): a read of a row that is not live, or that the lane has freed, returns 0 (R75). -/
def reg (fr : Frame) (i n : Nat) : Word := if rowLive fr n i then rawReg fr i n else 0

/-- The words of row `n` are 0 in every lane. -/
def clearRow (t : Tab 32) (n : Nat) : Tab 32 := Tab.keep (fun k => k / 32 != n) t

/-- A write makes the row live, its other words 0 when it was not, and takes the lane out of the set that freed it (R75,
R86). -/
def setReg (fr : Frame) (i n : Nat) (w : Word) : Frame :=
  { fr with
    regs := (if fr.live.getLsbD n then fr.regs else clearRow fr.regs n).set (32 * n + i) w
    live := fr.live ||| (1#512 <<< n)
    freed := fr.freed.set n (if fr.live.getLsbD n then fr.freed.get n &&& ~~~(bit32 i) else 0) }

/-- A pair vN:2. -/
def regPair (fr : Frame) (i n : Nat) : DWord := pairOf (reg fr i n) (reg fr i (n + 1))
def setPair (fr : Frame) (i n : Nat) (x : DWord) : Frame := setReg (setReg fr i n (loW x)) i (n + 1) (hiW x)

/-- Lane bytes `b` to `b + sz − 1` of the raw view, aligned to `sz` (R69). -/
def rawBytes (fr : Frame) (i b sz : Nat) : Nat :=
  if sz = 8 then (regPair fr i (b / 4)).toNat
  else (reg fr i (b / 4)).toNat / 2 ^ (8 * (b % 4)) % 2 ^ (8 * sz)

/-- Write lane bytes of the raw view; the other bytes of the word stay. -/
def setRawBytes (fr : Frame) (i b sz x : Nat) : Frame :=
  if sz = 8 then setPair fr i (b / 4) (BitVec.ofNat 64 x)
  else
    let old := if fr.live.getLsbD (b / 4) then (rawReg fr i (b / 4)).toNat else 0
    let sh := 8 * (b % 4)
    let keep := old - (old / 2 ^ sh % 2 ^ (8 * sz)) * 2 ^ sh
    setReg fr i (b / 4) (BitVec.ofNat 32 (keep + x % 2 ^ (8 * sz) * 2 ^ sh))

/-! ### Sources -/

/-- The type of an operand, for its sign modifier (R55, R109, R110). -/
inductive OpTy where
  | int (sg : Bool) (w : Nat)
  | flt (f : Fmt)
  /-- Two BF16 halves (R109). -/
  | halves
  /-- Four FP8 bytes (R110). -/
  | bytes4
  | pat (w : Nat)
deriving DecidableEq, Repr

def OpTy.width : OpTy → Nat
  | .int _ w => w
  | .flt f => f.width
  | .halves | .bytes4 => 32
  | .pat w => w

/-- The mask of the sign bits of an operand of a floating type. -/
def OpTy.signMask : OpTy → Nat
  | .flt f => 2 ^ (f.eb + f.mb)
  | .halves => 0x80008000
  | .bytes4 => 0x80808080
  | _ => 0

/-- R55: the sign modifiers 1 (−x), 2 (|x|) and 3 (−|x|). -/
def applySign (t : OpTy) (m : BitVec 4) (x : Nat) : Nat :=
  let w := t.width
  let x := x % 2 ^ w
  match t with
  | .int sg w =>
    let a : Int := if sg then (sInt w x).natAbs else x
    if m = 1 then modW w (-(x : Int)) else if m = 2 then modW w a else if m = 3 then modW w (-a) else x
  | .pat _ => x
  | t =>
    let k := t.signMask
    if m = 1 then x ^^^ k else if m = 2 then x &&& (2 ^ w - 1 - k) else if m = 3 then x ||| k else x

/-- R90: the source position of a cross-lane modifier, in a group of `g` lanes with lane at position `p`. -/
def xlPos (code : Nat) (g p low : Nat) : Option Nat :=
  let s : Option Nat := match code with
    | 4 => if p = 0 then none else some (p - 1)
    | 5 => some (p + 1)
    | 6 => some (p ^^^ 1)
    | 7 => some (p ^^^ 2)
    | 8 => some (p ^^^ 4)
    | 9 => some (p ^^^ 8)
    | 10 => some (p ^^^ 16)
    | 11 => some 0
    | 12 => some low
    | 13 => some (g - 1 - p)
    | _ => some p
  match s with
  | some s => if s < g then some s else none
  | none => none

/-- The position of the lowest active lane of the group of lane `i` (R90). -/
def lowPos (act : BitVec 32) (g i : Nat) : Nat :=
  match (lanesOf act).find? fun j => j / g == i / g with
  | some j => j % g
  | none => 0

/-- The operand of lane `i` before any modifier: `sz` bytes of the raw view, a pair when `wide` (R88). -/
def opBase (fr : Frame) (wide : Bool) (sz i : Nat) (o : Opnd) : DWord :=
  match o with
  | .lat k _ =>
    let l := lane fr i
    if wide then pairOf l.l0 l.l1 else (if k = 0 then l.l0 else l.l1).setWidth 64
  | .opf k _ => ((lane fr i).ofile.get k.toNat).setWidth 64
  | .main .v n _ => if wide then regPair fr i n.toNat else (reg fr i n.toNat).setWidth 64
  | .main .b n _ => BitVec.ofNat 64 (rawBytes fr i n.toNat sz)
  | .main _ _ _ => 0
  | .imm x => imm64 x

/-- The modifier of a field. -/
def opMod : Opnd → BitVec 4
  | .lat _ m | .opf _ m | .main _ _ m => m
  | .imm _ => 0

/-- Src(f, i): the operand of lane `i` after level, view and modifier (R27, R90). -/
def opVal (fr : Frame) (f : FS) (t : OpTy) (act : BitVec 32) (i : Nat) (o : Opnd) : Nat :=
  let m := opMod o
  if m.toNat ≤ 3 then applySign t m (opBase fr f.wide f.sz i o).toNat
  else
    let g := fr.xlgw
    match xlPos m.toNat g (i % g) (lowPos act g i) with
    | none => 0
    | some s =>
      let j := g * (i / g) + s
      if (lane fr j).exited then 0 else (opBase fr f.wide f.sz j o).toNat % 2 ^ t.width

/-- The 32-bit operand of a field with no type (R88). -/
def op32 (fr : Frame) (i : Nat) (o : Opnd) : Word := loW (opBase fr false 4 i o)

/-- Pair(f, i) of a field at level 10 (R126). -/
def opPair (fr : Frame) (i : Nat) (o : Opnd) : DWord := opBase fr true 8 i o

/-- The index of a main-level field. -/
def opIdx : Opnd → Nat
  | .main _ n _ => n.toNat
  | _ => 0

/-! ### Destinations -/

/-- R72: the latches after a result of 32 bits or fewer. -/
def latch32 (d : Opnd) (v : Word) (l : Lane) : Lane :=
  match d with
  | .lat k _ => if k = 0 then { l with l0 := v, l1 := l.l0 } else { l with l1 := v }
  | .imm _ => l
  | _ => { l with l0 := v, l1 := l.l0 }

/-- R58, R72: the operand file after a result: level 01, or the index in D's modifier for the dual destination. -/
def opfile32 (o : Wd) (v : Word) (l : Lane) : Lane :=
  match o.d with
  | .opf k _ => { l with ofile := l.ofile.set k.toNat v }
  | .main _ _ m => if o.dlev = 3 then { l with ofile := l.ofile.set (m.toNat % 8) v } else l
  | _ => l

/-- Dst(D, i, x) for a result of 32 bits or fewer: `v` widened into register, latches and operand file, and the
result's own `sz` bytes into a raw-byte destination (R88). -/
def dst32 (fr : Frame) (o : Wd) (sz i : Nat) (v : Word) : Frame :=
  let fr1 := match o.d with
    | .main .v n _ => setReg fr i n.toNat v
    | .main .b n _ => setRawBytes fr i n.toNat sz v.toNat
    | _ => fr
  updLane fr1 i fun l => opfile32 o v (latch32 o.d v l)

/-- Dst(D, i, x) for a pair: l0 the low word and l1 the high word (R72). -/
def dst64 (fr : Frame) (o : Wd) (i : Nat) (x : DWord) : Frame :=
  let fr1 := match o.d with
    | .main .v n _ => setPair fr i n.toNat x
    | .main .b n _ => setRawBytes fr i n.toNat 8 x.toNat
    | _ => fr
  updLane fr1 i fun l => { l with l0 := loW x, l1 := hiW x }

/-- A result of type (`sg`, `w`) written by its width. -/
def dstInt (fr : Frame) (o : Wd) (sg : Bool) (w i x : Nat) : Frame :=
  if 32 < w then dst64 fr o i (BitVec.ofNat 64 x) else dst32 fr o (w / 8) i (widen sg w x)

/-- A predicate destination: p1 to p7 (R89). -/
def dstPred (fr : Frame) (o : Wd) (i : Nat) (b : Bool) : Frame :=
  let k := o.d.immVal.toNat
  updLane fr i fun l =>
    { l with preds := if b then l.preds ||| (1#8 <<< k) else (l.preds &&& ~~~(1#8 <<< k)) ||| 1 }

/-- The value of a predicate; p0 reads true (R50). -/
def predOf (l : Lane) (k : Nat) : Bool := k == 0 || l.preds.getLsbD k

/-- R50: the lanes of a group whose guard holds. -/
def guardMask (fr : Frame) (o : Wd) (mask : BitVec 32) : BitVec 32 :=
  maskOf fun i => mask.getLsbD i && (predOf (lane fr i) o.pred.toNat != o.inv)

/-- Apply an effect in each lane of a mask, in ascending order. -/
def eachLane (act : BitVec 32) (fr : Frame) (g : Nat → Frame → Frame) : Frame :=
  (lanesOf act).foldl (fun f i => g i f) fr

/-- Set bits of the $fflags of a lane; no flag is ever cleared by an event (R39). -/
def orFlags (fr : Frame) (i : Nat) (fl : Flags) : Frame := updLane fr i fun l => { l with fflags := l.fflags ||| fl }

/-! ### View checks (R54) -/

/-- Check 6 on one field: `true` when it raises the register-view trap. -/
def viewBad (vcnt tcnt acnt : Nat) (f : FS) (o : Opnd) : Bool :=
  match o with
  | .main w n _ =>
    if !f.views.contains w then true
    else match w with
      | .v => (f.even && n.toNat % 2 == 1) || decide (vcnt < n.toNat + f.n)
      | .t => decide (tcnt < n.toNat + f.n)
      | .a => decide (acnt < n.toNat + f.n)
      | .b => decide (2048 ≤ n.toNat) || n.toNat % f.sz != 0
  | _ => false

/-- The rows that a field at the v, t or raw view names, of a frame (R69). -/
def rowsOf (f : FS) (o : Opnd) : List Nat :=
  match o with
  | .main .v n _ => (List.range f.n).map (n.toNat + ·)
  | .main .t n _ => (List.range f.n).flatMap fun k => (List.range 64).map (448 - 64 * (n.toNat + k) + ·)
  | .main .b n _ => if f.sz = 8 then [n.toNat / 4, n.toNat / 4 + 1] else [n.toNat / 4]
  | _ => []

/-! ### Tiles of A (R233, R236, R237) -/

/-- R233: the element size of an A type, and the K steps that a tile holds. -/
def aSize : AType → Nat
  | .bf16 => 2
  | _ => 1
def aPerTile (t : AType) : Nat := 3 - aSize t

/-- The count of steps and the first unit that B gives (R236, R237). -/
def stepsUnit (fr : Frame) (ln : Nat) (b : Opnd) : Nat × Nat :=
  let x := match b with
    | .imm x => x.toNat
    | b => (op32 fr ln b).toNat
  (x / 2 ^ 11 % 128 + 1, x % 2 ^ 11)

end Sys2Proof.Machine
end

