-- ==== Sys2Proof/Machine/Flags.lean ====
section
/-!
DEFINITION. Every flag computation of the lanes: integer saturation (R31, R92), the floating results of FADD to FCOS
(R103 to R111) with the flags each raises, and the carry of IADDC (R93).
-/
namespace Sys2Proof.Machine

/-- R31, R92: an exact integer narrowed to a type: wrapped, or clamped with SA when saturation is in effect. -/
def narrow (sat sg : Bool) (w : Nat) (x : Int) : Nat × Flags :=
  let lo := minOf sg w
  let hi := maxOf sg w
  if sat ∧ (x < lo ∨ hi < x) then (modW w (if x < lo then lo else hi), flSA) else (modW w x, 0)

/-- The carry out of an unsigned sum (R93). -/
def carryOf (w x : Nat) : Nat := x / 2 ^ w

/-- FADD and FSUB: A ± B (R103). -/
def faddF (f : Fmt) (r : Rnd) (sat neg : Bool) (x y : Nat) : Nat × Flags :=
  let b := unpackF f y
  addFV f r sat (unpackF f x) (if neg then negFV b else b)
/-- FMUL (R103). -/
def fmulF (f : Fmt) (r : Rnd) (sat : Bool) (x y : Nat) : Nat × Flags := mulRound f r sat (unpackF f x) (unpackF f y)
/-- FFMA (R103). -/
def ffmaF (f : Fmt) (r : Rnd) (sat : Bool) (x y z : Nat) : Nat × Flags :=
  fmaFV f r sat (unpackF f x) (unpackF f y) (unpackF f z)

/-- HFMA2: two fused multiply-adds on BF16 halves (R109). -/
def hfma2F (r : Rnd) (pr : BitVec 2) (sat : Bool) (a b d : Nat) : Nat × Flags :=
  let lo (x : Nat) := x % 65536
  let hi (x : Nat) := x / 65536 % 65536
  let bl := if pr = 1 ∨ pr = 3 then hi b else lo b
  let bh := if pr = 0 ∨ pr = 3 then hi b else lo b
  let (x, f1) := ffmaF fBf16 r sat (lo a) bl (lo d)
  let (y, f2) := ffmaF fBf16 r sat (hi a) bh (hi d)
  (y * 65536 + x, f1 ||| f2)

/-- FDOT4: four FP8 products and an FP32 addend, rounded once (R110). -/
def fdot4F (r : Rnd) (e5 sat : Bool) (a b d : Nat) : Nat × Flags :=
  let f := if e5 then fE5m2 else fE4m3
  let byte (x k : Nat) := unpackF f (x / 256 ^ k % 256)
  dotFV fF32 r sat ((List.range 4).map fun k => (byte a k, byte b k)) (unpackF fF32 d)

/-- FSPLIT3: the two words of the pair and the flags (R111). -/
def fsplit3F (x : Nat) : Word × Word × Flags :=
  match unpackF fF32 x with
  | .nan s => (0x7FC0, 0, if s then flNV else 0)
  | .inf n => (BitVec.ofNat 32 (infBits fBf16 n), 0, 0)
  | .fin n m e =>
    if m = 0 then (BitVec.ofNat 32 (zeroBits fBf16 n), 0, 0)
    else
      let term (r : Rnd) (v : FV) : Nat × FV × Flags :=
        if v.isZero then (0, v, 0)
        else
          let (b, fl) := packFV fBf16 r false v
          let q := minExpo [v, unpackF fBf16 b]
          let rest := v.scaled q - (unpackF fBf16 b).scaled q
          (if b % 32768 = 0 then 0 else b, .fin (decide (rest < 0)) rest.natAbs q, fl)
      let (h, r1, _) := term .rz (.fin n m e)
      let (md, r2, _) := term .rz r1
      let (lo, _, f3) := term .rne r2
      (BitVec.ofNat 32 (md * 65536 + h), BitVec.ofNat 32 lo, f3)

/-- One REDX or SCANX operation on 32-bit words (R115). -/
def redOpF (op : RedOp) (x y : Nat) : Nat × Flags :=
  match op with
  | .addS | .addN => ((x + y) % 2 ^ 32, 0)
  | .addF => faddF fF32 .rne false false x y
  | .minS => (if sInt 32 y < sInt 32 x then y else x, 0)
  | .minN => (min x y, 0)
  | .minF => minmaxF fF32 false x y
  | .maxS => (if sInt 32 x < sInt 32 y then y else x, 0)
  | .maxN => (max x y, 0)
  | .maxF => minmaxF fF32 true x y
  | .and => (x &&& y, 0)
  | .or => (x ||| y, 0)
  | .xor => (x ^^^ y, 0)

/-- The identity of an operation (R115). -/
def redIdent : RedOp → Nat
  | .addS | .addN | .or | .xor | .maxN => 0
  | .addF => 0x80000000
  | .minS => 0x7FFFFFFF
  | .minN | .and => 0xFFFFFFFF
  | .minF => 0x7F800000
  | .maxS => 0x80000000
  | .maxF => 0xFF800000

/-- R177: the new value and the flags of an atomic on `w` bits: old, data, compare. -/
def atomicNew (ao : AO) (w old d c : Nat) : Nat × Flags :=
  match ao with
  | .add => ((old + d) % 2 ^ w, 0)
  | .minS => (if sInt w d < sInt w old then d % 2 ^ w else old, 0)
  | .minN => (min old (d % 2 ^ w), 0)
  | .maxS => (if sInt w old < sInt w d then d % 2 ^ w else old, 0)
  | .maxN => (max old (d % 2 ^ w), 0)
  | .and => (old &&& (d % 2 ^ w), 0)
  | .or => (old ||| (d % 2 ^ w), 0)
  | .xor => (old ^^^ (d % 2 ^ w), 0)
  | .exch => (d % 2 ^ w, 0)
  | .cas => (if old = c % 2 ^ w then d % 2 ^ w else old, 0)
  | .addF32 => faddF fF32 .rne false false old d
  | .addBf16x2 =>
    let (x, f1) := faddF fBf16 .rne false false (old % 65536) (d % 65536)
    let (y, f2) := faddF fBf16 .rne false false (old / 65536 % 65536) (d / 65536 % 65536)
    (y * 65536 + x, f1 ||| f2)

/-- An integer comparison of w-bit values (R98, R180). -/
def icmpOk (c : ICond) (uns : Bool) (w x y : Nat) : Bool :=
  let a := readInt (!uns) w x
  let b := readInt (!uns) w y
  match c with
  | .eq => a == b
  | .ne => a != b
  | .lt => decide (a < b)
  | .le => decide (a ≤ b)
  | .gt => decide (b < a)
  | .ge => decide (b ≤ a)

end Sys2Proof.Machine
end

