-- ==== Sys2Proof/Machine/Translate.lean ====
section
/-!
DEFINITION. The nest (R6, R8), physical storage (R343, R360) and the three translation stages (R344 to R350).
-/
namespace Sys2Proof.Machine

/-! ### The nest (R6) -/

def clusOf (core : Nat) : Nat := core / 16
def dieOf (core : Nat) : Nat := core / 96
def stkOf (core : Nat) : Nat := core / 192
def segOf (core : Nat) : Nat := core / 768

def Scope.num : Scope → Nat
  | .core => 0
  | .clus => 1
  | .die => 2
  | .stk => 3
  | .seg => 4
  | .pkg => 5
  | .fab => 6
  | .sys => 7

/-- `a` is at least as wide as `b` (R9). -/
def scopeGe (a b : Scope) : Bool := decide (Scope.num b ≤ Scope.num a)

/-- Core `b` lies within scope `sc` of core `a` (R8). -/
def withinScope (sc : Scope) (a b : Nat) : Bool :=
  match sc with
  | .core => a == b
  | .clus => clusOf a == clusOf b
  | .die => dieOf a == dieOf b
  | .stk => stkOf a == stkOf b
  | .seg => segOf a == segOf b
  | _ => true

def Level.rank : Level → Nat
  | .prog => 0
  | .two => 1
  | .one => 2
  | .fw => 3

def levelLt (a b : Level) : Bool := decide (Level.rank a < Level.rank b)
def levelMax (a b : Level) : Level := if levelLt a b then b else a
/-- The level code of $trapc (R318). -/
def levelCode (l : Level) : Nat := Level.rank l

/-! ### Physical storage (R343) -/

inductive Storage where
  | dram (stack off : Nat)
  | tier (g : Nat)
  | host
  | peer (pkg addr : Nat)
  | none
deriving DecidableEq, Repr

/-- R343: what a package physical address names. -/
def storageOf (a : Nat) : Storage :=
  if a < 2 ^ 40 then .dram (a / 2 ^ 37) (a % 2 ^ 37)
  else if 2 ^ 41 ≤ a ∧ a < 2 ^ 41 + 768 * 2 ^ 30 then .tier 0
  else if 2 ^ 41 + 2 ^ 40 ≤ a ∧ a < 2 ^ 41 + 2 ^ 40 + 768 * 2 ^ 30 then .tier 1
  else if 2 ^ 44 ≤ a ∧ a < 2 ^ 45 then .host
  else if 2 ^ 56 ≤ a ∧ a < 2 ^ 57 then .peer (a / 2 ^ 44 % 2 ^ 12) (a % 2 ^ 44)
  else .none

/-- R358: layer, bank in the unit, row and pillar of a stack offset. -/
def lineLayer (off : Nat) : Nat := off / 2 ^ 7 % 8
def lineBankIn (off : Nat) : Nat := off / 2 ^ 10 / 2 ^ 8 % 4
def lineRow (off : Nat) : Nat := off / 2 ^ 20 % 2 ^ 17
def linePillar (off : Nat) : Nat := (off / 2 ^ 10 % 256) ^^^ (off / 2 ^ 20 % 256)
def bankNo (off : Nat) : Nat := 1024 * lineLayer off + 4 * linePillar off + lineBankIn off

def emptyStack : StackSt := ⟨[], 0, none, [], [], none, 0, 0, 0, 0, 0⟩
def stackOf (m : MemSys) (k : Nat) : StackSt := nth emptyStack m.stackSts k

/-- R360: the live limit of a stack; a bank that is folding already counts as retired, one that unfolds still does. -/
def liveLimit (st : StackSt) : Nat :=
  let q := st.retired.length + (match st.fold with
    | some f => if f.unfold then 0 else 1
    | none => 0)
  2 ^ 37 - q * 2 ^ 24

/-- The address lies in a withdrawn range (R343, R360). -/
def withdrawn (m : MemSys) (a : Nat) : Bool :=
  match storageOf a with
  | .dram k off => decide (liveLimit (stackOf m k) ≤ off)
  | _ => false

/-- The address lies in a page that is moving: accesses wait at its old home (R355). -/
def movingAt (m : MemSys) (a : Nat) : Bool := m.moving.any fun x => a / 2 ^ x.bits == x.base / 2 ^ x.bits

/-- The `n` bytes of a byte table from an address. -/
def tabBytes (t : Tab 8) (a : Nat) : Nat → List Byte
  | 0 => []
  | n + 1 => t.get a :: tabBytes t (a + 1) n

/-- Write bytes into a byte table. -/
def setBytes (t : Tab 8) (a : Nat) : List Byte → Tab 8
  | [] => t
  | b :: bs => setBytes (t.set a b) (a + 1) bs

/-- The physical address is storage of this package: stack DRAM or the second tier (R343). -/
def ownStorage (a : Nat) : Bool :=
  match storageOf a with
  | .dram _ _ | .tier _ => true
  | _ => false

/-- A little-endian value of physical memory. -/
def ramVal (m : MemSys) (a n : Nat) : Nat := bytesVal (tabBytes m.ram a n)

/-! ### Table entries (R344, R345) -/

def entV (e : Nat) : Bool := e.testBit 0
def entT (e : Nat) : Bool := e.testBit 1
def entFwd (e : Nat) : Bool := e.testBit 6
def entMv (e : Nat) : Bool := e.testBit 7
def entAddr (e : Nat) : Nat := e / 2 ^ 8 % 2 ^ 49 * 2 ^ 8
def entMode (e : Nat) : Nat := e / 2 ^ 58 % 4

/-- R344: the index of an input address at a level, the log of the page size of a leaf there. -/
def walkIdx (level va : Nat) : Nat :=
  match level with
  | 0 => va / 2 ^ 48 % 512
  | 1 => va / 2 ^ 39 % 512
  | 2 => va / 2 ^ 30 % 512
  | 3 => va / 2 ^ 21 % 512
  | _ => va / 2 ^ 16 % 32
def leafBits (level : Nat) : Nat := if level = 2 then 30 else if level = 3 then 21 else 16

/-- R345: an entry with V = 1, or a forwarding entry, is malformed; `mv` says that a REMAP.page of it is under way. -/
def entBad (mv : Bool) (stage level e : Nat) : Bool :=
  let leaf := !entT e
  e / 2 ^ 60 != 0 || e.testBit 57 ||
  (entMode e != 0 && !(stage == 1 && leaf && entV e)) || (entMode e == 3) ||
  (entMv e && !(mv && stage == 3 && leaf && entV e)) ||
  (entFwd e && !(stage == 3 && leaf && !entV e)) ||
  (e.testBit 5 && !(stage == 1 && leaf)) ||
  (leaf && decide (level < 2)) || (!leaf && level == 4) ||
  (if leaf then entAddr e % 2 ^ leafBits level != 0 else level != 3 && entAddr e % 4096 != 0) ||
  (stage == 3 && leaf && storageOf (entAddr e) == .none)

/-- What a walk of one stage ends in. -/
inductive Walk where
  /-- A valid leaf: output address, log of the page size, the entry and where it stands, its level. -/
  | leaf (out bits e at_ level : Nat)
  /-- A forwarding leaf of stage 3 (R350). -/
  | fwd (out bits e level : Nat)
  /-- Cause and stage (R349). -/
  | fail (cause stage : Nat)
deriving DecidableEq, Repr

/-- R344: one stage, from level to level; `rd` reads a table entry and may fail at a lower stage. -/
def walkGo (m : MemSys) (rd : Nat → Except (Nat × Nat) Nat) (stage va : Nat) : List Nat → Nat → Walk
  | [], _ => .fail 0x32 stage
  | level :: more, base =>
    match rd (base + 8 * walkIdx level va) with
    | .error (c, k) => .fail c k
    | .ok e =>
      if !entV e && !entFwd e then .fail 0x30 stage
      else if entBad (m.moving.any fun x => x.leaf == base + 8 * walkIdx level va) stage level e then .fail 0x32 stage
      else if entV e && entT e then walkGo m rd stage va more (entAddr e)
      else
        let out := entAddr e + va % 2 ^ leafBits level
        if entV e then .leaf out (leafBits level) e (base + 8 * walkIdx level va) level
        else .fwd out (leafBits level) e level

def walkStage (m : MemSys) (rd : Nat → Except (Nat × Nat) Nat) (stage root va : Nat) : Walk :=
  if root = 0 then .fail 0x30 stage else walkGo m rd stage (va % 2 ^ 57) [0, 1, 2, 3, 4] root

/-- The roots of one address space (R346). -/
structure Roots where
  r1 : Nat
  r2 : Nat
  r3 : Nat
deriving DecidableEq, Repr

/-- A table entry at a physical address. A table outside the package ends the walk as malformed (DEDUCED, log 61). -/
def readEnt (m : MemSys) (a : Nat) : Except (Nat × Nat) Nat :=
  if ownStorage a then .ok (ramVal m a 8) else .error (0x32, 3)

/-- Stage 3: its tables are physical (R346). The output of a leaf, forwarding or not, is checked against the live limit
(R343). -/
def walk3 (m : MemSys) (r : Roots) (pa : Nat) : Walk :=
  match walkStage m (readEnt m) 3 r.r3 pa with
  | .leaf out b e t l => if withdrawn m out then .fail 0x33 3 else .leaf out b e t l
  | .fwd out b e l => if withdrawn m out then .fail 0x33 3 else .fwd out b e l
  | w => w

/-- A table entry of stage 2, through stage 3 (R346, R349). An entry read that meets a forwarding leaf is forwarded
(R350). -/
def read2 (m : MemSys) (r : Roots) (a : Nat) : Except (Nat × Nat) Nat :=
  match walk3 m r a with
  | .leaf out _ e _ _ | .fwd out _ e _ => if e.testBit 2 then readEnt m out else .error (0x31, 3)
  | .fail c k => .error (c, k)

def walk2 (m : MemSys) (r : Roots) (a : Nat) : Walk := walkStage m (read2 m r) 2 r.r2 a

/-- A table entry of stage 1, through stages 2 and 3. -/
def read1 (m : MemSys) (r : Roots) (a : Nat) : Except (Nat × Nat) Nat :=
  match walk2 m r a with
  | .leaf out _ e _ _ => if e.testBit 2 then read2 m r out else .error (0x31, 2)
  | .fwd _ _ _ _ => .error (0x32, 2)
  | .fail c k => .error (c, k)

def walk1 (m : MemSys) (r : Roots) (a : Nat) : Walk := walkStage m (read1 m r) 1 r.r1 a

/-- R347: the leaf grants the access; `pl` asks for PL as well. -/
def grants (need : AccNeed) (e : Nat) : Bool :=
  match need with
  | .read => e.testBit 2
  | .write => e.testBit 3
  | .rw => e.testBit 2 && e.testBit 3
  | .fetch => e.testBit 4

def modeOf (e : Nat) : CohMode := if entMode e = 1 then .swc else if entMode e = 2 then .prv else .coh

/-- A translated address: physical, mode, whether it was forwarded, and the TLB entry it makes. -/
structure Xlat where
  pa   : Nat
  mode : CohMode
  fwd  : Bool
  ent  : Option TlbEnt
deriving DecidableEq, Repr

def findPart (s : State) (p : Nat) : Option Part := s.parts.find? fun x => x.num == p
def findSlice (s : State) (p k : Nat) : Option Slice :=
  match findPart s p with
  | some x => x.slices.find? fun y => y.num == k
  | none => none

/-- The roots in force for a slice and address-space number (R346). -/
def rootsOf (s : State) (p k asn : Nat) : Roots :=
  match findPart s p, findSlice s p k with
  | some x, some y => ⟨(y.roots1.get asn).toNat, y.root2, x.root3⟩
  | some x, none => ⟨0, 0, x.root3⟩
  | none, _ => ⟨0, 0, 0⟩

/-- R346 to R350: a fresh walk of the stages that an access of level `l` passes. -/
def walkAll (s : State) (clus p k asn : Nat) (l : Level) (need : AccNeed) (va : Nat) : Except (Nat × Nat) Xlat :=
  let r := rootsOf s p k asn
  let m := s.m
  let ent (v pa sz1 sz2 sz3 in2 in3 : Nat) (e1 e2 e3 : Nat) (mode : CohMode) : Option TlbEnt :=
    let b := min sz1 (min sz2 sz3)
    some { clus := clus, part := p, slice := k, asn := asn, level := l, va := v / 2 ^ b * 2 ^ b, size := b,
           pa := pa / 2 ^ b * 2 ^ b, r := e1.testBit 2 && e2.testBit 2 && e3.testBit 2,
           w := e1.testBit 3 && e2.testBit 3 && e3.testBit 3, x := e1.testBit 4 && e2.testBit 4 && e3.testBit 4,
           pl := e1.testBit 5, mode := mode, in2 := in2, in3 := in3, sz1 := sz1, sz2 := sz2, sz3 := sz3 }
  let third (v sz1 sz2 in2 : Nat) (e1 e2 : Nat) (mode : CohMode) (a : Nat) : Except (Nat × Nat) Xlat :=
    match walk3 m r a with
    | .leaf out b e _ _ =>
      if grants need e then .ok ⟨out, mode, false, ent v out sz1 sz2 b in2 a e1 e2 e mode⟩ else .error (0x31, 3)
    | .fwd out _ e _ => if grants need e then .ok ⟨out, mode, true, none⟩ else .error (0x31, 3)
    | .fail c k => .error (c, k)
  let second (v sz1 e1 : Nat) (mode : CohMode) (a : Nat) : Except (Nat × Nat) Xlat :=
    match walk2 m r a with
    | .leaf out b e _ _ => if grants need e then third v sz1 b a e1 e mode out else .error (0x31, 2)
    | .fwd _ _ _ _ => .error (0x32, 2)
    | .fail c k => .error (c, k)
  let all : Nat := 2 ^ 57 - 1
  match l with
  | .fw => if storageOf va = .none then .error (0x36, 3) else .ok ⟨va, .coh, false, none⟩
  | .one => third va 57 57 va all all .coh va
  | .two => second va 57 all .coh va
  | .prog =>
    match walk1 m r va with
    | .leaf out b e _ _ =>
      if grants need e && e.testBit 5 then second va b e (modeOf e) out else .error (0x31, 1)
    | .fwd _ _ _ _ => .error (0x32, 1)
    | .fail c k => .error (c, k)

/-- A TLB entry serves an access (R348). -/
def tlbHit (t : TlbEnt) (clus p k asn : Nat) (l : Level) (need : AccNeed) (va : Nat) : Bool :=
  t.clus == clus && t.part == p && t.slice == k && t.asn == asn && t.level == l && t.va == va / 2 ^ t.size * 2 ^ t.size &&
  (match need with
    | .read => t.r
    | .write => t.w
    | .rw => t.r && t.w
    | .fetch => t.x)

/-- The translation of an access: from the cluster's TLB where it holds one that allows the access, else by a walk
(R347, R348). -/
def translate (s : State) (clus p k asn : Nat) (l : Level) (need : AccNeed) (va : Nat) : Except (Nat × Nat) Xlat :=
  match s.m.tlb.find? fun t => tlbHit t clus p k asn l need va with
  | some t =>
    let a := t.pa + va % 2 ^ t.size
    if l != .fw && withdrawn s.m a then .error (0x33, 3) else .ok ⟨a, t.mode, false, some t⟩
  | none => walkAll s clus p k asn l need va

/-- Hold a translation in the TLB (R348): never a forwarding leaf. -/
def tlbFill (s : State) (x : Xlat) : State :=
  match x.ent with
  | some t => if s.m.tlb.contains t then s else { s with m := { s.m with tlb := t :: s.m.tlb } }
  | none => s

end Sys2Proof.Machine
end

