-- ==== Sys2Proof/Machine/Dir.lean ====
section
/-!
DEFINITION. What the caches and directories of the package hold (R141, R166 to R168): copies of lines in the L1s and L2s,
the entries that record them, invalidations queued at cores, and the GetM and GetS under way.
-/
namespace Sys2Proof.Machine

/-! ### Lines -/

/-- The lines that `n` bytes from an address touch. -/
def linesOf (a n : Nat) : List Nat :=
  if n = 0 then [] else (List.range ((a + n - 1) / 128 - a / 128 + 1)).map (a / 128 + ·)

/-- The 128 bytes of a line as the newest writes beyond the L1s have left them. -/
def lineBytes (m : MemSys) (line : Nat) : Tab 8 := setBytes [] 0 (tabBytes m.ram (128 * line) 128)

/-- The offsets in a line that `n` bytes from an address cover. -/
def coverOffs (line a n : Nat) : List Nat :=
  (List.range 128).filter fun o => decide (a ≤ 128 * line + o ∧ 128 * line + o < a + n)

def offsMask (os : List Nat) : BitVec 128 := os.foldl (fun m o => m ||| (1#128 <<< o)) 0

def l1Find (m : MemSys) (core line : Nat) : Option L1Line := m.l1.find? fun x => x.core == core && x.line == line

/-- A core's copy of a line is gone, with the invalidations queued for it. -/
def l1Drop (m : MemSys) (core line : Nat) : MemSys :=
  { m with l1 := m.l1.filter (fun x => !(x.core == core && x.line == line)),
           invq := m.invq.filter (fun x => !(x.core == core && x.line == line)) }

/-- The dirty bytes of a line: offsets. -/
def dirtyOffs (x : L1Line) : List Nat := (List.range 128).filter x.dirty.getLsbD

/-- A line that a core owns: it may be written without GetM (R166, R167). -/
def L1Line.owned (x : L1Line) : Bool := x.st == .m || x.st == .e

def l2Find (m : MemSys) (die line : Nat) : Option L2Line := m.l2.find? fun x => x.die == die && x.line == line
def l2Drop (m : MemSys) (die line : Nat) : MemSys := { m with l2 := m.l2.filter fun x => !(x.die == die && x.line == line) }

/-! ### The nest of directories (R167) -/

/-- The levels of the package's own directories, narrowest first (R167). -/
def dirLevels : List DirLevel := [.clus, .die, .stk, .seg, .pkg]

def DirLevel.rank : DirLevel → Nat
  | .clus => 1
  | .die => 2
  | .stk => 3
  | .seg => 4
  | .pkg => 5
  | .fab => 6
  | .sys => 7

/-- The scope that a directory bounds (R8, R167). -/
def DirLevel.scope : DirLevel → Scope
  | .clus => .clus
  | .die => .die
  | .stk => .stk
  | .seg => .seg
  | .pkg => .pkg
  | .fab => .fab
  | .sys => .sys

/-- The narrowest directory above two cores. -/
def sepCores (a b : Nat) : DirLevel :=
  if clusOf a = clusOf b then .clus
  else if dieOf a = dieOf b then .die
  else if stkOf a = stkOf b then .stk
  else if segOf a = segOf b then .seg
  else .pkg

/-- The narrowest directory above a core and a die's L2, of which the core's own die has its own directory. -/
def sepDie (core die : Nat) : DirLevel := if dieOf core = die then .die else sepCores core (96 * die)

/-- The narrowest directory through which a core's write reaches a monitor's point (R181). -/
def sepMon (core : Nat) (x : Monitor) : DirLevel :=
  match x.point with
  | .core => sepCores core x.unit
  | .clus | .die => sepDie core x.unit
  | _ =>
    if x.unit < 8 then (if stkOf core = x.unit then .stk else if segOf core = x.unit / 4 then .seg else .pkg)
    else if segOf core = x.unit - 8 then .seg else .pkg

/-- The segment of the home of a line (R343). -/
def homeSeg (line : Nat) : Nat := match storageOf (128 * line) with
  | .dram k _ => k / 4
  | .tier g => g
  | _ => 0

/-- The directory of a level on the path of a core, and the branch through which the core lies below it (R167). -/
def dirUnit (l : DirLevel) (core line : Nat) : Nat := match l with
  | .clus => clusOf core
  | .die => dieOf core
  | .stk => stkOf core
  | .seg => segOf core
  | _ => homeSeg line
def dirBranch (l : DirLevel) (core : Nat) : Nat := match l with
  | .clus => core
  | .die => clusOf core
  | .stk => dieOf core
  | .seg => stkOf core
  | _ => segOf core

/-- The region of a line at a level (R166). -/
def dirRegion (l : DirLevel) (line : Nat) : Nat := if l = .clus then line else line / 4

/-- The directory stands above the core. -/
def underDir (l : DirLevel) (unit core : Nat) : Bool := match l with
  | .clus => clusOf core == unit
  | .die => dieOf core == unit
  | .stk => stkOf core == unit
  | .seg => segOf core == unit
  | _ => true

/-- The lines of a region. -/
def regionLines (l : DirLevel) (region : Nat) : List Nat :=
  if l = .clus then [region] else (List.range 4).map (4 * region + ·)

/-! ### Copies and the entries that record them (R166) -/

/-- A core's copy of a line that no queued invalidation names. -/
def liveCopy (m : MemSys) (x : L1Line) : Bool :=
  x.mode == .coh && !m.invq.any fun q => q.core == x.core && q.line == x.line

/-- The core that stands for a monitor's point, and the lowest level that records it (R181). -/
def monHolder (x : Monitor) : Nat × Nat :=
  match x.point with
  | .core => (x.unit, 1)
  | .clus | .die => (96 * x.unit, 3)
  | _ => if x.unit < 8 then (192 * x.unit, 4) else (768 * (x.unit - 8), 5)

/-- What the directories record: a core below which a copy or a monitor stands, its line, and the lowest level concerned. -/
def copies (m : MemSys) : List (Nat × Nat × Nat) :=
  (m.l1.filter (liveCopy m)).map (fun x => (x.core, x.line, 1)) ++
  (m.l2.filter fun x => x.mode == .coh).map (fun x => (96 * x.die, x.line, 3)) ++
  m.mons.map fun x => ((monHolder x).1, x.line, (monHolder x).2)

/-- The branches below a directory that hold copies of a region. -/
def holders (m : MemSys) (l : DirLevel) (unit region : Nat) : List Nat :=
  (((copies m).filter fun c => decide (c.2.2 ≤ DirLevel.rank l) && underDir l unit c.1 && dirRegion l c.2.1 == region).map
    fun c => dirBranch l c.1).eraseDups

/-- The branches below a directory whose copy of a line of a region stands in a state. -/
def branchesIn (m : MemSys) (l : DirLevel) (unit region : Nat) (p : DirSt → Bool) : List Nat :=
  ((m.l1.filter fun x => liveCopy m x && p x.st && underDir l unit x.core && dirRegion l x.line == region).map
    fun x => dirBranch l x.core).eraseDups

def findDir (m : MemSys) (l : DirLevel) (unit region : Nat) : Option DirEnt :=
  m.dirs.find? fun d => d.level == l && d.unit == unit && d.region == region

/-- An entry is written; an entry in I is none, and that of a page that moves stays (R166). -/
def putDir (m : MemSys) (e : DirEnt) : MemSys :=
  let same (d : DirEnt) : Bool := d.level == e.level && d.unit == e.unit && d.region == e.region
  if m.dirs.any fun d => same d && d.st == .mv then m
  else
    let rest := m.dirs.filter fun d => !same d
    { m with dirs := if e.st = .i then rest else rest ++ [e] }

/-- R166: the entry that answers give: owners of dirty data, and the branches that hold clean copies. -/
def entFrom (l : DirLevel) (unit region : Nat) (owners sharers : List Nat) : DirEnt :=
  let st : DirSt := match owners, sharers with
    | [], [] => .i
    | [], _ => .s
    | _, [] => .m
    | _, _ => .o
  ⟨l, unit, region, st, owners.head?, sharers⟩

/-- R166: the entry of a region as the copies below the directory stand: a sole clean copy that its core holds alone is
exclusive. -/
def dirNow (m : MemSys) (l : DirLevel) (unit region : Nat) : DirEnt :=
  let dirty := branchesIn m l unit region fun st => st == .m || st == .o
  let alone := branchesIn m l unit region (· == .e)
  let all := holders m l unit region
  match dirty, alone with
  | [], [b] => if all = [b] then ⟨l, unit, region, .e, some b, []⟩ else entFrom l unit region [] all
  | _, _ => entFrom l unit region dirty (all.filter fun b => dirty.head? != some b)

/-- The line lies in storage whose coherence the package keeps itself, and its region is not moving (R166). -/
def dirHome (m : MemSys) (line : Nat) : Bool :=
  ownStorage (128 * line) && !movingAt m (128 * line) && !withdrawn m (128 * line)

/-- The entries of a line's region are brought up to date: those that exist, and those on the path of a core. -/
def redoDirs (m : MemSys) (core line : Nat) : MemSys :=
  let units (l : DirLevel) : List Nat :=
    (dirUnit l core line :: (m.dirs.filter fun d => d.level == l && d.region == dirRegion l line).map fun d => d.unit).eraseDups
  if dirHome m line then
    dirLevels.foldl (fun m l => (units l).foldl (fun m u => putDir m (dirNow m l u (dirRegion l line))) m) m
  else m

/-! ### Requests under way (R167, R197, R199) -/

def findMiss (m : MemSys) (core line : Nat) : Option Miss := m.misses.find? fun x => x.core == core && x.line == line
def putMiss (m : MemSys) (x : Miss) : MemSys :=
  { m with misses := m.misses.map fun y => if y.core = x.core ∧ y.line = x.line then x else y }

/-- A request that has its data and, for GetM, every Ack is complete. -/
def settleMiss (m : MemSys) (core line : Nat) : MemSys :=
  { m with misses := m.misses.filter fun x =>
      !(x.core == core && x.line == line && x.data && (!x.excl || dirLevels.all x.acks.contains)) }

/-- R167: the core owns the line. -/
def ownsLine (m : MemSys) (core line : Nat) : Bool := (l1Find m core line).any fun x => x.mode == .coh && x.owned

/-- Another core that owns the line, to which a request is forwarded (R167). -/
def otherOwner (m : MemSys) (core line : Nat) : Option Nat :=
  (m.l1.find? fun x => x.line == line && x.core != core && x.mode == .coh && (x.owned || x.st == .o)).map fun x => x.core

/-- A copy newer than a GetM's write stands in a die. -/
def Miss.newIn (q : Miss) (die : Nat) : Bool := dieOf q.core == die || q.fresh.any fun c => dieOf c == die

/-- The write of a GetM has been observed by a core: it read the line since, or an acquire of it covers the writer
(R163; assumption 101). -/
def Miss.observedBy (q : Miss) (core : Nat) : Bool := q.core == core || q.fresh.contains core || q.seen.contains core

/-! ### Queued invalidations (R159, R168) -/

/-- An invalidation enters a core's queue, unless one that an acquire of the same scope would apply stands there; the copy
is no longer owned. -/
def queueInv (m : MemSys) (now core line : Nat) (wide : Scope) : MemSys :=
  let l1 := m.l1.map fun x => if x.core = core ∧ x.line = line then { x with st := .s } else x
  if m.invq.any fun q => q.core == core && q.line == line && scopeGe wide q.wide then { m with l1 := l1 }
  else { m with l1 := l1, invq := m.invq ++ [⟨core, line, wide, now⟩] }

/-- R168: the invalidations of a core that a test picks are applied. -/
def applyWhere (m : MemSys) (core : Nat) (p : InvEnt → Bool) : MemSys :=
  let ls := (m.invq.filter fun q => q.core == core && p q).map fun q => q.line
  { m with l1 := m.l1.filter (fun x => !(x.core == core && x.mode == .coh && ls.contains x.line)),
           invq := m.invq.filter fun q => !(q.core == core && ls.contains q.line) }

/-- R168: an acquire at a scope applies the invalidations of the writes that it covers. -/
def applyInvs (m : MemSys) (core : Nat) (sc : Scope) : MemSys := applyWhere m core fun q => scopeGe sc q.wide

/-- R198: an invalidation is applied within 2 µs of its arrival. -/
def applyLate (m : MemSys) (now : Nat) : MemSys :=
  let late (q : InvEnt) : Bool := decide (q.at_ + 2000 ≤ now)
  ((m.invq.filter late).map fun q => q.core).eraseDups.foldl (fun m c => applyWhere m c late) m

end Sys2Proof.Machine
end

