-- ==== Sys2Proof/Machine/Mem.lean ====
section
/-!
DEFINITION. The named operations over memory: teams and swarms by name, the L1s and L2s (R141 to R145), reads and writes
of physical memory and how far a write has been performed (R159, R163, R167, R168), atomics (R175), condition monitors
(R181), watchpoint hits by other agents (R158), imprecise traps (R320), scratchpad and its saved image (R137, R138), and
sync words (R153, R154).
-/
namespace Sys2Proof.Machine

/-! ### Teams, swarms and frames by name -/

def findTeam (s : State) (t : TeamId) : Option Team := s.teams.find? fun x => x.id == t
def updTeam (s : State) (t : TeamId) (f : Team → Team) : State :=
  { s with teams := s.teams.map fun x => if x.id == t then f x else x }
def findSwarm (tm : Team) (n : Nat) : Option Swarm := tm.swarms.find? fun x => x.num == n
def updSwarmIn (tm : Team) (n : Nat) (f : Swarm → Swarm) : Team :=
  { tm with swarms := tm.swarms.map fun x => if x.num == n then f x else x }
def updSwarm (s : State) (t : TeamId) (n : Nat) (f : Swarm → Swarm) : State := updTeam s t fun tm => updSwarmIn tm n f
def updFrame (s : State) (t : TeamId) (n : Nat) (f : Frame → Frame) : State :=
  updSwarm s t n fun sw => { sw with frame := f sw.frame }

/-- The program's frame of a swarm: hidden while the swarm is in handler mode (R317). -/
def progFrame (sw : Swarm) : Frame :=
  match sw.hidden with
  | some f => f
  | none => sw.frame
def updProgFrame (f : Frame → Frame) (sw : Swarm) : Swarm :=
  match sw.hidden with
  | some fr => { sw with hidden := some (f fr) }
  | none => { sw with frame := f sw.frame }

/-- The frame that a wait stands in: the handler's, or the program's (R317). -/
def waitFrame (inH : Bool) (sw : Swarm) : Frame := if inH then sw.frame else progFrame sw
/-- A change of that frame; a handler frame that has been discarded takes none. -/
def updWaitFrame (inH : Bool) (f : Frame → Frame) (sw : Swarm) : Swarm :=
  if inH then (if sw.hidden.isSome then { sw with frame := f sw.frame } else sw) else updProgFrame f sw

/-- The team is on a core: every state but Saved, Parked, Faulted and Retired (R315). -/
def onCore (tm : Team) : Bool :=
  match tm.st with
  | .saved | .parked | .faulted | .retired => false
  | _ => true

/-- The swarms of the team proper that have not ended. -/
def liveSwarms (tm : Team) : List Swarm := tm.swarms.filter fun x => x.kind == .team && !x.ended

/-! ### Imprecise traps (R320) -/

/-- A pending trap that one more trap is merged into. -/
def PendTrap.merge (t p : PendTrap) : PendTrap :=
  { t with merges := min 65535 (t.merges + 1), wps := t.wps ||| p.wps, sw := if t.sw.isSome then t.sw else p.sw }

/-- Merge a trap into the newest pending trap of its cause, or into the newest: `ts` is newest first. -/
def mergeTrap (p : PendTrap) (ts : List PendTrap) : List PendTrap :=
  if ts.any fun t => t.cause == p.cause then
    let rec go : List PendTrap → List PendTrap
      | [] => []
      | t :: r => if t.cause = p.cause then t.merge p :: r else t :: go r
    go ts
  else match ts with
    | [] => []
    | t :: r => t.merge p :: r

/-- Raise an imprecise trap in a team: at most 8 pending, oldest first. -/
def addTrap (tm : Team) (p : PendTrap) : Team :=
  if tm.traps.length < 8 then { tm with traps := tm.traps ++ [p] }
  else { tm with traps := (mergeTrap p tm.traps.reverse).reverse }

def imprecise (s : State) (t : TeamId) (cause : Nat) (a : DWord) : State :=
  updTeam s t fun tm => addTrap tm ⟨cause, false, 0, 0, a, 0, 0, none⟩

/-! ### Agents that access memory -/

/-- Who performs an access: the classes of a watchpoint's status word (R157). -/
inductive Agent where
  | lane (t : TeamId) (core : Nat)
  | engine (t : TeamId) (core : Nat)
  | matrix (t : TeamId) (core : Nat)
  | pkg (n : Nat)
  | host (die : Nat)
deriving DecidableEq, Repr

def Agent.core? : Agent → Option Nat
  | .lane _ c | .engine _ c | .matrix _ c => some c
  | _ => none

/-- The core whose own L1 copy a write updates: a lane's. Engines write beyond the L1 (R182, R243). -/
def Agent.writer? : Agent → Option Nat
  | .lane _ c => some c
  | _ => none

/-- CLASS and IDENT of a watchpoint's status for a hit in team `t` (R157). -/
def hitClass (t : TeamId) : Agent → Nat × Nat
  | .lane u c => (if u = t then 1 else 2, c)
  | .engine _ c => (3, c)
  | .matrix _ c => (4, c)
  | .pkg n => (5, n % 4096)
  | .host d => (6, d)

/-- The agent lies within scope `sc` of a core (R8). -/
def agentWithin (sc : Scope) (core : Nat) (ag : Agent) : Bool :=
  match ag.core? with
  | some c => withinScope sc core c
  | none =>
    match ag with
    | .pkg _ => scopeGe sc .fab
    | _ => sc == .sys

/-- R157: the status word after a hit. -/
def statusHit (w : Word) (cls ident : Nat) (pend : Bool) : Word :=
  let hits := min 255 (w.toNat / 256 % 256 + 1)
  BitVec.ofNat 32 (cls * 2 ^ 28 + ident % 4096 * 2 ^ 16 + hits * 256 + w.toNat % 256 +
    (if pend && !w.getLsbD 2 then 4 else 0))

/-- The virtual address at which an armed watchpoint covers a physical byte of a write. -/
def watchVa (w : Watch) (pa n : Nat) : Option Nat :=
  match w.segs.find? fun g => decide (g.2.1 < pa + n ∧ pa < g.2.1 + g.2.2) with
  | some g => some (g.1 + (max pa g.2.1 - g.2.1))
  | none => none

/-- R158: the lowest-numbered armed watchpoint that a write by another agent hits, and its address. -/
def watchHit (tm : Team) (ag : Agent) (pa n : Nat) : Option (Nat × Nat) :=
  let own := match ag with
    | .lane u _ => u == tm.id
    | _ => false
  if own then none
  else (List.range 4).findSome? fun k =>
    match nth none (tm.watches.map some) k with
    | some w =>
      if w.armed && w.w && agentWithin w.scope tm.core ag then (watchVa w pa n).map fun va => (k, va) else none
    | none => none

/-- R158: writes by other agents raise an imprecise trap once per run of hits, until it is taken. -/
def watchWrite (s : State) (ag : Agent) (pa n : Nat) : State :=
  { s with teams := s.teams.map fun tm =>
      match watchHit tm ag pa n with
      | none => tm
      | some (k, va) =>
        let (c, i) := hitClass tm.id ag
        let pend := match nth none (tm.watches.map some) k with
          | some w => w.status.getLsbD 2
          | none => true
        let tm1 := { tm with watches := upd (fun w => { w with status := statusHit w.status c i true }) tm.watches k }
        if pend then tm1 else addTrap tm1 ⟨0x14, false, 0, 0, BitVec.ofNat 64 va, 0, 1#4 <<< k, none⟩ }

/-! ### Condition monitors (R181) -/

/-- Wake a lane in the frame of its swarm that holds its park. -/
def wakeLane (s : State) (t : TeamId) (sw i : Nat) (inH : Bool) : State :=
  updSwarm s t sw fun x => updWaitFrame inH (fun fr => updLane fr i fun l => { l with woken := true }) x

/-- R181: the unit at which a monitor of a scope stands for a core and an address. -/
def monUnit (sc : Scope) (core pa : Nat) : Nat :=
  match sc with
  | .core => core
  | .clus | .die => dieOf core
  | .stk | .seg | .pkg =>
    match storageOf pa with
    | .dram k _ => k
    | .tier g => 8 + g
    | _ => 8 + segOf core
  | .fab | .sys => 8 + segOf core

/-- R181: how many monitors a unit of a scope holds: an entry is shared by the scopes of one point. -/
def monCap (sc : Scope) (unit : Nat) : Nat :=
  match sc with
  | .core => 64
  | .clus | .die => 1024
  | _ => if unit < 8 then 2048 else 1024

def monGroup (sc : Scope) : Nat :=
  match sc with
  | .core => 0
  | .clus | .die => 1
  | _ => 2

/-- Fire every monitor of a line that a write reaches; a write held in another core's L1 reaches none (R181). -/
def fireMonitors (s : State) (line : Nat) (only : Option Nat) : State :=
  let hit (x : Monitor) : Bool := x.line == line && (match only with
    | some c => x.point == .core && x.unit == c
    | none => true)
  let s1 := { s with m := { s.m with mons := s.m.mons.filter fun x => !hit x } }
  (s.m.mons.filter hit).foldl (fun s x => wakeLane s x.team x.swarm x.lane x.inH) s1

/-! ### L2 and L3 (R141) -/

/-- The carve that the partitions hold on a stack, in MiB (R140). -/
def carved (s : State) (k : Nat) : Nat := (s.parts.map fun p => (p.carve.get k).toNat).sum

/-- The stack whose L3 holds a line (R141): second-tier lines are in none. -/
def l3Stack (line : Nat) : Option Nat := match storageOf (128 * line) with
  | .dram k _ => some k
  | _ => none

/-- A line enters the L3 of its home, with bytes that DRAM has not accepted or without; beyond what the carve leaves of the
320 MiB, the line held longest goes to DRAM (R140, R141). -/
def l3Touch (s : State) (line : Nat) (dirty : Bool) : State :=
  match l3Stack line with
  | none => s
  | some k =>
    let mine (x : L3Line) : Bool := l3Stack x.line == some k
    let was := s.m.l3c.any fun x => x.line == line && x.dirty
    let all := (s.m.l3c.filter fun x => x.line != line) ++ [⟨line, dirty || was⟩]
    let room := 8192 * (320 - carved s k)
    { s with m := { s.m with l3c := if room < (all.filter mine).length then all.eraseP mine else all } }

/-- A line leaves the L2 of a die; its dirty bytes go to the home. -/
def l2Out (s : State) (x : L2Line) : State :=
  let s1 := if x.dirty = 0 then s else l3Touch s x.line true
  { s1 with m := redoDirs (l2Drop s1.m x.die x.line) (96 * x.die) x.line }

/-- A line enters the L2 of a die, or is renewed there; beyond 96 MiB the line held longest leaves. -/
def l2Put (s : State) (x : L2Line) : State :=
  let rest := (l2Drop s.m x.die x.line).l2
  let mine := rest.filter fun y => y.die == x.die
  let s1 := { s with m := { s.m with l2 := rest ++ [x] } }
  match mine with
  | y :: _ => if mine.length < 786432 then s1 else l2Out s1 y
  | [] => s1

/-- A line that the L2 of a die does not hold is brought there from its home. -/
def l2Fill (s : State) (die line : Nat) (mode : CohMode) : State :=
  match l2Find s.m die line with
  | some _ => s
  | none => l3Touch (l2Put s ⟨die, line, mode, lineBytes s.m line, 0, []⟩) line false

/-- The L2 of a die takes a line as it now stands, with bytes that a core of the die wrote: `old` is what stood beyond the
L2. -/
def l2Take (s : State) (die line : Nat) (mode : CohMode) (old : Tab 8) (offs : List Nat) : State :=
  let x := (l2Find s.m die line).getD ⟨die, line, mode, [], 0, []⟩
  let fresh := offs.filter fun o => !x.dirty.getLsbD o
  l2Put s { x with bytes := lineBytes s.m line, dirty := x.dirty ||| offsMask offs,
                   home := fresh.foldl (fun t o => t.set o (old.get o)) x.home }

/-- The dirty bytes of an L2 line are written to its home. -/
def l2Clean (s : State) (die line : Nat) : State :=
  match l2Find s.m die line with
  | none => s
  | some x =>
    let clean (y : L2Line) : L2Line := if y.die = die ∧ y.line = line then { y with dirty := 0, home := [] } else y
    let s1 := if x.dirty = 0 then s else l3Touch s line true
    { s1 with m := { s1.m with l2 := s1.m.l2.map clean } }

/-- An L2 line is dropped and its dirty bytes are lost. -/
def l2Lose (s : State) (die line : Nat) : State :=
  match l2Find s.m die line with
  | none => s
  | some x =>
    let back (t : Tab 8) (o : Nat) : Tab 8 := if x.dirty.getLsbD o then t.set (128 * line + o) (x.home.get o) else t
    let m1 := l2Drop { s.m with ram := (List.range 128).foldl back s.m.ram } die line
    { s with m := redoDirs m1 (96 * die) line }

/-! ### The fabric filter (R372) -/

/-- A Snp of this package's filters is not answered yet. -/
def snpWaits (s : State) : Bool := s.link.reqs.any fun r => r.op == .snp

/-- A package records a region of a line, or has not answered the Snp for it. -/
def snpDue (s : State) (line : Nat) : Bool :=
  (s.link.fabLines.any fun x => x.1 == line / 4) || s.link.reqs.any fun r => r.who == .snp (line / 4)

/-- R372: a Snp goes to every package that the filter records for a line's region, a writing package apart. -/
def snpOut (s : State) (line : Nat) (but : Option Nat) : State :=
  let g := homeSeg line
  let port := 18 * g + ((List.range 18).find? fun k => s.boot.ready.getLsbD (216 + 18 * g + k)).getD 0
  let hit (x : Nat × Nat) : Bool := x.1 == line / 4 && some x.2 != but
  let one (l : Link) (x : Nat × Nat) : Link :=
    let r : LinkReq := ⟨l.reqNo, 2 ^ 56 + x.2 * 2 ^ 44, .snp, .snp (line / 4), s.pulse, false, 16, g, 0, some port⟩
    { l with reqs := l.reqs ++ [r], reqNo := l.reqNo + 1 }
  let sent := (s.link.fabLines.filter hit).foldl one s.link
  { s with link := { sent with fabLines := s.link.fabLines.filter fun x => !hit x } }

/-- R372: the filter of a line's home segment records a package; a full one of 2^20 regions first gives up the region that
it has recorded longest. -/
def snpNote (s : State) (line pkg : Nat) : State :=
  let x := (line / 4, pkg)
  let near (y : Nat × Nat) : Bool := homeSeg (4 * y.1) == homeSeg line
  let rs := ((s.link.fabLines.filter near).map fun y => y.1).eraseDups
  let s1 := match rs with
    | r :: _ => if rs.contains (line / 4) || decide (rs.length < 2 ^ 20) then s else snpOut s (4 * r) none
    | [] => s
  if s1.link.fabLines.contains x then s1 else { s1 with link := { s1.link with fabLines := s1.link.fabLines ++ [x] } }

/-! ### A write beyond the L1s (R142, R159, R181) -/

/-- The narrowest scope of a core that covers the writer; no agent is the part itself. -/
def wideTo (ag : Option Agent) (core : Nat) : Scope :=
  match ag with
  | none => .pkg
  | some a => match a.core? with
    | some c => if c = core then .core else DirLevel.scope (sepCores core c)
    | none => match a with
      | .pkg _ => .fab
      | _ => .sys

/-- One line after a write that is performed for every agent: the writer's L2 holds it, or the home; other L2 copies of a
page that hardware keeps coherent go, and so does the writing lane's own L1 copy; the invalidation of every other core's
copy is queued; every monitor of the line fires; the packages that hold the line are snooped (R142, R159, R181, R372;
assumption 11). -/
def landLine (s : State) (ag : Option Agent) (mode : CohMode) (line : Nat) (old : Tab 8) (offs : List Nat) : State :=
  let core := ag.bind Agent.core?
  let own := ag.bind Agent.writer?
  let s1 := match core with
    | some c => l2Take s (dieOf c) line mode old offs
    | none => l3Touch s line true
  let stays (x : L2Line) : Bool := x.line != line || x.mode == .prv || core.map dieOf == some x.die
  let m1 := { s1.m with l2 := s1.m.l2.filter stays }
  let mine := m1.l1.any fun x => x.line == line && x.mode == .coh && some x.core == own
  let m2 := match own, mine with
    | some c, true => l1Drop m1 c line
    | _, _ => m1
  let cs := (m2.l1.filter fun x => x.line == line && x.mode == .coh).map fun x => x.core
  let m3 := cs.foldl (fun m c => queueInv m s.pulse.toNat c line (wideTo ag c)) m2
  let s2 := fireMonitors { s1 with m := m3 } line none
  snpOut { s2 with m := redoDirs s2.m (core.getD 0) line } line (match ag with
    | some (.pkg n) => some n
    | _ => none)

/-- Bytes written to physical memory beyond the L1s, for every agent. -/
def landRam (s : State) (ag : Option Agent) (mode : CohMode) (a : Nat) (bs : List Byte) : State :=
  let s1 := { s with m := { s.m with ram := setBytes s.m.ram a bs } }
  (linesOf a bs.length).foldl
    (fun x l => landLine x ag mode l (lineBytes s.m l) (coverOffs l a bs.length)) s1

/-- A write by an agent to physical memory, with the watchpoints it meets (R158). -/
def writeRam (s : State) (ag : Agent) (a : Nat) (bs : List Byte) : State :=
  watchWrite (landRam s (some ag) .coh a bs) ag a bs.length

/-! ### The L1s (R141 to R144) -/

/-- The runs of a rising list of offsets: first and length. -/
def runsOf : List Nat → List (Nat × Nat)
  | [] => []
  | o :: r => match runsOf r with
    | (b, n) :: t => if b = o + 1 then (o, n + 1) :: t else (o, 1) :: (b, n) :: t
    | [] => [(o, 1)]

/-- Bytes of a line copy. -/
def copyBytes (x : L1Line) (a n : Nat) : List Byte := tabBytes x.bytes (a % 128) n

/-- Write the dirty bytes of a line to the next level (R143, R144); the copy stays, clean. The write is that of the team
whose stores they are (R158). -/
def writeBack (s : State) (x : L1Line) : State :=
  let ag : Agent := .lane x.by_ x.core
  let put (s : State) (r : Nat × Nat) : State :=
    watchWrite (landRam s (some ag) x.mode (128 * x.line + r.1) (copyBytes x r.1 r.2)) ag (128 * x.line + r.1) r.2
  let s1 := (runsOf (dirtyOffs x)).foldl put s
  let clean (y : L1Line) : L1Line := if y.core = x.core ∧ y.line = x.line then { y with dirty := 0 } else y
  { s1 with m := { s1.m with l1 := s1.m.l1.map clean } }

/-- Write back the dirty bytes of every line of a core that a test picks. -/
def writeBackAll (s : State) (core : Nat) (p : L1Line → Bool) : State :=
  (s.m.l1.filter fun x => x.core == core && x.dirty != 0 && p x).foldl writeBack s

/-- Those lines are written back, and dropped. -/
def flushL1 (s : State) (core : Nat) (p : L1Line → Bool) : State :=
  let s1 := writeBackAll s core p
  { s1 with m := { s1.m with l1 := s1.m.l1.filter fun x => !(x.core == core && p x) } }

/-- R143: the maintenance of an acquire at .clus or wider: SWC lines written back and dropped. -/
def swcAcquire (s : State) (core : Nat) : State := flushL1 s core fun x => x.mode == .swc

/-- R143: the maintenance of a release at .clus or wider. -/
def swcRelease (s : State) (core : Nat) : State := writeBackAll s core fun x => x.mode == .swc

/-- A line leaves an L1, written back where it is dirty. -/
def l1Out (s : State) (x : L1Line) : State :=
  let s1 := if x.dirty = 0 then s else writeBack s x
  { s1 with m := redoDirs (l1Drop s1.m x.core x.line) x.core x.line }

/-- A line enters the L1 of its core; beyond 256 KiB the line held longest leaves. -/
def l1Add (s : State) (x : L1Line) : State :=
  let m1 := l1Drop s.m x.core x.line
  let mine := m1.l1.filter fun y => y.core == x.core
  let s1 := { s with m := { m1 with l1 := m1.l1 ++ [x] } }
  match mine with
  | y :: _ => if mine.length < 2048 then s1 else l1Out s1 y
  | [] => s1

/-- Put bytes into a core's copy of a line, with the change of the rest of the copy. -/
def l1Put (m : MemSys) (core line o : Nat) (bs : List Byte) (g : L1Line → L1Line) : MemSys :=
  { m with l1 := m.l1.map fun x =>
      if x.core = core ∧ x.line = line then g { x with bytes := setBytes x.bytes o bs } else x }

/-- The bits of `n` bytes from an offset of a line. -/
def byteBits (o n : Nat) : BitVec 128 := BitVec.ofNat 128 (2 ^ n - 1) <<< o

def noTeam : TeamId := ⟨0, 0, none⟩

/-! ### Reads that miss the L1 (R11, R142, R199) -/

/-- No other core or die, and no monitor, has anything of the line's region, and no write to the line is on its way: a read
takes the line exclusive (R166; assumption 103). -/
def soleReader (m : MemSys) (core line : Nat) : Bool :=
  !(m.misses.any fun q => q.line == line) &&
  (copies m).all fun c => c.2.1 / 4 != line / 4 || c.1 == core || (c.2.2 == 3 && c.1 == 96 * dieOf core)

/-- GetS of a core is answered: the owners that it reaches keep the line shared, and every request to write that is still on
its way has one more reader of the new value. `wide` says that the read passed the L2 of the core's die, which then holds
what the home holds. -/
def shareLine (m : MemSys) (core line : Nat) (wide : Bool) : MemSys :=
  let lower (x : L1Line) : L1Line :=
    if x.core ≠ core ∧ x.line = line ∧ x.mode = .coh ∧ (wide ∨ dieOf x.core = dieOf core) then
      { x with st := if x.st = .m then .o else if x.st = .e then .s else x.st }
    else x
  let note (q : Miss) : Miss :=
    if q.excl ∧ q.line = line ∧ q.core ≠ core ∧ (wide ∨ q.newIn (dieOf core)) ∧ !q.fresh.contains core then { q with fresh := q.fresh ++ [core] }
    else q
  let mine (q : Miss) : Bool := q.core == core && q.line == line && !q.excl
  { m with l1 := m.l1.map lower, misses := (m.misses.filter fun q => !mine q).map note }

/-- The L2 of a core's die comes to hold a line that the core reads: where it does not hold it, from the owner or the
home. -/
def l2Read (s : State) (core line : Nat) (mode : CohMode) : State :=
  if mode = .coh then
    let s1 := l2Fill { s with m := shareLine s.m core line (l2Find s.m (dieOf core) line).isNone } (dieOf core) line mode
    { s1 with m := redoDirs s1.m core line }
  else l2Fill s (dieOf core) line mode

/-- A line is brought into a core's L1, clean, from the L2 of its die; one that hardware keeps coherent may be exclusive. -/
def l1Fill (s : State) (core line : Nat) (mode : CohMode) (excl : Bool) : State :=
  let st : DirSt := if excl && mode == .coh && soleReader s.m core line then .e else .s
  let s1 := l2Read s core line mode
  let bytes := match l2Find s1.m (dieOf core) line with
    | some x => x.bytes
    | none => lineBytes s1.m line
  let s2 := l1Add s1 ⟨core, line, mode, bytes, 0, st, noTeam⟩
  { s2 with m := redoDirs s2.m core line }

/-- A read of the newest bytes of a line at the L2 of a core's die or beyond (R180): the core's own copy goes, written back
where it is dirty. -/
def l2Newest (s : State) (core line : Nat) (mode : CohMode) : State :=
  let s1 := match l1Find s.m core line with
    | some x => l1Out s x
    | none => s
  let s2 := l2Take { s1 with m := shareLine s1.m core line true } (dieOf core) line mode [] []
  { s2 with m := redoDirs s2.m core line }

/-- A load of `n` bytes inside one line by a core through its L1 (R142 to R144). -/
def loadLine (s : State) (core : Nat) (mode : CohMode) (a n : Nat) : State × List Byte :=
  match l1Find s.m core (a / 128) with
  | some x => (s, copyBytes x a n)
  | none =>
    let s1 := l1Fill s core (a / 128) mode true
    (s1, match l1Find s1.m core (a / 128) with
      | some x => copyBytes x a n
      | none => tabBytes s1.m.ram a n)

/-- A load of up to 128 bytes that may cross lines. -/
def loadL1 (s : State) (core : Nat) (mode : CohMode) (a n : Nat) : State × List Byte :=
  let k := min n (128 - a % 128)
  let (s1, b1) := loadLine s core mode a k
  if k = n then (s1, b1)
  else
    let (s2, b2) := loadLine s1 core mode (a + k) (n - k)
    (s2, b1 ++ b2)

/-! ### Writes that need the line (R167, R197) -/

/-- Another core that holds the line alone, at whose level a GetM stops (R167). -/
def soleOwner (m : MemSys) (core line : Nat) : Option Nat :=
  (m.l1.find? fun x => x.line == line && x.core != core && x.mode == .coh && x.owned).map fun x => x.core

/-- R167: GetM goes out. The levels beyond the one where it stops have no Ack to give, unless an older write to the line
still waits for theirs. -/
def startM (m : MemSys) (core line : Nat) : MemSys :=
  let top : DirLevel := match soleOwner m core line with
    | some c => sepCores core c
    | none => .pkg
  let waits (l : DirLevel) : Bool := m.misses.any fun q => q.excl && q.line == line && !q.acks.contains l
  let beyond := dirLevels.filter fun l => decide (DirLevel.rank top < DirLevel.rank l) && !waits l
  let seen := match findMiss m core line with
    | some q => if q.excl then q.seen else []
    | none => []
  { m with misses := (m.misses.filter fun q => !(q.core == core && q.line == line)) ++
      [⟨core, line, true, beyond, false, false, [], seen⟩] }

/-- The core must send GetM before it writes the line: it neither owns it nor waits for it, with no reader since. -/
def needM (m : MemSys) (core line : Nat) : Bool :=
  !ownsLine m core line && !(findMiss m core line).any fun q => q.excl && q.fresh.isEmpty

/-- R167: Data comes to the core that sent GetM: it owns the line as it now stands, in its L1 (`keep`) or at an execution
point beyond it, and no other core does. -/
def takeData (s : State) (core line : Nat) (keep : Bool) : State :=
  let other := (otherOwner s.m core line).isSome
  let lower (x : L1Line) : L1Line :=
    if x.core ≠ core ∧ x.mode = .coh ∧ (x.line = line ∨ (x.line / 4 = line / 4 ∧ clusOf x.core ≠ clusOf core)) then
      { x with st := .s }
    else x
  let note (q : Miss) : Miss :=
    if !q.excl || q.line != line then q
    else if q.core = core then { q with data := true, fwd := q.fwd || other }
    else if q.fresh.contains core then q else { q with fresh := q.fresh ++ [core] }
  let m1 := l1Drop { s.m with l1 := s.m.l1.map lower, misses := s.m.misses.map note } core line
  let s1 := l2Take { s with m := m1 } (dieOf core) line .coh [] []
  let s2 := if keep then l1Add s1 ⟨core, line, .coh, lineBytes s1.m line, 0, .m, noTeam⟩ else s1
  { s2 with m := redoDirs (settleMiss s2.m core line) core line }

/-- R167: the combined Ack of a level: every older copy in an L1 that the level separates from the writer has its
invalidation queued, L2 copies there are gone, and the monitors there fire. -/
def ackLevel (s : State) (core line : Nat) (l : DirLevel) : State :=
  match findMiss s.m core line with
  | none => s
  | some q =>
    if !q.excl || q.acks.contains l then s
    else
      let old (x : L1Line) : Bool := x.line == line && x.mode == .coh && x.core != core && sepCores core x.core == l &&
        !q.fresh.contains x.core
      let keeps (x : L2Line) : Bool := x.line != line || x.mode != .coh || dieOf core == x.die || sepDie core x.die != l ||
        q.newIn x.die
      let m1 := ((s.m.l1.filter old).map fun x => x.core).foldl
        (fun m c => queueInv m s.pulse.toNat c line (DirLevel.scope l)) { s.m with l2 := s.m.l2.filter keeps }
      let hit (x : Monitor) : Bool := x.line == line && sepMon core x == l && !(x.point == .core && x.unit == core)
      let m2 := settleMiss (putMiss { m1 with mons := m1.mons.filter fun x => !hit x } { q with acks := q.acks ++ [l] }) core line
      (s.m.mons.filter hit).foldl (fun s x => wakeLane s x.team x.swarm x.lane x.inH) { s with m := redoDirs m2 core line }

/-- The levels whose Acks a write at a scope needs (R167). -/
def ackLevels (sc : Scope) : List DirLevel := dirLevels.filter fun l => decide (DirLevel.rank l ≤ Scope.num sc)

/-- R167: the write of a core to a line is performed at a scope: the Acks up to the scope's directory have come.
The packages that hold the line are snooped (R372). -/
def performAt (s : State) (core line : Nat) (sc : Scope) : State :=
  snpOut ((ackLevels sc).foldl (fun s l => ackLevel s core line l) s) line none

/-- R167: the line is the core's to write, in its L1 or beyond it. -/
def ownLine (s : State) (core line : Nat) (keep : Bool) : State :=
  let s1 := if needM s.m core line then { s with m := startM s.m core line } else s
  if keep && ownsLine s1.m core line then s1 else takeData s1 core line keep

/-- A COH write of a lane inside one line that its core owns: performed at the scope. -/
def cohWrite (s : State) (ag : Agent) (core : Nat) (sc : Scope) (a : Nat) (bs : List Byte) : State :=
  let line := a / 128
  let s1 := ownLine s core line true
  let s2 := { s1 with m := { s1.m with ram := setBytes s1.m.ram a bs } }
  let s3 := l2Take s2 (dieOf core) line .coh (lineBytes s1.m line) (coverOffs line a bs.length)
  let s4 := { s3 with m := redoDirs (l1Put s3.m core line (a % 128) bs fun x => { x with st := .m }) core line }
  watchWrite (fireMonitors (performAt s4 core line sc) line (some core)) ag a bs.length

/-- A store into the issuing core's L1 alone (R143, R144): its bytes are dirty. -/
def dirtyWrite (s : State) (t : TeamId) (core : Nat) (mode : CohMode) (a : Nat) (bs : List Byte) : State :=
  let line := a / 128
  let s1 := match l1Find s.m core line with
    | some x => if x.dirty ≠ 0 ∧ x.by_ ≠ t then writeBack s x else s
    | none => l1Fill s core line mode true
  let mark (x : L1Line) : L1Line := { x with dirty := x.dirty ||| byteBits (a % 128) bs.length, by_ := t }
  fireMonitors { s1 with m := l1Put s1.m core line (a % 128) bs mark } line (some core)

/-- A store of bytes inside one line by a lane of a team and core at a scope (R142 to R144). -/
def storeLine (s : State) (t : TeamId) (core : Nat) (mode : CohMode) (sc : Scope) (a : Nat) (bs : List Byte) : State :=
  let ag : Agent := .lane t core
  if mode = .coh then cohWrite s ag core sc a bs
  else if mode = .prv ∨ sc = .core then dirtyWrite s t core mode a bs
  else
    -- R143: through to L2, and into the copy that the L1 holds; the bytes are no longer dirty there
    let s1 := watchWrite (landRam s (some ag) mode a bs) ag a bs.length
    let clean (x : L1Line) : L1Line := { x with dirty := x.dirty &&& ~~~(byteBits (a % 128) bs.length) }
    { s1 with m := l1Put s1.m core (a / 128) (a % 128) bs clean }

def storeL1 (s : State) (t : TeamId) (core : Nat) (mode : CohMode) (sc : Scope) (a : Nat) (bs : List Byte) : State :=
  let k := min bs.length (128 - a % 128)
  let s1 := storeLine s t core mode sc a (bs.take k)
  if k = bs.length then s1 else storeLine s1 t core mode sc (a + k) (bs.drop k)

/-! ### Atomics (R175, R176) -/

/-- The table of R175: the issuing core's L1. RED to a PRV page is written there at any scope (R144). -/
def atomicInL1 (mode : CohMode) (red : Bool) (sc : Scope) : Bool :=
  match mode with
  | .coh => sc == .core || sc == .clus
  | .swc => sc == .core
  | .prv => red || sc == .core || sc == .clus

/-- R176: an atomic beyond the L1 invalidates the issuing core's copy, its dirty bytes written back first. -/
def dropOwn (s : State) (core line : Nat) : State :=
  match l1Find s.m core line with
  | some x => l1Out s x
  | none => s

/-- What an atomic comes to at a place whose bytes are `old`: `put` writes the new bytes that `f` gives, none writes nothing. -/
def atomicAt (s : State) (old : List Byte) (f : List Byte → Option (List Byte)) (put : List Byte → State) : State × List Byte :=
  match f old with
  | some bs => (put bs, old)
  | none => (s, old)

/-- An atomic in the issuing core's L1. -/
def atomicHere (s : State) (t : TeamId) (core : Nat) (mode : CohMode) (sc : Scope) (a n : Nat)
    (f : List Byte → Option (List Byte)) : State × List Byte :=
  let r := loadLine (if mode = .coh then ownLine s core (a / 128) true else s) core mode a n
  atomicAt r.1 r.2 f fun bs =>
    if mode = .coh then cohWrite r.1 (.lane t core) core sc a bs else dirtyWrite r.1 t core mode a bs

/-- The bytes of a COH atomic beyond the L1: at .die the L2 of the core's die executes it, at a wider scope the home. -/
def atomicPut (s : State) (t : TeamId) (core : Nat) (sc : Scope) (a : Nat) (bs : List Byte) : State :=
  let line := a / 128
  let s1 := { s with m := { s.m with ram := setBytes s.m.ram a bs } }
  let s2 := if sc = .die then l2Take s1 (dieOf core) line .coh (lineBytes s.m line) (coverOffs line a bs.length)
    else l3Touch { s1 with m := redoDirs (l2Drop s1.m (dieOf core) line) core line } line true
  watchWrite (fireMonitors (performAt s2 core line sc) line (some core)) (.lane t core) a bs.length

/-- Read, modify and write bytes of one line at the execution point of an atomic (R175): `f` gives the new bytes, none to
write nothing; `red` says that it returns no value. -/
def atomicRam (s : State) (t : TeamId) (core : Nat) (mode : CohMode) (sc : Scope) (red : Bool) (a n : Nat)
    (f : List Byte → Option (List Byte)) : State × List Byte :=
  if atomicInL1 mode red sc then atomicHere s t core mode sc a n f
  else
    let s1 := dropOwn s core (a / 128)
    if mode = .coh then
      let s2 := ownLine s1 core (a / 128) false
      atomicAt s2 (tabBytes s2.m.ram a n) f (atomicPut s2 t core sc a)
    else
      atomicAt s1 (tabBytes s1.m.ram a n) f fun bs =>
        watchWrite (landRam s1 (some (.lane t core)) mode a bs) (.lane t core) a bs.length

/-! ### Acquire and release (R143, R163, R168) -/

/-- An acquire of a core at a scope: the invalidations of writes that it covers are applied, and the writes themselves count
as observed by the core (R163; assumption 101). -/
def acquire (s : State) (core : Nat) (sc : Scope) : State :=
  let note (q : Miss) : Miss :=
    if q.excl ∧ withinScope sc core q.core ∧ !q.seen.contains core then { q with seen := q.seen ++ [core] } else q
  let m1 := applyInvs s.m core sc
  let s1 := { s with m := { m1 with misses := m1.misses.map note } }
  if sc = .core then s1 else swcAcquire s1 core

/-- A release of a core at a scope: every write that the core has made or observed, by a writer within the scope, is
performed at it. Earlier accesses are ordered by the operand log. -/
def release (s : State) (core : Nat) (sc : Scope) : State :=
  let mine (q : Miss) : Bool := q.excl && q.data && withinScope sc core q.core && q.observedBy core
  let s1 := (s.m.misses.filter mine).foldl (fun s q => performAt s q.core q.line sc) s
  if sc = .core then s1 else swcRelease s1 core

/-! ### Scratchpad, its saved image, and sync words -/

/-- Where a byte of a context image stands: images lie at .g addresses of the level that saved (R329, R346). -/
def imgPa (s : State) (tm : Team) (a : Nat) : Option Nat :=
  match walkAll s (clusOf tm.core) tm.part tm.slice tm.asn tm.saver .rw a with
  | .ok x => some x.pa
  | .error _ => none

/-- Read bytes of an image; a byte that does not translate reads 0. -/
def imgRead (s : State) (tm : Team) (a n : Nat) : List Byte :=
  (List.range n).map fun k => match imgPa s tm (a + k) with
    | some p => s.m.ram.get p
    | none => 0

/-- A span cut at the 128-byte lines: address and length. -/
def spanParts : Nat → Nat → Nat → List (Nat × Nat)
  | 0, _, _ => []
  | f + 1, a, n =>
    if n = 0 then []
    else
      let k := min n (128 - a % 128)
      (a, k) :: spanParts f (a + k) (n - k)

/-- A piece of a request inside one line: physical address and length. -/
abbrev Chunk := Nat × Nat

/-- The bytes of the chunks of a write. -/
def chunkBytes : List Chunk → List Byte → List (Nat × List Byte)
  | [], _ => []
  | (a, n) :: r, bs => (a, bs.take n) :: chunkBytes r (bs.drop n)

/-- Write bytes of an image, as any write of memory. -/
def imgWrite (s : State) (tm : Team) (ag : Agent) (a : Nat) (bs : List Byte) : State :=
  let put (s : State) (x : Nat × Nat) : State := match imgPa s tm x.1 with
    | some p => writeRam s ag p ((bs.drop (x.1 - a)).take x.2)
    | none => s
  (spanParts (bs.length / 128 + 2) a bs.length).foldl put s

/-- R138: mark the arrival-map bits of the 1 KiB units that `n` bytes from an offset touch, in the header of an image. -/
def setArrival (s : State) (tm : Team) (ag : Agent) (img off n : Nat) : State :=
  (List.range ((off + n - 1) / 1024 - off / 1024 + 1)).foldl (fun s u =>
    let bit := 128 + off / 1024 + u
    let a := img + bit / 8
    match imgRead s tm a 1 with
    | [b] => imgWrite s tm ag a [b ||| (1#8 <<< (bit % 8))]
    | _ => s) s

/-- R138: scratchpad bytes written in an image, with their arrival-map bits. -/
def imgPut (s : State) (tm : Team) (ag : Agent) (img off : Nat) (bs : List Byte) : State :=
  setArrival (imgWrite s tm ag (img + 0x244000 + off) bs) tm ag img off bs.length

/-- The scratchpad bytes of a team: resident, or in its saved image (R138). -/
def spadRead (s : State) (t : TeamId) (off n : Nat) : List Byte :=
  match findTeam s t with
  | some tm =>
    match tm.image with
    | some img => imgRead s tm (img + 0x244000 + off) n
    | none => tabBytes tm.spad off n
  | none => List.replicate n 0

/-- Wake the lanes of a frame whose park a test picks. -/
def wakeParks (p : Park → Bool) (fr : Frame) : Frame :=
  let wake (l : Lane) : Lane := match l.park with
    | some k => if p k then { l with woken := true } else l
    | none => l
  { fr with lanes := fr.lanes.map wake }

/-- Wake such lanes of every swarm of a team, in its handler and in its program. -/
def wakeTeam (p : Park → Bool) (tm : Team) : Team :=
  { tm with swarms := tm.swarms.map fun sw =>
      { sw with frame := wakeParks p sw.frame, hidden := sw.hidden.map (wakeParks p) } }

/-- Wake the lanes parked in SYNCWT of a team and of its gang (R192): a spurious wake parks again. -/
def wakeSync (s : State) (t : TeamId) : State :=
  let hit (k : Park) : Bool := match k with
    | .syncwt _ _ _ => true
    | _ => false
  { s with teams := s.teams.map fun tm => if tm.id == t || tm.gang.isSome then wakeTeam hit tm else tm }

/-- The team whose lane or engine an agent is. -/
def Agent.team? : Agent → Option TeamId
  | .lane t _ | .engine t _ | .matrix t _ => some t
  | _ => none

/-- Write scratchpad bytes of a team: resident, or in its saved image (R138). Once the scratchpad has been saved, and until
the team has left its core, what other parties write is written in both, so that neither a save nor its withdrawal loses
it (R193, R194). -/
def spadWrite (s : State) (ag : Agent) (t : TeamId) (off : Nat) (bs : List Byte) : State :=
  let s1 := match findTeam s t with
    | some tm =>
      match tm.image with
      | some img => imgPut s tm ag img off bs
      | none =>
        let s1 := updTeam s t fun x => { x with spad := setBytes x.spad off bs }
        match tm.imageAt with
        | some img => if ag.team? = some t then s1 else imgPut s1 tm ag img off bs
        | none => s1
    | none => s
  wakeSync s1 t

/-- R154: the words of a sync word after an arrival of `n` bytes, `img` when it lies in a saved image. -/
def syncBump (img : Bool) (w : Nat) (n : Nat) : Nat :=
  let target := w % 2 ^ 32
  let count := w / 2 ^ 32 % 2 ^ 32
  let gen := w / 2 ^ 64 % 2 ^ 32
  let hi := w / 2 ^ 96
  let sum := count + n
  let c := min sum (2 ^ 32 - 1)
  let ovf : Bool := decide (2 ^ 32 - 1 < sum) || hi.testBit 0
  let gi : Bool := img || hi.testBit 1
  let k := if target = 0 then 0 else c / target
  let c' := if target = 0 then c else c % target
  target + c' * 2 ^ 32 + (gen + k) % 2 ^ 32 * 2 ^ 64 +
    (hi / 4 * 4 + (if ovf then 1 else 0) + (if gi then 2 else 0)) * 2 ^ 96

/-- R154: an arrival of `n` bytes at a sync word, one indivisible update; at a scratchpad that has been saved and is still
resident, in both places (R193). -/
def syncArrive (s : State) (ag : Agent) (t : TeamId) (off n : Nat) : State :=
  let bump (img : Bool) (bs : List Byte) : List Byte := valBytes 16 (syncBump img (bytesVal bs) n)
  match findTeam s t with
  | none => s
  | some tm =>
    match tm.image with
    | some img => wakeSync (imgPut s tm ag img off (bump true (imgRead s tm (img + 0x244000 + off) 16))) t
    | none =>
      let s1 := updTeam s t fun x => { x with spad := setBytes x.spad off (bump false (tabBytes tm.spad off 16)) }
      let s2 := match tm.imageAt with
        | some img =>
          if ag.team? = some t then s1 else imgPut s1 tm ag img off (bump true (imgRead s1 tm (img + 0x244000 + off) 16))
        | none => s1
      wakeSync s2 t

/-! ### Carved L3 (R140) -/

def l3Key (carve off : Nat) : Nat := 2 ^ 28 * carve + off
def l3Read (s : State) (stack off n : Nat) : List Byte := tabBytes s.m.l3 (l3Key stack off) n
def l3Write (s : State) (stack off : Nat) (bs : List Byte) : State :=
  { s with m := { s.m with l3 := setBytes s.m.l3 (l3Key stack off) bs } }

end Sys2Proof.Machine
end

