-- ==== Sys2Proof/Machine/Access.lean ====
section
/-!
DEFINITION. Performing the accesses that stand in the operand log (R147 to R150, R159 to R163, R175 to R179, R321):
what a lane's access does, when it may be performed, and what its completion lowers and frees.
-/
namespace Sys2Proof.Machine

/-- A host-window line that the package holds through CXL.cache (R369). -/
def heldLine (s : State) (a : Nat) : Option CxlLine :=
  if storageOf a = .host then s.link.cxl.find? fun x => x.line == a / 128 else none

/-- Write bytes of a held line; it is then dirty. -/
def putHeld (s : State) (a : Nat) (bs : List Byte) : State :=
  let put (x : CxlLine) : CxlLine :=
    if x.line = a / 128 then { x with bytes := setBytes x.bytes (a % 128) bs, dirty := true } else x
  { s with link := { s.link with cxl := s.link.cxl.map put } }

/-- R76: the spill regions of the swarms on cores: the physical address of each swarm's 64 KiB. -/
def spillRegions (s : State) : List (Nat × Swarm) :=
  (s.teams.filter fun tm => onCore tm && tm.level == .prog).flatMap fun tm =>
    (tm.swarms.filter fun sw => sw.kind == .team && !sw.ended).filterMap fun sw =>
      match walkAll s (clusOf tm.core) tm.part tm.slice tm.asn tm.level .read (tm.spill + 65536 * sw.num) with
      | .ok x => some (x.pa, sw)
      | .error _ => none

/-- The byte of the register that stands at an offset of a swarm's spill region; none while its row is spilled. -/
def spillByte (sw : Swarm) (off : Nat) : Option Byte :=
  if (progFrame sw).spilled.getLsbD (off / 128) then none
  else some (BitVec.ofNat 8 ((reg (progFrame sw) (off % 128 / 4) (off / 128)).toNat / 2 ^ (8 * (off % 4))))

/-- R77: the bytes that a load finds at a physical address, where memory holds `bs`: in a spill region, a word whose row is not
spilled is the register as it stands (assumption 99). -/
def spillView (s : State) (a : Nat) (bs : List Byte) : List Byte :=
  match (spillRegions s).filter fun r => decide (r.1 < a + bs.length ∧ a < r.1 + 65536) with
  | [] => bs
  | rs => bs.mapIdx fun k b =>
    match rs.find? fun r => decide (r.1 ≤ a + k ∧ a + k < r.1 + 65536) with
    | some r => (spillByte r.2 (a + k - r.1)).getD b
    | none => b

/-- A read of a checked place by a lane of a core. -/
def readPlace (s : State) (core : Nat) (q : MemQ) (p : Place) (n : Nat) : State × List Byte :=
  match p with
  | .pa a m =>
    match heldLine s a with
    | some x => (s, tabBytes x.bytes (a % 128) n)
    | none =>
    -- R143: an acquiring load of an SWC line reads from L2
    let s1 := if q.ord = .acq ∧ q.scope ≠ .core ∧ m = .swc then swcAcquire s core else s
    let r := loadL1 s1 core m a n
    (r.1, spillView s a r.2)
  | .spad t off => (s, spadRead s t off n)
  | .l3 k off => (s, l3Read s k off n)

/-- A write to a checked place by a lane of a team and core. -/
def writePlace (s : State) (t : TeamId) (core : Nat) (q : MemQ) (p : Place) (bs : List Byte) : State :=
  match p with
  | .pa a m => if (heldLine s a).isSome then putHeld s a bs else storeL1 s t core m q.scope a bs
  | .spad u off => spadWrite s (.lane t core) u off bs
  | .l3 k off => l3Write s k off bs

/-- An atomic at a checked place (R175); `red` says that it returns no value. -/
def atomicPlace (s : State) (t : TeamId) (core : Nat) (q : MemQ) (red : Bool) (p : Place) (n : Nat)
    (f : List Byte → Option (List Byte)) : State × List Byte :=
  match p with
  | .pa a m =>
    match heldLine s a with
    | some x =>
      let old := tabBytes x.bytes (a % 128) n
      (match f old with
        | some bs => putHeld s a bs
        | none => s, old)
    | none => atomicRam s t core m q.scope red a n f
  | .spad u off =>
    let old := spadRead s u off n
    (match f old with
      | some bs => spadWrite s (.lane t core) u off bs
      | none => s, old)
  | .l3 k off =>
    let old := l3Read s k off n
    (match f old with
      | some bs => l3Write s k off bs
      | none => s, old)

/-- How an instruction of the operand log accesses memory. -/
inductive AccKind where
  | load (n : Nat)
  | store (n : Nat)
  | atomic (n : Nat)
  | reduce (n : Nat)
  /-- SYNCWI: a sync word of 16 bytes (R191). -/
  | sync
  /-- A word whose writes count as its lane's accesses and are performed by the part (ACCST, ACCDR; R163, R243). -/
  | byPart
deriving DecidableEq, Repr

/-- The kind and size of an access (R149, R150, R177, R179). -/
def accKind : Instr → Option AccKind
  | .ld z _ _ _ _ => some (.load z.bytes)
  | .st z _ _ _ => some (.store z.bytes)
  | .ldv n _ _ _ => some (.load (4 * n.count))
  | .stv n _ _ _ => some (.store (4 * n.count))
  | .atom f _ _ _ => some (.atomic (if f = .g64 then 8 else 4))
  | .red f _ _ _ => some (.reduce (if f = .g64 then 8 else 4))
  | .syncwi _ => some .sync
  | .accst _ _ | .accdr _ _ _ => some .byPart
  | _ => none

def AccKind.size : AccKind → Nat
  | .load n | .store n | .atomic n | .reduce n => n
  | .sync => 16
  | .byPart => 0
def AccKind.loads : AccKind → Bool
  | .load _ | .atomic _ | .sync => true
  | _ => false
def AccKind.stores : AccKind → Bool
  | .load _ => false
  | _ => true

/-- The bytes of a list of words, lowest first. -/
def wordBytes (ws : List Word) : List Byte := ws.flatMap fun w => valBytes 4 w.toNat
/-- The words of a list of bytes. -/
def bytesWords (n : Nat) (bs : List Byte) : List Word :=
  (List.range n).map fun k => BitVec.ofNat 32 (bytesVal ((bs.drop (4 * k)).take 4))

/-- R149, R150, R177: what arrives in the destination registers of a lane. -/
def writeLoaded (fr : Frame) (i : Instr) (lane : Nat) (bs : List Byte) : Frame :=
  let v := bytesVal bs
  match i with
  | .ld z _ sx _ o =>
    match o.d with
    | .main .b b _ => setRawBytes fr lane b.toNat z.bytes v
    | .main .v n _ => if z = .s64 then setPair fr lane n.toNat (BitVec.ofNat 64 v)
      else setReg fr lane n.toNat (widen sx (8 * z.bytes) v)
    | _ => fr
  | .ldv n _ _ o =>
    (List.range n.count).foldl (fun f k => setReg f lane (opIdx o.d + k) (nth 0 (bytesWords n.count bs) k)) fr
  | .atom f _ _ o =>
    if f = .g64 then setPair fr lane (opIdx o.d) (BitVec.ofNat 64 v) else setReg fr lane (opIdx o.d) (BitVec.ofNat 32 v)
  | .syncwi o => setReg fr lane (opIdx o.d) (BitVec.ofNat 32 (v / 2 ^ 64))
  | _ => fr

/-- The atomic operation of a word. -/
def aoOf : Instr → AO
  | .atom _ ao _ _ | .red _ ao _ _ | .atomv ao _ _ => ao
  | _ => .add

/-- The update an atomic or RED makes on old bytes, with its flags (R177). -/
def updateOf (ao : AO) (n : Nat) (d c : DWord) (old : List Byte) : Option (List Byte) × Flags :=
  let o := bytesVal old
  let (x, fl) := atomicNew ao (8 * n) o d.toNat c.toNat
  (if ao = .cas ∧ o ≠ c.toNat % 2 ^ (8 * n) then none else some (valBytes n x), fl)

def dataPair (ws : List Word) : DWord := pairOf (nth 0 ws 0) (nth 0 ws 1)

/-- The request that a lane's access sends out of the package. -/
def reqOpOf (i : Instr) (r : LaneRec) : ReqOp :=
  match accKind i with
  | some (.load n) => .read n
  | some (.store n) => .write ((wordBytes r.data).take n)
  | some (.atomic n) => .atomic (aoOf i) (n == 8) (dataPair r.data) r.cmp
  | some (.reduce n) => .atomic (aoOf i) (n == 8) (dataPair r.data) r.cmp
  | some .sync | some .byPart | none => .read 0

/-- Storage outside the package: reached through the link (R343, R365). -/
def isRemote (p : Place) : Bool :=
  match p with
  | .pa a _ =>
    match storageOf a with
    | .host | .peer _ _ => true
    | _ => false
  | _ => false

/-! ### Requests out of the package (R365, R371, R374, R379) -/

def findFn (s : State) (die num : Nat) : Option Fn := s.link.fns.find? fun f => f.die == die && f.num == num
def updFn (s : State) (die num : Nat) (g : Fn → Fn) : State :=
  { s with link := { s.link with fns := s.link.fns.map fun f => if f.die == die && f.num == num then g f else f } }

/-- The function through which a slice reaches a Lerxis die (R379); a Draining one refuses new requests (R380). -/
def sliceFn (s : State) (part slice die : Nat) : Option Fn :=
  let mine (st : FnSt) : Option Fn :=
    s.link.fns.find? fun f => f.die == die && f.part == some part && f.slice == slice && f.num != 0 && f.st == st
  match mine .enabled with
  | some f => some f
  | none => match mine .frozen with
    | some f => some f
    | none => mine .draining

/-- The Lerxis die of a Mirrek port (R371, R385): ports 0 to 17 on die 0, 18 to 35 on die 1. -/
def portDie (m : Nat) : Nat := m / 18

/-- How a request leaves: die and function, and the port for the fabric (R365, R371). None when the slice has no
Enabled function on a die that the request needs, or the identifier names nothing (0x36). -/
def routeOut (s : State) (part slice a : Nat) : Option (Fn × Option Nat) :=
  match storageOf a with
  | .host => (sliceFn s part slice (a / 2 ^ 43 % 2)).map fun f => (f, none)
  | .peer i _ =>
    let ready (m : Nat) : Bool := s.boot.ready.getLsbD (216 + m)
    if i < 576 then
      let ports := (List.range 36).filter fun m => ready m && (sliceFn s part slice (portDie m)).isSome
      let n := ports.length
      if n = 0 then none
      else
        let m := nth 0 ports (Config.portHash (a / 128) % n)
        (sliceFn s part slice (portDie m)).map fun f => (f, some m)
    else if 0xC00 ≤ i ∧ i ≤ 0xC23 ∧ ready (i - 0xC00) then
      (sliceFn s part slice (portDie (i - 0xC00))).map fun f => (f, some (i - 0xC00))
    else none
  | _ => none

def findPort (s : State) (m : Nat) : Port :=
  match s.link.ports.find? fun p => p.num == m with
  | some p => p
  | none => ⟨m, [], [], 0⟩
def setPort (s : State) (p : Port) : State :=
  { s with link := { s.link with ports := p :: s.link.ports.filter fun q => q.num != p.num } }

/-- R374: a flit takes the wire when the replay buffer has room. -/
def pushFlits (p : Port) : Nat → Port
  | 0 => p
  | k + 1 =>
    match p.tx with
    | [] => p
    | (_, n) :: r => if p.replay.length < 512 then pushFlits { p with tx := r, replay := p.replay ++ [n], sent := p.sent + 1 } k else p

/-- R374: a partition has room in a port's transmit buffers: its 64 reserved slots, or the shared pool of 1,024 of
which it may hold 768. -/
def txRoom (p : Port) (part : Nat) : Bool :=
  let of_ (q : Nat) : Nat := (p.tx.filter fun x => x.1 == q).length
  let shared (q : Nat) : Nat := of_ q - 64
  of_ part < 64 || (decide (shared part < 768) && decide (((List.range 16).map shared).sum < 1024))

/-- R379: the requests outstanding through a function. -/
def outstanding (s : State) (die num : Nat) : Nat :=
  (s.link.reqs.filter fun r => r.die == die && r.fnum == num).length

/-- A request can be sent now: the function is not Frozen, an allowance is free, and the port has room (R374, R379,
R380). -/
def canSend (s : State) (part : Nat) (f : Fn) (port : Option Nat) : Bool :=
  f.st == .enabled && decide (outstanding s f.die f.num < 256) &&
  (match port with
    | some m => txRoom (findPort s m) part
    | none => true)

/-- Send a request out of the package (R377). -/
def sendReq (s : State) (part : Nat) (f : Fn) (port : Option Nat) (a : Nat) (op : ReqOp) (who : ReqFor) (fwd : Bool) : State :=
  let n := s.link.reqNo
  let r : LinkReq := ⟨n, a, op, who, s.pulse, fwd, part, f.die, f.num, port⟩
  let s1 := { s with link := { s.link with reqs := s.link.reqs ++ [r], reqNo := n + 1 } }
  match port with
  | some m =>
    let p := findPort s1 m
    setPort s1 (pushFlits { p with tx := p.tx ++ [(part, n)] } (p.tx.length + 1))
  | none => s1

/-! ### The operand log -/

def findEntry (fr : Frame) (n : Nat) : Option LogEntry := fr.log.find? fun e => e.num == n
def updEntry (fr : Frame) (n : Nat) (f : LogEntry → LogEntry) : Frame :=
  { fr with log := fr.log.map fun e => if e.num == n then f e else e }
def recOf (e : LogEntry) (lane : Nat) : Option LaneRec := e.recs.find? fun r => r.lane == lane

/-- The byte ranges of two accesses overlap. -/
def overlaps (p : Place) (n : Nat) (q : Place) (m : Nat) : Bool :=
  match p, q with
  | .pa a _, .pa b _ => decide (a < b + m ∧ b < a + n)
  | .spad t a, .spad u b => t == u && decide (a < b + m ∧ b < a + n)
  | .l3 k a, .l3 j b => k == j && decide (a < b + m ∧ b < a + n)
  | _, _ => false

def entryQ (e : LogEntry) : MemQ :=
  match e.ins.memq? with
  | some q => q
  | none => ⟨.none, .rlx, .core, false⟩

/-- A lane's access of entry `e` has not been performed. -/
def undone (e : LogEntry) (lane : Nat) : Bool := e.todo.getLsbD lane || e.away.getLsbD lane

/-- R161, R163: an older entry holds back a younger one of the same lane. The elements of one ATOMV are ordered by R161 only
where they share an address (R178). -/
def holdsBack (old e : LogEntry) (lane : Nat) : Bool :=
  match accKind old.ins, accKind e.ins with
  | some ko, some ke =>
    undone old lane &&
    ((old.word != e.word && ((ko.loads && ke.stores) ||
     (entryQ old).ord == .acq || (entryQ old).ord == .ar || (entryQ e).ord == .rel || (entryQ e).ord == .ar)) ||
     (match recOf old lane, recOf e lane with
      | some a, some b =>
        (match a.place, b.place with
        | some p, some q => overlaps p ko.size q ke.size
        | _, _ => false)
      | _, _ => false))
  | _, _ => false

/-- R191: SYNCWI on the old 16 bytes: TARGET set, COUNT, OVF and IMG 0, GEN and the reserved bits kept. -/
def armSync (target : Nat) (old : List Byte) : List Byte :=
  let w := bytesVal old
  valBytes 16 (target % 2 ^ 32 + w / 2 ^ 64 % 2 ^ 32 * 2 ^ 64 + w / 2 ^ 98 * 2 ^ 98)

/-- What arrives in a lane that has not exited; a result that arrives later is discarded (R130). -/
def arriveIn (i : Instr) (ln : Nat) (bs : List Byte) (fl : Flags) (fr : Frame) : Frame :=
  if (lane fr ln).exited then fr else orFlags (writeLoaded fr i ln bs) ln fl

/-- R171: the accesses of a lane that a fence orders before its later ones: its loads, or all of them. -/
def fenceOpen (fr : Frame) (f : FenceMark) (loads : Bool) (lane : Nat) : Bool :=
  fr.log.any fun old => decide (old.seq < f.seq) && undone old lane && (!loads || (match accKind old.ins with
    | some k => k.loads
    | none => false))

/-- R171: a fence holds back a later access of a lane while an earlier one that it orders is not performed. -/
def fenceHolds (fr : Frame) (e : LogEntry) (lane : Nat) : Bool :=
  fr.fences.any fun f => decide (f.seq < e.seq) && (match accKind e.ins with
    | some k => (f.acq.getLsbD lane && fenceOpen fr f true lane) || (k.stores && f.rel.getLsbD lane && fenceOpen fr f false lane)
    | none => false)

/-- R177: atomics of one word on one address go in ascending lane order. -/
def lowerSame (e : LogEntry) (lane : Nat) : Bool :=
  match accKind e.ins with
  | some (.atomic _) | some (.reduce _) | some .sync =>
    (lanesOf (e.todo ||| e.away)).any fun j =>
      decide (j < lane) &&
      (match recOf e j, recOf e lane with
      | some a, some b => a.place == b.place
      | _, _ => false)
  | _ => false

/-- The access of a lane may be performed now (R161, R163, R171, R177). -/
def mayPerform (fr : Frame) (e : LogEntry) (lane : Nat) : Bool :=
  e.todo.getLsbD lane && !lowerSame e lane && !fenceHolds fr e lane &&
  !(fr.log.any fun old => decide (old.seq < e.seq) && holdsBack old e lane)

/-- The counter a class names (R148). -/
def bumpCnt (fr : Frame) (c : Cls) (up : Bool) : Frame :=
  match c with
  | .none => fr
  | .ld => { fr with cLd := if up then fr.cLd + 1 else fr.cLd - 1 }
  | .st => { fr with cSt := if up then fr.cSt + 1 else fr.cSt - 1 }
  | .cp => { fr with cCp := if up then fr.cCp + 1 else fr.cCp - 1 }

/-- A word has an entry with accesses that are not performed: ATOMV has one for each element (R178). -/
def wordOpen (fr : Frame) (w : Nat) : Bool := fr.log.any fun e => e.word == w && (e.todo ||| e.away) != 0

/-- R148, R321: an entry whose lanes are all performed lowers the counter of its word with the last of the word's entries,
and is freed unless some lane faulted. -/
def settleEntry (fr : Frame) (n : Nat) : Frame :=
  match findEntry fr n with
  | none => fr
  | some e =>
    if e.todo = 0 ∧ e.away = 0 then
      let fr1 := if wordOpen fr e.word then fr else bumpCnt fr (entryQ e).cls false
      if e.faulted = 0 then { fr1 with log := fr1.log.filter fun x => x.num != n } else fr1
    else fr

/-- R174: a store of a lane to a stack's DRAM, which a FENCE.LY of the lane covers. -/
def unlay (s : State) (tm : Team) (swn lane : Nat) (p : Place) : State :=
  match p with
  | .pa a _ =>
    let x := (tm.id, swn, lane, a / 128)
    if (l3Stack (a / 128)).isNone || s.m.unlaid.contains x then s
    else { s with m := { s.m with unlaid := s.m.unlaid ++ [x] } }
  | _ => s

/-- What a lane's access does to memory and to its own registers (R149, R150, R177, R179). -/
def performOne (s : State) (tm : Team) (swn : Nat) (e : LogEntry) (r : LaneRec) (p : Place) : State :=
  let q := entryQ e
  let core := tm.core
  let acq (s : State) : State := if q.ord = .acq ∨ q.ord = .ar then acquire s core q.scope else s
  let rel (s : State) : State := if q.ord = .rel ∨ q.ord = .ar then release s core q.scope else s
  match accKind e.ins with
  | some (.load n) =>
    let (s1, bs) := readPlace s core q p n
    acq (updFrame s1 tm.id swn (arriveIn e.ins r.lane bs 0))
  | some (.store n) => unlay (writePlace (rel s) tm.id core q p ((wordBytes r.data).take n)) tm swn r.lane p
  | some (.atomic n) =>
    let d := dataPair r.data
    let (s1, old) := atomicPlace (rel s) tm.id core q false p n fun o => (updateOf (aoOf e.ins) n d r.cmp o).1
    let fl := (updateOf (aoOf e.ins) n d r.cmp old).2
    acq (updFrame (unlay s1 tm swn r.lane p) tm.id swn (arriveIn e.ins r.lane old fl))
  | some (.reduce n) =>
    let d := dataPair r.data
    unlay (atomicPlace (rel s) tm.id core q true p n fun o => (updateOf (aoOf e.ins) n d r.cmp o).1).1 tm swn r.lane p
  | some .sync =>
    let (s1, old) := atomicPlace s tm.id core q false p 16 fun o => some (armSync (dataPair r.data).toNat o)
    updFrame s1 tm.id swn (arriveIn e.ins r.lane old 0)
  | some .byPart | none => s

/-- A lane of an entry faults (R146, R321): the lowest cause stands. -/
def faultLane (fr : Frame) (n lane cause stage : Nat) : Frame :=
  updEntry fr n fun e =>
    let b := bit32 lane
    let first : Bool := e.faulted == 0 || decide (cause < e.cause.toNat) ||
      (e.cause.toNat == cause && decide (lane < e.flane))
    { e with todo := e.todo &&& ~~~b, away := e.away &&& ~~~b, faulted := e.faulted ||| b,
             cause := if first then BitVec.ofNat 8 cause else e.cause, stage := if first then stage else e.stage,
             flane := if first then lane else e.flane }

/-- The physical address of a place, 0 for scratchpad and L3. -/
def placeAddr : Place → Nat
  | .pa a _ => a
  | _ => 0
/-- The place lies in a page that is moving (R355). -/
def movingPlace (m : MemSys) : Place → Bool
  | .pa a _ => movingAt m a
  | _ => false
def placeMode : Place → CohMode
  | .pa _ m => m
  | _ => .coh

/-- R368: a write to a line that a host cache holds waits for the answer of a back-invalidation snoop. -/
def hostHeld (s : State) (i : Instr) (p : Place) : Bool :=
  match p, accKind i with
  | .pa a _, some k => k.stores && s.link.hostLines.contains (a / 128)
  | _, _ => false

/-- The access is coherent with the host through CXL.cache (R369). -/
def viaCxl (s : State) (p : Place) : Bool :=
  placeMode p == .coh && storageOf (placeAddr p) == .host && s.link.cxlDies.contains (placeAddr p / 2 ^ 43 % 2)

/-- A lane of an entry faults when its access is to be performed; an entry with nothing left open lowers its counter
(R148). -/
def failLane (s : State) (t : TeamId) (swn n lane cause : Nat) : State :=
  updFrame s t swn fun fr => settleEntry (faultLane fr n lane cause 0) n

/-- Send a lane's access out of the package, or fault it where nothing leads there (R377, R380). A release has its effects
before it leaves (R143, R163). -/
def sendLane (s : State) (tm : Team) (swn n lane : Nat) (e : LogEntry) (r : LaneRec) (p : Place) : State :=
  let a := placeAddr p
  let q := entryQ e
  match routeOut s tm.part tm.slice a with
  | none => failLane s tm.id swn n lane 0x36
  | some (f, port) =>
    if f.st = .draining then failLane s tm.id swn n lane 0x38
    else if canSend s tm.part f port then
      let op := if viaCxl s p then .line else reqOpOf e.ins r
      let s0 := if q.ord = .rel ∨ q.ord = .ar then release s tm.core q.scope else s
      let s1 := sendReq s0 tm.part f port a op (.lane tm.id swn n lane) r.fwd
      updFrame s1 tm.id swn fun fr => updEntry fr n fun e =>
        { e with todo := e.todo &&& ~~~(bit32 lane), away := e.away ||| bit32 lane }
    else s

/-- A lane of an entry has performed the word. -/
def doneLane (fr : Frame) (n lane : Nat) : Frame :=
  let mark (e : LogEntry) : LogEntry :=
    { e with todo := e.todo &&& ~~~(bit32 lane), away := e.away &&& ~~~(bit32 lane), done := e.done ||| bit32 lane }
  settleEntry (updEntry fr n mark) n

/-- A fence takes effect for the lanes whose earlier accesses are performed (R171): the maintenance of R143 and what R163
asks of a release, or the invalidations of R168. -/
def passFence (fr : Frame) (core : Nat) (s : State) (f : FenceMark) : State :=
  let due (m : BitVec 32) (loads : Bool) : Bool := (lanesOf m).any fun i => !fenceOpen fr f loads i
  let s1 := if due f.rel false then release s core f.scope else s
  if due f.acq true then acquire s1 core f.scope else s1

/-- Those lanes are no longer fenced; at .fab and .sys a release waits for the Snp answers of writes before it (R372). -/
def pastFence (fr : Frame) (snp : Bool) (f : FenceMark) : FenceMark :=
  { f with acq := f.acq &&& maskOf (fenceOpen fr f true),
           rel := if snp && scopeGe f.scope .fab then f.rel else f.rel &&& maskOf (fenceOpen fr f false) }

/-- A fence that has not taken effect for a lane holds back its later access. -/
def markHolds (fr : Frame) (e : LogEntry) (lane : Nat) : Bool :=
  fr.fences.any fun f => decide (f.seq < e.seq) && (f.acq.getLsbD lane || (f.rel.getLsbD lane && (match accKind e.ins with
    | some k => k.stores
    | none => false)))

/-- R171: the fences of a swarm take effect as far as its accesses have been performed; one with no lane left is
forgotten. -/
def settleFences (s : State) (t : TeamId) (swn : Nat) : State :=
  match findTeam s t with
  | none => s
  | some tm =>
    match findSwarm tm swn with
    | none => s
    | some sw =>
      let s1 := sw.frame.fences.foldl (passFence sw.frame tm.core) s
      let left (f : FenceMark) : Bool := f.acq ||| f.rel != 0
      updFrame s1 t swn fun fr => { fr with fences := (fr.fences.map (pastFence fr (snpWaits s1))).filter left }

/-- R170: an access to a region under rebuild waits. -/
def rebuilding (m : MemSys) : Place → Bool
  | .pa a _ => m.rebuild.any fun x => x.2.2.1 == dirRegion x.1 (a / 128)
  | _ => false

/-- A read of the package's memory beyond the core's L1 meets an uncorrectable error. -/
def badRead (s : State) (core : Nat) (i : Instr) (p : Place) : Bool :=
  match p, accKind i with
  | .pa a _, some k => k.loads && (linesOf a k.size).any fun l =>
      s.m.bad.contains l && (l1Find s.m core l).isNone && (heldLine s a).isNone
  | _, _ => false

/-- R372: a write at .fab or .sys is performed once every package that holds its line has answered the Snp, and a release
there once those of the writes before it have been answered. -/
def fabHolds (s : State) (e : LogEntry) (p : Place) : Bool :=
  let q := entryQ e
  let stores : Bool := match accKind e.ins with
    | some k => k.stores
    | none => false
  scopeGe q.scope .fab && stores && (snpDue s (placeAddr p / 128) || ((q.ord == .rel || q.ord == .ar) && snpWaits s))

/-- Perform the access of one lane of an entry, or send it out of the package. -/
def perform (s : State) (t : TeamId) (swn n lane : Nat) : State :=
  match findTeam s t with
  | none => s
  | some tm =>
    match findSwarm tm swn with
    | none => s
    | some sw =>
      match findEntry sw.frame n with
      | none => s
      | some e =>
        match recOf e lane with
        | none => s
        | some r =>
          match r.place with
          | none => s
          | some p =>
            if hostHeld s e.ins p || movingPlace s.m p || rebuilding s.m p then s
            else if badRead s tm.core e.ins p then settleFences (failLane s t swn n lane 0x18) t swn
            else if !isRemote p && fabHolds s e p then snpOut s (placeAddr p / 128) none
            else
              let s1 := settleFences s t swn
              if ((findTeam s1 t).bind fun tm => findSwarm tm swn).any fun x => markHolds x.frame e lane then s1
              else if isRemote p && (heldLine s1 (placeAddr p)).isNone then sendLane s1 tm swn n lane e r p
              else settleFences (updFrame (performOne s1 tm swn e r p) t swn fun fr => doneLane fr n lane) t swn

/-- The oldest access that may be performed: entry number and lane. -/
def nextAccess (fr : Frame) : Option (Nat × Nat) :=
  fr.log.findSome? fun e => ((lanesOf e.todo).find? fun i => mayPerform fr e i).map fun i => (e.num, i)

/-- Perform every pending access of a swarm in order (R317: every word already issued completes). -/
def drain (s : State) (t : TeamId) (swn : Nat) : Nat → State
  | 0 => s
  | k + 1 =>
    match (findTeam s t).bind fun tm => findSwarm tm swn with
    | none => s
    | some sw =>
      match nextAccess sw.frame with
      | none => s
      | some (n, i) => drain (perform s t swn n i) t swn k

/-- The accesses that stand in a frame's log. -/
def pendingCount (fr : Frame) : Nat := fr.log.foldl (fun k e => k + countOf e.todo) 0

def drainAll (s : State) (t : TeamId) (swn : Nat) : State :=
  match (findTeam s t).bind fun tm => findSwarm tm swn with
  | none => s
  | some sw => drain s t swn (pendingCount sw.frame)

end Sys2Proof.Machine
end

