-- ==== Sys2Proof/Machine/Ops.lean ====
section
/-!
DEFINITION. The operations every word shares: barriers' arrivals and releases (R184, R185), lanes that end (R128,
R130), taking a trap and entering a handler (R316 to R320), returning from one, the broadcast group (R120, R121), and
the checks 5 to 7 of R64 around the effect of a word.
-/
namespace Sys2Proof.Machine

/-! ### Team barriers (R183 to R185) -/

def barGen (w : DWord) : Word := w.extractLsb' 32 32
def barSet (w : DWord) : Bool := w.getLsbD 21
def barExp (w : DWord) : Nat := (w.extractLsb' 15 6).toNat
def barArr (w : DWord) : Nat := (w.extractLsb' 0 6).toNat
def barWord (gen : Word) (set : Bool) (exp arr : Nat) : DWord :=
  gen ++ BitVec.ofNat 32 ((if set then 2 ^ 21 else 0) + exp % 64 * 2 ^ 15 + arr % 64)

/-- The lanes parked on barrier `b`. -/
def parkedOn (b : Nat) (k : Park) : Bool :=
  match k with
  | .bar c _ => c == b
  | .barwt c => c == b
  | _ => false

/-- R185: a release advances the generation and readies every waiting lane. -/
def releaseBar (tm : Team) (b : Nat) : Team :=
  let w := tm.bars.get b
  wakeTeam (parkedOn b) { tm with bars := tm.bars.set b (barWord (barGen w + 1) false 0 0) }

/-- R185: a barrier whose arrivals reach EXP, or every live swarm when EXP is 0, is released. -/
def settleBar (tm : Team) (b : Nat) : Team :=
  let w := tm.bars.get b
  let want := if barExp w = 0 then (liveSwarms tm).length else barExp w
  if barSet w ∧ barArr w ≠ 0 ∧ want ≤ barArr w then releaseBar tm b else tm

/-- R184, R185: a swarm arrives; the first arrival of a generation fixes EXP. -/
def arriveBar (tm : Team) (b n : Nat) : Team :=
  let w := tm.bars.get b
  let exp := if barSet w then barExp w else n
  settleBar { tm with bars := tm.bars.set b (barWord (barGen w) true exp (barArr w + 1)) } b

/-- R184: the swarm's arrival mask for `b` covers every non-exited lane. -/
def maskFull (fr : Frame) (b : Nat) : Bool :=
  let m := fr.arrive.get b
  let l := liveLanes fr
  m != 0 && (l &&& ~~~m == 0) && l != 0

/-- R184: lanes of a swarm join the mask of a barrier (key 32 + b keeps the count their word names); a full mask is
cleared and the swarm arrives. -/
def joinBar (tm : Team) (swn b n : Nat) (lanes : BitVec 32) : Team :=
  let add (fr : Frame) : Frame :=
    { fr with arrive := (fr.arrive.set b (fr.arrive.get b ||| lanes)).set (32 + b) (BitVec.ofNat 32 n) }
  let tm1 := updSwarmIn tm swn (updProgFrame add)
  match findSwarm tm1 swn with
  | some sw =>
    if maskFull (progFrame sw) b then
      arriveBar (updSwarmIn tm1 swn (updProgFrame fun fr => { fr with arrive := fr.arrive.set b 0 })) b n
    else tm1
  | none => tm1

/-! ### Reconvergence marks (R128) -/

/-- R128: release the lanes that wait on a mark that every marked lane has reached. -/
def releaseMark (fr : Frame) (n : Nat) : Frame :=
  let marked := fr.marks.get n &&& liveLanes fr
  let waits (i : Nat) : Bool := match (lane fr i).bsync with
    | some (k, _) => k == n
    | none => false
  if marked ≠ 0 ∧ (lanesOf marked).all waits then
    let fr1 := { fr with marks := fr.marks.set n 0 }
    (lanesOf marked).foldl (fun f i =>
      match (lane fr i).bsync with
      | some (_, re) =>
        let f1 := updLane f i fun l => { l with bsync := none, pc := l.pc + 12 }
        (match re with
        | some k => { f1 with marks := f1.marks.set k (f1.marks.get k ||| bit32 i) }
        | none => f1)
      | none => f) fr1
  else fr

/-- The marks that one ending completes are released in ascending order (assumption 89). -/
def releaseMarks (fr : Frame) : Frame := (List.range 8).foldl releaseMark fr

/-! ### Groups of lanes (R120, R121) -/

/-- The PC that the most lanes of a mask hold, parked ones too (assumption 121); at equal counts, that of the
lowest-numbered lane. -/
def majority (fr : Frame) (m : BitVec 32) : Option DWord :=
  let count (p : DWord) : Nat := countOf (maskOf fun i => m.getLsbD i && (lane fr i).pc == p)
  (lanesOf m).foldl (fun best i =>
    let p := (lane fr i).pc
    match best with
    | none => some p
    | some b => if count b < count p then some p else best) none

/-- R121: when no non-exited lane holds the broadcast address, it moves to the PC that the most of them hold. -/
def rejoin (fr : Frame) : Frame :=
  if (lanesOf (liveLanes fr)).any fun i => (lane fr i).pc == fr.bcast then fr
  else match majority fr (liveLanes fr) with
    | some p => { fr with bcast := p }
    | none => fr

/-- R120, R121: the broadcast address after a word; `own` when the broadcast group issued it, whose lanes are `mask`. -/
def regroup (own : Bool) (mask : BitVec 32) (fr : Frame) : Frame :=
  rejoin (match own, majority fr (mask &&& liveLanes fr) with
    | true, some p => { fr with bcast := p }
    | _, _ => fr)

/-! ### Lanes and swarms that end (R121, R130) -/

/-- R128, R130: lanes exit; they leave every mark, and a mark that this completes releases its lanes; the broadcast
address moves when no lane is left at it (R121). -/
def exitFrame (fr : Frame) (lanes : BitVec 32) : Frame :=
  let fr1 := eachLane lanes fr fun i f => updLane f i fun l => { l with exited := true, bsync := none, park := none }
  let out (k : Nat) (t : Tab 32) : Tab 32 := (List.range k).foldl (fun t n => t.set n (t.get n &&& ~~~lanes)) t
  rejoin (releaseMarks { fr1 with marks := out 8 fr1.marks, arrive := out 17 fr1.arrive })

/-- R184: arrivals that the exit of lanes completes. -/
def exitArrivals (tm : Team) (swn : Nat) : Team :=
  (List.range 16).foldl (fun tm b =>
    match findSwarm tm swn with
    | some sw =>
      let fr := progFrame sw
      if maskFull fr b then
        arriveBar (updSwarmIn tm swn (updProgFrame fun f => { f with arrive := f.arrive.set b 0 })) b
          (fr.arrive.get (32 + b)).toNat
      else tm
    | none => tm) tm

/-- The flags of every lane of a frame. -/
def allFlags (fr : Frame) : Flags := fr.lanes.foldl (fun f l => f ||| l.fflags) 0

/-- R121, R130: a swarm whose lanes have all exited ends. A forager's flags go into lane 0 of the issuing swarm (R40);
barriers that count every live swarm are looked at again (R185). -/
def endSwarm (tm : Team) (swn : Nat) : Team :=
  match findSwarm tm swn with
  | none => tm
  | some sw =>
    if sw.ended || liveLanes (progFrame sw) ≠ 0 then tm
    else
      let tm1 := updSwarmIn tm swn fun x => { x with ended := true, mode := .program, frame := progFrame x, hidden := none }
      if sw.kind = .team then (List.range 16).foldl settleBar tm1
      else updSwarmIn tm1 sw.issuer (updProgFrame fun fr => orFlags fr 0 (allFlags (progFrame sw)))

/-- Lanes of a swarm exit in its program (R130). -/
def exitLanes (tm : Team) (swn : Nat) (lanes : BitVec 32) : Team :=
  endSwarm (exitArrivals (updSwarmIn tm swn (updProgFrame fun fr => exitFrame fr lanes)) swn) swn

/-! ### Traps (R316 to R320) -/

/-- The level above a level (R317). -/
def levelAbove : Level → Level
  | .prog => .two
  | .two => .one
  | .one => .fw
  | .fw => .fw

/-- The owner of a translation stage (R349). -/
def stageOwner (stage : Nat) : Level := if stage = 1 then .two else if stage = 2 then .one else if stage = 3 then .fw else .two

/-- R66, R319, R377: the level a cause is routed to, from the level of the trapping word. -/
def routeOf (cause stage : Nat) (from_ : Level) : Level :=
  if cause = 0x05 then (match from_ with
    | .prog | .two => .one
    | _ => .fw)
  else if cause = 0x22 ∨ cause = 0x25 then levelAbove from_
  else if cause = 0x24 ∨ 0x30 ≤ cause ∧ cause ≤ 0x34 then stageOwner stage
  else if cause = 0x36 ∧ from_ = .fw then .fw
  else if cause = 0x3A ∨ cause = 0x3D then .two
  else if 0x35 ≤ cause ∧ cause ≤ 0x3E then .one
  else .two

/-- The fields of $trapc (R318). -/
structure TrapInfo where
  cause : Nat
  field : Nat := 3
  imp   : Bool := false
  logix : Option Nat := none
  frg   : Bool := false
  lane  : Nat := 0
  stage : Nat := 0

/-- R318: the layout of $trapc. -/
def trapcWord (i : TrapInfo) (from_ to_ : Level) : Word :=
  BitVec.ofNat 32 (i.cause % 256 + i.field % 4 * 2 ^ 8 + (if i.imp then 2 ^ 10 else 0) +
    (match i.logix with
      | some k => 2 ^ 11 + k % 8 * 2 ^ 12
      | none => 0) +
    (if i.frg then 2 ^ 15 else 0) + i.lane % 32 * 2 ^ 16 + i.stage % 8 * 2 ^ 21 +
    levelCode from_ * 2 ^ 24 + levelCode to_ * 2 ^ 26)

/-- A lane of a fresh frame. -/
def freshLane (pc : DWord) : Lane := { deadLane with pc := pc, exited := false }

/-- A frame with nothing in it (R74, R118). The round robin of R123 starts after lane 0 (assumption 90). -/
def freshFrame (pc : DWord) (v t : Nat) (xlgw : Nat) : Frame where
  lanes   := List.replicate 32 (freshLane pc)
  regs    := []
  live    := 0
  freed   := []
  spilled := 0
  vcnt    := v
  tcnt    := t
  xlgw    := xlgw
  prog    := 0
  marks   := []
  bcast   := pc
  lastSub := 0
  tried   := 0
  cLd     := 0
  cSt     := 0
  cCp     := 0
  cTile   := 0
  log     := []
  fences  := []
  seq     := 0
  liveSet := none
  macroAt := none
  arrive  := []

/-- The four entries of a handler record (R316). -/
inductive EntrySel where | tent | pent | rent | ptent
deriving DecidableEq, Repr

def EntrySel.off : EntrySel → Nat
  | .tent => 0
  | .pent => 8
  | .rent => 16
  | .ptent => 24

/-- The address of the handler record that a level has registered, 0 for none (R316). -/
def handlerAddr (s : State) (part slice : Nat) (l : Level) : Nat :=
  match l with
  | .one => (match findPart s part with
    | some p => p.hnd
    | none => 0)
  | .fw => 0
  | _ => (match findSlice s part slice with
    | some k => k.hnd
    | none => 0)

/-- R316: the 64 bytes of a level's handler record, read again at each entry; none when it is 0 or does not translate. Its
address is one of the level (R346; assumption 109). -/
def handlerRec (s : State) (part slice : Nat) (l : Level) (a : Nat) : Option Nat :=
  if a = 0 then none
  else match walkAll s 0 part slice 0 (if l = .one then .one else .two) .read a with
  | .ok x => some (ramVal s.m x.pa 64)
  | .error _ => none

/-- R316: the entry of a route as the record at an address has it, 0 when there is no record. -/
def recWord (s : State) (part slice : Nat) (l : Level) (a : Nat) (e : EntrySel) : Nat :=
  match handlerRec s part slice l a with
  | none => 0
  | some r => r / 2 ^ (8 * e.off) % 2 ^ 64

/-- R316: the entry of a route in the record at an address, none when the record gives no handler for it. -/
def entryAt (s : State) (part slice : Nat) (l : Level) (a : Nat) (e : EntrySel) : Option DWord :=
  match handlerRec s part slice l a with
  | none => none
  | some r =>
    let a := r / 2 ^ (8 * e.off) % 2 ^ 64
    if r / 2 ^ 256 ≠ 0 ∨ a = 0 ∨ a % 16 ≠ 0 then none else some (BitVec.ofNat 64 a)

/-- R316: the entry of a route, none when the level gives no handler for it. -/
def handlerEntry (s : State) (tm : Team) (l : Level) (e : EntrySel) : Option DWord :=
  entryAt s tm.part tm.slice l (handlerAddr s tm.part tm.slice l) e

/-- The level at which a swarm executes (R316). -/
def execLevel (tm : Team) (sw : Swarm) : Level :=
  match sw.mode with
  | .program => tm.level
  | .handler l _ => l

/-- The context becomes Faulted and its owner gets the fault record (R315). -/
def faultTeam (s : State) (t : TeamId) (owner : Level) (c : Word) (a : DWord) : State :=
  let s1 := updTeam s t fun tm => { tm with st := .faulted }
  { s1 with faults := s1.faults ++ [{ team := t, owner := owner, trapc := c, trapa := a }] }

/-- R315: Running while some live swarm is in its program, Resident when every one is in handler mode. -/
def settleCtx (tm : Team) : Team :=
  match tm.st with
  | .running | .resident =>
    if (liveSwarms tm).all (fun x => x.mode != .program) && !(liveSwarms tm).isEmpty then { tm with st := .resident }
    else { tm with st := .running }
  | _ => tm

/-- The waits of a handler frame that is discarded: its monitors, and its reads and collects on the link, are dropped. -/
def dropHandler (s : State) (t : TeamId) (swn : Nat) : State :=
  let gone (q : LinkReq) : Bool := match q.who with
    | .wait u k _ true | .collect u k _ true => u == t && k == swn
    | _ => false
  { s with m := { s.m with mons := s.m.mons.filter fun x => !(x.inH && x.team == t && x.swarm == swn) },
           link := { s.link with reqs := s.link.reqs.filter fun q => !gone q } }

/-- R232: an MMA of a swarm is no longer in progress. -/
def stopMma (tm : Team) (swn : Nat) : Team := { tm with mmas := tm.mmas.filter fun r => r.swarm != swn }

/-- R317: a swarm enters handler mode: the program's state is hidden, a handler frame already there is discarded, and
a fresh frame of 32 rows starts at the entry with $trapc and $trapa written. -/
def enterHandler (s : State) (t : TeamId) (swn : Nat) (l : Level) (pc : DWord) (i : TrapInfo) (from_ : Level) (a : DWord)
    (frg : Option (DWord × Word × DWord × Nat)) : State :=
  updTeam (dropHandler s t swn) t fun tm => settleCtx (updSwarmIn (stopMma tm swn) swn fun sw =>
    { sw with mode := .handler l i.cause, frame := freshFrame pc 32 0 32, hidden := some (progFrame sw),
              trapc := trapcWord i from_ l, trapa := a, frg := frg, off := false, stopped := false })

/-- R223: a trap of a forager or final-handler word ends the lanes that raised it and becomes an imprecise trap of the
team; the read ends with the fault's code. -/
def foragerTrap (s : State) (t : TeamId) (swn : Nat) (lanes : BitVec 32) (cause : Nat) (a : DWord) : State :=
  updTeam s t fun tm =>
    match findSwarm tm swn with
    | none => tm
    | some sw =>
      let (c, n) : Nat × Nat := match sw.kind with
        | .forager c n | .final c n => (c, n)
        | .team => (0, 0)
      let q := (lane sw.frame ((lowest lanes).getD 0)).bseq
      let tm1 := exitLanes tm swn lanes
      let tm2 := { tm1 with engs := upd (fun e => { e with ops := e.ops.map fun o =>
        if o.n = n then { o with fcode := if o.fcode = 0 then cause else o.fcode } else o }) tm1.engs c }
      addTrap tm2 ⟨cause, true, 0, q, a, BitVec.ofNat 64 n, 0, none⟩

/-- The lanes of a frame with an access that is not performed. -/
def openLanes (fr : Frame) : BitVec 32 := fr.log.foldl (fun m e => m ||| e.todo ||| e.away) 0

/-- The one way a trap is taken (R65, R317, R319): every older access of the swarm completes, the route is found, and
the handler of its level is entered; without a handler, or at firmware, the context becomes Faulted. While an access
of the swarm cannot be performed yet, the trap waits. -/
def takeTrap (s : State) (t : TeamId) (swn : Nat) (lanes : BitVec 32) (i : TrapInfo) (a : DWord)
    (frg : Option (DWord × Word × DWord × Nat)) : State :=
  let s1 := drainAll s t swn
  match findTeam s1 t with
  | none => s1
  | some tm =>
    match findSwarm tm swn with
    | none => s1
    | some sw =>
      if sw.kind ≠ .team then foragerTrap s1 t swn lanes i.cause a
      else if openLanes sw.frame ≠ 0 then s1
      else
        let from_ := execLevel tm sw
        let base := routeOf i.cause i.stage from_
        let l := match sw.mode with
          | .program => base
          | .handler h _ => levelMax base (levelAbove h)
        let sel := if i.cause == 0x21 && sw.mode == .program &&
            recWord s1 tm.part tm.slice .two (handlerAddr s1 tm.part tm.slice .two) .ptent != 0 then EntrySel.ptent else .tent
        match handlerEntry s1 tm (if sel = .ptent then .two else l) sel with
        | some pc => enterHandler s1 t swn (if sel = .ptent then .prog else l) pc i from_ a frg
        | none => faultTeam s1 t l (trapcWord i from_ l) a

/-- Leave handler mode: the program resumes at its PCs (TRET, ERET.res; R336). -/
def leaveHandler (s : State) (t : TeamId) (swn : Nat) : State :=
  updTeam (dropHandler s t swn) t fun tm =>
    let tm1 := updSwarmIn (stopMma tm swn) swn fun sw =>
      { sw with mode := .program, frame := progFrame sw, hidden := none, frg := none, off := false, stopped := false }
    match tm1.st with
    | .loading => { tm1 with st := if tm1.preempt.isSome then .preempting else .running, image := none, imageAt := none }
    | _ => settleCtx tm1

/-! ### Logs, notifications and freezes (R407 to R409) -/

/-- R407: an event enters a log of 4,096 entries; when it is full the oldest is lost and the next one counts it. -/
def logEvent (s : State) (owner : LogOwner) (log : Nat) (ev : LogEv) : State :=
  let mine (x : LogLine) : Bool := x.owner == owner && x.log == log
  let rest (xs : List LogLine) : List LogLine :=
    match xs.find? mine with
    | some old =>
      let ys := xs.erase old
      (match ys.find? mine with
      | some nxt => ys.map fun y => if y = nxt then { y with overruns := y.overruns + old.overruns + 1 } else y
      | none => ys)
    | none => xs
  let kept := if (s.logs.filter mine).length < 4096 then s.logs else rest s.logs
  { s with logs := kept ++ [⟨owner, log, ev, 0⟩] }

/-- The state of a function: function 0 is always Enabled (R380). -/
def fnOpen (s : State) (die num : Nat) : Bool :=
  num == 0 || (match findFn s die num with
    | some f => f.st != .disabled && f.st != .torn
    | none => false)

/-- R407: an MSI-X message of FUNC, dropped by a Disabled or Torn-down function; vector 0xFF is none. -/
def sendMsi (s : State) (func vec : Nat) : State :=
  if vec = 0xFF ∨ !fnOpen s (func / 256 % 2) (func % 256) then s else { s with msis := s.msis ++ [⟨func, vec⟩] }

/-- The queue of the holder of a log (R401). -/
def queueOf (s : State) : LogOwner → Option MgmtQ
  | .fw => s.fwq
  | .part p => (findPart s p).bind fun x => x.queue
  | .slice p k => (findSlice s p k).bind fun x => x.queue

/-- R407: an event in a log, notified through the EVEC of its holder. -/
def notify (s : State) (owner : LogOwner) (log : Nat) (ev : LogEv) : State :=
  let s1 := logEvent s owner log ev
  match queueOf s1 owner with
  | some q => sendMsi s1 q.func q.evec
  | none => s1

/-- A master is frozen (R409). -/
def isFrozen (s : State) (m : Master) : Bool := s.freezes.any fun f => f.master == m

/-- R409: a master is frozen by an owner; a master already frozen passes to a higher owner only. -/
def freezeMaster (s : State) (m : Master) (owner : Level) (part slice : Nat) : State :=
  match s.freezes.find? fun f => f.master == m with
  | some _ =>
    let take (f : Freeze) : Freeze :=
      if f.master = m ∧ levelLt f.owner owner then { f with owner := owner, part := part, slice := slice } else f
    { s with freezes := s.freezes.map take }
  | none =>
    let s1 := { s with freezes := s.freezes ++ [⟨m, owner, part, slice⟩] }
    match m with
    | .core k =>
      let hold (tm : Team) : Team :=
        if tm.core = k ∧ onCore tm ∧ tm.st ≠ .frozen then { tm with before := tm.st, st := .frozen } else tm
      { s1 with teams := s1.teams.map hold }
    | .eng _ => s1
    | .fn d f => updFn s1 d f fun x => if x.st = .enabled then { x with st := .frozen } else x

/-- R408: the level that owns the freeze for a fault of a lane or engine. -/
def violationOf (cause stage : Nat) : Option Level :=
  if cause = 0x31 ∧ stage = 2 then some .one
  else if (cause = 0x30 ∨ cause = 0x31 ∨ cause = 0x32) ∧ stage = 3 then some .fw
  else none

/-- R408: a violating fault freezes its master, and the event is logged for the owner (R407). -/
def violate (s : State) (tm : Team) (m : Master) (cause stage : Nat) : State :=
  match violationOf cause stage with
  | none => s
  | some l =>
    let owner : LogOwner := if l = .fw then .fw else .part tm.part
    notify (freezeMaster s m l tm.part tm.slice) owner 0 (.freeze m)

/-- The oldest faulted entry of an operand log (R318), those that are to be issued again apart (R322). -/
def firstFault (fr : Frame) : Option LogEntry :=
  (fr.log.filter fun e => e.faulted != 0 && !e.again).foldl (fun b e =>
    match b with
    | some x => if e.seq < x.seq then some e else some x
    | none => some e) none

/-- A word that acts once for its swarm and delivers its faults through the operand log (R321). -/
def onceLogged : Instr → Bool
  | .wbld _ _ | .accld _ _ | .accst _ _ | .epil _ | .accdr _ _ _ | .claim _ _ | .live _ | .spawn _ | .fred _ _ _ => true
  | _ => false

/-- $trapa of a logged fault: the lane's address, or the address at which a word that acts once met it. -/
def faultAddr (e : LogEntry) : DWord :=
  match recOf e e.flane with
  | some r => if onceLogged e.ins then r.cmp else r.va
  | none => e.addr

/-- R223: the fault of a forager lane, which ends the lane, leaves nothing to re-issue; the word's other lanes go on. -/
def forgetFault (fr : Frame) (n : Nat) : Frame :=
  let fr1 := updEntry fr n fun e => { e with faulted := 0 }
  { fr1 with log := fr1.log.filter fun e => !(e.num == n && (e.todo ||| e.away) == 0) }

/-- R321: once a fault stands in the operand log of the frame a swarm runs in, the swarm enters its handler; not
while its context is Frozen, which keeps the fault pending (R409). A fault that strikes once every lane has exited has
no swarm to deliver it to (assumption 22). -/
def settleFaults (s : State) (t : TeamId) (swn : Nat) : State :=
  match findTeam s t with
  | none => s
  | some tm =>
    match findSwarm tm swn with
    | none => s
    | some sw =>
      if tm.st = .frozen ∨ !onCore tm then s
      else if sw.ended then updFrame s t swn fun fr => { fr with log := fr.log.filter fun e => e.faulted == 0 }
      else match firstFault sw.frame with
      | none => s
      | some e =>
        let ln := e.flane
        let s := if sw.kind = .team then s else updFrame s t swn fun fr => forgetFault fr e.num
        takeTrap s t swn e.faulted
          { cause := e.cause.toNat, logix := some e.num, lane := ln, stage := e.stage } (faultAddr e) none

/-- R320: the imprecise trap that is delivered next, to the lowest-numbered live swarm in program mode; a register-spill
fault goes to the swarm that it stops (R76, R319), once that swarm is in its program (assumption 91). -/
def dueTrap (tm : Team) : Option (Nat × PendTrap) :=
  match tm.traps with
  | [] => none
  | p :: _ =>
    let own := (liveSwarms tm).find? fun x => p.sw == some x.num
    match own with
    | some x => if x.mode == .program then some (x.num, p) else none
    | none => ((liveSwarms tm).find? fun x => x.mode == .program).map fun x => (x.num, p)

/-- R76, R319: a register-spill fault keeps the swarm from its next word. -/
def spillStopped (tm : Team) (sw : Swarm) : Bool :=
  sw.mode == .program && tm.traps.any fun p => p.sw == some sw.num

/-- Deliver the oldest pending imprecise trap (R320, R223, R158). -/
def deliverTrap (s : State) (t : TeamId) : State :=
  match findTeam s t with
  | none => s
  | some tm =>
    match dueTrap tm with
    | none => s
    | some (n, p) =>
      let s0 := drainAll s t n
      match (findTeam s0 t).bind fun tm => findSwarm tm n with
      | none => s
      | some sw =>
        if openLanes sw.frame ≠ 0 then s0
        else
          let clear (w : Watch) : Watch := { w with status := w.status &&& ~~~4 }
          let taken (ws : List Watch) : List Watch := (lanesOf (p.wps.setWidth 32)).foldl (fun ws k => upd clear ws k) ws
          let s1 := updTeam s0 t fun x => { x with traps := x.traps.drop 1, watches := taken x.watches }
          let mask := liveLanes sw.frame
          takeTrap s1 t n mask { cause := p.cause, imp := true, frg := p.frg, lane := (lowest mask).getD 0 } p.addr
            (some (p.rseq, p.bseq, p.addr, p.merges))

/-! ### A word around its effect -/

/-- The swarm of the focus, its team, the lanes whose guard holds. -/
structure Ctx where
  f   : Focus
  tm  : Team
  sw  : Swarm
  act : BitVec 32
deriving DecidableEq, Repr

def ctxOf (s : State) (o : Wd) : Option Ctx :=
  match s.focus with
  | none => none
  | some f =>
    match findTeam s f.team with
    | none => none
    | some tm =>
      match findSwarm tm f.swarm with
      | none => none
      | some sw => some ⟨f, tm, sw, guardMask sw.frame o f.mask⟩

/-- ACNT of the swarm: 0 in a forager (R71). -/
def acntOf (c : Ctx) : Nat := if c.sw.kind = .team then c.tm.acnt else 0

/-- R41, R43: a slot descriptor that is legal. -/
def slotLegal (d : Word) : Bool :=
  let f := (d.extractLsb' 0 5).toNat
  let scm := (d.extractLsb' 5 3).toNat
  let grp := (d.extractLsb' 8 4).toNat
  let grouped := f == 0x05 || f == 0x06 || f == 0x11 || f == 0x12
  (d.extractLsb' 15 17 == 0) && (decide (f ≤ 0x12) && f != 0x07) &&
  (if grouped then scm == 1 && grp == 5 else scm == 0 && grp == 0)

def slotFmt (d : Word) : Nat := (d.extractLsb' 0 5).toNat
def slotRnd (d : Word) : Rnd := Rnd.ofCode (d.extractLsb' 12 2)
def slotSat (d : Word) : Bool := d.getLsbD 14
def slotOf (c : Ctx) (k : BitVec 3) : Word := nth 0 c.tm.fslots k.toNat

/-- A failed check: cause, field, $trapa (R64). -/
structure Failed where
  cause : Nat
  field : Nat
  ta    : DWord
deriving DecidableEq, Repr

/-- What a slot must satisfy for a word: its index and the accepted formats. -/
abbrev SlotNeed := Option (BitVec 3 × (Nat → Bool))

/-- Check 4 of the one field whose rule waits for a slot: D of FCVT's slot form when the slot's format has 64 bits (R88,
R108; assumption 92). -/
def slotDest (c : Ctx) : Instr → Option Failed
  | .fcvt true _ k _ o =>
    let d := slotOf c k
    if slotLegal d && fmtBytes (slotFmt d) == some 8 then
      if !FS.dest64.okD o.dlev o.d then some ⟨0x03, 0, c.f.pc⟩
      else if !FS.dest64.okLev o.dlev o.d then some ⟨0x03, 3, c.f.pc⟩ else none
    else none
  | _ => none

/-- Checks 5, 6 and 7 of R64 (privilege, register view, arithmetic slot), in that order, after what is left of check 4. -/
def checks (c : Ctx) (i : Instr) (fs : FS × FS × FS) (o : Wd) (lv : Level) (sl : SlotNeed) : Option Failed :=
  let bad (f : FS) (x : Opnd) : Bool := viewBad c.sw.frame.vcnt c.sw.frame.tcnt (acntOf c) f x
  if (slotDest c i).isSome then slotDest c i
  else if levelLt (execLevel c.tm c.sw) lv then some ⟨0x05, 3, c.f.pc⟩
  else if bad fs.1 o.d then some ⟨0x06, 0, c.f.pc⟩
  else if bad fs.2.1 o.a then some ⟨0x06, 1, c.f.pc⟩
  else if bad fs.2.2 o.b then some ⟨0x06, 2, c.f.pc⟩
  else
    match sl with
    | none => none
    | some (k, ok) =>
      let d := slotOf c k
      if slotLegal d && ok (slotFmt d) then none else some ⟨0x07, 3, BitVec.ofNat 64 k.toNat⟩

/-- The lanes that issue the word move past it (R119). -/
def advance (s : State) (f : Focus) : State :=
  let move (fr : Frame) (i : Nat) : Lane :=
    let l := lane fr i
    if f.mask.getLsbD i then { l with pc := f.pc + 12, park := none, woken := false, age := 0 }
    else { l with age := l.age + 1 }
  updFrame s f.team f.swarm fun fr => { fr with lanes := (List.range 32).map (move fr), tried := 0 }

/-- R125: a lane is ready, interlocks apart. -/
def laneReady (fr : Frame) (i : Nat) : Bool :=
  let l := lane fr i
  !l.exited && l.bsync.isNone && (l.park.isNone || l.woken)

/-- The ready lanes at an address. -/
def groupAt (fr : Frame) (pc : DWord) : BitVec 32 := maskOf fun i => laneReady fr i && (lane fr i).pc == pc

/-- The non-exited lanes at an address. -/
def lanesAt (fr : Frame) (pc : DWord) : BitVec 32 := maskOf fun i => !(lane fr i).exited && (lane fr i).pc == pc

/-- R120: the broadcast group issued the word; lanes that R378 let go ahead of their group are a diverged subgroup. -/
def ownWord (c : Ctx) : Bool :=
  c.sw.frame.bcast == c.f.pc && (c.sw.frame.macroAt.isSome || groupAt c.sw.frame c.f.pc == c.f.mask)

/-- After a word: the broadcast address of the frame that issued it (R120, R121). A frame that a trap of the word discarded
or hid needs none, but for the program's. -/
def finish (c : Ctx) (s : State) : State :=
  let move := regroup (ownWord c) (lanesAt c.sw.frame c.f.pc)
  updSwarm s c.f.team c.f.swarm fun sw =>
    if sw.mode = c.sw.mode then { sw with frame := move sw.frame }
    else if c.sw.mode = .program then { sw with hidden := sw.hidden.map move }
    else sw

/-- A precise trap of the word itself: the word changes no state, and its lanes stand at it (R65). -/
def trapAt (s : State) (c : Ctx) (cause field : Nat) (ta : DWord) : State :=
  takeTrap s c.f.team c.f.swarm c.f.mask { cause := cause, field := field, lane := (lowest c.f.mask).getD 0 } ta none

/-- R125: a word that cannot issue yet leaves everything as it is; another group is chosen next. -/
def waited (c : Ctx) (s : State) : State :=
  updFrame s c.f.team c.f.swarm fun fr => { fr with tried := fr.tried ||| c.f.mask }

/-- A word: its checks, its waits before issue, then its effect on the state in which the issuing lanes have moved on,
and the traps of its faults. A word whose guard is false in every lane changes nothing else (R50). -/
def runWait (w : Ctx → State → Bool) (i : Instr) (o : Wd) (lv : Level) (sl : Ctx → SlotNeed) (fs : Ctx → FS × FS × FS)
    (eff : Ctx → State → State) (s : State) : Host.Outcome State Fault Refusal :=
  match ctxOf s o with
  | none => .fault .noFocus
  | some c =>
    match checks c i (fs c) o lv (sl c) with
    | some x => .next (trapAt s c x.cause x.field x.ta)
    | none =>
      let s1 := advance s c.f
      if c.act = 0 then .next (finish c s1)
      else if w c s then .next (waited c s)
      else .next (settleFaults (finish c (eff c s1)) c.f.team c.f.swarm)

/-- A word that waits for nothing. -/
def runWord (i : Instr) (o : Wd) (lv : Level) (sl : Ctx → SlotNeed) (fs : Ctx → FS × FS × FS)
    (eff : Ctx → State → State) (s : State) : Host.Outcome State Fault Refusal :=
  runWait (fun _ _ => false) i o lv sl fs eff s

/-- A word that only changes the frame of its swarm. -/
def runFrame (i : Instr) (o : Wd) (sl : SlotNeed) (g : Ctx → Frame → Frame) (s : State) :
    Host.Outcome State Fault Refusal :=
  runWord i o .prog (fun _ => sl) (fun _ => i.fields) (fun c s1 => updFrame s1 c.f.team c.f.swarm (g c)) s

/-- A trap raised by the effect of a word: the lanes stand at the word, which is not performed. -/
def undoTrap (c : Ctx) (s : State) (cause : Nat) (ta : DWord) (field : Nat := 3) : State :=
  let back (fr : Frame) : Frame := eachLane c.f.mask fr fun i f => updLane f i fun l => { l with pc := c.f.pc }
  takeTrap (updFrame s c.f.team c.f.swarm back) c.f.team c.f.swarm c.act { cause := cause, field := field, lane := (lowest c.act).getD 0 } ta none

/-- The lanes of the group stand at the word again. -/
def standAt (c : Ctx) (s : State) : State :=
  updFrame s c.f.team c.f.swarm fun fr => eachLane c.f.mask fr fun i f => updLane f i fun l => { l with pc := c.f.pc }

/-- A return waits for the accesses that the handler has issued (R317): performed here, they may fault. -/
def handlerDone (c : Ctx) (s : State) (go : State → State) : State :=
  let s1 := drainAll s c.f.team c.f.swarm
  match (findTeam s1 c.f.team).bind fun tm => findSwarm tm c.f.swarm with
  | none => s1
  | some sw =>
    if (firstFault sw.frame).isSome then settleFaults (standAt c s1) c.f.team c.f.swarm
    else if openLanes sw.frame ≠ 0 then standAt c s1
    else go s1

/-- R14, R335: one element of a macro-instruction of `n` elements: element $prog, then the word either is complete, or
its lanes stand at it with $prog one higher. A word whose $prog is at or above its count completes at once. -/
def macroStep (c : Ctx) (n : Nat) (elem : Nat → State → State) (s : State) : State :=
  let upd (p : Word) (at_ : Option (DWord × BitVec 32)) (s : State) : State :=
    updFrame s c.f.team c.f.swarm fun fr => { fr with prog := p, macroAt := at_ }
  let j := c.sw.frame.prog.toNat
  if n ≤ j then upd 0 none s
  else if j + 1 = n then upd 0 none (elem j s)
  else upd (BitVec.ofNat 32 (j + 1)) (some (c.f.pc, c.f.mask)) (standAt c (elem j s))

/-- Lanes stay at the word and wait (R125). -/
def parkLanes (c : Ctx) (lanes : BitVec 32) (k : Park) (s : State) : State :=
  updFrame s c.f.team c.f.swarm fun fr => eachLane lanes fr fun i f =>
    updLane f i fun l => { l with pc := c.f.pc, park := some k, woken := false }

end Sys2Proof.Machine
end

