-- ==== Sys2Proof/Machine/Fetch.lean ====
section
/-!
DEFINITION. What a swarm issues next: readiness of lanes (R125), the group of R123, instruction fetch through the
core's instruction cache (R132, R346), interlocks (R57, R125), and the swarms that may issue at all (R315, R409).
-/
namespace Sys2Proof.Machine

/-- The lanes of a mask at an address. -/
def inMask (fr : Frame) (m : BitVec 32) (pc : DWord) : BitVec 32 := maskOf fun i => m.getLsbD i && (lane fr i).pc == pc

/-- The lowest lane of each group of a mask, in ascending order. -/
def leaders (fr : Frame) (m : BitVec 32) : List Nat :=
  (lanesOf m).filter fun i => lowest (inMask fr m (lane fr i).pc) == some i

/-- The longest wait of a group, in issue cycles (R123). -/
def groupAge (fr : Frame) (m : BitVec 32) : Nat := (lanesOf m).foldl (fun a i => max a (lane fr i).age) 0

/-- R123, rule 1: the group that has waited longest, 32 issue cycles or more; at equal waits, that of the lowest lane. -/
def agedGroup (fr : Frame) (m : BitVec 32) : Option Nat :=
  let age (i : Nat) : Nat := groupAge fr (inMask fr m (lane fr i).pc)
  ((leaders fr m).filter fun i => decide (32 ≤ age i)).foldl (fun b i =>
    match b with
    | some j => if age j < age i then some i else some j
    | none => some i) none

/-- R123, rule 3: the groups' lowest lanes, in round-robin order after the one chosen last. -/
def nextSub (fr : Frame) (m : BitVec 32) : Option Nat :=
  match (leaders fr m).find? fun i => decide (fr.lastSub < i) with
  | some i => some i
  | none => (leaders fr m).head?

/-- The choice of a group: its address, its lanes, and the lane that rule 3 notes. -/
structure Chosen where
  pc   : DWord
  mask : BitVec 32
  sub  : Option Nat
deriving DecidableEq, Repr

/-- R123: the group that issues, of the lanes `m` that can; while a macro-instruction is in progress, its own. -/
def choosePc (fr : Frame) (m : BitVec 32) : Option Chosen :=
  let at_ (pc : DWord) (k : Option Nat) : Chosen := ⟨pc, inMask fr m pc, k⟩
  match fr.macroAt with
  | some (pc, g) => if inMask fr m pc &&& g = 0 then none else some ⟨pc, inMask fr m pc &&& g, none⟩
  | none =>
    match agedGroup fr m with
    | some i => some (at_ (lane fr i).pc none)
    | none =>
      if inMask fr m fr.bcast ≠ 0 then some (at_ fr.bcast none)
      else (nextSub fr m).map fun i => at_ (lane fr i).pc (some i)

/-- The bytes of a line as an instruction fetch of a core finds them: bytes that a store of the core holds dirty in its L1
are found there (R135, R143, R144). -/
def codeBytes (m : MemSys) (core line : Nat) : Tab 8 :=
  match l1Find m core line with
  | some x => (dirtyOffs x).foldl (fun t o => t.set o (x.bytes.get o)) (lineBytes m line)
  | none => lineBytes m line

/-- Bytes of one line as a core's instruction cache gives them, with the state in which it holds the line. A line is fetched
whole, so that the bytes of one word are of different ages only where it lies in two lines (R67; assumption 93). -/
def icacheLine (s : State) (core line : Nat) : State × Tab 8 :=
  match s.m.icache.find? fun x => x.1 == core && x.2.1 == line with
  | some x => (s, x.2.2)
  | none =>
    let bs := codeBytes s.m core line
    ({ s with m := { s.m with icache := (core, line, bs) :: s.m.icache } }, bs)

/-- Instruction bytes at a physical address: at most two lines. -/
def icacheRead (s : State) (core a n : Nat) : State × List Byte :=
  let k := min n (128 - a % 128)
  let (s1, t1) := icacheLine s core (a / 128)
  let b1 := tabBytes t1 (a % 128) k
  if k = n then (s1, b1)
  else
    let (s2, t2) := icacheLine s1 core (a / 128 + 1)
    (s2, b1 ++ tabBytes t2 0 (n - k))

/-- What a fetch ends in. -/
inductive Fetched where
  | word (s : State) (bs : List Byte)
  /-- Cause, field, stage and $trapa of the trap it raises. -/
  | fail (cause field stage : Nat) (a : DWord)

/-- R64 check 1, R127, R346: the twelve bytes of the word at an address, for a level. -/
def fetchWord (s : State) (tm : Team) (lv : Level) (pc : DWord) : Fetched :=
  let a := pc.toNat
  if a % 4 ≠ 0 then .fail 0x04 3 0 pc
  else if 2 ^ 57 ≤ a then .fail 0x24 3 0 pc
  else
    let xl (s : State) (a : Nat) := translate s (clusOf tm.core) tm.part tm.slice tm.asn lv .fetch a
    let k := min 12 (65536 - a % 65536)
    match xl s a with
    | .error (_, st) => .fail 0x24 3 st pc
    | .ok x =>
      if isRemote (.pa x.pa x.mode) then .fail 0x24 3 0 pc
      else
        let (s1, b1) := icacheRead (tlbFill s x) tm.core x.pa k
        if k = 12 then .word s1 b1
        else
          match xl s1 (a + k) with
          | .error (_, st) => .fail 0x24 3 st pc
          | .ok y =>
            if isRemote (.pa y.pa y.mode) then .fail 0x24 3 0 pc
            else
              let (s2, b2) := icacheRead (tlbFill s1 y) tm.core y.pa (12 - k)
              .word s2 (b1 ++ b2)

/-- The rows that a word names (R325): its fields, and what it names by their contents, as lane `ln` has them. -/
def namedRows (fr : Frame) (ln : Nat) (i : Instr) : List Nat :=
  match i.wd? with
  | none => []
  | some o =>
    let f := i.fields
    let tiles (t : AType) : List Nat := rowsOf { f.2.1 with n := ceilDiv (stepsUnit fr ln o.b).1 (aPerTile t) } o.a
    let extra : List Nat := match i with
      | .mma t false _ | .mmaz t false _ => tiles t
      | .fcvt true _ _ _ _ => rowsOf FS.pair o.d
      | _ => []
    rowsOf f.1 o.d ++ rowsOf f.2.1 o.a ++ rowsOf f.2.2 o.b ++ extra

/-- The rows that pending entries will still write in some lane of a mask. -/
def pendingRows (fr : Frame) (m : BitVec 32) : List Nat :=
  fr.log.flatMap fun e =>
    if (e.todo ||| e.away ||| e.faulted) &&& m = 0 then []
    else match accKind e.ins, e.ins.wd? with
      | some k, some o => if k.loads then rowsOf e.ins.fields.1 o.d else []
      | _, _ => []

/-- A word that reads or orders registers of lanes other than the one it acts for, or whose rows are not in its fields. -/
def readsAll (i : Instr) : Bool :=
  match i with
  | .live _ | .view _ | .trap _ | .cpy _ | .cpy2d _ | .gath _ _ | .scat _ _ | .bread _ => true
  | _ => false

/-- A word that reads a register of other lanes: by its nature, or by a cross-lane modifier (R90, R112 to R116). -/
def crossesLanes (i : Instr) : Bool :=
  (match i with
    | .shfl _ _ | .vote _ _ | .matchL _ _ | .redx _ _ | .scanx _ _ | .scanxEx _ _ | .mma _ _ _ | .mmaz _ _ _ => true
    | _ => false) ||
  (match i.wd? with
    | some o => decide (4 ≤ (opMod o.a).toNat)
    | none => false)

/-- R57, R125: the word reads or writes, in the given lanes, a row that a pending access will still write. -/
def interlocked (fr : Frame) (lanes : BitVec 32) (i : Instr) : Bool :=
  let m : BitVec 32 := if readsAll i || crossesLanes i then 0xFFFFFFFF else lanes
  let ps := pendingRows fr m
  if ps.isEmpty then false
  else match i with
    | .ldix _ | .stix _ => true
    -- R178: an element of ATOMV reads and writes one register of D
    | .atomv _ _ o => (if fr.macroAt.isSome then [opIdx o.d + fr.prog.toNat, opIdx o.a, opIdx o.a + 1]
      else namedRows fr ((lowest lanes).getD 0) i).any ps.contains
    | _ => readsAll i || (namedRows fr ((lowest lanes).getD 0) i).any ps.contains

/-- The word at an address, where it can be fetched and decoded; a word that cannot waits for nothing. -/
def peekWord (s : State) (tm : Team) (lv : Level) (pc : DWord) : Option Instr :=
  match fetchWord s tm lv pc with
  | .fail _ _ _ _ => none
  | .word _ bs =>
    match decodeBytes bs with
    | .ok i => some i
    | .bad _ _ => none

/-- R378: a group may split where some of its lanes wait for remote replies to what the word reads, the others do not, and
every active lane is in a set mark. -/
def maySplit (fr : Frame) (g late : BitVec 32) (i : Instr) : Bool :=
  let act : BitVec 32 := match i.wd? with
    | some o => guardMask fr o g
    | none => 0
  let marked : BitVec 32 := (List.range 8).foldl (fun m k => m ||| fr.marks.get k) 0
  let out : BitVec 32 := fr.log.foldl (fun m e => m ||| e.away) 0
  late &&& ~~~out == 0 && act &&& ~~~late != 0 && act &&& ~~~marked == 0

/-- R125, R378: the lanes of a group that can issue its word: all of them or none, but where the swarm splits. -/
def groupReady (s : State) (tm : Team) (sw : Swarm) (split : Bool) (g : BitVec 32) (pc : DWord) : BitVec 32 :=
  match peekWord s tm (execLevel tm sw) pc with
  | none => g
  | some i =>
    let late := maskOf fun k => g.getLsbD k && interlocked sw.frame (bit32 k) i
    if late = 0 then g else if split && maySplit sw.frame g late i then g &&& ~~~late else 0

/-- The lanes that can issue, of a mask of ready lanes (R125). -/
def canIssue (s : State) (tm : Team) (sw : Swarm) (split : Bool) (m : BitVec 32) : BitVec 32 :=
  let fr := sw.frame
  if (pendingRows fr 0xFFFFFFFF).isEmpty then m
  else (leaders fr m).foldl (fun r i =>
    let g := inMask fr m (lane fr i).pc
    r ||| groupReady s tm sw split g (lane fr i).pc) 0

/-- The ready lanes of a frame. -/
def readyLanes (fr : Frame) : BitVec 32 := maskOf (laneReady fr)

/-- The ready lanes whose group has a lane that is not marked as tried. -/
def untried (fr : Frame) : BitVec 32 :=
  maskOf fun i => laneReady fr i && (groupAt fr (lane fr i).pc &&& ~~~fr.tried != 0)

/-- R123, R125: the group that issues. Groups whose word has waited since the last issue come when no other one is left; the
flag says that they were all tried. -/
def chooseGroup (s : State) (tm : Team) (sw : Swarm) (split : Bool) : Option (Chosen × Bool) :=
  match choosePc sw.frame (canIssue s tm sw split (untried sw.frame)) with
  | some x => some (x, false)
  | none =>
    if sw.frame.tried = 0 then none
    else (choosePc sw.frame (canIssue s tm sw split (readyLanes sw.frame))).map fun x => (x, true)

/-- A group has been chosen: rule 3 notes it, and a round of waiting words begins anew. -/
def noteChoice (x : Chosen × Bool) (fr : Frame) : Frame :=
  { fr with lastSub := x.1.sub.getD fr.lastSub, tried := if x.2 then 0 else fr.tried }

/-- The context's state lets its swarms issue (R315, R409). -/
def teamRuns (s : State) (tm : Team) : Bool :=
  (match tm.st with
    | .running | .resident | .preempting | .loading => true
    | _ => false) && !isFrozen s (.core tm.core)

/-- The swarm may issue a word. -/
def swarmRuns (tm : Team) (sw : Swarm) : Bool :=
  !sw.ended && !sw.off && !sw.stopped && (sw.mode != .program || tm.st != .loading) && !spillStopped tm sw

/-- What an issue of a swarm does before a word is executed. -/
inductive Issue where
  /-- The state to go on in without a word: a trap is taken, or nothing is ready. -/
  | done (s : State)
  /-- The word and the state in which it is executed: the focus names its swarm and lanes. -/
  | word (s : State) (i : Instr)

end Sys2Proof.Machine
end

