-- ==== Sys2Proof/Machine/Integer.lean ====
section
/-!
DEFINITION. The integer and address words (R92 to R101).
-/
namespace Sys2Proof.Machine

/-- Source A, source B and the old value of D of a lane, as `w`-bit patterns of a type. Every operand is read from the
frame as it stood when the word issued. -/
def srcA (c : Ctx) (i : Instr) (o : Wd) (t : OpTy) (ln : Nat) : Nat := opVal c.sw.frame i.fields.2.1 t c.act ln o.a
def srcB (c : Ctx) (i : Instr) (o : Wd) (t : OpTy) (ln : Nat) : Nat := opVal c.sw.frame i.fields.2.2 t c.act ln o.b
def oldD (c : Ctx) (i : Instr) (o : Wd) (w ln : Nat) : Nat :=
  (opBase c.sw.frame i.fields.1.wide i.fields.1.sz ln o.d).toNat % 2 ^ w

def IntTy.width (t : IntTy) : Nat := if t.wide then 64 else 32
def widthOf (wide : Bool) : Nat := if wide then 64 else 32

/-- A word that writes one integer result and its flags in each active lane. -/
def runInt (i : Instr) (o : Wd) (sg : Bool) (w : Nat) (f : Ctx → Nat → Nat × Flags) (s : State) :
    Host.Outcome State Fault Refusal :=
  runFrame i o none (fun c fr => eachLane c.act fr fun ln fr =>
    let (x, fl) := f c ln
    orFlags (dstInt fr o sg w ln x) ln fl) s

/-- R92: an exact result of two or three integers, narrowed. -/
def runArith (i : Instr) (o : Wd) (t : IntTy) (sat : Bool) (f : Int → Int → Int → Int) (s : State) :
    Host.Outcome State Fault Refusal :=
  let w := IntTy.width t
  let ty : OpTy := .int t.signed w
  let rd := readInt t.signed w
  runInt i o t.signed w (fun c ln =>
    narrow sat t.signed w (f (rd (srcA c i o ty ln)) (rd (srcB c i o ty ln)) (rd (oldD c i o w ln)))) s

def execIadd (t : IntTy) (sat : Bool) (o : Wd) (s : State) : Host.Outcome State Fault Refusal :=
  runArith (.iadd t sat o) o t sat (fun a b _ => a + b) s
def execIsub (t : IntTy) (sat : Bool) (o : Wd) (s : State) : Host.Outcome State Fault Refusal :=
  runArith (.isub t sat o) o t sat (fun a b _ => a - b) s
def execImul (t : IntTy) (sat : Bool) (o : Wd) (s : State) : Host.Outcome State Fault Refusal :=
  runArith (.imul t sat o) o t sat (fun a b _ => a * b) s
/-- R92: the upper half of the full product, by floor division. -/
def execImulhi (t : IntTy) (o : Wd) (s : State) : Host.Outcome State Fault Refusal :=
  runArith (.imulhi t o) o t false (fun a b _ => Int.fdiv (a * b) ((2 ^ IntTy.width t : Nat) : Int)) s
def execImad (t : IntTy) (sat : Bool) (o : Wd) (s : State) : Host.Outcome State Fault Refusal :=
  runArith (.imad t sat o) o t sat (fun a b d => a * b + d) s
def execImin (t : IntTy) (o : Wd) (s : State) : Host.Outcome State Fault Refusal :=
  runArith (.imin t o) o t false (fun a b _ => if b < a then b else a) s
def execImax (t : IntTy) (o : Wd) (s : State) : Host.Outcome State Fault Refusal :=
  runArith (.imax t o) o t false (fun a b _ => if a < b then b else a) s

def execIabs (wide : Bool) (sat : Bool) (o : Wd) (s : State) : Host.Outcome State Fault Refusal :=
  let i : Instr := .iabs wide sat o
  let w := widthOf wide
  runInt i o true w (fun c ln => narrow sat true w ((sInt w (srcA c i o (.int true w) ln)).natAbs : Int)) s

/-- R93: the sum and the carry; the latches take a pair result, in the 64-bit form the sum. -/
def execIaddc (t : IntTy) (sat : Bool) (o : Wd) (s : State) : Host.Outcome State Fault Refusal :=
  let i : Instr := .iaddc t sat o
  let w := IntTy.width t
  let n := opIdx o.d
  runFrame i o none (fun c fr => eachLane c.act fr fun ln fr =>
    let cin := (reg c.sw.frame ln (if t.wide then n + 2 else n + 1)).toNat % 2
    let x := srcA c i o (.int false w) ln + srcB c i o (.int false w) ln + cin
    if t.wide then setReg (dst64 fr o ln (BitVec.ofNat 64 x)) ln (n + 2) (BitVec.ofNat 32 (carryOf 64 x))
    else dst64 fr o ln (pairOf (BitVec.ofNat 32 x) (BitVec.ofNat 32 (carryOf 32 x)))) s

/-- A word of one operand pattern A and a count B (R94). -/
def runShift (i : Instr) (o : Wd) (wide : Bool) (f : Nat → Nat → Nat → Nat) (s : State) : Host.Outcome State Fault Refusal :=
  let w := widthOf wide
  runInt i o false w (fun c ln => (f w (srcA c i o (.int false w) ln) (srcB c i o (.int false 32) ln), 0)) s

def shlN (w a n : Nat) : Nat := if n < w then a * 2 ^ n % 2 ^ w else 0
def shrN (w a n : Nat) : Nat := if n < w then a / 2 ^ n else 0
def sarN (w a n : Nat) : Nat := modW w (Int.fdiv (sInt w a) ((2 ^ min n w : Nat) : Int))
def rotN (w a n : Nat) : Nat := a * 2 ^ (n % w) % 2 ^ w + a / 2 ^ (w - n % w)

def execShl (wide : Bool) (o : Wd) (s : State) : Host.Outcome State Fault Refusal := runShift (.shl wide o) o wide shlN s
def execShr (wide : Bool) (o : Wd) (s : State) : Host.Outcome State Fault Refusal := runShift (.shr wide o) o wide shrN s
def execSar (wide : Bool) (o : Wd) (s : State) : Host.Outcome State Fault Refusal := runShift (.sar wide o) o wide sarN s
def execRot (wide : Bool) (o : Wd) (s : State) : Host.Outcome State Fault Refusal := runShift (.rot wide o) o wide rotN s

/-- A bitwise word (R95). -/
def runBits (i : Instr) (o : Wd) (wide : Bool) (f : Nat → Nat → Nat) (s : State) : Host.Outcome State Fault Refusal :=
  let w := widthOf wide
  runInt i o false w (fun c ln => (f (srcA c i o (.pat w) ln) (srcB c i o (.pat w) ln), 0)) s

def execAnd (wide : Bool) (o : Wd) (s : State) : Host.Outcome State Fault Refusal :=
  runBits (.and wide o) o wide (fun a b => a &&& b) s
def execOr (wide : Bool) (o : Wd) (s : State) : Host.Outcome State Fault Refusal :=
  runBits (.or wide o) o wide (fun a b => a ||| b) s
def execXor (wide : Bool) (o : Wd) (s : State) : Host.Outcome State Fault Refusal :=
  runBits (.xor wide o) o wide (fun a b => a ^^^ b) s
def execNot (wide : Bool) (o : Wd) (s : State) : Host.Outcome State Fault Refusal :=
  runBits (.not wide o) o wide (fun a _ => 2 ^ widthOf wide - 1 - a) s

/-- R95: the function of three bits that a table gives, A the least significant input. -/
def lop3N (tt a b d : Nat) : Nat :=
  ofBits ((List.range 32).map fun k =>
    tt.testBit ((if a.testBit k then 1 else 0) + (if b.testBit k then 2 else 0) + (if d.testBit k then 4 else 0)))

def execLop3 (tt : BitVec 8) (o : Wd) (s : State) : Host.Outcome State Fault Refusal :=
  let i : Instr := .lop3 tt o
  runInt i o false 32 (fun c ln => (lop3N tt.toNat (srcA c i o (.pat 32) ln) (srcB c i o (.pat 32) ln) (oldD c i o 32 ln), 0)) s

/-- R96: position and length of a bit field. -/
def fieldOf (b : Nat) : Nat × Nat := (b % 32, min (b / 256 % 64) 32)

def bfxN (sg : Bool) (a b : Nat) : Nat :=
  let (pos, len) := fieldOf b
  let y := if sg then modW 64 (sInt 32 a) else a
  let f := y / 2 ^ pos % 2 ^ len
  if len = 0 then 0 else if sg then modW 32 (sInt len f) else f

def bfiN (a b d : Nat) : Nat :=
  let (pos, len) := fieldOf b
  ofBits ((List.range 32).map fun k => if pos ≤ k ∧ k < pos + len then a.testBit (k - pos) else d.testBit k)

def execBfx (signed : Bool) (o : Wd) (s : State) : Host.Outcome State Fault Refusal :=
  let i : Instr := .bfx signed o
  runInt i o false 32 (fun c ln => (bfxN signed (srcA c i o (.int signed 32) ln) (srcB c i o (.int false 32) ln), 0)) s
def execBfi (o : Wd) (s : State) : Host.Outcome State Fault Refusal :=
  let i : Instr := .bfi o
  runInt i o false 32 (fun c ln => (bfiN (srcA c i o (.pat 32) ln) (srcB c i o (.pat 32) ln) (oldD c i o 32 ln), 0)) s

def popcN (w a : Nat) : Nat := ((bitsOf w a).filter id).length
def clzN (w a : Nat) : Nat := if a = 0 then w else w - 1 - Nat.log2 a
def brevN (w a : Nat) : Nat := ofBits (bitsOf w a).reverse

/-- A word of one operand whose result has its own width (R97). -/
def runUnary (i : Instr) (o : Wd) (w rw : Nat) (f : Nat → Nat → Nat) (s : State) : Host.Outcome State Fault Refusal :=
  runInt i o false rw (fun c ln => (f w (srcA c i o (.int false w) ln), 0)) s

def execPopc (wide : Bool) (o : Wd) (s : State) : Host.Outcome State Fault Refusal :=
  runUnary (.popc wide o) o (widthOf wide) 32 popcN s
def execClz (wide : Bool) (o : Wd) (s : State) : Host.Outcome State Fault Refusal :=
  runUnary (.clz wide o) o (widthOf wide) 32 clzN s
def execBrev (wide : Bool) (o : Wd) (s : State) : Host.Outcome State Fault Refusal :=
  runUnary (.brev wide o) o (widthOf wide) (widthOf wide) brevN s

/-- A word that writes one predicate in each active lane (R89). -/
def runPred (i : Instr) (o : Wd) (f : Ctx → Nat → Bool × Flags) (s : State) : Host.Outcome State Fault Refusal :=
  runFrame i o none (fun c fr => eachLane c.act fr fun ln fr =>
    let (b, fl) := f c ln
    orFlags (dstPred fr o ln b) ln fl) s

def execIcmp (wide : Bool) (cc : ICond) (uns : Bool) (o : Wd) (s : State) : Host.Outcome State Fault Refusal :=
  let i : Instr := .icmp wide cc uns o
  let w := widthOf wide
  runPred i o (fun c ln => (icmpOk cc uns w (srcA c i o (.int (!uns) w) ln) (srcB c i o (.int (!uns) w) ln), 0)) s

def execSel (np : Bool) (p : BitVec 3) (o : Wd) (s : State) : Host.Outcome State Fault Refusal :=
  let i : Instr := .sel np p o
  runInt i o false 32 (fun c ln =>
    (if predOf (lane c.sw.frame ln) p.toNat != np then srcA c i o (.pat 32) ln else srcB c i o (.pat 32) ln, 0)) s

def execLea (sh : BitVec 4) (o : Wd) (s : State) : Host.Outcome State Fault Refusal :=
  let i : Instr := .lea sh o
  runInt i o false 64 (fun c ln =>
    (modW 64 ((srcA c i o (.pat 64) ln : Int) + sInt 32 (srcB c i o (.int true 32) ln) * ((2 ^ sh.toNat : Nat) : Int)), 0)) s

def execMov (wide : Bool) (o : Wd) (s : State) : Host.Outcome State Fault Refusal :=
  let i : Instr := .mov wide o
  runInt i o false (widthOf wide) (fun c ln => (srcA c i o (.pat (widthOf wide)) ln, 0)) s
def execMovi (k : BitVec 32) (o : Wd) (s : State) : Host.Outcome State Fault Refusal :=
  runInt (.movi k o) o false 32 (fun _ _ => (k.toNat, 0)) s

end Sys2Proof.Machine
end

