-- ==== Sys2Proof/Machine/Control.lean ====
section
/-!
DEFINITION. The control words: transfers, reconvergence, ends, and instruction prefetch and pins (R126 to R134).
-/
namespace Sys2Proof.Machine

/-- The target X + 4 × off of a direct transfer (R126). -/
def direct (pc : DWord) (o : Opnd) : DWord := pc + 4 * imm64 o.immVal

/-- Set the PC of lanes. -/
def jump (c : Ctx) (tgt : Nat → DWord) (fr : Frame) : Frame :=
  eachLane c.act fr fun ln fr => updLane fr ln fun l => { l with pc := tgt ln }

/-- R127: a computed target that is not a multiple of 4 raises one trap once the word has completed. -/
def checkTargets (c : Ctx) (tgt : Nat → DWord) (s : State) : State :=
  match (lanesOf c.act).find? fun ln => (tgt ln).toNat % 4 != 0 with
  | some ln => takeTrap s c.f.team c.f.swarm c.act { cause := 0x04, lane := ln } (tgt ln) none
  | none => s

/-- R126: a word that writes registers and moves PCs. -/
def runJump (i : Instr) (o : Wd) (g : Ctx → Frame → Frame) (tgt : Ctx → Nat → DWord) (s : State) :
    Host.Outcome State Fault Refusal :=
  runWord i o .prog (fun _ => none) (fun _ => i.fields) (fun c s1 =>
    checkTargets c (tgt c) (updFrame s1 c.f.team c.f.swarm fun fr => jump c (tgt c) (g c fr))) s

def execBra (o : Wd) (s : State) : Host.Outcome State Fault Refusal :=
  runJump (.bra o) o (fun _ fr => fr) (fun c _ => direct c.f.pc o.b) s
def execBrx (o : Wd) (s : State) : Host.Outcome State Fault Refusal :=
  runJump (.brx o) o (fun _ fr => fr) (fun c ln => opPair c.sw.frame ln o.a + imm64 o.b.immVal) s
/-- CALL: B is read before D is written. -/
def execCall (o : Wd) (s : State) : Host.Outcome State Fault Refusal :=
  runJump (.call o) o
    (fun c fr => eachLane c.act fr fun ln fr => dst64 fr o ln (c.f.pc + 12))
    (fun c ln => match o.b with
      | .imm _ => direct c.f.pc o.b
      | _ => opPair c.sw.frame ln o.b) s
def execRet (o : Wd) (s : State) : Host.Outcome State Fault Refusal :=
  runJump (.ret o) o (fun _ fr => fr) (fun c ln => opPair c.sw.frame ln o.a) s
/-- LOOP: D counts down, and the latches take it whenever it changes. -/
def execLoop (o : Wd) (s : State) : Host.Outcome State Fault Refusal :=
  let old (c : Ctx) (ln : Nat) : Word := reg c.sw.frame ln (opIdx o.d)
  runJump (.loop o) o
    (fun c fr => eachLane c.act fr fun ln fr => if old c ln = 0 then fr else dst32 fr o 4 ln (old c ln - 1))
    (fun c ln => if old c ln = 0 ∨ old c ln = 1 then c.f.pc + 12 else direct c.f.pc o.b) s

def execBmark (o : Wd) (s : State) : Host.Outcome State Fault Refusal :=
  let n := o.a.immVal.toNat
  runFrame (.bmark o) o none (fun c fr => { fr with marks := fr.marks.set n (fr.marks.get n ||| c.act) }) s

/-- R128: the lanes of a mark wait at the word; the others go on. -/
def bsyncFrame (c : Ctx) (n : Nat) (re : Option Nat) (fr : Frame) : Frame :=
  releaseMark (eachLane (c.act &&& fr.marks.get n) fr fun ln fr =>
    updLane fr ln fun l => { l with bsync := some (n, re), pc := c.f.pc }) n

/-- R129: every non-exited lane waits at a BSYNC. -/
def allWait (fr : Frame) : Bool :=
  let m := liveLanes fr
  m != 0 && (lanesOf m).all fun i => (lane fr i).bsync.isSome

/-- R128, R129. -/
def execBsync (o : Wd) (s : State) : Host.Outcome State Fault Refusal :=
  let n := o.a.immVal.toNat
  let re : Option Nat := match o.b with
    | .imm x => some (x.toNat % 8)
    | _ => none
  runWord (.bsync o) o .prog (fun _ => none) (fun _ => (Instr.bsync o).fields) (fun c s1 =>
    let fr := bsyncFrame c n re
    let dead : Bool := match (findTeam s1 c.f.team).bind fun tm => findSwarm tm c.f.swarm with
      | some sw => allWait (fr sw.frame)
      | none => false
    if dead then undoTrap c s1 0x08 c.f.pc else updFrame s1 c.f.team c.f.swarm fr) s

def execNop (o : Wd) (s : State) : Host.Outcome State Fault Refusal :=
  runFrame (.nop o) o none (fun _ fr => fr) s

/-- R131: YIELD does nothing but affect timing; a diverged subgroup moves to the end of the round-robin order. -/
def execYield (o : Wd) (s : State) : Host.Outcome State Fault Refusal :=
  runFrame (.yield o) o none (fun c fr =>
    if c.sw.frame.bcast = c.f.pc then fr else { fr with lastSub := (lowest c.f.mask).getD 0 }) s

/-! ### Instruction prefetch and pins (R132 to R134) -/

/-- The virtual lines of the range of `n` packets from an address, rounded down to 16 (R132). -/
def packetLines (a n : Nat) : List Nat := linesOf (a / 16 * 16) (48 * n)

/-- The physical line of a virtual line, when it translates with execute permission. -/
def fetchLine (s : State) (c : Ctx) (line : Nat) : Option Nat :=
  if 2 ^ 57 ≤ 128 * line then none
  else match translate s (clusOf c.tm.core) c.tm.part c.tm.slice c.tm.asn (execLevel c.tm c.sw) .fetch (128 * line) with
    | .ok x => some (x.pa / 128)
    | .error _ => none

/-- Address A of the lowest active lane and the lines of the range. -/
def pinRange (c : Ctx) (o : Wd) : List Nat :=
  packetLines (opPair c.sw.frame ((lowest c.act).getD 0) o.a).toNat o.b.immVal.toNat

/-- IPREF.l1i discards the core's copies of the lines and fetches them anew. -/
def refetch (core : Nat) (s : State) (line : Nat) : State :=
  let bs := codeBytes s.m core line
  { s with m := { s.m with icache := (core, line, bs) :: s.m.icache.filter fun x => !(x.1 == core && x.2.1 == line) } }

def execIpref (l : Lvl3) (o : Wd) (s : State) : Host.Outcome State Fault Refusal :=
  runWord (.ipref l o) o .prog (fun _ => none) (fun _ => (Instr.ipref l o).fields) (fun c s1 =>
    let lines := (pinRange c o).filterMap (fetchLine s1 c)
    if l = .l1 then lines.foldl (refetch c.tm.core) s1 else s1) s

/-- The unit that a pin's limit is counted in (R133): the core, die or stack. -/
def pinUnit (l : Lvl3) (core : Nat) : Nat :=
  match l with
  | .l1 => core
  | .l2 => dieOf core
  | .l3 => stkOf core

/-- The clusters that a partition holds in a unit of `per` clusters. -/
def clustersIn (m : BitVec 96) (unit per : Nat) : Nat := ((List.range per).filter fun k => m.getLsbD (per * unit + k)).length

/-- R133: the lines that a partition may pin at a level in the unit of a core. -/
def pinLimit (s : State) (l : Lvl3) (part core : Nat) : Nat :=
  let m : BitVec 96 := match findPart s part with
    | some p => p.clus
    | none => 0
  match l with
  | .l1 => 128
  | .l2 => 8192 * clustersIn m (dieOf core) 6 / 6
  | .l3 => 65536 * clustersIn m (stkOf core) 12 / 12

def findTeamPart (s : State) (t : TeamId) : Option Nat := (findTeam s t).map fun tm => tm.part

/-- The distinct lines pinned at a level in a unit by the teams that its limit counts. -/
def pinnedLines (s : State) (l : Lvl3) (part core : Nat) : List Nat :=
  ((s.m.pins.filter fun p => p.level == l && pinUnit l p.core == pinUnit l core &&
    (l == .l1 || findTeamPart s p.team == some part)).map fun p => p.line).eraseDups

/-- Raise the pin count of a line of a team. -/
def pinLine (l : Lvl3) (t : TeamId) (core : Nat) (s : State) (line : Nat) : State :=
  let hit (p : Pin) : Bool := p.level == l && p.team == t && p.core == core && p.line == line
  let ps := if s.m.pins.any hit then s.m.pins.map fun p => if hit p then { p with count := p.count + 1 } else p
    else ⟨l, t, core, line, 1⟩ :: s.m.pins
  { s with m := { s.m with pins := ps } }

/-- Lower the pin count of a line of a team by one; at 0 it is unpinned. -/
def unpinLine (l : Lvl3) (t : TeamId) (core : Nat) (s : State) (line : Nat) : State :=
  match s.m.pins.find? fun p => p.level == l && p.team == t && pinUnit l p.core == pinUnit l core && p.line == line with
  | none => s
  | some q =>
    let ps := (s.m.pins.map fun p => if p = q then { p with count := p.count - 1 } else p).filter fun p => p.count != 0
    { s with m := { s.m with pins := ps } }

/-- A line that a core's instruction cache does not hold is brought in (R132). -/
def bringIn (core : Nat) (s : State) (line : Nat) : State := (icacheLine s core line).1

/-- R132: all of the lines are brought in and pinned, or none. Where a line does not translate and a limit would be exceeded
too, the status is 2 (assumption 96). -/
def execIpin (l : Lvl3) (o : Wd) (s : State) : Host.Outcome State Fault Refusal :=
  runWord (.ipin l o) o .prog (fun _ => none) (fun _ => (Instr.ipin l o).fields) (fun c s1 =>
    let vs := pinRange c o
    let ls := vs.filterMap (fetchLine s1 c)
    let more := ((pinnedLines s1 l c.tm.part c.tm.core ++ ls).eraseDups).length
    let status : Word := if ls.length ≠ vs.length then 2 else if pinLimit s1 l c.tm.part c.tm.core < more then 1 else 0
    let s2 := if status = 0 then
        ls.foldl (pinLine l c.f.team c.tm.core) (if l = .l1 then ls.foldl (bringIn c.tm.core) s1 else s1)
      else s1
    updFrame s2 c.f.team c.f.swarm fun fr => eachLane c.act fr fun ln fr => dst32 fr o 4 ln status) s

def execIunpin (l : Lvl3) (o : Wd) (s : State) : Host.Outcome State Fault Refusal :=
  runWord (.iunpin l o) o .prog (fun _ => none) (fun _ => (Instr.iunpin l o).fields) (fun c s1 =>
    ((pinRange c o).filterMap (fetchLine s1 c)).foldl (unpinLine l c.f.team c.tm.core) s1) s

end Sys2Proof.Machine
end

