-- ==== Sys2Proof/Machine/Locate.lean ====
section
/-!
DEFINITION. The checks of an access (R136 to R140, R146, R158, R369) and the operand-log entry that a memory word takes
(R148, R321).
-/
namespace Sys2Proof.Machine

/-- The address of a lane: a pair and a signed offset (R136). -/
def laneAddr (fr : Frame) (o : Wd) (ln : Nat) : DWord := opPair fr ln o.a + imm64 o.b.immVal

/-- What an access asks for: space, translation rights (R347), size, what a watchpoint sees (R158), and the atomic
operation with whether it returns the old value (R369). -/
structure Ask where
  sp     : Space
  need   : AccNeed
  size   : Nat
  reads  : Bool
  writes : Bool
  atomic : Option (AO × Bool)
deriving DecidableEq, Repr

/-- R369: an atomic form that its home outside the package does not accept. -/
def atomicRefused (s : State) (ask : Ask) (a : Nat) (m : CohMode) : Bool :=
  match ask.atomic with
  | none => false
  | some (ao, returns) =>
    match storageOf a with
    | .peer i _ => decide (0xC00 ≤ i) && (ao == .addF32 || ao == .addBf16x2)
    | .host =>
      if m == .coh && s.link.cxlDies.contains (a / 2 ^ 43 % 2) then false
      else !(ao == .add || (returns && (ao == .exch || ao == .cas)))
    | _ => false

/-- R156, R158: the lowest-numbered armed watchpoint of the team that its own access meets; `skip` is not checked. -/
def ownHit (tm : Team) (lv : Level) (ask : Ask) (skip : Option Nat) (a : Nat) : Option Nat :=
  let meets (w : Watch) : Bool := w.armed && ((w.r && ask.reads) || (w.w && ask.writes)) &&
    w.segs.any fun g => decide (g.1 < a + ask.size ∧ a < g.1 + g.2.2)
  if lv ≠ tm.level then none
  else (List.range 4).find? fun k => some k != skip && (match nth none (tm.watches.map some) k with
    | some w => meets w
    | none => false)

/-- R157: a precise hit counts in the status word. -/
def countHit (s : State) (tm : Team) (k : Nat) : State :=
  updTeam s tm.id fun x =>
    { x with watches := upd (fun w => { w with status := statusHit w.status 1 tm.core false }) x.watches k }

/-- A checked access: where it is performed and whether a stage-3 leaf forwarded it (R350). -/
abbrev Found := Except (Nat × Nat) (Place × Bool)

/-- A global address of a level: translated, with the TLB filled and a forwarded access counted (R349, R350). -/
def locateG (s : State) (tm : Team) (lv : Level) (ask : Ask) (a : Nat) : State × Found :=
  match translate s (clusOf tm.core) tm.part tm.slice tm.asn lv ask.need a with
  | .error e => (s, .error e)
  | .ok x =>
    if atomicRefused s ask x.pa x.mode then (s, .error (0x15, 0))
    else
      let s1 := tlbFill s x
      let s2 := if x.fwd then { s1 with forwarded := s1.forwarded.set tm.part (s1.forwarded.get tm.part + 1) } else s1
      (s2, .ok (.pa x.pa x.mode, x.fwd))

/-- R137: the team that a scratchpad window names, and whether the offset lies in its allocation. -/
def windowTeam (s : State) (tm : Team) (w : Nat) : Option Team :=
  if w = 0 then some tm
  else match tm.gang with
  | none => none
  | some (g, _) => s.teams.find? fun x => x.gang == some (g, w - 1) && clusOf x.core == clusOf tm.core

/-- R140: the carve of the team's slice on a stack, in bytes. -/
def carveSize (s : State) (tm : Team) (k : Nat) : Nat :=
  match findSlice s tm.part tm.slice with
  | some x => (x.carve.get k).toNat * 2 ^ 20
  | none => 0

/-- R136 to R140, R146, R158: the checks of one lane's access, lowest code first. -/
def locate (s : State) (tm : Team) (lv : Level) (ask : Ask) (skip : Option Nat) (a64 : DWord) : State × Found :=
  let a := a64.toNat
  let top := match ask.sp with
    | .g => 2 ^ 57
    | .s => 2 ^ 23
    | .c => 2 ^ 22
    | .l3 => 2 ^ 31
  if top ≤ a then (s, .error (0x10, 0))
  else if a % ask.size ≠ 0 then (s, .error (0x11, 0))
  else match ask.sp with
  | .g =>
    match ownHit tm lv ask skip a with
    | some k => (countHit s tm k, .error (0x13, 0))
    | none => locateG s tm lv ask a
  | .s =>
    match windowTeam s tm (a / 2 ^ 19) with
    | some u => if a % 2 ^ 19 < u.spadSz then (s, .ok (.spad u.id (a % 2 ^ 19), false)) else (s, .error (0x12, 0))
    | none => (s, .error (0x12, 0))
  | .c =>
    if tm.csize ≤ a then (s, .error (0x12, 0))
    else match ownHit tm tm.level ask skip (tm.cbase + a) with
    | some k => (countHit s tm k, .error (0x13, 0))
    | none => locateG s tm tm.level ask (tm.cbase + a)
  | .l3 =>
    let k := a / 2 ^ 28
    if a % 2 ^ 28 < carveSize s tm k then (s, .ok (.l3 ((8 * tm.part + tm.slice) * 8 + k) (a % 2 ^ 28), false))
    else (s, .error (0x12, 0))

/-- The access of a word of the operand log (R347, R158, R369). -/
def askOf (sp : Space) (i : Instr) (k : AccKind) : Ask :=
  match k with
  | .load n => ⟨sp, .read, n, true, false, none⟩
  | .store n => ⟨sp, .write, n, false, true, none⟩
  | .atomic n => ⟨sp, .rw, n, true, true, some (aoOf i, true)⟩
  | .reduce n => ⟨sp, .write, n, false, true, some (aoOf i, false)⟩
  | .sync => ⟨sp, .rw, 16, true, true, none⟩
  | .byPart => ⟨sp, .write, 1, false, true, none⟩

/-- The address space of a word (R149, R177, R179). -/
def spaceOf : Instr → Space
  | .ld _ sp _ _ _ | .st _ sp _ _ | .ldv _ sp _ _ | .stv _ sp _ _ => sp
  | .atom f _ _ _ | .red f _ _ _ => if f = .s32 then .s else .g
  | .syncwi _ | .syncwt _ _ => .s
  | _ => .g

/-- The data and compare values of a lane as the word reads them (R149, R150, R177, R179). -/
def accData (fr : Frame) (i : Instr) (ln : Nat) : List Word × DWord :=
  let pair (x : DWord) : List Word := [loW x, hiW x]
  match i with
  | .st z _ _ o => (pair (opBase fr (z == .s64) z.bytes ln o.d), 0)
  | .stv n _ _ o => ((List.range n.count).map fun k => reg fr ln (opIdx o.d + k), 0)
  | .atom f _ _ o =>
    let n := opIdx o.d
    if f = .g64 then (pair (regPair fr ln n), regPair fr ln (n + 2))
    else ([reg fr ln n, 0], (reg fr ln (n + 1)).setWidth 64)
  | .red f _ _ o => (pair (opBase fr (f == .g64) (if f = .g64 then 8 else 4) ln o.d), 0)
  | .syncwi o => ([reg fr ln (opIdx o.d), 0], 0)
  | _ => ([], 0)

/-- The entry number that a new entry takes: the lowest free one (R321). -/
def freeNum (fr : Frame) : Nat := ((List.range 8).find? fun n => (findEntry fr n).isNone).getD 8
def logFull (fr : Frame) : Bool := freeNum fr == 8

/-- The parked WAITC, SYNCWT and FREDWT words of class ld, each of which holds one count (R180, R192, R328, R388). -/
def parkedLd (fr : Frame) : Nat :=
  let pcs := (lanes32.filter fun i => match (lane fr i).park with
    | some (.waitc ld _) => ld
    | some (.syncwt ld _ _) => ld
    | some (.fredwt ld _) => ld
    | _ => false).map fun i => (lane fr i).pc
  pcs.eraseDups.length

/-- The value of an outstanding counter (R148, R214, R328). -/
def cntOf (fr : Frame) (c : Cls) : Nat :=
  match c with
  | .none => 0
  | .ld => fr.cLd + parkedLd fr
  | .st => fr.cSt
  | .cp => fr.cCp

/-- R148, R321: a memory word waits before issue for a log entry and for its counter. -/
def memWait (q : Option MemQ) (c : Ctx) (_ : State) : Bool :=
  logFull c.sw.frame || (match q with
    | some q => cntOf c.sw.frame q.cls == 63
    | none => false)

/-- The checks of lanes in ascending order. -/
def checkLanes (tm : Team) (lv : Level) (ask : Ask) (skip : Option Nat) : State → List (Nat × DWord) →
    State × List (Nat × DWord × Found)
  | s, [] => (s, [])
  | s, (ln, a) :: r =>
    let (s1, f) := locate s tm lv ask skip a
    let (s2, fs) := checkLanes tm lv ask skip s1 r
    (s2, (ln, a, f) :: fs)

/-- The failed lanes of checks, with cause and stage. -/
def failures (rs : List (Nat × DWord × Found)) : List (Nat × Nat × Nat) :=
  rs.filterMap fun r => match r.2.2 with
    | .error (c, st) => some (r.1, c, st)
    | .ok _ => none

/-- R146: the reported failure: the lowest code, then the lowest lane. -/
def worst (fs : List (Nat × Nat × Nat)) : Option (Nat × Nat × Nat) :=
  fs.foldl (fun b f => match b with
    | none => some f
    | some g => if f.2.1 < g.2.1 then some f else some g) none

/-- R147: the lanes of a store whose place a higher lane names as well. -/
def overwritten (rs : List LaneRec) (ln : Nat) : Bool :=
  match rs.find? fun r => r.lane == ln with
  | some r => rs.any fun q => decide (ln < q.lane) && q.place == r.place && r.place.isSome
  | none => false

/-- The entry of a word from the checks of its lanes; `watch` is the watchpoint that the reported fault met. -/
def entryOf (num seq : Nat) (i : Instr) (pc : DWord) (data : Nat → List Word × DWord) (watch : Option Nat)
    (rs : List (Nat × DWord × Found)) : LogEntry :=
  let recs : List LaneRec := rs.map fun r =>
    let (d, c) := data r.1
    match r.2.2 with
    | .ok (p, f) => { lane := r.1, va := r.2.1, data := d, cmp := c, place := some p, fwd := f }
    | .error _ => { lane := r.1, va := r.2.1, data := d, cmp := c, place := none, fwd := false }
  let fs := failures rs
  let bad := maskOf fun n => fs.any fun f => f.1 == n
  let ok := maskOf fun n => recs.any fun r => r.lane == n && r.place.isSome
  let isStore : Bool := match accKind i with
    | some (.store _) => true
    | _ => false
  let lost := maskOf fun n => isStore && ok.getLsbD n && overwritten recs n
  let (ln, c, st) := (worst fs).getD (0, 0, 0)
  { num := num, seq := seq, ins := i, addr := pc, todo := ok &&& ~~~lost, away := 0, done := lost, faulted := bad,
    cause := BitVec.ofNat 8 c, stage := st, flane := ln, recs := recs, wp := watch, again := false, word := seq }

/-- A new entry takes its place in the log; it is the youngest (R321). -/
def addEntry (fr : Frame) (e : LogEntry) : Frame := { fr with log := fr.log ++ [e], seq := fr.seq + 1 }

/-- The watchpoint that the reported lane of an entry met (R158). -/
def watchOf (tm : Team) (lv : Level) (ask : Ask) (skip : Option Nat) (rs : List (Nat × DWord × Found)) : Option Nat :=
  match worst (failures rs) with
  | some (ln, 0x13, _) => (rs.find? fun r => r.1 == ln).bind fun r => ownHit tm lv ask skip r.2.1.toNat
  | _ => none

/-- R408: the violations among the failed lanes freeze the core. -/
def violations (s : State) (tm : Team) (rs : List (Nat × DWord × Found)) : State :=
  (failures rs).foldl (fun s f => violate s tm (.core tm.core) f.2.1 f.2.2) s

/-- R176: the access of a word is an atomic that executes beyond the issuing core's L1. -/
def beyondL1 (i : Instr) (q : MemQ) (m : CohMode) : Bool :=
  match accKind i with
  | some (.atomic _) => !atomicInL1 m false q.scope
  | some (.reduce _) => !atomicInL1 m true q.scope
  | _ => false

/-- R176: at issue, the copies of the core's L1 that such an entry names are written back and dropped. -/
def dropOwns (core : Nat) (far : CohMode → Bool) (s : State) (e : LogEntry) : State :=
  e.recs.foldl (fun s r => match r.place with
    | some (.pa a m) => if far m then dropOwn s core (a / 128) else s
    | _ => s) s

/-- R146, R148, R321: a memory word issues: every active lane is checked, and the word stands in the log with its
counter raised. -/
def issueAccess (i : Instr) (o : Wd) (k : AccKind) (q : MemQ) (c : Ctx) (s : State) : State :=
  let fr := c.sw.frame
  let lv := execLevel c.tm c.sw
  let ask := askOf (spaceOf i) i k
  let (s1, rs) := checkLanes c.tm lv ask none s ((lanesOf c.act).map fun ln => (ln, laneAddr fr o ln))
  let e := entryOf (freeNum fr) fr.seq i c.f.pc (accData fr i) (watchOf c.tm lv ask none rs) rs
  let s2 := updFrame (dropOwns c.tm.core (beyondL1 i q) s1 e) c.f.team c.f.swarm fun fr =>
    settleEntry (bumpCnt (addEntry fr e) q.cls true) e.num
  violations s2 c.tm rs

/-- A word of the operand log whose lanes access memory (R149, R150, R177, R179). -/
def runAccess (i : Instr) (o : Wd) (k : AccKind) (q : MemQ) (s : State) : Host.Outcome State Fault Refusal :=
  runWait (memWait (some q)) i o .prog (fun _ => none) (fun _ => i.fields) (issueAccess i o k q) s

end Sys2Proof.Machine
end

