-- ==== Sys2Proof/Machine/MemInstr.lean ====
section
/-!
DEFINITION. The memory words: loads, stores, prefetch, cache control, watchpoints, fences, atomics, WAITC (R149 to R158,
R171 to R181), and the events that complete them.
-/
namespace Sys2Proof.Machine

def execLd (z : Sz) (sp : Space) (sx : Bool) (q : MemQ) (o : Wd) (s : State) : Host.Outcome State Fault Refusal :=
  runAccess (.ld z sp sx q o) o (.load z.bytes) q s
def execSt (z : Sz) (sp : Space) (q : MemQ) (o : Wd) (s : State) : Host.Outcome State Fault Refusal :=
  runAccess (.st z sp q o) o (.store z.bytes) q s
def execLdv (n : VecN) (sp : Space) (q : MemQ) (o : Wd) (s : State) : Host.Outcome State Fault Refusal :=
  runAccess (.ldv n sp q o) o (.load (4 * n.count)) q s
def execStv (n : VecN) (sp : Space) (q : MemQ) (o : Wd) (s : State) : Host.Outcome State Fault Refusal :=
  runAccess (.stv n sp q o) o (.store (4 * n.count)) q s
def execAtom (f : AForm) (ao : AO) (q : MemQ) (o : Wd) (s : State) : Host.Outcome State Fault Refusal :=
  runAccess (.atom f ao q o) o (.atomic (if f = .g64 then 8 else 4)) q s
def execRed (f : AForm) (ao : AO) (q : MemQ) (o : Wd) (s : State) : Host.Outcome State Fault Refusal :=
  runAccess (.red f ao q o) o (.reduce (if f = .g64 then 8 else 4)) q s

/-! ### Prefetch and cache control (R151, R152) -/

/-- The physical line and mode of a lane's global address, when it has the form and translates. -/
def lineOf (s : State) (c : Ctx) (o : Wd) (ln : Nat) : Option (Nat × CohMode) :=
  let a := (laneAddr c.sw.frame o ln).toNat
  if 2 ^ 57 ≤ a then none
  else match translate s (clusOf c.tm.core) c.tm.part c.tm.slice c.tm.asn (execLevel c.tm c.sw) .read a with
    | .ok x => if isRemote (.pa x.pa x.mode) then none else some (x.pa / 128, x.mode)
    | .error _ => none

/-- A line is brought into the core's L1 or its die's L2, shared, or into the L3 of its home. -/
def prefLine (l : Lvl3) (core : Nat) (s : State) (x : Nat × CohMode) : State :=
  match l with
  | .l1 => if (l1Find s.m core x.1).isSome then s else l1Fill s core x.1 x.2 false
  | .l2 => l2Read s core x.1 x.2
  | .l3 => l3Touch s x.1 false

def execPref (l : Lvl3) (q : MemQ) (o : Wd) (s : State) : Host.Outcome State Fault Refusal :=
  runWord (.pref l q o) o .prog (fun _ => none) (fun _ => (Instr.pref l q o).fields) (fun c s1 =>
    ((lanesOf c.act).filterMap (lineOf s1 c o)).foldl (prefLine l c.tm.core) s1) s

/-- R152: one line in a core's L1: .inv drops a line of an SWC or PRV page as it stands. -/
def cctlL1 (op : CctlOp) (core : Nat) (s : State) (x : Nat × CohMode) : State :=
  match l1Find s.m core x.1 with
  | none => s
  | some y => match op with
    | .wb => writeBack s y
    | .wbinv => l1Out s y
    | .inv => if x.2 = .coh then l1Out s y else { s with m := l1Drop s.m core x.1 }

/-- R152: one line in the L2 of a die, whose dirty bytes go to their home. -/
def cctlL2 (op : CctlOp) (die : Nat) (s : State) (x : Nat × CohMode) : State :=
  match l2Find s.m die x.1 with
  | none => s
  | some y => match op with
    | .wb => l2Clean s die x.1
    | .wbinv => l2Out s y
    | .inv => if x.2 = .coh then l2Out s y else l2Lose s die x.1

/-- R152: at .core and .clus the issuing core's L1, at wider scopes its die's L2 as well. -/
def cctlLine (op : CctlOp) (sc : Scope) (core : Nat) (s : State) (x : Nat × CohMode) : State :=
  if scopeGe sc .die then cctlL2 op (dieOf core) (cctlL1 op core s x) x else cctlL1 op core s x

def execCctl (op : CctlOp) (q : MemQ) (o : Wd) (s : State) : Host.Outcome State Fault Refusal :=
  runWait (fun c _ => cntOf c.sw.frame q.cls == 63) (.cctl op q o) o .prog (fun _ => none)
    (fun _ => (Instr.cctl op q o).fields) (fun c s1 =>
      ((lanesOf c.act).filterMap (lineOf s1 c o)).eraseDups.foldl (cctlLine op q.scope c.tm.core) s1) s

/-! ### Watchpoints (R155 to R158) -/

/-- The physical ranges of an armed range: a part whose translation fails catches nothing (R156). -/
def watchSegs (s : State) (tm : Team) (base size : Nat) : List (Nat × Nat × Nat) :=
  let step := min size 65536
  (List.range (size / step)).filterMap fun k =>
    let a := base + step * k
    let go (need : AccNeed) := walkAll s (clusOf tm.core) tm.part tm.slice tm.asn tm.level need a
    if 2 ^ 57 ≤ a then none
    else match go .read with
    | .ok x => some (a, x.pa, step)
    | .error _ => match go .write with
      | .ok x => some (a, x.pa, step)
      | .error _ => none

/-- R156. -/
def execWpset (r w : Bool) (q : MemQ) (o : Wd) (s : State) : Host.Outcome State Fault Refusal :=
  let b := o.b.immVal.toNat
  let size := 2 ^ (b % 64)
  runWord (.wpset r w q o) o .prog (fun _ => none) (fun _ => (Instr.wpset r w q o).fields) (fun c s1 =>
    let base := (opPair c.sw.frame ((lowest c.act).getD 0) o.a).toNat / size * size
    let st : Word := BitVec.ofNat 32 ((if w then 2 else 0) + (if r then 1 else 0))
    let wp : Watch := { armed := true, base := base, size := size, r := r, w := w, scope := q.scope, status := st,
                        segs := watchSegs s1 c.tm base size }
    updTeam s1 c.f.team fun tm => { tm with watches := upd (fun _ => wp) tm.watches (b / 64) }) s

/-- R157. -/
def execWpclr (q : MemQ) (o : Wd) (s : State) : Host.Outcome State Fault Refusal :=
  let k := o.b.immVal.toNat
  runWord (.wpclr q o) o .prog (fun _ => none) (fun _ => (Instr.wpclr q o).fields) (fun c s1 =>
    let st : Word := match nth none (c.tm.watches.map some) k with
      | some w => w.status
      | none => 0
    let s2 := updTeam s1 c.f.team fun tm => { tm with watches := upd (fun w => { w with armed := false }) tm.watches k }
    updFrame s2 c.f.team c.f.swarm fun fr => eachLane c.act fr fun ln fr => setReg fr ln (opIdx o.d) st) s

/-! ### Fences (R171 to R174) -/

/-- The mark of a fence: the lanes that its order makes acquire, and those it makes release. -/
def fenceMark (seq : Nat) (q : MemQ) (act : BitVec 32) : FenceMark where
  seq   := seq
  scope := q.scope
  acq   := if q.ord = .rel then 0 else act
  rel   := if q.ord = .acq then 0 else act

/-- R171: a fence stands between the entries before it and those after it. -/
def execFence (q : MemQ) (o : Wd) (s : State) : Host.Outcome State Fault Refusal :=
  runWord (.fence q o) o .prog (fun _ => none) (fun _ => (Instr.fence q o).fields) (fun c s1 =>
    let mark (fr : Frame) : Frame :=
      { fr with fences := fr.fences ++ [fenceMark fr.seq q c.act], seq := fr.seq + 1 }
    settleFences (updFrame s1 c.f.team c.f.swarm mark) c.f.team c.f.swarm) s

/-- Some active lane has an access that is not performed and that a test picks. -/
def stillOpen (fr : Frame) (act : BitVec 32) (p : LogEntry → Nat → Bool) : Bool :=
  fr.log.any fun e => (lanesOf (act &&& (e.todo ||| e.away))).any (p e)

/-- The word stands again, and the swarm issues nothing else meanwhile (R125, R172, R174). -/
def holdSwarm (c : Ctx) (s : State) : State :=
  updFrame (standAt c s) c.f.team c.f.swarm fun fr => { fr with macroAt := some (c.f.pc, c.f.mask) }
def freeSwarm (c : Ctx) (s : State) : State :=
  updFrame s c.f.team c.f.swarm fun fr => { fr with macroAt := none }

/-- R172: the pulse period of a scope, 0 for .core. -/
def pulsePeriod : Scope → Nat
  | .core => 0
  | .clus => 32
  | .die => 64
  | .stk => 128
  | .seg | .pkg => 256
  | .fab => 2048
  | .sys => 4096

/-- A lane of the group has waited for its tick (R172). -/
def ticked (c : Ctx) : Bool := (lanesOf c.act).any fun i => match (lane c.sw.frame i).park with
  | some (.fenceSc _ _) => true
  | _ => false

/-- R172: earlier accesses, then the tick, then the acquire. -/
def execFenceSc (q : MemQ) (o : Wd) (s : State) : Host.Outcome State Fault Refusal :=
  runWord (.fenceSc q o) o .prog (fun _ => none) (fun _ => (Instr.fenceSc q o).fields) (fun c s1 =>
    if stillOpen c.sw.frame c.act (fun _ _ => true) || (scopeGe q.scope .fab && snpWaits s1) then holdSwarm c s1
    else if q.scope = .core ∨ ticked c then freeSwarm c (acquire (release s1 c.tm.core q.scope) c.tm.core q.scope)
    else parkLanes c c.act (.fenceSc q.scope s1.pulse.toNat) (holdSwarm c (release s1 c.tm.core q.scope))) s

/-- R174: a store of an entry that FENCE.LY waits for: homed in a stack within its scope or in the second tier. -/
def covered (core : Nat) (sc : Scope) (e : LogEntry) (ln : Nat) : Bool :=
  match accKind e.ins, recOf e ln with
  | some k, some r =>
    k.stores && (match r.place with
      | some (.pa a _) =>
        (match storageOf a with
        | .dram j _ => withinScope sc core (192 * j)
        | .tier _ => true
        | _ => false)
      | none => k == .byPart
      | _ => false)
  | _, _ => false

/-- R174: the lines of the stores of the active lanes that a FENCE.LY covers: homed in the stack DRAM within its scope. -/
def layLines (s : State) (c : Ctx) (sc : Scope) : List Nat :=
  let mine (x : TeamId × Nat × Nat × Nat) : Bool := x.1 == c.f.team && x.2.1 == c.f.swarm && c.act.getLsbD x.2.2.1 &&
    (match l3Stack x.2.2.2 with
    | some k => withinScope sc c.tm.core (192 * k)
    | none => false)
  ((s.m.unlaid.filter mine).map fun x => x.2.2.2).eraseDups

/-- R174: a remap is under way for a bank that the lines reach. -/
def remapping (s : State) (lines : List Nat) : Bool :=
  lines.any fun l => match storageOf (128 * l) with
    | .dram k off => (match (stackOf s.m k).fold with
      | some f => f.bank == bankNo off
      | none => false)
    | _ => false

/-- R174: a line is written through the issuing core's L1, the L2s and the L3 into the write buffer of its bank. -/
def layLine (core : Nat) (s : State) (line : Nat) : State :=
  let s1 := match l1Find s.m core line with
    | some x => if x.dirty = 0 then s else writeBack s x
    | none => s
  let s2 := ((s1.m.l2.filter fun x => x.line == line).map fun x => x.die).foldl (fun s d => l2Clean s d line) s1
  let clean (x : L3Line) : L3Line := if x.line = line then { x with dirty := false } else x
  { s2 with m := { s2.m with l3c := s2.m.l3c.map clean } }

/-- R174. The stores that the fence covers are no longer to be covered. -/
def execFenceLy (q : MemQ) (o : Wd) (s : State) : Host.Outcome State Fault Refusal :=
  runWord (.fenceLy q o) o .prog (fun _ => none) (fun _ => (Instr.fenceLy q o).fields) (fun c s1 =>
    let ls := layLines s1 c q.scope
    if stillOpen c.sw.frame c.act (covered c.tm.core q.scope) || remapping s1 ls then holdSwarm c s1
    else
      let s2 := ls.foldl (layLine c.tm.core) s1
      let done (x : TeamId × Nat × Nat × Nat) : Bool :=
        x.1 == c.f.team && x.2.1 == c.f.swarm && c.act.getLsbD x.2.2.1 && ls.contains x.2.2.2
      freeSwarm c { s2 with m := { s2.m with unlaid := s2.m.unlaid.filter fun x => !done x } }) s

/-! ### ATOMV (R178) -/

/-- The address of element `k` of a lane: B holds the count and a 12-bit offset. -/
def atomvAddr (fr : Frame) (o : Wd) (k ln : Nat) : DWord :=
  opPair fr ln o.a + (o.b.immVal.extractLsb' 0 12).signExtend 64 + BitVec.ofNat 64 (4 * k)

/-- Element `k` as an atomic of its own: register D + k. Its order makes every element a release or acquire, so that a
release takes effect before the first and an acquire after the last. -/
def atomvElem (ao : AO) (q : MemQ) (o : Wd) (k : Nat) : Instr :=
  .atom .g32 ao q { o with d := .main .v (BitVec.ofNat 12 (opIdx o.d + k)) 0 }

/-- The number of the word that an element is of: that of the elements before it, if some are not performed. -/
def atomvWord (fr : Frame) (pc : DWord) (k : Nat) : Nat :=
  match (fr.log.filter fun e => e.addr == pc).getLast? with
  | some e => if k = 0 then fr.seq else e.word
  | none => fr.seq

/-- R178: one element; a lane whose check fails stops the word with $prog at the element. -/
def execAtomv (ao : AO) (q : MemQ) (o : Wd) (s : State) : Host.Outcome State Fault Refusal :=
  let n := o.b.immVal.toNat / 2 ^ 12 + 1
  runWord (.atomv ao q o) o .prog (fun _ => none) (fun _ => (Instr.atomv ao q o).fields) (fun c s1 =>
    let fr := c.sw.frame
    let k := fr.prog.toNat
    let lv := execLevel c.tm c.sw
    if n ≤ k then macroStep c n (fun _ s => s) s1
    else if logFull fr || (k == 0 && cntOf fr q.cls == 63) then holdSwarm c s1
    else
      let i := atomvElem ao q o k
      let ask := askOf .g i (.atomic 4)
      let (s2, rs) := checkLanes c.tm lv ask none s1 ((lanesOf c.act).map fun ln => (ln, atomvAddr fr o k ln))
      match failures rs with
      | (ln, cause, st) :: _ =>
        let a := atomvAddr fr o k ln
        let bad := maskOf fun j => (failures rs).any fun f => f.1 == j
        let s3 := updFrame (standAt c s2) c.f.team c.f.swarm fun fr => { fr with macroAt := none }
        violations (takeTrap s3 c.f.team c.f.swarm bad { cause := cause, lane := ln, stage := st } a none) c.tm rs
      | [] =>
        let e := { entryOf (freeNum fr) fr.seq i c.f.pc (accData fr i) none rs with word := atomvWord fr c.f.pc k }
        let up (fr : Frame) : Frame := if wordOpen fr e.word then fr else bumpCnt fr q.cls true
        macroStep c n (fun _ s => updFrame (dropOwns c.tm.core (beyondL1 i q) s e) c.f.team c.f.swarm fun fr => addEntry (up fr) e) s2) s

/-! ### WAITC (R180, R181) -/

/-- What the condition of a WAITC asks of the word read and the register. -/
def condOf : Instr → Nat → Nat → Bool
  | .waitc cc uns _ _ => fun x y => icmpOk cc uns 32 x y
  | _ => fun _ _ => true

/-- The monitors of a scope that a partition may hold in a unit: in proportion to its clusters (R181, R133). -/
def monShare (s : State) (sc : Scope) (part unit : Nat) : Nat :=
  let m : BitVec 96 := match findPart s part with
    | some p => p.clus
    | none => 0
  match sc with
  | .core => 64
  | .clus | .die => monCap sc unit * clustersIn m unit 6 / 6
  | _ => monCap sc unit * clustersIn m 0 96 / 96

/-- The monitors of one lane are forgotten. -/
def dropMons (s : State) (t : TeamId) (sw ln : Nat) (inH : Bool) : State :=
  { s with m := { s.m with mons := s.m.mons.filter fun x => !(x.team == t && x.swarm == sw && x.lane == ln && x.inH == inH) } }

/-- R181: a lane takes a condition monitor of its scope, if its partition has one free there; the directories record it as a
sharer of the line. -/
def armMon (s : State) (tm : Team) (sw ln : Nat) (inH : Bool) (sc : Scope) (pa : Nat) : State :=
  let unit := monUnit sc tm.core pa
  let held := s.m.mons.filter fun x => monGroup x.point == monGroup sc && x.unit == unit &&
    findTeamPart s x.team == some tm.part
  if held.length < monShare s sc tm.part unit then
    let m1 := { s.m with mons := s.m.mons ++ [⟨sc, unit, pa / 128, tm.id, sw, ln, inH⟩] }
    { s with m := redoDirs m1 tm.core (pa / 128) }
  else s

/-- R180: a read at the point of a monitor. -/
def monRead (s : State) (tm : Team) (sc : Scope) (pa : Nat) (m : CohMode) : State × Word :=
  let line := pa / 128
  match heldLine s pa with
  | some x => (s, BitVec.ofNat 32 (bytesVal (tabBytes x.bytes (pa % 128) 4)))
  | none =>
    if sc = .core then
      let late := s.m.invq.any fun q => q.core == tm.core && q.line == line
      let s1 := if late then { s with m := l1Drop s.m tm.core line } else s
      let (s2, bs) := loadL1 s1 tm.core m pa 4
      (s2, BitVec.ofNat 32 (bytesVal bs))
    else
      let s1 := l2Newest s tm.core line m
      (s1, BitVec.ofNat 32 (ramVal s1.m pa 4))

/-- Lanes of a swarm stand at an address, parked. -/
def parkAt (s : State) (t : TeamId) (sw ln : Nat) (pc : DWord) (k : Park) (woken : Bool) : State :=
  updFrame s t sw fun fr => updLane fr ln fun l => { l with pc := pc, park := some k, woken := woken }

/-- R180: one lane that has passed its checks: it reads, and completes or parks. `got` is a value that a read outside
the package brought. -/
def waitcLane (i : Instr) (q : MemQ) (o : Wd) (t : TeamId) (swn : Nat) (pc : DWord) (s : State) (r : LaneRec)
    (got : Option (Nat × Word)) : State :=
  match (findTeam s t), (findTeam s t).bind fun tm => findSwarm tm swn with
  | some tm, some sw =>
    let ln := r.lane
    let inH := sw.hidden.isSome
    let s0 := settleFences (dropMons s t swn ln inH) t swn
    let ld : Bool := q.cls == .ld
    let stay (woken : Bool) (s : State) : State := parkAt s t swn ln pc (.waitc ld none) woken
    -- the read is ordered against the lane's earlier accesses as a load is (R161)
    let asLoad : LogEntry :=
      { num := 8, seq := sw.frame.seq, ins := .ld .s32 .g false q o, addr := pc, todo := bit32 ln, away := 0, done := 0,
        faulted := 0, cause := 0, stage := 0, flane := 0, recs := [r], wp := none, again := false, word := sw.frame.seq }
    let failed (cause : Nat) (fr : Frame) : Frame :=
      faultLane (addEntry fr { asLoad with num := freeNum fr, ins := i, todo := 0 }) (freeNum fr) ln cause 0
    let cond (v : Word) : Bool := condOf i v.toNat (dataPair r.data).toNat
    let complete (v : Word) (s : State) : State :=
      let s1 := updFrame s t swn fun fr => setReg fr ln (opIdx o.d) v
      if q.ord = .acq then acquire s1 tm.core q.scope else s1
    match r.place with
    | some (.pa a m) =>
      if !mayPerform sw.frame asLoad ln || movingAt s0.m a || rebuilding s0.m (.pa a m) then stay true s0
      else if isRemote (.pa a m) && (heldLine s0 a).isNone then
        match got with
        | some (c + 1, _) => updFrame s0 t swn (failed (c + 1))
        | some (0, v) => if cond v then complete v s0 else stay false (armMon s0 tm swn ln inH q.scope a)
        | none =>
          match routeOut s0 tm.part tm.slice a with
          | none => updFrame s0 t swn (failed 0x36)
          | some (f, port) =>
            if f.st = .draining then updFrame s0 t swn (failed 0x38)
            else if canSend s0 tm.part f port then
              stay false (sendReq s0 tm.part f port a (.read 4) (.wait t swn ln inH) r.fwd)
            else stay true s0
      else
        let (s1, v) := monRead s0 tm q.scope a m
        if cond v then complete v s1 else stay false (armMon s1 tm swn ln inH q.scope a)
    | _ => s
  | _, _ => s

/-- The value that a remote read brought a parked lane. -/
def gotOf (fr : Frame) (ln : Nat) : Option (Nat × Word) :=
  match (lane fr ln).park with
  | some (.waitc _ g) => g
  | _ => none

/-- R180: every active lane is checked; the lanes that pass read, complete or park. -/
def waitcEff (i : Instr) (q : MemQ) (o : Wd) (c : Ctx) (s1 : State) : State :=
  let fr := c.sw.frame
  let lv := execLevel c.tm c.sw
  let ask : Ask := ⟨.g, .read, 4, true, false, none⟩
  let (s2, rs) := checkLanes c.tm lv ask none s1 ((lanesOf c.act).map fun ln => (ln, laneAddr fr o ln))
  let data (ln : Nat) : List Word × DWord := ([reg fr ln (opIdx o.d)], 0)
  let e := { entryOf (freeNum fr) fr.seq i c.f.pc data (watchOf c.tm lv ask none rs) rs with todo := 0 }
  let s3 := if e.faulted == 0 then s2 else updFrame s2 c.f.team c.f.swarm fun fr => addEntry fr e
  let one (s : State) (r : LaneRec) : State := waitcLane i q o c.f.team c.f.swarm c.f.pc s r (gotOf fr r.lane)
  violations ((e.recs.filter fun r => r.place.isSome).foldl one s3) c.tm rs

/-- A word issues for the first time waits for a log entry and its counter; a parked one that wakes, for an entry. -/
def waitcWait (q : MemQ) (c : Ctx) (s : State) : Bool :=
  if (lanesOf c.act).any fun ln => (lane c.sw.frame ln).park.isNone then memWait (some q) c s else logFull c.sw.frame

def execWaitc (c : ICond) (uns : Bool) (q : MemQ) (o : Wd) (s : State) : Host.Outcome State Fault Refusal :=
  runWait (waitcWait q) (.waitc c uns q o) o .prog (fun _ => none) (fun _ => (Instr.waitc c uns q o).fields)
    (waitcEff (.waitc c uns q o) q o) s

/-! ### Events -/

/-- R148: one lane's access is performed; not while it may not be. -/
def execAccessCompletion (tm : TeamId) (sw n lane : Nat) (s : State) : Host.Outcome State Fault Refusal :=
  let ok : Bool := match (findTeam s tm).bind fun t => findSwarm t sw with
    | some x => (match findEntry x.frame n with
      | some e => mayPerform x.frame e lane
      | none => false)
    | none => false
  .next (if ok then settleFaults (perform s tm sw n lane) tm sw else s)

/-- R181: the monitors of a line fire. -/
def execMonitorFire (pa : Nat) (s : State) : Host.Outcome State Fault Refusal :=
  .next (fireMonitors s (pa / 128) none)

/-- R180: a lane parked in WAITC without a monitor reads again. -/
def execMonitorParkTimeout (tm : TeamId) (sw ln : Nat) (s : State) : Host.Outcome State Fault Refusal :=
  .next (match (findTeam s tm).bind fun t => findSwarm t sw with
    | none => s
    | some x =>
      let due (inH : Bool) : Bool :=
        (match (lane (waitFrame inH x) ln).park with
        | some (.waitc _ _) => true
        | _ => false) &&
        !(s.m.mons.any fun y => y.team == tm && y.swarm == sw && y.lane == ln && y.inH == inH) &&
        !(s.link.reqs.any fun r => r.who == .wait tm sw ln inH)
      let s1 := if due false then wakeLane s tm sw ln false else s
      if x.hidden.isSome && due true then wakeLane s1 tm sw ln true else s1)

/-- A test on the FENCE.SC waits that a tick ends: the scope, and a tick in the time since the wait began (R172). -/
def tickEnds (sc : Scope) (now : Nat) (k : Park) : Bool :=
  match k with
  | .fenceSc x since => x == sc && decide (since / pulsePeriod sc < now / pulsePeriod sc)
  | _ => false

/-- Every FENCE.SC whose tick has come is readied. -/
def tick (s : State) (sc : Scope) : State :=
  { s with teams := s.teams.map (wakeTeam (tickEnds sc s.pulse.toNat)) }

/-- R172: a tick of a scope. -/
def execPulseTick (sc : Scope) (s : State) : Host.Outcome State Fault Refusal :=
  .next (if pulsePeriod sc ≠ 0 ∧ s.pulse.toNat % pulsePeriod sc = 0 then tick s sc else s)

/-- R170: a rebuild ends within 20 ms. -/
def rebuilt (m : MemSys) (now : Nat) : MemSys := { m with rebuild := m.rebuild.filter fun x => decide (now < x.2.2.2 + 20000000) }

/-- Time passes: where the time base runs (R410), $pulse counts on, the ticks that fall in it occur (R81, R172), and
invalidations that have stood for 2 µs are applied (R198). -/
def passTime (s : State) (ns : Nat) : State :=
  if !s.boot.ready.getLsbD 257 then s
  else
    let s1 := [Scope.clus, .die, .stk, .seg, .pkg, .fab, .sys].foldl tick { s with pulse := s.pulse + BitVec.ofNat 64 ns }
    { s1 with m := rebuilt (applyLate s1.m s1.pulse.toNat) s1.pulse.toNat }

end Sys2Proof.Machine
end

