-- ==== Sys2Proof/Machine/Barrier.lean ====
section
/-!
DEFINITION. The barrier words: BAR, BARARV, BARWT, GBAR (R183 to R190), SYNCWI and SYNCWT (R191, R192).
-/
namespace Sys2Proof.Machine

/-- The barrier of a word, its scope and its count (R188). -/
def barNo (o : Wd) : Nat := o.a.immVal.toNat % 16
def barScope (o : Wd) : Scope := Scope.ofCode (o.a.immVal.extractLsb' 4 3)

/-- R186: the uses of a team barrier that trap. -/
def barMisuse (c : Ctx) (b n : Nat) : Bool :=
  let w := c.tm.bars.get b
  c.sw.kind != .team || (barSet w && barExp w != n) || decide (c.tm.nsw < n)

/-- The token of a lane that waits in BAR. -/
def barTok (fr : Frame) (ln : Nat) : Option Word :=
  match (lane fr ln).park with
  | some (.bar _ t) => some t
  | some (.gbar t) => some t
  | _ => none

/-- R187: a lane waits on a team barrier. -/
def waitsOnBar (l : Lane) : Bool :=
  match l.park with
  | some (.bar _ _) | some (.barwt _) => !l.woken
  | _ => false

/-- R187: every non-exited lane of every live swarm of a team waits on a team barrier, its handler apart: a handler keeps
its program's lanes waiting (R317). -/
def barDeadlock (tm : Team) : Bool :=
  let sws := (liveSwarms tm).filter fun sw => liveLanes (progFrame sw) != 0
  !sws.isEmpty && sws.all fun sw => (progFrame sw).lanes.all fun l => l.exited || waitsOnBar l

/-- R187: the word that completes a deadlock is not performed and traps. -/
def checkDeadlock (c : Ctx) (before after : State) : State :=
  match findTeam after c.f.team with
  | some tm => if barDeadlock tm then undoTrap c before 0x0A c.f.pc else after
  | none => after

/-- The lanes leave a wait whose generation has changed, with their acquire, or stay parked. -/
def settleWait (c : Ctx) (sc : Scope) (gen : Word) (tok : Nat → Word) (park : Nat → Park) (s : State) : State :=
  let go := (lanesOf c.act).filter fun ln => tok ln != gen
  let stay := (lanesOf c.act).filter fun ln => tok ln == gen
  let s1 := stay.foldl (fun s ln => parkLanes c (bit32 ln) (park ln) s) s
  if go.isEmpty then s1 else acquire s1 c.tm.core sc

/-- The generation of a team barrier as it stands. -/
def genNow (s : State) (t : TeamId) (b : Nat) : Word :=
  match findTeam s t with
  | some tm => barGen (tm.bars.get b)
  | none => 0

/-- R188: the arrival of lanes at a team barrier, and BAR's wait on the token taken at it. -/
def barEff (sc : Scope) (b n : Nat) (c : Ctx) (s1 : State) : State :=
  let fresh := maskOf fun i => c.act.getLsbD i && (barTok c.sw.frame i).isNone
  if fresh ≠ 0 && barMisuse c b n then undoTrap c s1 0x09 c.f.pc
  else
    let now := genNow s1 c.f.team b
    let s2 := if fresh = 0 then s1
      else updTeam (release s1 c.tm.core sc) c.f.team fun tm => joinBar tm c.f.swarm b n fresh
    let tok (ln : Nat) : Word := (barTok c.sw.frame ln).getD now
    checkDeadlock c s1 (settleWait c sc (genNow s2 c.f.team b) tok (fun ln => .bar b (tok ln)) s2)

/-- A release waits for the earlier accesses of the lanes (R163), and for Snp answers that are still out (R372). -/
def openAccess (c : Ctx) (s : State) : Bool := (stillOpen c.sw.frame c.act fun _ _ => true) || snpWaits s

def execBar (o : Wd) (s : State) : Host.Outcome State Fault Refusal :=
  runWait openAccess (.bar o) o .prog (fun _ => none) (fun _ => (Instr.bar o).fields)
    (barEff (barScope o) (barNo o) o.b.immVal.toNat) s

/-- R188: BARARV arrives and returns the token. -/
def execBararv (o : Wd) (s : State) : Host.Outcome State Fault Refusal :=
  let b := barNo o
  let n := o.b.immVal.toNat
  runWait openAccess (.bararv o) o .prog (fun _ => none) (fun _ => (Instr.bararv o).fields) (fun c s1 =>
    if barMisuse c b n then undoTrap c s1 0x09 c.f.pc
    else
      let tok := genNow s1 c.f.team b
      let s2 := updTeam (release s1 c.tm.core (barScope o)) c.f.team fun tm =>
        joinBar tm c.f.swarm b n c.act
      updFrame s2 c.f.team c.f.swarm fun fr => eachLane c.act fr fun ln fr => dst32 fr o 4 ln tok) s

def execBarwt (o : Wd) (s : State) : Host.Outcome State Fault Refusal :=
  let b := barNo o
  runWord (.barwt o) o .prog (fun _ => none) (fun _ => (Instr.barwt o).fields) (fun c s1 =>
    if c.sw.kind ≠ .team then undoTrap c s1 0x09 c.f.pc
    else checkDeadlock c s1
      (settleWait c (barScope o) (genNow s1 c.f.team b) (op32 c.sw.frame · o.b) (fun _ => .barwt b) s1)) s

/-! ### Gang barriers (R189, R190) -/

def findGang (s : State) (n : Nat) : Option Gang := s.gangs.find? fun g => g.num == n
def updGang (s : State) (n : Nat) (f : Gang → Gang) : State :=
  { s with gangs := s.gangs.map fun g => if g.num == n then f g else g }

/-- EXP of a gang barrier: the members that have not ended (R189). -/
def gangExp (g : Gang) : Nat := ((List.range 12).filter g.live.getLsbD).length

/-- R189: a gang barrier whose arrivals reach EXP is released, and every member's waiting lanes are readied. -/
def settleGangBar (s : State) (n : Nat) : State :=
  match findGang s n with
  | none => s
  | some g =>
    if barArr g.bar ≠ 0 ∧ gangExp g ≤ barArr g.bar then
      let s1 := updGang s n fun g => { g with bar := barWord (barGen g.bar + 1) false 0 0 }
      let waits (k : Park) : Bool := match k with
        | .gbar _ => true
        | _ => false
      let mine (tm : Team) : Bool := match tm.gang with
        | some (k, _) => k == n
        | none => false
      { s1 with teams := s1.teams.map fun tm => if mine tm then wakeTeam waits tm else tm }
    else s

/-- R189: a team whose live swarms have all arrived counts one arrival of its gang. -/
def settleGangTeam (s : State) (t : TeamId) : State :=
  match findTeam s t with
  | none => s
  | some tm =>
    match tm.gang with
    | none => s
    | some (n, _) =>
      let sws := liveSwarms tm
      if !sws.isEmpty && sws.all fun sw => maskFull (progFrame sw) 16 then
        let clear (fr : Frame) : Frame := { fr with arrive := fr.arrive.set 16 0 }
        let s1 := updTeam s t fun tm => { tm with swarms := tm.swarms.map (updProgFrame clear) }
        settleGangBar (updGang s1 n fun g => { g with bar := barWord (barGen g.bar) true 0 (barArr g.bar + 1) }) n
      else s

/-- The level of a gang's placement as a scope (R190, R271). -/
def levelScope (l : Nat) : Scope := if l = 0 then .core else if l = 1 then .clus else if l = 2 then .die else .stk

/-- R190: GBAR of a gang member. -/
def gbarEff (sc : Scope) (n : Nat) (c : Ctx) (s1 : State) : State :=
  let gen (s : State) : Word := match findGang s n with
    | some g => barGen g.bar
    | none => 0
  let se := match findGang s1 n with
    | some g => if scopeGe sc (levelScope g.lvl) then sc else levelScope g.lvl
    | none => sc
  let fresh := maskOf fun i => c.act.getLsbD i && (barTok c.sw.frame i).isNone
  let now := gen s1
  let join (fr : Frame) : Frame := { fr with arrive := fr.arrive.set 16 (fr.arrive.get 16 ||| fresh) }
  let s2 := if fresh = 0 then s1
    else settleGangTeam (updFrame (release s1 c.tm.core se) c.f.team c.f.swarm join) c.f.team
  let tok (ln : Nat) : Word := (barTok c.sw.frame ln).getD now
  settleWait c se (gen s2) tok (fun ln => .gbar (tok ln)) s2

def execGbar (o : Wd) (s : State) : Host.Outcome State Fault Refusal :=
  runWait openAccess (.gbar o) o .prog (fun _ => none) (fun _ => (Instr.gbar o).fields) (fun c s1 =>
    match c.tm.gang with
    | none => barEff (barScope o) 15 0 c s1
    | some (n, _) => if c.sw.kind ≠ .team then undoTrap c s1 0x09 c.f.pc else gbarEff (barScope o) n c s1) s

/-! ### Sync words (R191, R192) -/

def execSyncwi (o : Wd) (s : State) : Host.Outcome State Fault Refusal :=
  runAccess (.syncwi o) o .sync ⟨.none, .rlx, .core, false⟩ s

/-- R192: one lane that has passed its checks: it reads GEN, and completes or parks. -/
def syncwtLane (q : MemQ) (o : Wd) (t : TeamId) (swn : Nat) (pc : DWord) (s : State) (r : LaneRec) : State :=
  match (findTeam s t), (findTeam s t).bind fun tm => findSwarm tm swn with
  | some tm, some sw =>
    let ln := r.lane
    let asLoad : LogEntry :=
      { num := 8, seq := sw.frame.seq, ins := .ldv .x4 .s q o, addr := pc, todo := bit32 ln, away := 0, done := 0,
        faulted := 0, cause := 0, stage := 0, flane := 0, recs := [r], wp := none, again := false, word := sw.frame.seq }
    match r.place with
    | some (.spad u off) =>
      let g : Word := BitVec.ofNat 32 (bytesVal (spadRead s u (off + 8) 4))
      if !mayPerform sw.frame asLoad ln then parkAt s t swn ln pc (.syncwt (q.cls == .ld) u off) true
      else if g = nth 0 r.data 0 then parkAt s t swn ln pc (.syncwt (q.cls == .ld) u off) false
      else
        let s1 := updFrame s t swn fun fr => setReg fr ln (opIdx o.d) g
        if q.ord = .acq then acquire s1 tm.core q.scope else s1
    | _ => s
  | _, _ => s

/-- R192: every active lane is checked; the lanes that pass read, complete or park. -/
def syncwtEff (q : MemQ) (o : Wd) (c : Ctx) (s1 : State) : State :=
  let fr := c.sw.frame
  let lv := execLevel c.tm c.sw
  let ask : Ask := ⟨.s, .read, 16, true, false, none⟩
  let (s2, rs) := checkLanes c.tm lv ask none s1 ((lanesOf c.act).map fun ln => (ln, laneAddr fr o ln))
  let data (ln : Nat) : List Word × DWord := ([reg fr ln (opIdx o.d)], 0)
  let e := { entryOf (freeNum fr) fr.seq (.syncwt q o) c.f.pc data none rs with todo := 0 }
  let s3 := if e.faulted == 0 then s2 else updFrame s2 c.f.team c.f.swarm fun fr => addEntry fr e
  let one (s : State) (r : LaneRec) : State := syncwtLane q o c.f.team c.f.swarm c.f.pc s r
  (e.recs.filter fun r => r.place.isSome).foldl one s3

def execSyncwt (q : MemQ) (o : Wd) (s : State) : Host.Outcome State Fault Refusal :=
  runWait (waitcWait q) (.syncwt q o) o .prog (fun _ => none) (fun _ => (Instr.syncwt q o).fields) (syncwtEff q o) s

end Sys2Proof.Machine
end

