-- ==== Sys2Proof/Machine/Digest.lean ====
section
/-!
DEFINITION. The verification of a firmware image (R3, R412): SHA-256 and RSASSA-PKCS1-v1_5 with RSA-3072. The key itself is
a constant of the part.
-/
namespace Sys2Proof.Machine

/-! ### SHA-256 -/

/-- The round constants. -/
def shaK : List Word :=
  [0x428A2F98, 0x71374491, 0xB5C0FBCF, 0xE9B5DBA5, 0x3956C25B, 0x59F111F1, 0x923F82A4, 0xAB1C5ED5] ++
  [0xD807AA98, 0x12835B01, 0x243185BE, 0x550C7DC3, 0x72BE5D74, 0x80DEB1FE, 0x9BDC06A7, 0xC19BF174] ++
  [0xE49B69C1, 0xEFBE4786, 0x0FC19DC6, 0x240CA1CC, 0x2DE92C6F, 0x4A7484AA, 0x5CB0A9DC, 0x76F988DA] ++
  [0x983E5152, 0xA831C66D, 0xB00327C8, 0xBF597FC7, 0xC6E00BF3, 0xD5A79147, 0x06CA6351, 0x14292967] ++
  [0x27B70A85, 0x2E1B2138, 0x4D2C6DFC, 0x53380D13, 0x650A7354, 0x766A0ABB, 0x81C2C92E, 0x92722C85] ++
  [0xA2BFE8A1, 0xA81A664B, 0xC24B8B70, 0xC76C51A3, 0xD192E819, 0xD6990624, 0xF40E3585, 0x106AA070] ++
  [0x19A4C116, 0x1E376C08, 0x2748774C, 0x34B0BCB5, 0x391C0CB3, 0x4ED8AA4A, 0x5B9CCA4F, 0x682E6FF3] ++
  [0x748F82EE, 0x78A5636F, 0x84C87814, 0x8CC70208, 0x90BEFFFA, 0xA4506CEB, 0xBEF9A3F7, 0xC67178F2]

/-- The first hash value. -/
def shaInit : List Word := [0x6A09E667, 0xBB67AE85, 0x3C6EF372, 0xA54FF53A, 0x510E527F, 0x9B05688C, 0x1F83D9AB, 0x5BE0CD19]

/-- The big-endian value of bytes. -/
def beVal (bs : List Byte) : Nat := bs.foldl (fun n b => 256 * n + b.toNat) 0

/-- `n` bytes of a value, big-endian. -/
def beBytes (n v : Nat) : List Byte := (valBytes n v).reverse

/-- A message with its padding: a bit 1, zeros, and the length in bits in eight bytes. -/
def shaPad (bs : List Byte) : List Byte :=
  let z := (119 - bs.length % 64) % 64
  bs ++ 0x80#8 :: (List.replicate z 0#8 ++ beBytes 8 (8 * bs.length))

/-- The 64 words of a block's schedule. -/
def shaSched (blk : List Byte) : List Word :=
  let w0 : List Word := (List.range 16).map fun k => BitVec.ofNat 32 (beVal ((blk.drop (4 * k)).take 4))
  let s0 (x : Word) : Word := x.rotateRight 7 ^^^ x.rotateRight 18 ^^^ (x >>> 3)
  let s1 (x : Word) : Word := x.rotateRight 17 ^^^ x.rotateRight 19 ^^^ (x >>> 10)
  (List.range 48).foldl (fun w t => w ++ [s1 (nth 0 w (t + 14)) + nth 0 w (t + 9) + s0 (nth 0 w (t + 1)) + nth 0 w t]) w0

/-- One round on the eight working variables. -/
def shaRound (v : List Word) (kw : Word × Word) : List Word :=
  match v with
  | [a, b, c, d, e, f, g, h] =>
    let t1 := h + (e.rotateRight 6 ^^^ e.rotateRight 11 ^^^ e.rotateRight 25) + ((e &&& f) ^^^ (~~~e &&& g)) + kw.1 + kw.2
    let t2 := (a.rotateRight 2 ^^^ a.rotateRight 13 ^^^ a.rotateRight 22) + ((a &&& b) ^^^ (a &&& c) ^^^ (b &&& c))
    [t1 + t2, a, b, c, d + t1, e, f, g]
  | x => x

/-- A block enters the hash value. -/
def shaBlock (hv : List Word) (blk : List Byte) : List Word :=
  (hv.zip ((shaK.zip (shaSched blk)).foldl shaRound hv)).map fun x => x.1 + x.2

/-- The SHA-256 digest of a message. -/
def sha256 (bs : List Byte) : List Byte :=
  let m := shaPad bs
  ((List.range (m.length / 64)).foldl (fun hv k => shaBlock hv ((m.drop (64 * k)).take 64)) shaInit).flatMap fun w => beBytes 4 w.toNat

/-! ### RSASSA-PKCS1-v1_5 (R412) -/

/-- `b` to the power `e`, modulo `n`. -/
def powMod (b e n : Nat) : Nat :=
  ((List.range (e.log2 + 1)).reverse.foldl (fun x k => x * x % n * (if e.testBit k then b % n else 1) % n) 1) % n

/-- What stands before the digest in the encoded message: the identifier of SHA-256. -/
def sha256Info : List Byte := [0x30, 0x31, 0x30, 0x0D, 0x06, 0x09, 0x60, 0x86, 0x48, 0x01, 0x65, 0x03, 0x04, 0x02, 0x01, 0x05, 0x00, 0x04, 0x20]

/-- The bytes of an encoded message of 384 bytes before its digest. -/
def emHead : List Byte := 0#8 :: 1#8 :: (List.replicate 330 0xFF#8 ++ 0#8 :: sha256Info)

/-- What the verification of an image comes to. -/
inductive ImageVerdict where | ok | length | digest | sign
deriving DecidableEq, Repr

/-- R412, R413: an image is of 385 bytes to 16 MiB, and its last 384 bytes, raised to the key's exponent, encode the digest
of the rest; one that encodes another digest fails by its digest, any other by its signature (assumption 111). -/
def verdict (bs : List Byte) : ImageVerdict :=
  let n := bs.length - 384
  let sig := beVal (bs.drop n)
  let em := beBytes 384 (powMod sig Config.fwKey.2 Config.fwKey.1)
  if bs.length ≤ 384 ∨ 2 ^ 24 < bs.length then .length
  else if Config.fwKey.1 ≤ sig ∨ em.take 352 ≠ emHead then .sign
  else if em.drop 352 ≠ sha256 (bs.take n) then .digest
  else .ok

/-- R412: a firmware image that the boot code or FWUPD accepts. -/
def imageOk (bs : List Byte) : Bool := verdict bs == .ok

end Sys2Proof.Machine
end

