-- ==== Sys2Proof/Machine/Block.lean ====
section
/-!
DEFINITION. MXFP8 blocks between packages (R35, R36, R45, R46, R375): their form in a flit's payload, and the hop that
combines two of them. No rule says which traffic carries blocks, so no instruction reaches them (assumption 122).
-/
namespace Sys2Proof.Machine

/-- An MXFP8 block: its scale and its 32 elements (R35). -/
structure MxBlock where
  scale : Byte
  els   : List Byte
deriving DecidableEq, Repr

/-- R375: a block travels as 33 bytes: the scale, then elements 0 to 31. -/
def MxBlock.pack (b : MxBlock) : List Byte := b.scale :: b.els

/-- The block that 33 bytes hold. -/
def MxBlock.unpack (bs : List Byte) : MxBlock := ⟨nth 0 bs 0, (bs.drop 1).take 32⟩

/-- R375: the payload of a flit that carries up to seven blocks: bytes 0 to 230, and zeros in all 240. -/
def flitOf (bl : List MxBlock) : List Byte :=
  let bs := (bl.take 7).flatMap MxBlock.pack
  bs ++ List.replicate (240 - bs.length) 0

/-- Block `k` of a flit's payload. -/
def flitBlock (payload : List Byte) (k : Nat) : MxBlock := MxBlock.unpack ((payload.drop (33 * k)).take 33)

/-- R375, R371: the flits that carry blocks, seven in each. -/
def flitsOf (bl : List MxBlock) : List (List Byte) :=
  (List.range ((bl.length + 6) / 7)).map fun k => flitOf ((bl.drop (7 * k)).take 7)

/-- R35: block `b` of the split form: an element array and a scale array. -/
def splitBlock (els scales : List Byte) (b : Nat) : MxBlock := ⟨nth 0 scales b, (els.drop (32 * b)).take 32⟩

/-- R38: element `i` of a block as FP32; beyond its range it becomes infinite with OF. -/
def mxWide (e4 : Bool) (b : MxBlock) (i : Nat) : Nat × Flags :=
  match scaleExp b.scale.toNat, unpackF (if e4 then fE4m3 else fE5m2) (nth 0 b.els i).toNat with
  | some s, .fin n m e =>
    let r := roundF fF32 .rne false n m (e + s)
    if r.2 &&& flOF = 0 then r else (infBits fF32 n, flOF)
  | some _, .inf n => (infBits fF32 n, 0)
  | _, _ => (nanBits fF32, 0)

/-- R46: the unit of a reduction hop widens two contributions, adds them in FP32 by RNE, and quantises the 32 sums into a
fresh block (R36). -/
def mxHop (e4 : Bool) (r : Rnd) (a b : MxBlock) : MxBlock × Flags :=
  let sums := (List.range 32).map fun i => faddF fF32 .rne false false (mxWide e4 a i).1 (mxWide e4 b i).1
  let vs := sums.map fun x => unpackF fF32 x.1
  let sc := blockScale e4 vs
  let qs := vs.map (quantElem e4 r sc.1)
  (⟨BitVec.ofNat 8 sc.1, qs.map fun q => BitVec.ofNat 8 q.1⟩, (sums ++ qs).foldl (fun f x => f ||| x.2) sc.2)

end Sys2Proof.Machine
end

