-- ==== Sys2Proof/Machine/Elementary.lean ====
section
/-!
DEFINITION. The functions whose bits the manual does not give (R102, R106, R253): the part's own evaluation is a free
value of Config, taken wherever it keeps the manual's bound against a fixed-point evaluation; where it does not, the
fixed-point value is rounded instead, so that every value that stands here keeps the bound.
-/
namespace Sys2Proof.Machine

/-- π at scale 2^300, ln 2, 1/√2 and 2/√π at scale 2^128. -/
def pi300 : Nat := 0x3243f6a8885a308d313198a2e03707344a4093822299f31d0082efa98ec4e6c89452821e638d
def ln2At128 : Nat := 0xb17217f7d1cf79abc9e3b39803f2f6af
def rsqrt2At128 : Nat := 0xb504f333f9de6484597d89b3754abe9f
def twoSqrtPiAt128 : Nat := 0x120dd750429b6d11ae3a914fed7fd8688

/-- n × 2^k compared with 1. -/
def leOne (n : Nat) (k : Int) : Bool := if 0 ≤ k then decide (n * 2 ^ k.toNat ≤ 1) else decide (n ≤ 2 ^ (-k).toNat)
def geOne (n : Nat) (k : Int) : Bool := if 0 ≤ k then decide (1 ≤ n * 2 ^ k.toNat) else decide (2 ^ (-k).toNat ≤ n)

/-- The value of an FP32 pattern as a multiple of 2^q rounded down, none for a NaN or an infinity. -/
def fixed32 (x : Nat) (q : Int) : Option Int :=
  match unpackF fF32 x with
  | .fin n m e =>
    let a : Nat := if q ≤ e then m * 2 ^ (e - q).toNat else m / 2 ^ (q - e).toNat
    some (if n then -(a : Int) else a)
  | _ => none

/-- The exponent of one unit in the last place of an FP32 pattern. -/
def ulpExp (x : Nat) : Int :=
  match unpackF fF32 x with
  | .fin _ _ e => e
  | _ => 0

/-- The underflow flag of an inexact FP32 result (R37). -/
def ufOf (x : Nat) : Flags := if x % 2 ^ 31 < 2 ^ 23 then flUF else 0

/-- The free candidate where it is accepted, else the fallback with its flags. -/
def choose (ok : Bool) (cand : Nat) (fb : Nat × Flags) : Nat × Flags :=
  if ok then (cand, flNX ||| ufOf cand) else (fb.1, fb.2 ||| flNX)

/-- R106: FRSQ on FP32. -/
def rsq32 (r : Rnd) (sat : Bool) (x : Nat) : Nat × Flags :=
  match unpackF fF32 x with
  | .nan s => (nanBits fF32, if s then flNV else 0)
  | .inf n => if n then (nanBits fF32, flNV) else (0, 0)
  | .fin n m e =>
    if m = 0 then (infBits fF32 n, flDZ)
    else if n then (nanBits fF32, flNV)
    else
      let odd : Nat := (e % 2).toNat
      let s := isqrt (2 ^ 128 / (m * 2 ^ odd))
      let cand := (Config.frsq (BitVec.ofNat 32 x) r).toNat
      let (mc, ec) := match unpackF fF32 cand with
        | .fin false p g => (p, g)
        | _ => (0, 0)
      let ok := mc != 0 && leOne ((mc - 1) * (mc - 1) * m) (2 * ec + e) && geOne ((mc + 1) * (mc + 1) * m) (2 * ec + e)
      let exact := leOne (mc * mc * m) (2 * ec + e) && geOne (mc * mc * m) (2 * ec + e)
      let root := s * s * (m * 2 ^ odd) == 2 ^ 128
      let (fb, fl) := roundF fF32 r sat false (2 * s + if root then 0 else 1) (-64 - (e - odd) / 2 - 1)
      if ok then (cand, if exact then 0 else flNX) else (fb, fl)

/-- The series of e^z at scale 2^128, from term `k`. -/
def expGo (z : Nat) : Nat → Nat → Nat → Nat → Nat
  | 0, _, _, acc => acc
  | fuel + 1, k, term, acc =>
    let t := term * z / (k * 2 ^ 128)
    expGo z fuel (k + 1) t (acc + t)

/-- 2^f at scale 2^128 for a fraction f at scale 2^128. -/
def exp2Frac (f : Nat) : Nat := expGo (f * ln2At128 / 2 ^ 128) 40 1 (2 ^ 128) (2 ^ 128)

/-- R106: FEXP2 on FP32. -/
def exp232 (r : Rnd) (sat : Bool) (x : Nat) : Nat × Flags :=
  match unpackF fF32 x with
  | .nan s => (nanBits fF32, if s then flNV else 0)
  | .inf n => if n then (0, 0) else (infBits fF32 false, 0)
  | .fin n m e =>
    let v : FV := .fin n m e
    if m = 0 then roundF fF32 r sat false 1 0
    else if ltFV v (.fin true 200 0) then roundF fF32 r sat false 3 (-300)
    else if !ltFV v (.fin false 128 0) then roundF fF32 r sat false 1 128
    else
      let q : Int := min e (-200)
      let sc := v.scaled q
      let den : Int := (2 ^ (-q).toNat : Nat)
      let i := sc / den
      let fr := sc % den
      if fr = 0 then roundF fF32 r sat false 1 i
      else
        let f := fr.toNat * 2 ^ 128 / 2 ^ (-q).toNat
        let t := exp2Frac f
        let cand := (Config.fexp2 (BitVec.ofNat 32 x) r).toNat
        let q2 : Int := i - 128
        let ok := match fixed32 cand q2 with
          | some c =>
            let d := (c - (t : Int)).natAbs
            let u := ulpExp cand + 1
            (if q2 ≤ u then decide (d ≤ 2 ^ (u - q2).toNat + 2 ^ 28) else decide (d ≤ 2 ^ 28)) && cand < 2 ^ 31
          | none => false
        choose ok cand (roundF fF32 r sat false (2 * t + 1) (i - 129))

/-- The binary digits of log2 of y / 2^127, y in [2^127, 2^128), highest first. -/
def log2Go : Nat → Nat → Nat → Nat
  | 0, _, acc => acc
  | k + 1, y, acc =>
    let s := y * y / 2 ^ 127
    if 2 ^ 128 ≤ s then log2Go k (s / 2) (2 * acc + 1) else log2Go k s (2 * acc)

/-- R106: FLOG2 on FP32. -/
def log232 (r : Rnd) (sat : Bool) (x : Nat) : Nat × Flags :=
  match unpackF fF32 x with
  | .nan s => (nanBits fF32, if s then flNV else 0)
  | .inf n => if n then (nanBits fF32, flNV) else (infBits fF32 false, 0)
  | .fin n m e =>
    if m = 0 then (infBits fF32 true, flDZ)
    else if n then (nanBits fF32, flNV)
    else
      let l := Nat.log2 m
      let i : Int := e + l
      if m = 2 ^ l then (if i = 0 then (0, 0) else roundF fF32 r sat (decide (i < 0)) i.natAbs 0)
      else
        let f := log2Go 64 (m * 2 ^ (127 - l)) 0
        let v : Int := i * (2 ^ 64 : Nat) + f
        let cand := (Config.flog2 (BitVec.ofNat 32 x) r).toNat
        let wide := ltFV (.fin false m e) (.fin false 1 (-1)) || ltFV (.fin false 2 0) (.fin false m e)
        let ok := match fixed32 cand (-64) with
          | some c =>
            let d := (c - v).natAbs
            let u := ulpExp cand + 1
            if wide then decide (d ≤ 2 ^ (u + 64).toNat + 2 ^ 8) else decide (d ≤ 2 ^ 42 + 2 ^ 8)
          | none => false
        choose ok cand (roundF fF32 r sat (decide (v < 0)) (2 * v.natAbs + 1) (-65))

/-- The alternating series of sine and cosine at scale 2^100. -/
def trigGo (z2 : Int) : Nat → Int → Int → Int → Int
  | 0, _, _, acc => acc
  | fuel + 1, k, term, acc =>
    let t := -(term * z2 / ((2 ^ 100 : Nat) : Int)) / (k * (k + 1))
    trigGo z2 fuel (k + 2) t (acc + t)

/-- An angle reduced to [−π, π] at scale 2^100. -/
def reduceAngle (v : FV) : Int :=
  let q : Int := -300
  let a : Int := match v with
    | .fin n m e =>
      let b : Nat := if q ≤ e then m * 2 ^ (e - q).toNat else m / 2 ^ (q - e).toNat
      if n then -(b : Int) else b
    | _ => 0
  let t := a % ((2 * pi300 : Nat) : Int)
  let t := if (pi300 : Int) < t then t - ((2 * pi300 : Nat) : Int) else t
  t / ((2 ^ 200 : Nat) : Int)

def sinAt100 (z : Int) : Int := trigGo (z * z / ((2 ^ 100 : Nat) : Int)) 30 2 z z
def cosAt100 (z : Int) : Int :=
  trigGo (z * z / ((2 ^ 100 : Nat) : Int)) 30 1 ((2 ^ 100 : Nat) : Int) ((2 ^ 100 : Nat) : Int)

/-- A result within 2^−21 of a value at scale 2^100. -/
def near21 (cand : Nat) (v : Int) : Bool :=
  match fixed32 cand (-100) with
  | some c => decide ((c - v).natAbs ≤ 2 ^ 79 + 2 ^ 20)
  | none => false

/-- A value at scale 2^100 rounded, with a sticky bit. -/
def roundAt100 (r : Rnd) (v : Int) : Nat × Flags := roundF fF32 r false (decide (v < 0)) (2 * v.natAbs + 1) (-101)

/-- R106: FSIN and FCOS on FP32. -/
def sin32 (r : Rnd) (x : Nat) : Nat × Flags :=
  match unpackF fF32 x with
  | .nan s => (nanBits fF32, if s then flNV else 0)
  | .inf _ => (nanBits fF32, flNV)
  | .fin n m e =>
    if m = 0 then (zeroBits fF32 n, 0)
    else
      let v := sinAt100 (reduceAngle (.fin n m e))
      let cand := (Config.fsin (BitVec.ofNat 32 x) r).toNat
      choose (near21 cand v) cand (roundAt100 r v)

def cos32 (r : Rnd) (x : Nat) : Nat × Flags :=
  match unpackF fF32 x with
  | .nan s => (nanBits fF32, if s then flNV else 0)
  | .inf _ => (nanBits fF32, flNV)
  | .fin n m e =>
    if m = 0 then (0x3F800000, 0)
    else
      let v := cosAt100 (reduceAngle (.fin n m e))
      let cand := (Config.fcos (BitVec.ofNat 32 x) r).toNat
      choose (near21 cand v) cand (roundAt100 r v)

/-- The series of erf at scale 2^128: Σ (−1)^k z^(2k+1) / (k! (2k + 1)). -/
def erfGo (z2 : Int) : Nat → Int → Int → Int → Int
  | 0, _, _, acc => acc
  | fuel + 1, k, p, acc =>
    let p' := -(p * z2 / ((2 ^ 128 : Nat) : Int)) / k
    erfGo z2 fuel (k + 1) p' (acc + p' / (2 * k + 1))

/-- R253: e.gelu. -/
def gelu32 (x : Nat) : Nat × Flags :=
  match unpackF fF32 x with
  | .nan s => (nanBits fF32, if s then flNV else 0)
  | .inf n => if n then (zeroBits fF32 true, 0) else (infBits fF32 false, 0)
  | .fin n m e =>
    let v : FV := .fin n m e
    if !ltFV v (.fin false 8 0) then (x, flNX)
    else if !ltFV (.fin true 8 0) v then (zeroBits fF32 true, flNX)
    else
      let xa : Int := match fixed32 x (-128) with
        | some c => c
        | none => 0
      let z := xa * (rsqrt2At128 : Int) / ((2 ^ 128 : Nat) : Int)
      let erf := erfGo (z * z / ((2 ^ 128 : Nat) : Int)) 180 1 z z * (twoSqrtPiAt128 : Int) / ((2 ^ 128 : Nat) : Int)
      let g := xa * (((2 ^ 128 : Nat) : Int) + erf) / ((2 ^ 129 : Nat) : Int)
      let cand := (Config.gelu (BitVec.ofNat 32 x)).toNat
      let lim : Nat := max (2 ^ 128) xa.natAbs / 2 ^ 21
      -- `g` is within 2^60 of the exact value; for a tiny x, whose result has its sign, the bound is met exactly
      let near (c : Int) : Bool :=
        if g.natAbs < 2 ^ 62 then decide (c.natAbs < lim) || (decide (c.natAbs = lim) && (m == 0 || decide (c < 0) == n))
        else decide ((c - g).natAbs + 2 ^ 60 ≤ lim)
      let ok := match fixed32 cand (-128) with
        | some c => near c
        | none => false
      if m = 0 then
        if ok && cand % 2 ^ 31 != 0 then (cand, flNX ||| ufOf cand)
        else if ok then (cand, 0) else (zeroBits fF32 n, 0)
      else choose ok cand (roundF fF32 .rne false (decide (g < 0)) (2 * g.natAbs + 1) (-129))

/-- R106: a .f16 or .bf16 result is the .f32 result under RNE rounded to the type by the mode. NX is set when either rounding is
inexact (assumption 95); UF when the delivered result is inexact and tiny as the second rounding finds it, or subnormal. -/
def viaF32 (t : FTy) (r : Rnd) (sat : Bool) (fn : Rnd → Bool → Nat → Nat × Flags) (x : Nat) : Nat × Flags :=
  match t with
  | .f32 => fn r sat x
  | t =>
    let (a, f0) := cvtFF (ftyFmt t) fF32 .rne false x
    let (y, f1) := fn .rne sat a
    let (z, f2) := cvtFF fF32 (ftyFmt t) r sat y
    let nx := (f1 ||| f2) &&& flNX
    let uf : Flags := if f2 &&& flUF ≠ 0 ∨ nx ≠ 0 ∧ z % 2 ^ ((ftyFmt t).eb + (ftyFmt t).mb) < 2 ^ (ftyFmt t).mb then flUF else 0
    (z, (f0 &&& flNV) ||| (f1 &&& (flNV ||| flDZ ||| flOF ||| flSA)) ||| (f2 &&& (flOF ||| flSA)) ||| nx ||| uf)

end Sys2Proof.Machine
end

