-- ==== Sys2Proof/Machine/Remote.lean ====
section
/-!
DEFINITION. Reads and writes of checked places for the units that act for a whole word (engines, matrix engine, records
in memory): storage of the package at L2 or beyond, and storage outside it through requests whose answers are kept
until their reader goes on (R212, R343, R365, R377).
-/
namespace Sys2Proof.Machine

/-- A read of a checked place at L2 or via (R182, R212). -/
def engRead (s : State) (p : Place) (n : Nat) : List Byte :=
  match p with
  | .pa a _ =>
    match heldLine s a with
    | some x => tabBytes x.bytes (a % 128) n
    | none => spillView s a (tabBytes s.m.ram a n)
  | .spad t off => spadRead s t off n
  | .l3 k off => l3Read s k off n

/-- A write to a checked place at L2 or beyond, or in scratchpad (R212). -/
def engWrite (s : State) (ag : Agent) (p : Place) (bs : List Byte) : State :=
  match p with
  | .pa a m => if (heldLine s a).isSome then putHeld s a bs else watchWrite (landRam s (some ag) m a bs) ag a bs.length
  | .spad t off => spadWrite s ag t off bs
  | .l3 k off => l3Write s k off bs

/-- The place lies outside the package, and no line of it is held here (R369). -/
def isAway (s : State) (p : Place) : Bool := isRemote p && (heldLine s (placeAddr p)).isNone

/-- Where a place outside the package is reached, and whether a request can be sent now (R365, R379, R380). -/
inductive Way where
  | here
  | send (f : Fn) (port : Option Nat)
  | wait
  | fault (cause : Nat)
deriving DecidableEq, Repr

/-- The way to an address outside the package. -/
def wayOut (s : State) (tm : Team) (a : Nat) : Way :=
  match routeOut s tm.part tm.slice a with
  | none => .fault 0x36
  | some (f, port) => if f.st = .draining then .fault 0x38 else if canSend s tm.part f port then .send f port else .wait

def wayOf (s : State) (tm : Team) (write : Bool) (p : Place) : Way :=
  match p with
  | .pa a _ =>
    if movingAt s.m a then .wait
    else if isAway s p then wayOut s tm a
    else if write && s.link.hostLines.contains (a / 128) then .wait
    else .here
  | _ => .here

/-- What a read comes to: its bytes, an answer that is still to come, or a fault. -/
inductive Got where
  | ok (bs : List Byte)
  | wait
  | fault (cause : Nat)
deriving DecidableEq, Repr

/-- The cause 0x18 of a read whose bytes hold an uncorrectable error (R213, R223, R246). -/
def badData (s : State) (p : Place) (n : Nat) : Bool :=
  match p with
  | .pa a _ => (linesOf a n).any s.m.bad.contains && (heldLine s a).isNone
  | _ => false

/-- Read a checked place: via the L1, or as a lane's load of an order and scope through the L1 of the team's core. -/
def readHere (s : State) (tm : Team) (via : Option MemQ) (p : Place) (n : Nat) : State × List Byte :=
  match via with
  | none => (s, engRead s p n)
  | some q => readPlace s tm.core q p n

/-- A relaxed load at .core. -/
def plainQ : MemQ := ⟨.none, .rlx, .core, false⟩

/-- One read by a reader's key: bytes outside the package are asked for once and kept until they are dropped. -/
def fetch (s : State) (tm : Team) (key : Nat) (via : Option MemQ) (p : Place) (n : Nat) : State × Got :=
  if movingPlace s.m p then (s, .wait)
  else if badData s p n then (s, .fault 0x18)
  else if !isAway s p then
    let (s1, bs) := readHere s tm via p n
    (s1, .ok bs)
  else
    let pa := placeAddr p
    match s.link.bufs.find? fun b => b.team == tm.id && b.key == key && b.pa == pa && b.n == n with
    | some b => (s, if b.cause = 0 then .ok b.bytes else .fault b.cause)
    | none =>
      if s.link.reqs.any fun r => r.who == .fetch tm.id key pa n then (s, .wait)
      else match wayOf s tm false p with
      | .send f port => (sendReq s tm.part f port pa (.read n) (.fetch tm.id key pa n) false, .wait)
      | .fault c => (s, .fault c)
      | _ => (s, .wait)

/-- A reader goes on: what was brought for it is dropped. -/
def dropBufs (s : State) (t : TeamId) (key : Nat) : State :=
  { s with link := { s.link with bufs := s.link.bufs.filter fun b => !(b.team == t && b.key == key) } }

/-- Two reads one after the other: a fault stands before a wait. -/
def Got.append : Got → Got → Got
  | .fault c, _ => .fault c
  | .ok _, .fault c => .fault c
  | .wait, .fault c => .fault c
  | .ok a, .ok b => .ok (a ++ b)
  | _, _ => .wait

/-- Several reads, each asked for at once. -/
def fetchAll (tm : Team) (key : Nat) (via : Option MemQ) : State → List (Place × Nat) → State × Got
  | s, [] => (s, .ok [])
  | s, (p, n) :: r =>
    let (s1, g) := fetch s tm key via p n
    let (s2, h) := fetchAll tm key via s1 r
    (s2, g.append h)

/-! ### Spans of global addresses -/

/-- What a span of a word's own access asks for: rights and what a watchpoint sees (R158). -/
structure SpanAsk where
  need   : AccNeed
  reads  : Bool
  writes : Bool
  skip   : Option Nat
deriving DecidableEq, Repr

/-- A fault of a span: cause, stage, address, and the watchpoint met. -/
structure SpanBad where
  cause : Nat
  stage : Nat
  addr  : Nat
  wp    : Option Nat
deriving DecidableEq, Repr

abbrev Spans := Except SpanBad (List (Place × Nat))

/-- The parts of a span of .g addresses, checked in ascending order (R136, R146, R158). -/
def locateParts (tm : Team) (lv : Level) (q : SpanAsk) : State → List (Nat × Nat) → State × Spans
  | s, [] => (s, .ok [])
  | s, (a, n) :: r =>
    let ask : Ask := ⟨.g, q.need, n, q.reads, q.writes, none⟩
    if 2 ^ 57 ≤ a then (s, .error ⟨0x10, 0, a, none⟩)
    else match ownHit tm lv ask q.skip a with
    | some k => (countHit s tm k, .error ⟨0x13, 0, a, some k⟩)
    | none =>
      match locateG s tm lv ask a with
      | (s1, .error (c, st)) => (s1, .error ⟨c, st, a, none⟩)
      | (s1, .ok (p, _)) =>
        match locateParts tm lv q s1 r with
        | (s2, .error e) => (s2, .error e)
        | (s2, .ok ps) => (s2, .ok ((p, n) :: ps))

def locateSpan (s : State) (tm : Team) (lv : Level) (q : SpanAsk) (a n : Nat) : State × Spans :=
  locateParts tm lv q s (spanParts (n / 128 + 2) a n)

/-- What a span's read comes to. -/
inductive SpanRd where
  | ok (s : State) (bs : List Byte)
  | wait (s : State)
  | bad (s : State) (b : SpanBad)

/-- Read a span of .g addresses: its checks, then its bytes. -/
def readSpan (s : State) (tm : Team) (lv : Level) (q : SpanAsk) (key : Nat) (via : Option MemQ) (a n : Nat) : SpanRd :=
  match locateSpan s tm lv q a n with
  | (s1, .error b) => .bad s1 b
  | (s1, .ok ps) =>
    match fetchAll tm key via s1 ps with
    | (s2, .ok bs) => .ok s2 bs
    | (s2, .wait) => .wait s2
    | (s2, .fault c) => .bad s2 ⟨c, 0, a, none⟩

/-- A read or write of checked parts can be performed or sent now; else the cause of its fault, or a wait. -/
def partsWay (s : State) (tm : Team) (write : Bool) (ps : List (Place × Nat)) : Way :=
  ps.foldl (fun w p =>
    match w, wayOf s tm write p.1 with
    | .fault c, _ => .fault c
    | _, .fault c => .fault c
    | .wait, _ => .wait
    | _, .wait => .wait
    | _, _ => .here) .here

def postWay (s : State) (tm : Team) (ps : List (Place × Nat)) : Way := partsWay s tm true ps

/-- Write bytes over checked parts: at the package's storage by `w`, outside it by requests of the writer's key. -/
def postParts (tm : Team) (key : Nat) (w : State → Place → List Byte → State) : State → List (Place × Nat) → List Byte → State
  | s, [], _ => s
  | s, (p, n) :: r, bs =>
    let s1 := match wayOf s tm true p with
      | .send f port => sendReq s tm.part f port (placeAddr p) (.write (bs.take n)) (.post tm.id key) false
      | _ => w s p (bs.take n)
    postParts tm key w s1 r (bs.drop n)

/-- A part-written field of a record outside the package: sent without waiting for an allowance. -/
def postField (s : State) (tm : Team) (ag : Agent) (p : Place) (bs : List Byte) : State :=
  if isAway s p then
    match routeOut s tm.part tm.slice (placeAddr p) with
    | some (f, port) =>
      if f.st = .draining then s else sendReq s tm.part f port (placeAddr p) (.write bs) (.post tm.id 0) false
    | none => s
  else engWrite s ag p bs

end Sys2Proof.Machine
end

