-- ==== Sys2Proof/Machine/Engine.lean ====
section
/-!
DEFINITION. The copy engines (R202 to R226): contexts, chain entries and their elements, numbering and timelines,
faults, and sync-word arrivals.
-/
namespace Sys2Proof.Machine

/-! ### Contexts -/

def closedCtx : EngCtx := ⟨.closed, 0, 0, 0, 0, 0, []⟩
def engOf (tm : Team) (c : Nat) : EngCtx := nth closedCtx tm.engs c
def updEng (s : State) (t : TeamId) (c : Nat) (f : EngCtx → EngCtx) : State :=
  updTeam s t fun tm => { tm with engs := upd f tm.engs c }
def findOp (e : EngCtx) (n : Nat) : Option EngOp := e.ops.find? fun o => o.n == n
def updOp (s : State) (t : TeamId) (c n : Nat) (f : EngOp → EngOp) : State :=
  updEng s t c fun e => { e with ops := e.ops.map fun o => if o.n == n then f o else o }

/-- The operation has ended: done, faulted or aborted (R202). -/
def EngOp.ended (o : EngOp) : Bool := decide (3 ≤ o.stat)
/-- The numbers appended and not yet ended (R202). -/
def pendingOps (e : EngCtx) : List EngOp := e.ops.filter fun o => !o.ended

/-- R203: TL passes every number whose operation has ended. -/
def passTl (e : EngCtx) : EngCtx :=
  let done := e.ops.takeWhile EngOp.ended
  let e1 := { e with tl := e.tl + done.length, ops := e.ops.drop done.length }
  match e1.mode with
  | .busy => if e1.ops.isEmpty then { e1 with mode := .opened } else e1
  | _ => e1

/-- The lanes of a team that wait on a timeline are readied once it passes their value (R227, R328). -/
def wakeTl (tm : Team) (c : Nat) : Team :=
  wakeTeam (fun k => match k with
    | .waittl d v => d == c && decide (v ≤ (engOf tm c).tl)
    | _ => false) tm

/-! ### Chain entries (R205 to R207) -/

def entKind (o : Word) : Nat := o.toNat / 2 ^ 28
def entSz (o : Word) : Nat := o.toNat / 2 ^ 26 % 4
def entOrd (o : Word) : Bool := o.getLsbD 18
def spaceCode (n : Nat) : Space := Space.ofCode (BitVec.ofNat 2 n)
def entSsp (o : Word) : Space := spaceCode (o.toNat / 2 ^ 24 % 4)
def entDsp (o : Word) : Space := spaceCode (o.toNat / 2 ^ 22 % 4)
def entIsp (o : Word) : Space := spaceCode (o.toNat / 2 ^ 20 % 4)

/-- The fields of BODY, by word. -/
def body (b : List DWord) (k : Nat) : Nat := (nth 0 b k).toNat
def loN (x : Nat) : Nat := x % 2 ^ 32
def hiN (x : Nat) : Nat := x / 2 ^ 32

/-- The element size of GATHER and SCATTER, the burst of HREAD (R205). -/
def elemSize (o : Word) : Nat := if entKind o = 5 then 64 * 2 ^ entSz o else 4 * 2 ^ entSz o

/-- R207: the element count. -/
def elemCount (o : Word) (b : List DWord) : Nat :=
  match entKind o with
  | 1 => ceilDiv (loN (body b 2)) 128
  | 2 => hiN (body b 2) * ceilDiv (loN (body b 2)) 128
  | 3 | 4 => loN (body b 3)
  | 5 => hiN (body b 2) * ceilDiv (loN (body b 2)) (elemSize o)
  | _ => 0

/-- The SYNC of an entry (R206). -/
def syncOf (o : Word) (b : List DWord) : Nat :=
  match entKind o with
  | 1 => body b 3
  | 2 | 3 | 4 => body b 4
  | _ => 0

/-- What an engine asks of an address (R347): engine reads are not checked by watchpoints, its writes only at the home
(R158). -/
def engAsk (sp : Space) (need : AccNeed) (size : Nat) : Ask := ⟨sp, need, size, false, false, none⟩

/-- The sync word that a .s address names: team and offset. -/
def syncPlace (s : State) (tm : Team) (a : Nat) : Option (TeamId × Nat) :=
  match (locate s tm tm.level (engAsk .s .rw 16) none (BitVec.ofNat 64 a)).2 with
  | .ok (.spad u off, _) => some (u, off)
  | _ => none

/-- R207: a malformed entry. -/
def entryBad (s : State) (tm : Team) (o : Word) (b : List DWord) : Bool :=
  let k := entKind o
  let sz := elemSize o
  let idx : Bool := k == 3 || k == 4
  !(decide (1 ≤ k ∧ k ≤ 5)) || (o.toNat / 2 ^ 12 % 64 != 0) ||
  (if idx || k == 5 then entSz o == 3 else entSz o != 0) ||
  (!idx && o.toNat / 2 ^ 20 % 4 != 0) || entDsp o == .c ||
  (k == 1 && (hiN (body b 2) != 0 || body b 4 != 0)) ||
  (idx && (hiN (body b 3) != 0 || body b 0 % sz != 0 || body b 1 % sz != 0 || body b 2 % 4 != 0)) ||
  (k == 5 &&
    (body b 1 / 2 ^ 32 % 2 ^ 12 != 0 || !(entSsp o == .g || entSsp o == .l3) || body b 0 % 4 != 0 ||
     loN (body b 1) % 4 != 0 || loN (body b 2) % 4 != 0 || loN (body b 2) == 0 || hiN (body b 2) == 0 ||
     body b 3 == 0 || body b 3 % 16 != 0 || body b 4 % 16 != 0 ||
     decide (body b 1 / 2 ^ 54 < sz / 4) || decide (512 < body b 1 / 2 ^ 54) ||
     (body b 4 != 0 && (body b 1 / 2 ^ 44 % 1024 == 0 || decide (512 < body b 1 / 2 ^ 44 % 1024))))) ||
  decide (2 ^ 32 ≤ elemCount o b) ||
  (syncOf o b != 0 && (syncPlace s tm (syncOf o b)).isNone)

/-- The key of a swarm's word, and that of an engine's walk, for bytes that lie outside the package. -/
def wordKey (sw : Nat) : Nat := 1000 + sw
def walkKey (c : Nat) : Nat := 2000 + c

/-- The control word and BODY of an entry's bytes (R205). -/
def entryWords (bs : List Byte) : Word × List DWord :=
  let at_ (k n : Nat) : Nat := bytesVal ((bs.drop k).take n)
  (BitVec.ofNat 32 (at_ 20 4), (List.range 5).map fun k => BitVec.ofNat 64 (at_ (24 + 8 * k) 8))

/-- NEXT of an entry. -/
def entryNext (bs : List Byte) : DWord := BitVec.ofNat 64 (bytesVal (bs.take 8))

/-- The part writes bytes of an entry, where its address still translates (R209). -/
def entryWrite (s : State) (t : TeamId) (lv : Level) (e : DWord) (off : Nat) (bs : List Byte) : State :=
  match findTeam s t with
  | none => s
  | some tm =>
    match locate s tm lv (engAsk .g .write 64) none e with
    | (s1, .ok (.pa a m, _)) => postField s1 tm (.engine t tm.core) (.pa (a + off) m) bs
    | (s1, _) => s1

/-- STAT and FCODE of an entry, in memory and in the operation. -/
def setStat (s : State) (t : TeamId) (c : Nat) (o : EngOp) (stat fcode : Nat) : State :=
  let s1 := updOp s t c o.n fun o => { o with stat := stat, fcode := fcode }
  if o.task then s1 else entryWrite s1 t o.lvl o.entry 20 [BitVec.ofNat 8 fcode, BitVec.ofNat 8 stat]

/-- DONE of an entry. -/
def setDone (s : State) (t : TeamId) (o : EngOp) (k : Nat) : State :=
  if o.task then s else entryWrite s t o.lvl o.entry 16 (valBytes 4 k)

/-! ### The end of an operation (R203, R212) -/

/-- R214: the cp counter of the word that appended an operation falls when the last operation of the word ends. -/
def dropCp (s : State) (t : TeamId) (c : Nat) (o : EngOp) : State :=
  match findTeam s t with
  | none => s
  | some tm =>
    if o.task then s
    else if (engOf tm c).ops.any fun x => x.word == o.word && !x.ended then s
    else
      let fall (fr : Frame) : Frame := { fr with cCp := fr.cCp - 1 }
      updSwarm s t o.issuer fun sw =>
        if o.lvl = tm.level then updProgFrame fall sw
        else match sw.hidden with
        | some _ => { sw with frame := fall sw.frame }
        | none => sw

/-- R203, R212: an operation ends: STAT is written, with DONE after a fault, TL moves, its word's counter falls, and lanes
that wait are readied. -/
def endOp (s : State) (t : TeamId) (c : Nat) (o : EngOp) (stat fcode : Nat) : State :=
  let s0 := if stat = 4 then setDone s t o o.reqd else s
  let s1 := dropCp (setStat s0 t c o stat fcode) t c o
  updTeam (updEng s1 t c passTl) t fun tm => wakeTl tm c

/-- The engine contexts of a team act: it is on its core and restored, its engine set is not frozen, and no save has
begun: in a pre-emption, not once every swarm stands at its point (R204, R224, R327, R409). -/
def engRuns (s : State) (tm : Team) : Bool :=
  onCore tm && tm.st != .loading && !isFrozen s (.eng tm.core) &&
  !(tm.st == .preempting && (liveSwarms tm).all fun sw => sw.stopped || (match sw.mode with
    | .handler _ 0x40 => true
    | _ => false))

/-! ### Appending (R203, R211, R216, R226) -/

/-- R211, R171: every earlier access of every lane of the swarm has been performed, and no release fence is open. -/
def appendWaits (c : Ctx) : Bool := (stillOpen c.sw.frame 0xFFFFFFFF fun _ _ => true) || c.sw.frame.fences.any fun f => f.rel != 0

/-- R211: the earlier accesses are performed at .die before an append, what the core holds dirty written back. -/
def beforeAppend (s : State) (c : Ctx) : State :=
  release (writeBackAll s c.tm.core fun x => x.mode == .prv) c.tm.core .die

/-- The read whose forager or final handler a swarm is (R225). -/
def parentOf (sw : Swarm) : Option (Nat × Nat) :=
  match sw.kind with
  | .forager c n | .final c n => some (c, n)
  | .team => none

/-- A new operation of context `k`, numbered `n`, by the word whose first number is `word`. -/
def newOp (c : Ctx) (e : DWord) (walked : Bool) (ctl : Word) (b : List DWord) (n word : Nat) : EngOp where
  n := n
  entry := e
  walked := walked
  task := false
  started := false
  lvl := execLevel c.tm c.sw
  ctl := ctl
  body := b
  count := elemCount ctl b
  reqd := 0
  stat := 1
  fcode := 0
  flags := 0
  issuer := c.f.swarm
  isForager := c.sw.kind != .team
  word := word
  parent := parentOf c.sw
  flight := []
  window := []
  winOpen := false
  closedW := []
  arrived := 0
  finalOn := false
  finalDone := false
  halt := false

/-- R203: the operation takes its number, and SEQ and STAT are written into its entry. -/
def appendOp (s : State) (t : TeamId) (k : Nat) (o : EngOp) : State :=
  let s1 := updEng s t k fun e =>
    { e with last := o.n, ops := e.ops ++ [o], mode := if e.mode = .halted then .halted else .busy }
  entryWrite (entryWrite s1 t o.lvl o.entry 8 (valBytes 8 o.n)) t o.lvl o.entry 21 [1#8]

/-! ### Elements (R207, R210, R212) -/

/-- A part of an element: source and destination address, length. -/
structure Part1 where
  src : Nat
  dst : Nat
  len : Nat
deriving DecidableEq, Repr

/-- Cut a transfer so that no part crosses 1 KiB at either end: a part then lies in one page and one allocation. -/
def cutParts (src dst : Nat) : Nat → Nat → List Part1
  | 0, _ => []
  | _, 0 => []
  | f + 1, n =>
    let k := min n (min (1024 - src % 1024) (1024 - dst % 1024))
    ⟨src, dst, k⟩ :: cutParts (src + k) (dst + k) f (n - k)

/-- A checked part: its places, or the fault with the address concerned. -/
abbrev Parts := Except (Nat × Nat × Nat) (List (Place × Place × Nat))

/-- One address of an engine: the fault carries cause, stage and address. -/
def engLocate (s : State) (tm : Team) (lv : Level) (sp : Space) (need : AccNeed) (a : Nat) :
    State × Except (Nat × Nat × Nat) Place :=
  match locate s tm lv (engAsk sp need 1) none (BitVec.ofNat 64 a) with
  | (s1, .ok (p, _)) => (s1, .ok p)
  | (s1, .error (c, st)) => (s1, .error (c, st, a % 2 ^ 64))

/-- The parts of a transfer, checked in ascending order. -/
def checkParts (tm : Team) (lv : Level) (ssp dsp : Space) : State → List Part1 → State × Parts
  | s, [] => (s, .ok [])
  | s, p :: r =>
    match engLocate s tm lv ssp .read (p.src % 2 ^ 64) with
    | (s1, .error e) => (s1, .error e)
    | (s1, .ok a) =>
      match engLocate s1 tm lv dsp .write (p.dst % 2 ^ 64) with
      | (s2, .error e) => (s2, .error e)
      | (s2, .ok b) =>
        match checkParts tm lv ssp dsp s2 r with
        | (s3, .error e) => (s3, .error e)
        | (s3, .ok ps) => (s3, .ok ((a, b, p.len) :: ps))

/-- The source parts of a burst, checked (R223). -/
def checkBurst (tm : Team) (lv : Level) (sp : Space) : State → List Part1 → State × Except (Nat × Nat × Nat) (List (Place × Nat))
  | s, [] => (s, .ok [])
  | s, p :: r =>
    match engLocate s tm lv sp .read (p.src % 2 ^ 64) with
    | (s1, .error e) => (s1, .error e)
    | (s1, .ok a) =>
      match checkBurst tm lv sp s1 r with
      | (s2, .error e) => (s2, .error e)
      | (s2, .ok ps) => (s2, .ok ((a, p.len) :: ps))

/-- The key of the elements of a context, for indexes that lie outside the package. -/
def elemKey (c : Nat) : Nat := 3000 + c

/-- The index of an element of GATHER or SCATTER, read where IDX places it; no fault stands for a wait. -/
def readIdx (s : State) (tm : Team) (lv : Level) (c : Nat) (o : EngOp) (k : Nat) :
    State × Except (Option (Nat × Nat × Nat)) Nat :=
  let a := (body o.body 2 + 4 * k) % 2 ^ 64
  match engLocate s tm lv (entIsp o.ctl) .read a with
  | (s1, .error e) => (s1, .error (some e))
  | (s1, .ok p) =>
    match fetch s1 tm (elemKey c) none p 4 with
    | (s2, .ok bs) => (s2, .ok (bytesVal bs))
    | (s2, .wait) => (s2, .error none)
    | (s2, .fault ca) => (s2, .error (some (ca, 0, a)))

/-- R207: the source, destination and length of element `k`. -/
def elemOf (s : State) (tm : Team) (lv : Level) (c : Nat) (o : EngOp) (k : Nat) :
    State × Except (Option (Nat × Nat × Nat)) (Nat × Nat × Nat) :=
  let b := o.body
  let sz := elemSize o.ctl
  match entKind o.ctl with
  | 1 => (s, .ok (body b 0 + 128 * k, body b 1 + 128 * k, min 128 (loN (body b 2) - 128 * k)))
  | 2 =>
    let rb := loN (body b 2)
    let p := ceilDiv rb 128
    let x := 128 * (k % p)
    (s, .ok (body b 0 + k / p * loN (body b 3) + x, body b 1 + k / p * hiN (body b 3) + x, min 128 (rb - x)))
  | 3 =>
    match readIdx s tm lv c o k with
    | (s1, .error e) => (s1, .error e)
    | (s1, .ok i) => (s1, .ok (body b 0 + i * sz, body b 1 + k * sz, sz))
  | 4 =>
    match readIdx s tm lv c o k with
    | (s1, .error e) => (s1, .error e)
    | (s1, .ok i) => (s1, .ok (body b 0 + k * sz, body b 1 + i * sz, sz))
  | _ =>
    let q := ceilDiv (loN (body b 2)) sz
    let x := sz * (k % q)
    (s, .ok (body b 0 + k / q * loN (body b 1) + x, 0, min sz (loN (body b 2) - x)))

/-- R212: destination bytes have been performed, and raise the sync word. -/
def raiseSync (s : State) (t : TeamId) (c : Nat) (o : EngOp) (n : Nat) : State :=
  if syncOf o.ctl o.body = 0 then s
  else match (findTeam s t).bind fun tm => syncPlace s tm (syncOf o.ctl o.body) with
  | some (u, off) => { s with arrivals := s.arrivals ++ [⟨u, off, n, some (t, c, o.n)⟩] }
  | none => s

/-- Bytes of an element reach their destination: written here, or sent out (R212). -/
def deliver (s : State) (tm : Team) (c : Nat) (o : EngOp) (dst : Place) (bs : List Byte) : State :=
  match wayOf s tm true dst with
  | .send f port =>
    let s1 := sendReq s tm.part f port (placeAddr dst) (.write bs) (.engine tm.id c o.n none) false
    updOp s1 tm.id c o.n fun o => { o with flight := o.flight ++ [0] }
  | _ => raiseSync (engWrite s (.engine tm.id tm.core) dst bs) tm.id c o bs.length

/-- One part of an element. -/
def movePart (tm : Team) (c : Nat) (o : EngOp) (s : State) (p : Place × Place × Nat) : State :=
  match wayOf s tm false p.1 with
  | .send f port =>
    let s1 := sendReq s tm.part f port (placeAddr p.1) (.read p.2.2) (.engine tm.id c o.n (some p.2.1)) false
    updOp s1 tm.id c o.n fun o => { o with flight := o.flight ++ [0] }
  | _ => deliver s tm c o p.2.1 (engRead s p.1 p.2.2)

/-- What keeps an element from being requested now: a request that cannot be sent, a line that the host holds. -/
def partWaits (s : State) (tm : Team) (ps : List (Place × Place × Nat)) : Bool :=
  ps.any fun p => wayOf s tm false p.1 == .wait || wayOf s tm true p.2.1 == .wait

/-- A fault of a part: bytes that hold an error, or a place outside the package that cannot be reached. -/
def partFault (s : State) (tm : Team) (ps : List (Place × Place × Nat)) : Option (Nat × Nat × Nat) :=
  ps.findSome? fun p =>
    if badData s p.1 p.2.2 then some (0x18, 0, placeAddr p.1)
    else match wayOf s tm false p.1, wayOf s tm true p.2.1 with
    | .fault c, _ => some (c, 0, placeAddr p.1)
    | _, .fault c => some (c, 0, placeAddr p.2.1)
    | _, _ => none

/-! ### The order of operations (R210, R225) -/

/-- Bits [hi:lo] of a record. -/
def rbits (r hi lo : Nat) : Nat := r / 2 ^ lo % 2 ^ (hi + 1 - lo)

/-- The number below which an operation's order counts on its context: its own, or for one that a handler has appended to
its read's own context that of the read (R225; assumption 118). -/
def orderBelow (c : Nat) (o : EngOp) : Nat :=
  match o.parent with
  | some (k, n) => if k = c then n else o.n
  | none => o.n

/-- R210, R225: operations of a context start in number order, and one with ORD = 1 once those before it have ended; tile
tasks start by R246 (assumption 117). -/
def startWaits (e : EngCtx) (c : Nat) (o : EngOp) : Bool :=
  e.ops.any fun x => decide (x.n < orderBelow c o) && !x.ended &&
    (entOrd o.ctl || (!o.started && !x.started && x.stat == 1 && !x.task))

/-- The destination bytes, address and length, that the elements of a COPY, COPY2D or GATHER from `reqd` on write. -/
def restSpans (o : EngOp) : List (Nat × Nat) :=
  let b := o.body
  match entKind o.ctl with
  | 1 => [(body b 1 + 128 * o.reqd, loN (body b 2) - 128 * o.reqd)]
  | 2 =>
    let rb := loN (body b 2)
    let p := ceilDiv rb 128
    ((List.range (hiN (body b 2))).filter fun r => decide (o.reqd < (r + 1) * p)).map fun r => (body b 1 + r * hiN (body b 3), rb)
  | 3 => [(body b 1 + o.reqd * elemSize o.ctl, (o.count - o.reqd) * elemSize o.ctl)]
  | _ => []

/-- Where a destination span lies: its parts that translate, with their lengths. -/
def spanPlaces (s : State) (tm : Team) (lv : Level) (sp : Space) (a n : Nat) : List (Place × Nat) :=
  (cutParts a a (n / 1024 + 2) n).filterMap fun p =>
    match (engLocate s tm lv sp .write (p.dst % 2 ^ 64)).2 with
    | .ok q => some (q, p.len)
    | .error _ => none

/-- The rows that the drain of a tile task writes, wherever its program's e.st words place them in a row. -/
def taskSpans (x : TileTask) : List (Nat × Nat) :=
  (List.range 128).map fun m => (rbits x.trec 184 128 + m * rbits x.trec 319 288, 2 ^ 16 + 256)

/-- An operation that has not ended may still write one of the given bytes. -/
def writesRest (s : State) (tm : Team) (c : Nat) (x : EngOp) (ps : List (Place × Nat)) : Bool :=
  let spans : List (Nat × Nat) :=
    if x.task then (s.tasks.filter fun y => y.team == tm.id && y.ctx == c && y.seq == x.n).flatMap taskSpans else restSpans x
  let sp : Space := if x.task then .g else entDsp x.ctl
  if x.ended || entKind x.ctl == 5 then false
  else if !x.flight.isEmpty then true
  else if entKind x.ctl == 4 then decide (x.reqd < x.count)
  else spans.any fun r => (spanPlaces s tm x.lvl sp r.1 r.2).any fun q => ps.any fun p => overlaps q.1 q.2 p.1 p.2

/-- R210: an operation with a lower number than `n` on the context may still write one of the given bytes. -/
def waitsLower (s : State) (tm : Team) (c n : Nat) (ps : List (Place × Nat)) : Bool :=
  (engOf tm c).ops.any fun x => decide (x.n < n) && writesRest s tm c x ps

/-! ### Bursts (R217 to R219) -/

/-- Bytes of the core's burst buffer that a handler read has reserved. -/
def bufferOf (o : EngOp) : Nat :=
  if entKind o.ctl = 5 then
    (o.flight.length + o.window.length + (o.closedW.map fun w => w.2.length).sum) * elemSize o.ctl
  else 0

/-- R219: the burst buffer of a core, 128 KiB, has room for one more burst of an operation. -/
def bufferRoom (s : State) (core : Nat) (o : EngOp) : Bool :=
  let used := ((s.teams.filter fun tm => tm.core == core && onCore tm).map fun tm =>
    (tm.engs.map fun e => (e.ops.map bufferOf).sum).sum).sum
  decide (used + elemSize o.ctl ≤ 2 ^ 17)

/-- The key of a burst's bytes that lie outside the package. -/
def burstKey (c n j : Nat) : Nat := 2 ^ 40 * (8 * n + c + 1) + j

/-- What a request of an element comes to. -/
inductive Req1 where
  | done (s : State)
  | wait (s : State)
  | fault (s : State) (cause stage addr : Nat)

/-- Element `reqd` of an operation is checked, waits for the operations before it (R210), and is requested (R216, R213). A
copy moves its bytes; a handler read sends its burst. -/
def requestElem (s : State) (tm : Team) (c : Nat) (o : EngOp) : Req1 :=
  let t := tm.id
  let k := o.reqd
  let count (s : State) : State :=
    updOp (dropBufs s t (elemKey c)) t c o.n fun o => { o with reqd := k + 1, started := true }
  match elemOf s tm o.lvl c o k with
  | (s1, .error none) => .wait s1
  | (s1, .error (some (ca, st, a))) => .fault (dropBufs s1 t (elemKey c)) ca st a
  | (s1, .ok (src, dst, len)) =>
    let e := engOf tm c
    if entKind o.ctl = 5 then
      match checkBurst tm o.lvl (entSsp o.ctl) s1 (cutParts src src 4 len) with
      | (s2, .error (ca, st, a)) => .fault s2 ca st a
      | (s2, .ok ps) =>
        if startWaits e c o || !bufferRoom s2 tm.core o then .wait s2
        else match partsWay s2 tm false ps with
        | .fault ca => .fault s2 ca 0 (src % 2 ^ 64)
        | .wait => .wait s2
        | _ =>
          let s3 := (fetchAll tm (burstKey c o.n k) none s2 ps).1
          .done (count (updOp s3 t c o.n fun o => { o with flight := o.flight ++ [k] }))
    else
      match checkParts tm o.lvl (entSsp o.ctl) (entDsp o.ctl) s1 (cutParts src dst 4 len) with
      | (s2, .error (ca, st, a)) => .fault s2 ca st a
      | (s2, .ok ps) =>
        if startWaits e c o || waitsLower s2 tm c o.n (ps.map fun p => p.2) || partWaits s2 tm ps then .wait s2
        else match partFault s2 tm ps with
        | some (ca, st, a) => .fault s2 ca st a
        | none => .done (count (ps.foldl (movePart tm c o) s2))

end Sys2Proof.Machine
end

