-- ==== Sys2Proof/Machine/Queue.lean ====
section
/-!
DEFINITION. The queue words (R215, R216, R226 to R230) and the events of the engines and of handler reads (R203, R209,
R212, R213, R217 to R223).
-/
namespace Sys2Proof.Machine

/-- $prog of the swarm, and whether the word keeps the swarm from issuing anything else. -/
def setProg (c : Ctx) (p : Nat) (on : Bool) (s : State) : State :=
  updFrame s c.f.team c.f.swarm fun fr =>
    { fr with prog := BitVec.ofNat 32 p, macroAt := if on then some (c.f.pc, c.f.mask) else none }

/-- A fault of a word that acts once for the swarm, precise by stop (R216, R319). -/
def formFault (c : Ctx) (s : State) (p cause stage : Nat) (ta : DWord) : State :=
  let ln := (lowest c.act).getD 0
  let s1 := takeTrap (setProg c p false (standAt c s)) c.f.team c.f.swarm (bit32 ln)
    { cause := cause, lane := ln, stage := stage } ta none
  violate s1 c.tm (.core c.tm.core) cause stage

/-- R230: the queue-use trap. -/
def queueUse (c : Ctx) (s : State) : State := undoTrap c (setProg c c.sw.frame.prog.toNat false s) 0x0B c.f.pc

/-- R211, R409: an append waits for the swarm's accesses, and while the engine set is frozen. -/
def holdRead (s : State) (c : Ctx) : Bool := appendWaits c || isFrozen s (.eng c.tm.core)

/-- R203, R214: an append of `m` entries waits for pending slots and for its counter. -/
def holdSlots (c : Ctx) (k m : Nat) : Bool :=
  decide (256 < (pendingOps (engOf c.tm k)).length + m) || c.sw.frame.cCp == 63

/-- The operations of an issue form of the swarm that are not fully requested, by their entry and the elements requested. -/
def formOps (c : Ctx) (k : Nat) (e : DWord) : List EngOp :=
  (engOf c.tm k).ops.filter fun o => o.entry == e && !o.walked && !o.task && o.stat == 1 && o.issuer == c.f.swarm &&
    o.reqd == c.sw.frame.prog.toNat

/-- The operation that the word goes on with and whose entry is not read again (R209): the one in progress, or one stopped
before its first element. -/
def inForm (c : Ctx) (k : Nat) (e : DWord) : Option EngOp :=
  if c.sw.frame.macroAt.isSome || c.sw.frame.prog = 0 then (formOps c k e).getLast? else none

/-- The operation that a stopped word resumes (R216): the one that SEQ of the entry names. -/
def resumed (c : Ctx) (k : Nat) (bs : List Byte) : Option EngOp :=
  let seq := bytesVal ((bs.drop 8).take 8)
  let stat := bytesVal ((bs.drop 21).take 1) % 16
  (findOp (engOf c.tm k) seq).bind fun o =>
    if o.stat = 1 ∧ stat = 1 then some { o with reqd := c.sw.frame.prog.toNat } else none

/-- Elements of an issue form: the next one is requested (R216). -/
def formElem (c : Ctx) (k : Nat) (o : EngOp) (s : State) : State :=
  let t := c.f.team
  let finishOp (s : State) : State := setProg c 0 false (setStat s t k o 2 o.fcode)
  if o.count ≤ o.reqd then finishOp s
  else match findTeam s t with
  | none => s
  | some tm =>
    match requestElem s tm k o with
    | .done s1 => if o.reqd + 1 = o.count then finishOp s1 else setProg c (o.reqd + 1) true (standAt c s1)
    | .wait s1 => setProg c o.reqd true (standAt c s1)
    | .fault s1 ca st a => formFault c (setDone s1 t o o.reqd) o.reqd ca st (BitVec.ofNat 64 a)

/-- R216: the append of an issue form whose entry's bytes have been read, once it has its slot, and its first element. -/
def formAppend (kind : Nat) (esz : Option Nat) (c : Ctx) (k : Nat) (e : DWord) (bs : List Byte) (s3 : State) : State :=
  let lv := execLevel c.tm c.sw
  let (ctl, b) := entryWords bs
  let n := (engOf c.tm k).last + 1
  if entKind ctl ≠ kind || entryBad s3 c.tm ctl b then formFault c s3 c.sw.frame.prog.toNat 0x16 0 e
  else if 2 ^ 64 - 1 ≤ n then queueUse c s3
  else if holdSlots c k 1 then holdSwarm c s3
  else
    let ctl' : Word := match esz with
      | some z => BitVec.ofNat 32 (ctl.toNat - entSz ctl * 2 ^ 26 + z * 2 ^ 26)
      | none => ctl
    let op := newOp c e false ctl' b n n
    let s4 := match esz with
      | some _ => entryWrite s3 c.f.team lv e 23 [BitVec.ofNat 8 (ctl'.toNat / 2 ^ 24)]
      | none => s3
    let s5 := updFrame (appendOp s4 c.f.team k op) c.f.team c.f.swarm fun fr => bumpCnt fr .cp true
    formElem c k op s5

/-- R216: an issue form appends its entry and requests its elements, one at each execution. The entry is read once the
accesses before it are performed (R211). -/
def formEff (kind : Nat) (esz : Option Nat) (o : Wd) (c : Ctx) (s1 : State) : State :=
  let k := o.d.immVal.toNat
  let e := laneAddr c.sw.frame o ((lowest c.act).getD 0)
  let prog := c.sw.frame.prog.toNat
  let key := wordKey c.f.swarm
  if (engOf c.tm k).mode = .closed ∨ (c.sw.kind ≠ .team ∧ kind = 5) then queueUse c s1
  else match inForm c k e with
  | some op => formElem c k op s1
  | none =>
    match locate s1 c.tm (execLevel c.tm c.sw) (engAsk .g .rw 64) none e with
    | (s2, .error (ca, st)) => formFault c s2 prog ca st e
    | (s2, .ok (p, _)) =>
      if prog = 0 ∧ holdRead s2 c then holdSwarm c s2
      else match fetch (if prog = 0 then beforeAppend s2 c else s2) c.tm key none p 64 with
      | (s3, .wait) => setProg c prog true (standAt c s3)
      | (s3, .fault ca) => formFault c (dropBufs s3 c.f.team key) prog ca 0 e
      | (s3, .ok bs) =>
        let s4 := dropBufs s3 c.f.team key
        if prog = 0 then formAppend kind esz c k e bs s4
        else match resumed c k bs with
        | some op => formElem c k op s4
        | none => formFault c s4 prog 0x16 0 e

def runForm (i : Instr) (o : Wd) (kind : Nat) (esz : Option Nat) (s : State) : Host.Outcome State Fault Refusal :=
  runWord i o .prog (fun _ => none) (fun _ => i.fields) (formEff kind esz o) s

def ESz.num : ESz → Nat
  | .b4 => 0
  | .b8 => 1
  | .b16 => 2

def execCpy (o : Wd) (s : State) : Host.Outcome State Fault Refusal := runForm (.cpy o) o 1 none s
def execCpy2d (o : Wd) (s : State) : Host.Outcome State Fault Refusal := runForm (.cpy2d o) o 2 none s
def execGath (z : ESz) (o : Wd) (s : State) : Host.Outcome State Fault Refusal :=
  runForm (.gath z o) o 3 (some (ESz.num z)) s
def execScat (z : ESz) (o : Wd) (s : State) : Host.Outcome State Fault Refusal :=
  runForm (.scat z o) o 4 (some (ESz.num z)) s
def execBread (o : Wd) (s : State) : Host.Outcome State Fault Refusal := runForm (.bread o) o 5 none s

/-! ### CHAPP (R226) -/

/-- The entries of a chain: address, control word and BODY of each, or the address of the one that is refused; none
while an entry outside the package is still being read. -/
def chain (c : Ctx) (lv : Level) : Nat → State → DWord → State × Option (Except DWord (List (DWord × Word × List DWord)))
  | 0, s, e => (s, some (.error e))
  | f + 1, s, e =>
    match locate s c.tm lv (engAsk .g .rw 64) none e with
    | (s1, .error _) => (s1, some (.error e))
    | (s1, .ok (p, _)) =>
      match fetch s1 c.tm (wordKey c.f.swarm) none p 64 with
      | (s2, .wait) => (s2, none)
      | (s2, .fault _) => (s2, some (.error e))
      | (s2, .ok bs) =>
        let (ctl, b) := entryWords bs
        if entryBad s2 c.tm ctl b || (entKind ctl == 5 && c.sw.kind != .team) then (s2, some (.error e))
        else
          let nx := entryNext bs
          if nx = 0 then (s2, some (.ok [(e, ctl, b)]))
          else match chain c lv f s2 nx with
          | (s3, some (.ok r)) => (s3, some (.ok ((e, ctl, b) :: r)))
          | x => x

/-- An entry of a chain takes its number; one with no element is requested at once (R207). -/
def appendWalked (c : Ctx) (k : Nat) (s : State) (o : EngOp) : State :=
  let s1 := appendOp s c.f.team k o
  if o.count = 0 then setStat s1 c.f.team k o 2 0 else s1

/-- The entries of a chain take consecutive numbers. -/
def appendChain (c : Ctx) (k word : Nat) : Nat → List (DWord × Word × List DWord) → State → State
  | _, [], s => s
  | n, (e, ctl, b) :: r, s => appendChain c k word (n + 1) r (appendWalked c k s (newOp c e true ctl b n word))

/-- R226. -/
def chappEff (o : Wd) (c : Ctx) (s1 : State) : State :=
  let k := o.b.immVal.toNat
  let lv := execLevel c.tm c.sw
  let ctx := engOf c.tm k
  let h := opPair c.sw.frame ((lowest c.act).getD 0) o.a
  if ctx.mode = .closed then queueUse c s1
  else if holdRead s1 c then holdSwarm c s1
  else match chain c lv 64 (beforeAppend s1 c) h with
  | (s2, none) => holdSwarm c s2
  | (s2, some (.error e)) => formFault c (dropBufs s2 c.f.team (wordKey c.f.swarm)) c.sw.frame.prog.toNat 0x16 0 e
  | (s2, some (.ok es)) =>
    let m := es.length
    if 2 ^ 64 - 1 ≤ ctx.last + m then queueUse c s2
    else if holdSlots c k m then holdSwarm c s2
    else
      let s3 := appendChain c k (ctx.last + 1) (ctx.last + 1) es (dropBufs s2 c.f.team (wordKey c.f.swarm))
      let s4 := if ctx.tail = 0 then s3 else entryWrite s3 c.f.team lv ctx.tail 0 (valBytes 8 h.toNat)
      let tail := (es.getLast?.map fun x => x.1).getD 0
      let s5 := updEng s4 c.f.team k fun e => { e with tail := tail }
      let s6 := freeSwarm c (updFrame s5 c.f.team c.f.swarm fun fr => bumpCnt fr .cp true)
      updFrame s6 c.f.team c.f.swarm fun fr => eachLane c.act fr fun ln fr => dst64 fr o ln (BitVec.ofNat 64 (ctx.last + m))

def execChapp (o : Wd) (s : State) : Host.Outcome State Fault Refusal :=
  runWord (.chapp o) o .prog (fun _ => none) (fun _ => (Instr.chapp o).fields) (chappEff o) s

/-! ### WAITTL, RDTL, WAITCNT (R215, R227, R228) -/

/-- R230: a WAITTL that traps: a Closed context, a forager, or a final handler that waits on its own read. -/
def waittlBad (c : Ctx) (k : Nat) (n : Nat → Nat) : Bool :=
  (engOf c.tm k).mode == .closed ||
  (match c.sw.kind with
  | .team => false
  | .forager _ _ => true
  | .final d op => d == k && (lanesOf c.act).any fun ln => decide (op ≤ n ln))

def waittlEff (q : MemQ) (o : Wd) (c : Ctx) (s1 : State) : State :=
  let k := o.d.immVal.toNat
  let n (ln : Nat) : Nat := match o.a with
    | .imm x => x.toNat
    | _ => (opPair c.sw.frame ln o.a).toNat
  if waittlBad c k n then queueUse c s1
  else
    let tl := (engOf c.tm k).tl
    let stay := (lanesOf c.act).filter fun ln => decide (tl < n ln)
    let s2 := stay.foldl (fun s ln => parkLanes c (bit32 ln) (.waittl k (n ln)) s) s1
    if stay.length = countOf c.act || q.ord != .acq then s2
    else acquire s2 c.tm.core q.scope

def execWaittl (q : MemQ) (o : Wd) (s : State) : Host.Outcome State Fault Refusal :=
  runWord (.waittl q o) o .prog (fun _ => none) (fun _ => (Instr.waittl q o).fields) (waittlEff q o) s

def EngMode.code : EngMode → Nat
  | .closed => 0
  | .opened => 1
  | .busy => 2
  | .halted => 3

def execRdtl (o : Wd) (s : State) : Host.Outcome State Fault Refusal :=
  runFrame (.rdtl o) o none (fun c fr =>
    let e := engOf c.tm o.a.immVal.toNat
    let v : Nat := if e.mode = .closed then 0 else match o.b.immVal.toNat with
      | 0 => e.tl
      | 1 => e.last
      | _ => EngMode.code e.mode
    eachLane c.act fr fun ln fr => dst64 fr o ln (BitVec.ofNat 64 v)) s

/-- The counter that WAITCNT watches (R215). -/
def cntNow (fr : Frame) : Cnt → Nat
  | .ld => cntOf fr .ld
  | .st => fr.cSt
  | .cp => fr.cCp
  | .tile => fr.cTile

def execWaitcnt (k : Cnt) (o : Wd) (s : State) : Host.Outcome State Fault Refusal :=
  runWait (fun c _ => decide (o.a.immVal.toNat < cntNow c.sw.frame k)) (.waitcnt k o) o .prog (fun _ => none)
    (fun _ => (Instr.waitcnt k o).fields) (fun _ s1 => s1) s

/-! ### CTXTL (R229) -/

/-- The engine contexts that are bound on a core (R202). -/
def boundOn (s : State) (core : Nat) : Nat :=
  ((s.teams.filter fun tm => tm.core == core && onCore tm).map fun tm =>
    (tm.engs.filter fun e => e.mode != .closed).length).sum

/-- The status of a CTXTL word reaches every active lane. -/
def ctxtlDone (c : Ctx) (o : Wd) (st : Nat) (s : State) : State :=
  updFrame s c.f.team c.f.swarm fun fr => eachLane c.act fr fun ln fr => dst32 fr o 4 ln (BitVec.ofNat 32 st)

def openedCtx : EngCtx := ⟨.opened, 0, 0, 0, 0, 0, []⟩

def runCtxtl (i : Instr) (o : Wd) (eff : Ctx → EngCtx → Nat → State → State) (s : State) : Host.Outcome State Fault Refusal :=
  let k := o.a.immVal.toNat
  runWord i o .prog (fun _ => none) (fun _ => i.fields) (fun c s1 =>
    if c.sw.kind ≠ .team then queueUse c s1 else eff c (engOf c.tm k) k s1) s

def execCtxtlOpen (o : Wd) (s : State) : Host.Outcome State Fault Refusal :=
  runCtxtl (.ctxtlOpen o) o (fun c e k s1 =>
    match e.mode with
    | .closed =>
      if boundOn s1 c.tm.core < 64 then ctxtlDone c o 0 (updEng s1 c.f.team k fun _ => openedCtx) else ctxtlDone c o 1 s1
    | .halted =>
      ctxtlDone c o 0 (updEng s1 c.f.team k fun e => { e with mode := if (pendingOps e).isEmpty then .opened else .busy })
    | _ => ctxtlDone c o 2 s1) s

/-- A swarm of a read has ended and its accesses are performed. -/
def quietSwarm (sw : Swarm) : Bool := sw.ended && !(sw.frame.log.any fun e => (e.todo ||| e.away) != 0)

/-- The swarms of a handler read. -/
def readSwarms (tm : Team) (c n : Nat) : List Swarm := tm.swarms.filter fun sw => sw.kind == .forager c n || sw.kind == .final c n

/-- R203, R212, R225: nothing of an operation is under way: requests, sync-word arrivals, and for a handler read its bursts,
its swarms and the operations that they appended. -/
def opQuiet (s : State) (tm : Team) (c : Nat) (o : EngOp) : Bool :=
  o.flight.isEmpty && !(s.arrivals.any fun a => a.src == some (tm.id, c, o.n)) &&
  (entKind o.ctl != 5 ||
    (o.window.isEmpty && o.closedW.isEmpty && (readSwarms tm c o.n).all quietSwarm &&
     !(tm.engs.any fun e => e.ops.any fun x => x.parent == some (c, o.n) && !x.ended)))

/-- An operation that is not fully requested and of which nothing is under way. -/
def abortable (s : State) (tm : Team) (c : Nat) (o : EngOp) : Bool := o.stat == 1 && !o.task && opQuiet s tm c o

/-- The issue form that an operation belongs to is in progress: it is not stopped (R204, R229). -/
def formActive (tm : Team) (o : EngOp) : Bool :=
  !o.walked && tm.swarms.any fun sw =>
    sw.num == o.issuer && !sw.ended && execLevel tm sw == o.lvl && sw.frame.macroAt.isSome

/-- Operations not fully requested are aborted with STAT = 5 (R204, R229). -/
def abortOps (s : State) (t : TeamId) (k : Nat) (p : EngOp → Bool) : State :=
  match findTeam s t with
  | none => s
  | some tm => ((engOf tm k).ops.filter p).foldl (fun s o => endOp s t k o 5 0) s

/-- Tile-task records of a context that have not started end with STAT = 5 (R246). -/
def abortTasks (s : State) (t : TeamId) (k : Nat) : State :=
  let mine (x : TileTask) : Bool := x.team == t && x.ctx == k && x.core.isNone
  let one (s : State) (x : TileTask) : State :=
    match (findTeam s t).bind fun tm => findOp (engOf tm k) x.seq with
    | some o => endOp (entryWrite s t o.lvl x.entry 50 [5#8]) t k o 5 0
    | none => s
  { (s.tasks.filter mine).foldl one s with tasks := s.tasks.filter fun x => !mine x }

/-- R229: reset: what is not fully requested is aborted; what is requested is waited for. -/
def resetCtx (c : Ctx) (k : Nat) (s : State) : State × Bool :=
  let s0 := abortTasks s c.f.team k
  let s1 := match findTeam s0 c.f.team with
    | some tm => abortOps s0 c.f.team k fun o => abortable s0 tm k o && !formActive tm o
    | none => s0
  match findTeam s1 c.f.team with
  | none => (s1, true)
  | some tm =>
    if (pendingOps (engOf tm k)).isEmpty then
      (updTeam (updEng s1 c.f.team k fun e => { e with tl := e.last, mode := .opened, ops := [] }) c.f.team fun tm => wakeTl tm k, true)
    else (s1, false)

def execCtxtlReset (o : Wd) (s : State) : Host.Outcome State Fault Refusal :=
  runCtxtl (.ctxtlReset o) o (fun c e k s1 =>
    match e.mode with
    | .closed => ctxtlDone c o 2 s1
    | .opened => ctxtlDone c o 0 s1
    | _ => match resetCtx c k s1 with
      | (s2, true) => ctxtlDone c o 0 s2
      | (s2, false) => standAt c s2) s

/-- The lanes of a frame whose WAITTL a close has cut off (R229). -/
def closedLanes (fr : Frame) : BitVec 32 := maskOf fun i => (lane fr i).park == some .closed

/-- A close cuts off the lanes that wait on the context. -/
def cutWaits (k : Nat) (fr : Frame) : Frame :=
  let cut (l : Lane) : Lane := match l.park with
    | some (.waittl d _) => if d = k then { l with park := some .closed, woken := false } else l
    | _ => l
  { fr with lanes := fr.lanes.map cut }

/-- R229: the one trap of a swarm whose lanes a close has cut off, taken once its open accesses are performed: they stand at
their WAITTL words, and $trapa is that of the lowest lane. -/
def closedTrap (t : TeamId) (s : State) (n : Nat) : State :=
  let swarm (s : State) : Option Swarm := (findTeam s t).bind fun tm => findSwarm tm n
  match (swarm s).bind fun sw => (lowest (closedLanes sw.frame)).map fun ln => (sw, ln) with
  | none => s
  | some (sw, ln) =>
    let s1 := drainAll s t n
    if sw.kind = .team ∧ (swarm s1).any (fun x => openLanes x.frame != 0) then s1
    else
      let m := closedLanes sw.frame
      let clear (fr : Frame) : Frame := eachLane m fr fun i fr => updLane fr i fun l => { l with park := none }
      takeTrap (updFrame s1 t n clear) t n m { cause := 0x0B, lane := ln } (lane sw.frame ln).pc none

/-- R229: a close traps the lanes that wait on the context, one trap for each swarm; those of a program that a handler hides
once it goes on. -/
def closeCtx (c : Ctx) (k : Nat) (s : State) : State :=
  let cut (sw : Swarm) : Swarm := { sw with frame := cutWaits k sw.frame, hidden := sw.hidden.map (cutWaits k) }
  let s1 := updTeam (updEng s c.f.team k fun _ => closedCtx) c.f.team fun tm => { tm with swarms := tm.swarms.map cut }
  match findTeam s1 c.f.team with
  | none => s1
  | some tm => (tm.swarms.map fun sw => sw.num).foldl (closedTrap c.f.team) s1

def execCtxtlClose (o : Wd) (s : State) : Host.Outcome State Fault Refusal :=
  runCtxtl (.ctxtlClose o) o (fun c e k s1 =>
    match e.mode with
    | .closed => ctxtlDone c o 2 s1
    | .opened => closeCtx c k (ctxtlDone c o 0 s1)
    | .busy => standAt c s1
    | .halted => match resetCtx c k s1 with
      | (s2, true) => closeCtx c k (ctxtlDone c o 0 s2)
      | (s2, false) => standAt c s2) s

/-! ### Walking (R209, R213) -/

/-- The walked operation that is being requested, else the next to start in number order (R210); none while the entry that
a fault has struck has not ended (R213). -/
def walkNext (e : EngCtx) : Option EngOp :=
  let live := e.ops.filter fun o => !o.task && o.walked && o.stat == 1
  if e.ops.any fun o => o.halt && !o.ended then none
  else match live.find? fun o => o.started with
  | some o => some o
  | none => live.head?

/-- R213: a fault strikes an element of a walked entry, which requests no further one; what it has requested completes, and
then the context halts. -/
def walkFault (s : State) (tm : Team) (c : Nat) (o : EngOp) (cause stage : Nat) : State :=
  let strike (o : EngOp) : EngOp :=
    { o with stat := 2, started := true, halt := true, fcode := if o.fcode = 0 then cause else o.fcode }
  violate (updOp s tm.id c o.n strike) tm (.eng tm.core) cause stage

/-- R209: a walked entry is read when the engine starts it. A program's write to it since its append has no effect: its
control word and BODY are those that CHAPP checked (assumption 100). -/
def walkStart (s : State) (tm : Team) (c : Nat) (o : EngOp) : State :=
  match locate s tm o.lvl (engAsk .g .read 64) none o.entry with
  | (s1, .error (ca, st)) => walkFault s1 tm c o ca st
  | (s1, .ok (p, _)) =>
    match fetch s1 tm (walkKey c) none p 64 with
    | (s2, .wait) => s2
    | (s2, .fault ca) => walkFault (dropBufs s2 tm.id (walkKey c)) tm c o ca 0
    | (s2, .ok _) =>
      let s3 := updOp (dropBufs s2 tm.id (walkKey c)) tm.id c o.n fun o => { o with started := true }
      updEng s3 tm.id c fun e => { e with cursor := o.entry, cdone := 0 }

/-- The next element of a walked entry is requested. -/
def walkElem (s : State) (tm : Team) (c : Nat) (o : EngOp) : State :=
  match requestElem s tm c o with
  | .wait s1 => s1
  | .fault s1 ca st _ => walkFault s1 tm c o ca st
  | .done s1 =>
    let s2 := updEng s1 tm.id c fun e => { e with cdone := o.reqd + 1 }
    if o.reqd + 1 = o.count then setStat s2 tm.id c o 2 o.fcode else s2

/-- R209, R210: the engine starts the next walked entry of a context, or requests the next element of the one it is
walking. -/
def execEngineWalkEntry (t : TeamId) (c : Nat) (s : State) : Host.Outcome State Fault Refusal :=
  .next (match findTeam s t with
    | none => s
    | some tm =>
      let e := engOf tm c
      if !engRuns s tm || e.mode != .busy then s
      else match walkNext e with
      | none => s
      | some o => if o.started then walkElem s tm c o else if startWaits e c o then s else walkStart s tm c o)

/-! ### The end of operations and arrivals (R203, R212) -/

/-- R222: a final handler is still to run. -/
def finalDue (o : EngOp) : Bool := body o.body 4 != 0 && o.reqd == o.count && !o.finalOn

/-- R203, R225: nothing of an operation is left. -/
def opReady (s : State) (tm : Team) (c : Nat) (o : EngOp) : Bool :=
  o.stat == 2 && !o.task && opQuiet s tm c o && !(entKind o.ctl == 5 && finalDue o)

/-- R213: the entry that a fault has struck has ended: the context halts, and the queue fault is raised in the team. -/
def haltCtx (s : State) (t : TeamId) (c : Nat) (o : EngOp) : State :=
  imprecise (updEng s t c fun e => { e with mode := .halted }) t 0x17 o.entry

/-- R203, R212: an operation ends. What the swarms of a handler read have stored is performed at .sys. -/
def execOperationEnd (t : TeamId) (c n : Nat) (s : State) : Host.Outcome State Fault Refusal :=
  .next (match findTeam s t with
    | none => s
    | some tm =>
      match findOp (engOf tm c) n with
      | none => s
      | some o =>
        if opReady s tm c o then
          let s0 := if entKind o.ctl = 5 then release s tm.core .sys else s
          let s1 := endOp s0 t c o (if o.fcode = 0 then 3 else 4) o.fcode
          let s2 := if o.halt then haltCtx s1 t c o else s1
          updTeam s2 t fun tm =>
            { tm with swarms := tm.swarms.filter fun sw => !(sw.kind == .forager c n || sw.kind == .final c n) }
        else s)

/-- Whose bytes an arrival counts: an engine's, or another package's. -/
def arrivalBy (s : State) (a : Arrival) : Agent :=
  match a.src with
  | some (u, _, _) => .engine u (match findTeam s u with
    | some tm => tm.core
    | none => 0)
  | none => .pkg 0

/-- R154: bytes that have been performed reach their sync word. -/
def execSyncArrival (t : TeamId) (off n : Nat) (s : State) : Host.Outcome State Fault Refusal :=
  .next (match s.arrivals.find? fun a => a.owner == t && a.off == off && a.n == n with
    | none => s
    | some a => syncArrive { s with arrivals := s.arrivals.erase a } (arrivalBy s a) t off n)

/-! ### Handler reads (R217 to R223) -/

/-- The byte offset in its row, the row and the valid bytes of burst `j` (R218). -/
def burstAt (o : EngOp) (j : Nat) : Nat × Nat × Nat :=
  let sz := elemSize o.ctl
  let rb := loN (body o.body 2)
  let q := ceilDiv rb sz
  (sz * (j % q), j / q, min sz (rb - sz * (j % q)))

/-- A burst joins the open window, or opens one; the thirty-second closes it, as the given one in order (R219). -/
def joinWindow (no j : Nat) (bs : List Byte) (o : EngOp) : EngOp :=
  let w := o.window ++ [(j, bs)]
  if w.length < 32 then { o with window := w, winOpen := true }
  else { o with window := [], winOpen := false, closedW := o.closedW ++ [(no, w)] }

/-- A burst of a read is counted, with its bytes or the cause of its error; one with an error starts no forager (R223). -/
def burstIn (s : State) (t : TeamId) (c n j : Nat) (got : Except Nat (List Byte)) : State :=
  let s1 := updOp s t c n fun o =>
    let o1 := { o with flight := o.flight.erase j, arrived := o.arrived + 1 }
    match got with
    | .ok bs => joinWindow s.winNo j bs o1
    | .error ca => { o1 with fcode := if o1.fcode = 0 then ca else o1.fcode }
  { s1 with winNo := s.winNo + 1 }

/-- The bytes of a burst, read at .sys (R217), part by part. -/
def burstBytes (s : State) (tm : Team) (c : Nat) (o : EngOp) (j : Nat) : State × Got :=
  let (x, y, n) := burstAt o j
  let a := body o.body 0 + y * loN (body o.body 1) + x
  match checkBurst tm o.lvl (entSsp o.ctl) s (cutParts a a 4 n) with
  | (s1, .ok ps) => fetchAll tm (burstKey c o.n j) none s1 ps
  | (s1, .error (ca, _, _)) => (s1, .fault ca)

/-- R218, R223: a burst that has been requested arrives, whole or with an uncorrectable error. -/
def execBurstArrival (t : TeamId) (c n j : Nat) (bad : Bool) (s : State) : Host.Outcome State Fault Refusal :=
  .next (match findTeam s t with
    | none => s
    | some tm =>
      match findOp (engOf tm c) n with
      | none => s
      | some o =>
        if !o.flight.contains j then s
        else match burstBytes s tm c o j with
        | (s1, .wait) => s1
        | (s1, .ok bs) => burstIn (dropBufs s1 t (burstKey c n j)) t c n j (if bad then .error 0x18 else .ok bs)
        | (s1, .fault ca) => burstIn (dropBufs s1 t (burstKey c n j)) t c n j (.error ca))

/-- R219: the gather window of a read closes. -/
def execGatherWindowClose (t : TeamId) (c n : Nat) (s : State) : Host.Outcome State Fault Refusal :=
  .next { (updOp s t c n fun o =>
    if o.winOpen then { o with window := [], winOpen := false, closedW := o.closedW ++ [(s.winNo, o.window)] } else o) with
    winNo := s.winNo + 1 }

/-- R219: no window of a read of the core closed before this one and still waits. -/
def firstClosed (s : State) (core no : Nat) : Bool :=
  s.teams.all fun tm => !(tm.core == core && onCore tm) ||
    tm.engs.all fun e => e.ops.all fun o => o.closedW.all fun w => decide (no ≤ w.1)

/-- The swarms that stand on a core: 48 slots (R219). -/
def swarmsOn (s : State) (core : Nat) : List Swarm :=
  (s.teams.filter fun tm => tm.core == core && onCore tm).flatMap fun tm => tm.swarms.filter fun sw => !sw.ended

/-- R219: the swarm slots of a core that no swarm holds. -/
def openSlots (s : State) (core : Nat) : List Nat :=
  let held := (swarmsOn s core).map fun sw => sw.slot
  (List.range 48).filter fun k => !held.contains k

/-- R219: the open slots that a swarm of a team may take: slot 11 of each quadrant is not one of them. -/
def teamSlots (s : State) (core : Nat) : List Nat := (openSlots s core).filter fun k => k % 12 != 11

/-- R219: the slot of a forager or final-handler swarm: slot 11 of the quadrant with the fewest swarms, or any open slot, of
which the model takes slot 11 of another quadrant, or the lowest (assumption 104). -/
def foragerSlot (s : State) (core : Nat) : Nat :=
  let free := openSlots s core
  let load (q : Nat) : Nat := 12 - (free.filter fun k => k / 12 == q).length
  let q := (List.range 4).foldl (fun b q => if load q < load b then q else b) 0
  (((12 * q + 11) :: ((free.filter fun k => k % 12 == 11) ++ free)).find? free.contains).getD 0

/-- Swarms take slots in order. -/
def seat : List Nat → List Swarm → List Swarm
  | _, [] => []
  | ks, sw :: rest => if sw.ended then sw :: seat ks rest else { sw with slot := ks.head?.getD 0 } :: seat ks.tail rest

/-- A team's live swarms take the lowest slots of its core (assumption 104). A continuation spills at its slot's address (R76,
R271). -/
def seatTeam (s : State) (tm : Team) : Team :=
  let ks := teamSlots s tm.core
  { tm with
    swarms := seat ks tm.swarms
    spill := if tm.id.cont.isSome then tm.kspill + 65536 * (48 * tm.core + ks.head?.getD 0) else tm.spill }

/-- R76, R219: a forager or final-handler swarm of `v` rows has a slot and rows. -/
def slotFree (s : State) (core v : Nat) : Bool :=
  let sws := swarmsOn s core
  let rows := ((sws.filter fun sw => sw.kind != .team).map fun sw => sw.frame.vcnt).sum
  !(openSlots s core).isEmpty && decide (rows + v ≤ 4096)

/-- The group width that swarms of a grid start with (R81, R271). -/
def gridXlgw (s : State) (t : TeamId) : Nat :=
  match s.grids.find? fun g => g.id == t.grid with
  | some g => g.launch.xlgw
  | none => 32

/-- A swarm that starts in its program. -/
def newSwarm (n : Nat) (k : SwKind) (issuer : Nat) (fr : Frame) : Swarm where
  num := n
  slot := 0
  kind := k
  issuer := issuer
  ended := false
  mode := .program
  frame := fr
  hidden := none
  trapc := 0x300
  trapa := 0
  frg := none
  off := false
  stopped := false
  kept := none

/-- A swarm of a handler read, with a free number. -/
def addSwarm (s : State) (tm : Team) (k : SwKind) (issuer : Nat) (fr : Frame) : State :=
  updTeam s tm.id fun tm =>
    let n := tm.swarms.foldl (fun m sw => max m (sw.num + 1)) 64
    { tm with swarms := tm.swarms ++ [{ newSwarm n k issuer fr with slot := foragerSlot s tm.core }] }

/-- R217: the issuing swarm of a read. -/
def readIssuer (tm : Team) (o : EngOp) : Nat :=
  if o.walked then (match liveSwarms tm with
    | sw :: _ => sw.num
    | [] => o.issuer)
  else o.issuer

/-- R220: lane `m` of a forager with its burst. -/
def foragerLane (o : EngOp) (n : Nat) (fr : Frame) (m : Nat) (b : Nat × List Byte) : Frame :=
  let (x, y, len) := burstAt o b.1
  let sz := elemSize o.ctl
  let rows := bytesWords (sz / 4) (b.2.take len ++ List.replicate (sz - len) 0)
  let fr1 := (List.range (sz / 4)).foldl (fun f k => setReg f m k (nth 0 rows k)) fr
  updLane fr1 m fun l =>
    { l with bx := BitVec.ofNat 32 x, by_ := BitVec.ofNat 32 y, bseq := BitVec.ofNat 32 b.1, btag := BitVec.ofNat 32 n,
             bn := BitVec.ofNat 32 len }

/-- R219, R220: the oldest closed window of a read starts a forager swarm. -/
def foragerFrame (s : State) (t : TeamId) (o : EngOp) (w : List (Nat × List Byte)) : Frame :=
  let fr := freshFrame (nth 0 o.body 3) (body o.body 1 / 2 ^ 54) 0 (gridXlgw s t)
  let lanes := fr.lanes.mapIdx fun i l => { l with exited := decide (w.length ≤ i) }
  (w.mapIdx fun m b => (m, b)).foldl (fun f x => foragerLane o o.n f x.1 x.2) { fr with lanes := lanes }

def execForagerStart (t : TeamId) (c n : Nat) (s : State) : Host.Outcome State Fault Refusal :=
  .next (match findTeam s t with
    | none => s
    | some tm =>
      match findOp (engOf tm c) n with
      | none => s
      | some o =>
        match o.closedW with
        | [] => s
        | (no, w) :: r =>
          if !onCore tm || !firstClosed s tm.core no || !slotFree s tm.core (body o.body 1 / 2 ^ 54) then s
          else addSwarm (updOp s t c n fun o => { o with closedW := r }) tm (.forager c n) (readIssuer tm o) (foragerFrame s t o w))

/-- R222: every burst is counted and every forager has ended. -/
def finalReady (tm : Team) (c : Nat) (o : EngOp) : Bool :=
  o.stat == 2 && finalDue o && o.arrived == o.count && o.flight.isEmpty && o.window.isEmpty && o.closedW.isEmpty &&
  (readSwarms tm c o.n).all fun sw => sw.ended

def execFinalHandlerStart (t : TeamId) (c n : Nat) (s : State) : Host.Outcome State Fault Refusal :=
  .next (match findTeam s t with
    | none => s
    | some tm =>
      match findOp (engOf tm c) n with
      | none => s
      | some o =>
        let v := body o.body 1 / 2 ^ 44 % 1024
        if !onCore tm || !finalReady tm c o || !slotFree s tm.core v then s
        else
          let fr := freshFrame (nth 0 o.body 4) v 0 (gridXlgw s t)
          let lane0 (l : Lane) : Lane := { l with bseq := BitVec.ofNat 32 o.count, btag := BitVec.ofNat 32 n }
          let lanes := fr.lanes.mapIdx fun i l => if i = 0 then lane0 l else { l with exited := true }
          addSwarm (updOp s t c n fun o => { o with finalOn := true }) tm (.final c n) (readIssuer tm o) { fr with lanes := lanes })

end Sys2Proof.Machine
end

