-- ==== Sys2Proof/Machine/Matrix.lean ====
section
/-!
DEFINITION. The matrix engine (R231 to R247): panels and their expansion, MMA and MMAZ step by step, weight loads,
accumulator images, bindings and drains, tile-task records and tile tasks.
-/
namespace Sys2Proof.Machine

/-! ### Panels (R233 to R235) -/

/-- R234: units and bytes of a panel by format. -/
def panelUnits : Nat → Nat
  | 2 => 16
  | 3 | 4 => 8
  | 5 => 5
  | 6 => 4
  | _ => 0
def panelBytes : Nat → Nat
  | 2 => 4096
  | 3 | 4 => 2048
  | 5 => 1088
  | 6 => 832
  | _ => 0

/-- R233: the format, element size and steps per tile of an A type. -/
def aFmt : AType → Fmt
  | .bf16 => fBf16
  | .e4m3 => fE4m3
  | .e5m2 => fE5m2

/-- R234, R235: element (k, n) of a panel's bytes, expanded to BF16. -/
def panelElem (f : Nat) (b : Nat → Nat) (k n : Nat) : Nat × Flags :=
  let le (i len : Nat) : Nat := ((List.range len).map fun j => b (i + j) * 256 ^ j).sum
  match f with
  | 2 => (le (2 * (32 * n + k)) 2, 0)
  | 3 => cvtFF fE4m3 fBf16 .rne false (b (32 * n + k))
  | 4 => cvtFF fE5m2 fBf16 .rne false (b (32 * n + k))
  | 5 => expandQ (sInt 4 (le (16 * n) 16 / 2 ^ (4 * k))) (b (1024 + n))
  | _ => expandQ (sInt 3 (le (12 * n) 12 / 2 ^ (3 * k))) (b (768 + n))

/-- The 64 columns of a panel, each of 32 data, and the flags of the expansion. -/
def panelCols (f : Nat) (b : Nat → Nat) : List (List FV) × Flags :=
  let col (n : Nat) : List (Nat × Flags) := (List.range 32).map fun k => panelElem f b k n
  let cs := (List.range 64).map col
  (cs.map fun c => c.map fun x => unpackF fBf16 x.1, cs.foldl (fun m c => c.foldl (fun m x => m ||| x.2) m) 0)

/-- The 128 rows of panel `j` of A in tiles from tile `t0` on (R69, R233). -/
def rowsTile (fr : Frame) (t : AType) (t0 j : Nat) : List (List FV) :=
  let q := aPerTile t
  let base := 2048 - 256 * (t0 + j / q + 1) + 32 * (j % q)
  (List.range 128).map fun m => (List.range 32).map fun k =>
    unpackF (aFmt t) (rawBytes fr (m / 4) (base + 64 * (m % 4) + aSize t * k) (aSize t))

/-- 32 elements of A in the order of their bytes. -/
def rowOfBytes (t : AType) (bs : List Byte) : List FV :=
  (List.range 32).map fun k => unpackF (aFmt t) (bytesVal ((bs.drop (aSize t * k)).take (aSize t)))

/-- The 128 rows of a scratchpad panel (R233). -/
def rowsBytes (t : AType) (bs : List Byte) : List (List FV) :=
  (List.range 128).map fun m => rowOfBytes t ((bs.drop (32 * aSize t * m)).take (32 * aSize t))

/-- R238, R44, R45: one K step into the accumulator whose element (0, 0) has key `base`. -/
def kStep (base : Nat) (rows cols : List (List FV)) (acc : Tab 32) : Tab 32 × Flags :=
  let one (m : Nat) (row : List FV) (st : Tab 32 × Flags) (c : Nat × List FV) : Tab 32 × Flags :=
    let key := base + 64 * m + c.1
    let (x, f) := dotFV fF32 .rne false (row.zip c.2) (unpackF fF32 (acc.get key).toNat)
    (st.1.set key (BitVec.ofNat 32 x), st.2 ||| f)
  let cs := cols.mapIdx fun n c => (n, c)
  (rows.mapIdx fun m r => (m, r)).foldl (fun st r => cs.foldl (one r.1 r.2) st) (acc, 0)

/-! ### What a team holds (R231, R232) -/

/-- The tag of unit `t` of a panel of a format (R231). -/
def tagWord (f t : Nat) : BitVec 16 := BitVec.ofNat 16 (0x8000 + f * 256 + t)

/-- R238: the format and first unit of panel `j` of a word that names unit `u`, or $trapa of its fault. -/
def panelAt (tm : Team) (u j : Nat) : Except Nat (Nat × Nat) :=
  let t0 := (tm.tags.get u).toNat
  let f := t0 / 256 % 32
  let n := if t0 < 0x8000 then 0 else panelUnits f
  let p := u + j * n
  if n = 0 || t0 % 16 != 0 || decide (256 * tm.acnt < p + n) ||
      (List.range n).any fun t => tm.tags.get (p + t) != tagWord f t then .error (j * 2 ^ 32 + p)
  else .ok (f, p)

/-- The units that a word of `s` steps from unit `u` uses, by the tag of that unit. -/
def unitsUsed (tm : Team) (u s : Nat) : Nat :=
  let t0 := (tm.tags.get u).toNat
  if t0 < 0x8000 then 1 else max 1 (s * panelUnits (t0 / 256 % 32))

/-- What a word of the chapter uses: an accumulator, and a range of units. -/
structure MatUse where
  acc  : Option Nat
  unit : Nat
  n    : Nat
deriving DecidableEq, Repr

def MatUse.meets (a b : MatUse) : Bool :=
  (a.acc.isSome && a.acc == b.acc) || decide (a.unit < b.unit + b.n ∧ b.unit < a.unit + a.n)

/-- R232: an MMA or MMAZ of another swarm of the team is in progress on what a word uses. -/
def mmaBusy (tm : Team) (sw : Nat) (u : MatUse) : Bool :=
  tm.mmas.any fun r => r.swarm != sw && u.meets ⟨some r.acc, r.unit, r.count⟩

/-- What a logged word of the chapter uses. -/
def useOf (e : LogEntry) : Option MatUse :=
  match e.ins, recOf e e.flane with
  | .wbld _ _, some r => some ⟨none, (nth 0 r.data 2).toNat, (nth 0 r.data 1).toNat * panelUnits (nth 0 r.data 0).toNat⟩
  | .accld _ o, _ | .accst _ o, _ | .epil o, _ | .accdr _ _ o, _ => some ⟨some (opIdx o.d), 0, 0⟩
  | _, _ => none

/-- R232: another word of the team is in flight on what a word uses: one that is being performed, or another swarm's
that has faulted and is to be issued again. -/
def wordBusy (tm : Team) (sw : Nat) (u : MatUse) : Bool :=
  tm.swarms.any fun x => ((progFrame x).log ++ (if x.hidden.isSome then x.frame.log else [])).any fun e =>
    (e.away != 0 || (e.faulted != 0 && x.num != sw)) &&
    (match useOf e with
    | some v => u.meets v
    | none => false)

/-- R232: the matrix-use trap. -/
def matrixUse (c : Ctx) (s : State) : State := undoTrap c s 0x0C c.f.pc

def updTile (s : State) (t : TeamId) (sw : Nat) (f : Nat → Nat) : State :=
  updFrame s t sw fun fr => { fr with cTile := f fr.cTile }

/-! ### MMAZ and MMA (R237 to R239) -/

/-- R233: the offset of a scratchpad panel of `n` bytes, or its fault. -/
def spadPanel (s : State) (tm : Team) (a0 a n : Nat) : Except Nat (TeamId × Nat) :=
  if 2 ^ 23 ≤ a then .error 0x10
  else if a0 % 16 ≠ 0 then .error 0x11
  else match windowTeam s tm (a / 2 ^ 19) with
  | some x => if a % 2 ^ 19 + n ≤ x.spadSz then .ok (x.id, a % 2 ^ 19) else .error 0x12
  | none => .error 0x12

/-- The run of a swarm is forgotten. -/
def dropRun (c : Ctx) (s : State) : State :=
  updTeam s c.f.team fun tm => { tm with mmas := tm.mmas.filter fun r => r.swarm != c.f.swarm }

/-- The word is in progress: it stands with the team under its swarm. -/
def noteRun (c : Ctx) (r : MmaRun) (s : State) : State :=
  updTeam s c.f.team fun tm => { tm with mmas := (tm.mmas.filter fun x => x.swarm != c.f.swarm) ++ [r] }

/-- R238: one K step of a word: panel `j`, the products, the flags into lane 0. -/
def mmaElem (c : Ctx) (acc : Nat) (rows : List (List FV)) (f p j : Nat) (s : State) : State :=
  let _ := j
  match findTeam s c.f.team with
  | none => s
  | some tm =>
    let (cols, f0) := panelCols f fun i => (tm.units.get (256 * p + i)).toNat
    let (accs, f1) := kStep (8192 * acc) rows cols tm.accs
    updFrame (updTeam s c.f.team fun tm => { tm with accs := accs }) c.f.team c.f.swarm fun fr => orFlags fr 0 (f0 ||| f1)

/-- R238: MMAZ zeroes the accumulator before its first step. -/
def zeroAcc (acc : Nat) (t : Tab 32) : Tab 32 := t.filter fun x => x.1 / 8192 != acc

/-- R238: one K step of MMA or MMAZ, or the stop that a check makes. -/
def mmaEff (zero : Bool) (t : AType) (sp : Bool) (i : Instr) (o : Wd) (c : Ctx) (s1 : State) : State :=
  let fr := c.sw.frame
  let ln := (lowest c.act).getD 0
  let j := fr.prog.toNat
  let (n, u) := stepsUnit fr ln o.b
  let acc := opIdx o.d
  let stop (cause ta : Nat) (s : State) : State := dropRun c (formFault c s j cause 0 (BitVec.ofNat 64 ta))
  if c.sw.kind ≠ .team then matrixUse c s1
  else if !sp && decide (fr.tcnt < opIdx o.a + ceilDiv n (aPerTile t)) then undoTrap c s1 0x06 c.f.pc 1
  else if n ≤ j then dropRun c (macroStep c n (fun _ s => s) s1)
  else
    let s1 := noteRun c ⟨c.f.swarm, i, acc, u, unitsUsed c.tm u n⟩ s1
    if sp && stillOpen fr 0xFFFFFFFF fun _ _ => true then holdSwarm c s1
    else
    let z (tm : Team) : Team := if zero && j == 0 then { tm with accs := zeroAcc acc tm.accs } else tm
    let s2 := updTeam s1 c.f.team z
    match panelAt c.tm u j with
    | .error ta => stop 0x1A ta s2
    | .ok (f, p) =>
      let a0 := (opPair fr ln o.a).toNat
      let size := 4096 * aSize t
      let a := (a0 + j * size) % 2 ^ 64
      let rows : Except Nat (List (List FV)) :=
        if sp then (match spadPanel s2 c.tm a0 a size with
          | .error ca => .error ca
          | .ok (v, off) => .ok (rowsBytes t (spadRead s2 v off size)))
        else .ok (rowsTile fr t (opIdx o.a) j)
      match rows with
      | .error ca => stop ca (if ca = 0x11 then a0 else a) s2
      | .ok rs =>
        let s3 := macroStep c n (mmaElem c acc rs f p) s2
        if j + 1 = n then dropRun c s3 else s3

/-- R232: a word that is not yet in progress waits for the words that use its accumulator or units. -/
def mmaWaits (o : Wd) (c : Ctx) (_ : State) : Bool :=
  let (n, u) := stepsUnit c.sw.frame ((lowest c.act).getD 0) o.b
  let use : MatUse := ⟨some (opIdx o.d), u, unitsUsed c.tm u n⟩
  c.sw.kind == .team && !(c.tm.mmas.any fun r => r.swarm == c.f.swarm) && (mmaBusy c.tm c.f.swarm use || wordBusy c.tm c.f.swarm use)

/-- R233, R54: with t-view A and an immediate count, check 6 covers every tile the word reads. -/
def mmaFields (t : AType) (sp : Bool) (i : Instr) (o : Wd) : FS × FS × FS :=
  let (d, a, b) := i.fields
  match sp, o.b with
  | false, .imm x => (d, { a with n := ceilDiv (x.toNat / 2 ^ 11 % 128 + 1) (aPerTile t) }, b)
  | _, _ => (d, a, b)

def runMma (zero : Bool) (t : AType) (sp : Bool) (i : Instr) (o : Wd) (s : State) : Host.Outcome State Fault Refusal :=
  runWait (mmaWaits o) i o .prog (fun _ => none) (fun _ => mmaFields t sp i o) (mmaEff zero t sp i o) s

def execMmaz (t : AType) (sp : Bool) (o : Wd) (s : State) : Host.Outcome State Fault Refusal :=
  runMma true t sp (.mmaz t sp o) o s
def execMma (t : AType) (sp : Bool) (o : Wd) (s : State) : Host.Outcome State Fault Refusal :=
  runMma false t sp (.mma t sp o) o s

/-- R238, R239: the engine completes one K step of a word in progress. -/
def execMmaKStep (t : TeamId) (sw : Nat) (s : State) : Host.Outcome State Fault Refusal :=
  match findTeam s t with
  | none => .next s
  | some tm =>
    match tm.mmas.find? fun r => r.swarm == sw, findSwarm tm sw with
    | some r, some x =>
      (match x.frame.macroAt with
      | some (pc, m) =>
        if tm.st = .frozen ∨ !onCore tm ∨ x.stopped then .next s
        else
          let s1 := { s with focus := some ⟨t, sw, m, pc⟩ }
          (match r.ins with
          | .mmaz ty sp o => execMmaz ty sp o s1
          | .mma ty sp o => execMma ty sp o s1
          | _ => .next s)
      | none => .next s)
    | _, _ => .next s

/-! ### Words that act once and fault through the operand log (R321) -/

/-- What performing such a word comes to. -/
inductive Once where
  | done (s : State)
  | wait (s : State)
  | bad (s : State) (b : SpanBad)

/-- The operand-log entry of such a word, with its lane's operands; `b` is the fault it met. -/
def onceEntry (fr : Frame) (i : Instr) (pc : DWord) (ln : Nat) (va : DWord) (data : List Word) (b : SpanBad) : LogEntry where
  num := freeNum fr
  seq := fr.seq
  ins := i
  addr := pc
  todo := 0
  away := 0
  done := 0
  faulted := bit32 ln
  cause := BitVec.ofNat 8 b.cause
  stage := b.stage
  flane := ln
  recs := [{ lane := ln, va := va, data := data, cmp := BitVec.ofNat 64 b.addr, place := none, fwd := false }]
  wp := b.wp
  again := false
  word := fr.seq

/-- The word is done, waits at its address, or stands in the log with its fault. -/
def onceEnd (i : Instr) (va : DWord) (data : List Word) (c : Ctx) (r : Once) : State :=
  match r with
  | .done s => dropBufs s c.f.team (wordKey c.f.swarm)
  | .wait s => standAt c s
  | .bad s b =>
    let ln := (lowest c.act).getD 0
    let s1 := dropBufs s c.f.team (wordKey c.f.swarm)
    let s2 := updFrame s1 c.f.team c.f.swarm fun fr => addEntry fr (onceEntry fr i c.f.pc ln va data b)
    violate s2 c.tm (.core c.tm.core) b.cause b.stage

/-- Such a word waits for a log entry, for its lane's earlier accesses, for the tile counter, and for the words in
flight on what it uses (R161, R214, R232, R321). -/
def onceWaits (u : Ctx → MatUse) (c : Ctx) (_ : State) : Bool :=
  c.sw.kind == .team && !mmaBusy c.tm c.f.swarm (u c) &&
  (logFull c.sw.frame || c.sw.frame.cTile == 15 || wordBusy c.tm c.f.swarm (u c) ||
   stillOpen c.sw.frame (bit32 ((lowest c.act).getD 0)) fun _ _ => true)

def runOnce (i : Instr) (o : Wd) (sl : Ctx → SlotNeed) (u : Ctx → MatUse) (eff : Ctx → State → State) (s : State) :
    Host.Outcome State Fault Refusal :=
  runWait (onceWaits u) i o .prog sl (fun _ => i.fields)
    (fun c s1 => if c.sw.kind != .team || mmaBusy c.tm c.f.swarm (u c) then matrixUse c s1 else eff c s1) s

/-- The form and alignment of an address (R146): 0x10 before 0x11. -/
def formBad (a align : Nat) : Option SpanBad :=
  if 2 ^ 57 ≤ a then some ⟨0x10, 0, a, none⟩ else if a % align ≠ 0 then some ⟨0x11, 0, a, none⟩ else none

/-! ### WBLD (R236) -/

/-- The bytes of panels laid into units, each panel zero-filled to whole units. -/
def unitBytes (f s : Nat) (bs : List Byte) : List Byte :=
  (List.range s).flatMap fun j =>
    let p := (bs.drop (j * panelBytes f)).take (panelBytes f)
    p ++ List.replicate (256 * panelUnits f - p.length) 0

def putPanels (f s u : Nat) (bs : List Byte) (tm : Team) : Team :=
  let tag (tg : Tab 16) (i : Nat) : Tab 16 := tg.set (u + i) (tagWord f (i % panelUnits f))
  { tm with units := setBytes tm.units (256 * u) (unitBytes f s bs),
            tags := (List.range (s * panelUnits f)).foldl tag tm.tags }

def wbldDo (s : State) (tm : Team) (sw : Nat) (lv : Level) (skip : Option Nat) (a f n u : Nat) : Once :=
  match formBad a 64 with
  | some b => .bad s b
  | none =>
    match readSpan s tm lv ⟨.read, true, false, skip⟩ (wordKey sw) (some plainQ) a (n * panelBytes f) with
    | .ok s1 bs => .done (updTeam s1 tm.id (putPanels f n u bs))
    | .wait s1 => .wait s1
    | .bad s1 b => .bad s1 b

def wbldUse (slot : BitVec 3) (o : Wd) (c : Ctx) : MatUse :=
  let (n, u) := stepsUnit c.sw.frame ((lowest c.act).getD 0) o.b
  ⟨none, u, n * panelUnits (slotFmt (slotOf c slot))⟩

def execWbld (slot : BitVec 3) (o : Wd) (s : State) : Host.Outcome State Fault Refusal :=
  let i : Instr := .wbld slot o
  runOnce i o (fun _ => some (slot, fun f => panelUnits f != 0)) (wbldUse slot o) (fun c s1 =>
    let ln := (lowest c.act).getD 0
    let f := slotFmt (slotOf c slot)
    let (n, u) := stepsUnit c.sw.frame ln o.b
    let va := opPair c.sw.frame ln o.a
    if 256 * c.tm.acnt < u + n * panelUnits f then matrixUse c s1
    else onceEnd i va [BitVec.ofNat 32 f, BitVec.ofNat 32 n, BitVec.ofNat 32 u] c
      (wbldDo s1 c.tm c.f.swarm (execLevel c.tm c.sw) none va.toNat f n u)) s

/-! ### ACCST and ACCLD (R240, R241) -/

/-- Elements (0, 0) to (127, 63) of an accumulator, from the words of its image. -/
def putAcc (acc : Nat) (ws : List Word) (tm : Team) : Team :=
  { tm with accs := (ws.mapIdx fun k w => (k, w)).foldl (fun t x => t.set (8192 * acc + x.1) x.2) (zeroAcc acc tm.accs) }

def accldDo (s : State) (tm : Team) (sw : Nat) (lv : Level) (skip : Option Nat) (q : MemQ) (acc a : Nat) : Once :=
  match formBad a 64 with
  | some b => .bad s b
  | none =>
    match readSpan s tm lv ⟨.read, true, false, skip⟩ (wordKey sw) (some { q with cls := .none }) a 32832 with
    | .wait s1 => .wait s1
    | .bad s1 b => .bad s1 b
    | .ok s1 bs =>
      let h := bytesVal (bs.take 64)
      if h / 2 ^ 32 % 256 ≠ 1 ∨ h / 2 ^ 44 ≠ 0 then .bad s1 ⟨0x19, 0, a, none⟩
      else
        let s2 := updTeam s1 tm.id (putAcc acc (bytesWords 8192 (bs.drop 64)))
        .done (if q.ord = .acq then acquire s2 tm.core q.scope else s2)

def accUse (o : Wd) (_ : Ctx) : MatUse := ⟨some (opIdx o.d), 0, 0⟩

def execAccld (q : MemQ) (o : Wd) (s : State) : Host.Outcome State Fault Refusal :=
  let i : Instr := .accld q o
  runOnce i o (fun _ => none) (accUse o) (fun c s1 =>
    let va := laneAddr c.sw.frame o ((lowest c.act).getD 0)
    onceEnd i va [] c (accldDo s1 c.tm c.f.swarm (execLevel c.tm c.sw) none q (opIdx o.d) va.toNat)) s

/-- The image of an accumulator (R240). -/
def accImage (tm : Team) (acc : Nat) (prog : Word) : List Byte :=
  valBytes 64 (prog.toNat + 2 ^ 32 + acc * 2 ^ 40) ++
    wordBytes ((List.range 8192).map fun k => tm.accs.get (8192 * acc + k))

/-- The key of the writes of a swarm's entry that go outside the package. -/
def entryKey (sw n : Nat) : Nat := 8 * sw + n + 1

/-- ACCST: its writes, each of 4 bytes or more of one line, at the scope. The entry `n` stands while requests are out. -/
def accstDo (s : State) (tm : Team) (sw : Nat) (lv : Level) (skip : Option Nat) (q : MemQ) (acc a n : Nat) (prog : Word) : Once :=
  match formBad a 64 with
  | some b => .bad s b
  | none =>
    match locateSpan s tm lv ⟨.write, false, true, skip⟩ a 32832 with
    | (s1, .error b) => .bad s1 b
    | (s1, .ok ps) =>
      match postWay s1 tm ps with
      | .fault c => .bad s1 ⟨c, 0, a, none⟩
      | .wait => .wait s1
      | _ =>
        let s2 := if q.ord = .rel then release s1 tm.core q.scope else s1
        .done (postParts tm (entryKey sw n) (fun s p bs => writePlace s tm.id tm.core q p bs) s2 ps (accImage tm acc prog))

/-- Requests of a writer's key are out. -/
def postsOut (s : State) (t : TeamId) (key : Nat) : Bool := s.link.reqs.any fun r => r.who == .post t key

/-- The entry of a word whose writes are still out: its lane is away, and the tile counter stands raised. -/
def outEntry (fr : Frame) (i : Instr) (pc : DWord) (ln : Nat) (va : DWord) (data : List Word) : LogEntry :=
  { onceEntry fr i pc ln va data ⟨0, 0, 0, none⟩ with away := bit32 ln, faulted := 0 }

def execAccst (q : MemQ) (o : Wd) (s : State) : Host.Outcome State Fault Refusal :=
  let i : Instr := .accst q o
  runOnce i o (fun _ => none) (accUse o) (fun c s1 =>
    let fr := c.sw.frame
    let ln := (lowest c.act).getD 0
    let va := laneAddr fr o ln
    let prog := (progFrame c.sw).prog
    let n := freeNum fr
    let r := accstDo s1 c.tm c.f.swarm (execLevel c.tm c.sw) none q (opIdx o.d) va.toNat n prog
    match r with
    | .done s2 =>
      if postsOut s2 c.f.team (entryKey c.f.swarm n) then
        updTile (updFrame s2 c.f.team c.f.swarm fun fr => addEntry fr (outEntry fr i c.f.pc ln va [prog])) c.f.team c.f.swarm (· + 1)
      else s2
    | r => onceEnd i va [prog] c r) s

/-! ### EPIL (R242, R259) -/

/-- R259: the first offending word of a program. -/
def progBad (ws : List (BitVec 32)) : Option Nat :=
  let is := ws.map decodeEpi
  let stop := (is.findIdx? fun i => i == some .eStop)
  let next := (is.findIdx? fun i => i == some .eNext)
  let bad (k : Nat) : Bool := match nth none is k with
    | none => true
    | some .eNext => next != some k || (match stop with
      | some m => decide (m < k)
      | none => false)
    | some _ => false
  match (List.range ws.length).find? bad, stop with
  | some k, _ => some k
  | none, none => some (ws.length - 1)
  | none, some _ => none

/-- R260: a program and a slot that do not fit. -/
def progSlotBad (ws : List (BitVec 32)) (slot : Word) : Bool :=
  let mx : Bool := slotFmt slot == 0x11 || slotFmt slot == 0x12
  ws.any fun w => match decodeEpi w with
    | some (.eBscale _) | some (.eQ8 _ _) | some (.eSts _) => !mx
    | some (.eCvt _ _) => mx
    | _ => false

def epilDo (s : State) (tm : Team) (sw : Nat) (lv : Level) (skip : Option Nat) (acc a n : Nat) : Once :=
  match formBad a 4 with
  | some b => .bad s b
  | none =>
    match readSpan s tm lv ⟨.read, true, false, skip⟩ (wordKey sw) (some plainQ) a (4 * n) with
    | .wait s1 => .wait s1
    | .bad s1 b => .bad s1 b
    | .ok s1 bs =>
      let ws := bytesWords n bs
      match progBad ws with
      | some k => .bad s1 ⟨0x1B, 0, a + 4 * k, none⟩
      | none => .done (updTeam s1 tm.id fun tm => { tm with binds := (acc, ws) :: tm.binds.filter fun b => b.1 != acc })

def execEpil (o : Wd) (s : State) : Host.Outcome State Fault Refusal :=
  let i : Instr := .epil o
  runOnce i o (fun _ => none) (accUse o) (fun c s1 =>
    let va := opPair c.sw.frame ((lowest c.act).getD 0) o.a
    let n := o.b.immVal.toNat
    onceEnd i va [BitVec.ofNat 32 n] c
      (epilDo s1 c.tm c.f.swarm (execLevel c.tm c.sw) none (opIdx o.d) va.toNat n)) s

/-! ### ACCDR (R243) -/

/-- The formats that an output slot may have (R243). -/
def outFmt (f : Nat) : Bool := f ≤ 4 || f == 8 || f == 0xC || f == 0x11 || f == 0x12

/-- The element size of an output slot (R258). -/
def outSize (slot : Word) : Nat := if slotFmt slot = 0 then 4 else if slotFmt slot ≤ 2 then 2 else 1

def bindOf (tm : Team) (acc : Nat) : Option (List (BitVec 32)) := (tm.binds.find? fun b => b.1 == acc).map fun b => b.2

/-- The offsets within a row at which a program's e.st words write. -/
def stOffs (ws : List (BitVec 32)) : List Nat := ws.filterMap fun w => match decodeEpi w with
  | some (.eSt _ k) => some k.toNat
  | _ => none

/-- R243: the physical lines that the e.st words of a drain write. -/
def drainLines (s : State) (tm : Team) (lv : Level) (d : Drain) : List Nat :=
  (List.range (128 - d.row)).flatMap fun m => (stOffs d.prog).flatMap fun k =>
    let a := (d.base.toNat + (d.row + m) * d.pitch + k) % 2 ^ 64
    match (locateSpan s tm lv ⟨.write, false, false, none⟩ a (64 * outSize d.slot)).2 with
    | .ok ps => ps.map fun p => placeAddr p.1 / 128
    | .error _ => []

/-- R243, R262: at issue the core's dirty SWC bytes are written back, and its copies of the lines that the drain's e.st
words write are dropped, written back first; those of e.sts go as it writes (assumption 102). -/
def beforeDrain (s : State) (tm : Team) (lv : Level) (d : Drain) : State :=
  let s1 := swcRelease s tm.core
  (drainLines s1 tm lv d).eraseDups.foldl (fun s l => dropOwn s tm.core l) s1

/-- A drain at its start or its re-issue (R250): registers clear, and the setup part, if any, still to run. -/
def newDrain (tm : Team) (sw : Nat) (lv : Level) (acc : Nat) (base : DWord) (pitch : Nat) (slot : Word) (sat : Bool)
    (ws : List (BitVec 32)) (row entry : Nat) : Drain where
  team := tm.id
  swarm := sw
  lvl := lv
  acc := acc
  task := none
  base := base
  pitch := pitch
  slot := slot
  sat := sat
  prog := ws
  row := row
  ip := none
  inSetup := ws.any fun w => decodeEpi w == some .eNext
  y := []
  sreg := []
  esc0 := 0x7F
  esc1 := 0x7F
  ySnap := []
  sSnap := []
  flags := 0
  entry := entry

/-- R243: a drain starts at a row: its entry stands in the log and the tile counter is raised. -/
def startDrain (s : State) (tm : Team) (sw : Nat) (lv : Level) (d : Drain) (e : LogEntry) : State :=
  let s1 := beforeDrain s tm lv d
  updTile (updFrame { s1 with drains := s1.drains ++ [d] } tm.id sw fun fr => addEntry fr e) tm.id sw (· + 1)

def execAccdr (slot : BitVec 3) (sat : Bool) (o : Wd) (s : State) : Host.Outcome State Fault Refusal :=
  let i : Instr := .accdr slot sat o
  let waits (c : Ctx) (_ : State) : Bool :=
    let use := accUse o c
    c.sw.kind == .team && !mmaBusy c.tm c.f.swarm use &&
    (logFull c.sw.frame || c.sw.frame.cTile == 15 || wordBusy c.tm c.f.swarm use)
  runWait waits i o .prog (fun _ => some (slot, outFmt)) (fun _ => i.fields) (fun c s1 =>
    let fr := c.sw.frame
    let ln := (lowest c.act).getD 0
    let acc := opIdx o.d
    match bindOf c.tm acc with
    | none => matrixUse c s1
    | some ws =>
      let d := slotOf c slot
      let pitch := match o.b with
        | .imm x => 16 * x.toNat
        | b => (op32 fr ln b).toNat
      let va := opPair fr ln o.a
      let data := [BitVec.ofNat 32 pitch, 0]
      let lv := execLevel c.tm c.sw
      if c.sw.kind != .team || mmaBusy c.tm c.f.swarm (accUse o c) then matrixUse c s1
      else if progSlotBad ws d then undoTrap c s1 0x07 (BitVec.ofNat 64 slot.toNat)
      else if pitch % 4 ≠ 0 then onceEnd i va data c (.bad s1 ⟨0x11, 0, pitch, none⟩)
      else
        let dr := newDrain c.tm c.f.swarm lv acc va pitch d (sat || slotSat d) ws 0 (freeNum fr)
        startDrain s1 c.tm c.f.swarm lv dr (outEntry fr i c.f.pc ln va data)) s

/-! ### Tile-task records (R244) -/

def trCtx (r : Nat) : Nat := rbits r 190 188
def trSteps (r : Nat) : Nat := rbits r 63 57 + 1
def trType (r : Nat) : AType := if rbits r 122 121 = 0 then .bf16 else if rbits r 122 121 = 1 then .e4m3 else .e5m2
/-- Dependences in force: context and value. -/
def trDeps (r : Nat) : List (Nat × Nat) :=
  (if r.testBit 387 then [(rbits r 386 384, rbits r 351 320)] else []) ++
  (if r.testBit 391 then [(rbits r 390 388, rbits r 383 352)] else [])

/-- R244: a malformed record, for the number it will take and the grid's slots. -/
def recBad (slots : List Word) (r seq : Nat) : Bool :=
  let b := nth 0 slots (rbits r 125 123)
  let c := nth 0 slots (rbits r 187 185)
  rbits r 415 412 != 0 || rbits r 399 392 != 0 || r.testBit 255 || r.testBit 191 || rbits r 127 126 != 0 ||
  rbits r 122 121 == 3 || !(slotLegal b && panelUnits (slotFmt b) != 0) || !(slotLegal c && outFmt (slotFmt c)) ||
  rbits r 319 288 % 4 != 0 || rbits r 287 256 % 16 != 0 || rbits r 248 192 % 4 != 0 || rbits r 120 64 % 64 != 0 ||
  rbits r 56 0 % 16 != 0 || (trDeps r).any fun d => d.1 == trCtx r && decide (seq ≤ d.2)

/-- R246: the records that a cluster holds waiting. -/
def tasksWaiting (s : State) (clus : Nat) : List TileTask := s.tasks.filter fun x => x.clus == clus && x.core.isNone

/-- R246: `n` more records of a slice fit: 256 in a cluster, 32 of them kept for each slice that has the cluster. -/
def taskRoom (s : State) (tm : Team) (n : Nat) : Bool :=
  let clus := clusOf tm.core
  let ws := tasksWaiting s clus
  let of_ (p k : Nat) : Nat := (ws.filter fun x => match findTeam s x.team with
    | some t => t.part == p && t.slice == k
    | none => false).length
  let kept := (s.parts.flatMap fun p => p.slices.map fun k => (p.num, k)).filterMap fun x =>
    if x.2.clus.getLsbD clus && !(x.1 == tm.part && x.2.num == tm.slice) then some (32 - of_ x.1 x.2.num) else none
  decide (ws.length + n + kept.sum ≤ 256)

/-! ### TTASK (R247) -/

/-- A record read and checked: its address, its bits, and whether it counts as malformed. -/
abbrev TRec := Nat × Option Nat

/-- The records of the word, each none where it cannot be read; the last is none of all while an answer is out. -/
def readRecs (c : Ctx) (lv : Level) : Nat → State → Nat → State × Option (List TRec)
  | 0, s, _ => (s, some [])
  | n + 1, s, a =>
    let go (s : State) (r : Option Nat) : State × Option (List TRec) :=
      match readRecs c lv n s ((a + 64) % 2 ^ 64) with
      | (s1, some rs) => (s1, some ((a, r) :: rs))
      | (s1, none) => (s1, none)
    if a % 64 ≠ 0 then go s none
    else match readSpan s c.tm lv ⟨.rw, true, false, none⟩ (wordKey c.f.swarm) (some plainQ) a 64 with
    | .ok s1 bs => go s1 (some (bytesVal bs))
    | .wait s1 => (s1, none)
    | .bad s1 _ => go s1 none

/-- R247: the epilogue words of a record, as lane loads: none while an answer is out. -/
def readProg (s : State) (tm : Team) (lv : Level) (key : Nat) (via : Option MemQ) (r : Nat) : SpanRd :=
  readSpan s tm lv ⟨.read, via.isSome, false, none⟩ key via (rbits r 248 192) (4 * (rbits r 254 249 + 1))

/-- The records checked in order with the numbers they will take: the address of the first that is refused. -/
def checkRecs (c : Ctx) (lv : Level) : State → List Nat → List TRec → State × Option (Option Nat)
  | s, _, [] => (s, some none)
  | s, used, (a, r) :: rs =>
    match r with
    | none => (s, some (some a))
    | some x =>
      let k := trCtx x
      let seq := (engOf c.tm k).last + 1 + (used.filter fun j => j == k).length
      if recBad c.tm.fslots x seq then (s, some (some a))
      else match readProg s c.tm lv (wordKey c.f.swarm) (some plainQ) x with
      | .wait s1 => (s1, none)
      | .bad s1 _ => (s1, some (some a))
      | .ok s1 bs =>
        let ws := bytesWords (rbits x 254 249 + 1) bs
        if (progBad ws).isSome || progSlotBad ws (nth 0 c.tm.fslots (rbits x 187 185)) then (s1, some (some a))
        else checkRecs c lv s1 (used ++ [k]) rs

/-- STAT and FCODE of a record (R244). -/
def taskStat (s : State) (x : TileTask) (stat fcode : Nat) : State :=
  entryWrite s x.team x.lvl x.entry 50 [BitVec.ofNat 8 (stat + fcode % 16 * 16), BitVec.ofNat 8 (fcode / 16)]

/-- R247: one record takes its number and waits at the cluster's scheduler. -/
def appendTask (c : Ctx) (s : State) (r : Nat × Nat) : State :=
  let k := trCtx r.2
  match findTeam s c.f.team with
  | none => s
  | some tm =>
    let n := (engOf tm k).last + 1
    let e := BitVec.ofNat 64 r.1
    let op := { newOp c e false 0 [] n 0 with task := true }
    let x : TileTask :=
      { id := s.taskNo, team := c.f.team, swarm := c.f.swarm, lvl := op.lvl, clus := clusOf tm.core, ctx := k, seq := n,
        entry := e, trec := r.2, bslot := nth 0 tm.fslots (rbits r.2 125 123), cslot := nth 0 tm.fslots (rbits r.2 187 185),
        core := none, prog := none, acc := [], step := 0, finished := false, fcode := 0, flags := 0 }
    let s1 := updEng s c.f.team k fun e =>
      { e with last := n, ops := e.ops ++ [op], mode := if e.mode = .halted then .halted else .busy }
    let s2 := { s1 with tasks := s1.tasks ++ [x], taskNo := s1.taskNo + 1 }
    taskStat (entryWrite s2 c.f.team x.lvl e 56 (valBytes 8 n)) x 1 0

/-- R203: every context has room for the records that name it. -/
def ctxRoom (c : Ctx) (rs : List Nat) : Bool :=
  (List.range 8).all fun k => decide ((pendingOps (engOf c.tm k)).length + (rs.filter fun r => trCtx r == k).length ≤ 256)

def ttaskEff (q : MemQ) (o : Wd) (c : Ctx) (s1 : State) : State :=
  let lv := execLevel c.tm c.sw
  let n := o.b.immVal.toNat
  let a := (opPair c.sw.frame ((lowest c.act).getD 0) o.a).toNat
  let prog := c.sw.frame.prog.toNat
  let clear (s : State) : State := dropBufs s c.f.team (wordKey c.f.swarm)
  if c.sw.kind ≠ .team then matrixUse c s1
  else match readRecs c lv n s1 a with
  | (s2, none) => holdSwarm c s2
  | (s2, some rs) =>
    let ok := rs.filterMap fun r => r.2
    if ok.any fun r => (engOf c.tm (trCtx r)).mode == .closed then queueUse c (clear s2)
    else match checkRecs c lv s2 [] rs with
    | (s3, none) => holdSwarm c s3
    | (s3, some (some b)) => formFault c (clear s3) prog 0x16 0 (BitVec.ofNat 64 b)
    | (s3, some none) =>
      if appendWaits c || !ctxRoom c ok || !taskRoom s3 c.tm n then holdSwarm c s3
      else if ok.any fun r => decide (2 ^ 64 - 1 ≤ (engOf c.tm (trCtx r)).last + n) then queueUse c (clear s3)
      else
        let s4 := beforeAppend (clear s3) c
        let s5 := if q.ord = .rel then release s4 c.tm.core q.scope else s4
        let s6 := freeSwarm c ((rs.filterMap fun r => r.2.map fun x => (r.1, x)).foldl (appendTask c) s5)
        let last := match findTeam s6 c.f.team, ok.getLast? with
          | some tm, some r => (engOf tm (trCtx r)).last
          | _, _ => 0
        updFrame s6 c.f.team c.f.swarm fun fr => eachLane c.act fr fun ln fr => dst64 fr o ln (BitVec.ofNat 64 last)

def execTtask (q : MemQ) (o : Wd) (s : State) : Host.Outcome State Fault Refusal :=
  runWord (.ttask q o) o .prog (fun _ => none) (fun _ => (Instr.ttask q o).fields) (ttaskEff q o) s

/-! ### Tile tasks (R245, R246) -/

def updTask (s : State) (n : Nat) (f : TileTask → TileTask) : State :=
  { s with tasks := s.tasks.map fun x => if x.id == n then f x else x }

/-- R246: the dependences in force are met; one on a Closed context is. -/
def depsMet (tm : Team) (r : Nat) : Bool :=
  (trDeps r).all fun d => (engOf tm d.1).mode == .closed || decide (d.2 ≤ (engOf tm d.1).tl)

/-- R246, R327, R409: a waiting record may start: its team is on its core and not being saved, its engine set is not
frozen, and its dependences are met. -/
def taskReady (s : State) (x : TileTask) : Bool :=
  x.core.isNone && (match findTeam s x.team with
    | some tm => onCore tm && tm.st != .preempting && !isFrozen s (.eng tm.core) && depsMet tm x.trec
    | none => false)

/-- R231: accumulators of a core that no resident team reserves and no task has. -/
def accsLent (s : State) (core : Nat) : Nat :=
  8 - ((s.teams.filter fun tm => tm.core == core && onCore tm).map fun tm => tm.acnt).sum -
    (s.tasks.filter fun x => x.core == some core).length

/-- A task's work meets a fault: it ends without a drain (R246). -/
def taskFault (s : State) (x : TileTask) (cause stage : Nat) : State :=
  let s1 := updTask { s with drains := s.drains.filter fun d => d.task != some x.id } x.id fun x => { x with finished := true, fcode := cause }
  match findTeam s1 x.team with
  | some tm => violate s1 tm (.eng tm.core) cause stage
  | none => s1

def taskKey (n : Nat) : Nat := 100000 + n

/-- R245: the words at EPADDR are read and checked before the first step. -/
def taskBind (s : State) (tm : Team) (x : TileTask) : State :=
  match readProg s tm x.lvl (taskKey x.id) none x.trec with
  | .wait s1 => s1
  | .bad s1 b => taskFault s1 x b.cause b.stage
  | .ok s1 bs =>
    let ws := bytesWords (rbits x.trec 254 249 + 1) bs
    let s2 := dropBufs s1 tm.id (taskKey x.id)
    if (progBad ws).isSome || progSlotBad ws x.cslot then taskFault s2 x 0x1B 0
    else updTask s2 x.id fun x => { x with prog := some ws }

/-- The rows of panel `j` of A, read row by row. -/
def taskRows (tm : Team) (x : TileTask) (j : Nat) : Nat → State → SpanRd
  | 0, s => .ok s []
  | m + 1, s =>
    let z := aSize (trType x.trec)
    let a := (rbits x.trec 56 0 + m * rbits x.trec 287 256 + 32 * j * z) % 2 ^ 64
    match taskRows tm x j m s with
    | .ok s1 bs =>
      (match readSpan s1 tm x.lvl ⟨.read, false, false, none⟩ (taskKey x.id) none a (32 * z) with
      | .ok s2 cs => .ok s2 (bs ++ cs)
      | r => r)
    | .wait s1 =>
      (match readSpan s1 tm x.lvl ⟨.read, false, false, none⟩ (taskKey x.id) none a (32 * z) with
      | .bad s2 b => .bad s2 b
      | .ok s2 _ => .wait s2
      | .wait s2 => .wait s2)
    | r => r

/-- R245: one K step of a task. -/
def taskStep (s : State) (tm : Team) (x : TileTask) : State :=
  let j := x.step
  let f := slotFmt x.bslot
  let a := (rbits x.trec 120 64 + j * panelBytes f) % 2 ^ 64
  match taskRows tm x j 128 s with
  | .wait s1 => s1
  | .bad s1 b => taskFault s1 x b.cause b.stage
  | .ok s1 rs =>
    match readSpan s1 tm x.lvl ⟨.read, false, false, none⟩ (taskKey x.id) none a (panelBytes f) with
    | .wait s2 => s2
    | .bad s2 b => taskFault s2 x b.cause b.stage
    | .ok s2 bs =>
      let (cols, f0) := panelCols f fun i => (nth 0 bs i).toNat
      let (acc, f1) := kStep 0 (rowsBytes (trType x.trec) rs) cols x.acc
      let s3 := updTask (dropBufs s2 tm.id (taskKey x.id)) x.id fun x =>
        { x with acc := acc, step := j + 1, flags := x.flags ||| f0 ||| f1 }
      entryWrite s3 x.team x.lvl x.entry 52 (valBytes 4 (j + 1))

/-- R245: the drain of a task. -/
def taskDrain (s : State) (tm : Team) (x : TileTask) (ws : List (BitVec 32)) : State :=
  let d := newDrain tm x.swarm x.lvl 0 (BitVec.ofNat 64 (rbits x.trec 184 128)) (rbits x.trec 319 288) x.cslot
    (slotSat x.cslot) ws 0 0
  { s with drains := s.drains ++ [{ d with task := some x.id }] }

/-- R210: an operation of the task's context with a lower number may still write bytes that its drain writes. -/
def taskWaits (s : State) (tm : Team) (x : TileTask) : Bool :=
  waitsLower s tm x.ctx x.seq ((taskSpans x).flatMap fun r => spanPlaces s tm x.lvl .g r.1 r.2)

/-- R245: the next piece of work of a running task. -/
def taskWork (s : State) (tm : Team) (x : TileTask) : State :=
  match x.prog with
  | none => taskBind s tm x
  | some ws => if x.step < trSteps x.trec then taskStep s tm x else if (s.drains.any fun d => d.task == some x.id) || taskWaits s tm x then s else taskDrain s tm x ws

/-- R246: a ready record starts on a core of its cluster that lends an accumulator, the oldest of the ready ones first;
a running one does its next piece of work. -/
def execTileTaskStart (n core : Nat) (s : State) : Host.Outcome State Fault Refusal :=
  .next (match s.tasks.find? fun x => x.id == n with
    | none => s
    | some x =>
      match findTeam s x.team with
      | none => s
      | some tm =>
        match x.core with
        | some k => if x.finished || isFrozen s (.core k) then s else taskWork s tm x
        | none =>
          let first := (tasksWaiting s x.clus).find? (taskReady s)
          if taskReady s x && first.map (fun y => y.id) == some n && clusOf core == x.clus && 0 < accsLent s core &&
              !isFrozen s (.core core) then
            let s1 := updTask (updOp s x.team x.ctx x.seq fun o => { o with stat := 2 }) n fun x => { x with core := some core }
            taskStat s1 x 2 0
          else s)

/-- R245, R246: a task ends: STAT, FCODE and DONE, its flags into lane 0 of its swarm, and its timeline value. -/
def execTileTaskEnd (n : Nat) (s : State) : Host.Outcome State Fault Refusal :=
  .next (match s.tasks.find? fun x => x.id == n with
    | none => s
    | some x =>
      if !x.finished || postsOut s x.team (taskKey n) then s
      else
        let stat := if x.fcode = 0 then 3 else 4
        let s1 := entryWrite (taskStat s x stat x.fcode) x.team x.lvl x.entry 52 (valBytes 4 x.step)
        let s2 := if x.fcode = 0 then s1 else imprecise s1 x.team 0x17 x.entry
        let s3 := updSwarm s2 x.team x.swarm (updProgFrame fun fr => orFlags fr 0 x.flags)
        let s4 := { s3 with tasks := s3.tasks.filter fun y => y.id != n }
        match (findTeam s4 x.team).bind fun tm => findOp (engOf tm x.ctx) x.seq with
        | some o => endOp s4 x.team x.ctx o stat x.fcode
        | none => s4)

end Sys2Proof.Machine
end

