-- ==== Sys2Proof/Machine/Epilogue.lean ====
section
/-!
DEFINITION. The epilogue processor (R248 to R262): the 27 epilogue words, each acting on the drain that is being run,
and the rows of a drain.
-/
namespace Sys2Proof.Machine

/-! ### The drain that is being run -/

/-- The drain whose word is run next, with its place in the list, when it stands at a word. -/
def epiDrain (s : State) : Option (Nat × Drain) :=
  match s.epi with
  | none => none
  | some k => ((s.drains.map some).getD k none).bind fun d => if d.ip.isSome then some (k, d) else none

def putDrain (s : State) (k : Nat) (d : Drain) : State := { s with drains := upd (fun _ => d) s.drains k }

/-- The row that a word sees: 0 in the setup part (R252). -/
def rowSeen (d : Drain) : Nat := if d.inSetup then 0 else d.row

def yOf (d : Drain) (r n : Nat) : Nat := (d.y.get (64 * r + n)).toNat
def sOf (d : Drain) (r : Nat) : Nat := (d.sreg.get r).toNat
/-- R248: the 64-bit pair of an even s-register. -/
def sPair (d : Drain) (p : BitVec 2) : Nat := (pairOf (d.sreg.get (2 * p.toNat)) (d.sreg.get (2 * p.toNat + 1))).toNat

/-- A source in column `n`: an s-register gives its value to all columns (R249). -/
def eSrc (d : Drain) (r : EReg) (n : Nat) : Nat :=
  match r with
  | .y i => yOf d i.toNat n
  | .s i => sOf d i.toNat

/-- The columns of a y-register. -/
def yCols (d : Drain) (r : BitVec 3) : List Nat := (List.range 64).map (yOf d r.toNat)

/-- Write the columns of a y-register. -/
def putY (d : Drain) (r : BitVec 3) (xs : List Nat) : Drain :=
  { d with y := (xs.mapIdx fun n x => (n, x)).foldl (fun t x => t.set (64 * r.toNat + x.1) (BitVec.ofNat 32 x.2)) d.y }
def putS (d : Drain) (r : BitVec 3) (x : Nat) : Drain := { d with sreg := d.sreg.set r.toNat (BitVec.ofNat 32 x) }

/-- R251: an arithmetic word: once for an s destination, per column for a y destination; `f` takes the column. -/
def eMap (dst : EReg) (f : Nat → Nat × Flags) (d : Drain) : Drain × Flags :=
  match dst with
  | .s i => (putS d i (f 0).1, (f 0).2)
  | .y i =>
    let rs := (List.range 64).map f
    (putY d i (rs.map fun r => r.1), rs.foldl (fun m r => m ||| r.2) 0)

/-- What running a word comes to: the drain after it with its flags and the state, an answer that is still to come, or a
fault. -/
inductive ERes where
  | ok (s : State) (d : Drain) (fl : Flags)
  | wait (s : State)
  | bad (s : State) (b : SpanBad)

/-- R40, R245: the flags of a row go into lane 0 of the issuing swarm when the row has passed; a task's are kept until it
ends. -/
def drainFlags (s : State) (d : Drain) : State :=
  match d.task with
  | some n => updTask s n fun x => { x with flags := x.flags ||| d.flags }
  | none => updFrame s d.team d.swarm fun fr => orFlags fr 0 d.flags

/-- R243: a fault in row m stops the drain; it stands in the operand log with m, or ends the task. -/
def drainFault (s : State) (k : Nat) (d : Drain) (b : SpanBad) : State :=
  let s1 := { s with drains := s.drains.eraseIdx k, epi := none }
  match d.task with
  | some n => (match s1.tasks.find? fun x => x.id == n with
    | some x => taskFault s1 x b.cause b.stage
    | none => s1)
  | none =>
    let stop (r : LaneRec) : LaneRec :=
      { r with data := [BitVec.ofNat 32 d.pitch, BitVec.ofNat 32 d.row], cmp := BitVec.ofNat 64 b.addr }
    let mark (e : LogEntry) : LogEntry :=
      { e with away := 0, faulted := e.away, cause := BitVec.ofNat 8 b.cause, stage := b.stage, recs := e.recs.map stop }
    let s2 := updTile (updFrame s1 d.team d.swarm fun fr => updEntry fr d.entry mark) d.team d.swarm (· - 1)
    let s3 := match findTeam s2 d.team with
      | some tm => violate s2 tm (.core tm.core) b.cause b.stage
      | none => s2
    settleFaults s3 d.team d.swarm

/-- The key of a drain's accesses outside the package. -/
def drainKey (d : Drain) : Nat :=
  match d.task with
  | some n => taskKey n
  | none => entryKey d.swarm d.entry

/-- R243, R246: when every row has run and every write is performed, the word or the task's work is complete. -/
def settleDrain (s : State) (k : Nat) (d : Drain) : State :=
  if d.row < 128 || postsOut s d.team (drainKey d) then s
  else
    let s1 := { s with drains := s.drains.eraseIdx k }
    match d.task with
    | some n => updTask s1 n fun x => { x with finished := true }
    | none =>
      let done (fr : Frame) : Frame :=
        { fr with log := fr.log.filter fun e => e.num != d.entry, cTile := fr.cTile - 1 }
      settleFences (updFrame s1 d.team d.swarm done) d.team d.swarm

/-- One epilogue word: it acts on the drain that is being run, which moves on to its next word. -/
def runEpi (f : State → Drain → ERes) (s : State) : Host.Outcome State Fault Refusal :=
  match epiDrain s with
  | none => .fault .noFocus
  | some (k, d) =>
    match f s d with
    | .ok s1 d1 fl =>
      let s2 := dropBufs s1 d.team (drainKey d)
      .next (putDrain s2 k { d1 with ip := d.ip.map (· + 1), flags := d.flags ||| fl })
    | .wait s1 => .next s1
    | .bad s1 b => .next (drainFault (dropBufs s1 d.team (drainKey d)) k d b)

/-- A word that touches no memory. -/
def runReg (f : Drain → Drain × Flags) (s : State) : Host.Outcome State Fault Refusal :=
  runEpi (fun s d => .ok s (f d).1 (f d).2) s

/-! ### Moves and arithmetic (R252, R253) -/

def execENop (s : State) : Host.Outcome State Fault Refusal := runReg (fun d => (d, 0)) s
def execEMov (d a : EReg) (s : State) : Host.Outcome State Fault Refusal := runReg (fun x => eMap d (fun n => (eSrc x a n, 0)) x) s
def execEMovl (d : BitVec 3) (k : BitVec 16) (s : State) : Host.Outcome State Fault Refusal :=
  runReg (fun x => (putS x d k.toNat, 0)) s
def execEMovh (d : BitVec 3) (k : BitVec 16) (s : State) : Host.Outcome State Fault Refusal :=
  runReg (fun x => (putS x d (k.toNat * 65536 + sOf x d.toNat % 65536), 0)) s
def execEAdd (d a b : EReg) (s : State) : Host.Outcome State Fault Refusal :=
  runReg (fun x => eMap d (fun n => faddF fF32 .rne false false (eSrc x a n) (eSrc x b n)) x) s
def execESub (d a b : EReg) (s : State) : Host.Outcome State Fault Refusal :=
  runReg (fun x => eMap d (fun n => faddF fF32 .rne false true (eSrc x a n) (eSrc x b n)) x) s
def execEMul (d a b : EReg) (s : State) : Host.Outcome State Fault Refusal :=
  runReg (fun x => eMap d (fun n => fmulF fF32 .rne false (eSrc x a n) (eSrc x b n)) x) s
def execEFma (d a b c : EReg) (s : State) : Host.Outcome State Fault Refusal :=
  runReg (fun x => eMap d (fun n => ffmaF fF32 .rne false (eSrc x a n) (eSrc x b n) (eSrc x c n)) x) s
def execEMin (d a b : EReg) (s : State) : Host.Outcome State Fault Refusal :=
  runReg (fun x => eMap d (fun n => minmaxF fF32 false (eSrc x a n) (eSrc x b n)) x) s
def execEMax (d a b : EReg) (s : State) : Host.Outcome State Fault Refusal :=
  runReg (fun x => eMap d (fun n => minmaxF fF32 true (eSrc x a n) (eSrc x b n)) x) s

/-- R253: e.relu. -/
def reluF (x : Nat) : Nat × Flags :=
  match unpackF fF32 x with
  | .nan sg => (nanBits fF32, if sg then flNV else 0)
  | v => (if !v.neg && !v.isZero then x else 0, 0)

/-- R253: e.clamp. A NaN bound is ignored. -/
def clampF (x b c : Nat) : Nat × Flags :=
  let v := unpackF fF32 x
  let lo := unpackF fF32 b
  let hi := unpackF fF32 c
  let fl : Flags := if v.isSnan || lo.isSnan || hi.isSnan then flNV else 0
  let lt (p q : FV) : Bool := !p.isNan && !q.isNan && ltFV p q
  if v.isNan then (nanBits fF32, fl)
  else if lt hi v || lt hi lo then (c, fl)
  else if lt v lo then (b, fl)
  else (x, fl)

def execERelu (d a : EReg) (s : State) : Host.Outcome State Fault Refusal := runReg (fun x => eMap d (fun n => reluF (eSrc x a n)) x) s
def execEGelu (d a : EReg) (s : State) : Host.Outcome State Fault Refusal := runReg (fun x => eMap d (fun n => gelu32 (eSrc x a n)) x) s
def execEClamp (d a b c : EReg) (s : State) : Host.Outcome State Fault Refusal :=
  runReg (fun x => eMap d (fun n => clampF (eSrc x a n) (eSrc x b n) (eSrc x c n)) x) s

/-! ### Reductions (R254) -/

/-- The greatest magnitude of some columns. -/
def absmaxF (xs : List Nat) : Nat × Flags :=
  let vs := xs.map (unpackF fF32)
  let fl : Flags := if vs.any FV.isSnan then flNV else 0
  if vs.any FV.isNan then (nanBits fF32, fl) else (xs.foldl (fun m x => max m (x % 2 ^ 31)) 0, fl)

def execEAbsmaxRow (d a : BitVec 3) (s : State) : Host.Outcome State Fault Refusal :=
  runReg (fun x => (putS x d (absmaxF (yCols x a)).1, (absmaxF (yCols x a)).2)) s
def execEAbsmaxBlk (d a : BitVec 3) (s : State) : Host.Outcome State Fault Refusal :=
  runReg (fun x =>
    let (u, f) := absmaxF ((yCols x a).take 32)
    let (v, g) := absmaxF ((yCols x a).drop 32)
    (putY x d (List.replicate 32 u ++ List.replicate 32 v), f ||| g)) s

/-- A sum of columns in ascending order, each addition rounded. -/
def sumF : List Nat → Nat × Flags
  | [] => (0, 0)
  | x :: xs => xs.foldl (fun st y =>
      let (z, f) := faddF fF32 .rne false false st.1 y
      (z, st.2 ||| f)) (x, 0)

def execESum (d a : BitVec 3) (s : State) : Host.Outcome State Fault Refusal :=
  runReg (fun x => (putS x d (sumF (yCols x a)).1, (sumF (yCols x a)).2)) s

/-- A small natural as an FP32 value. -/
def natF (n : Nat) : Nat := (cvtIF false 32 fF32 .rne false n).1

def execEIdx (d : EReg) (s : State) : Host.Outcome State Fault Refusal :=
  runReg (fun x => match d with
    | .y i => (putY x i ((List.range 64).map natF), 0)
    | .s i => (putS x i (natF (rowSeen x)), 0)) s

/-! ### Quantisation and conversion (R255, R256) -/

/-- The element format of the output slot is E4M3. -/
def slotE4 (slot : Word) : Bool := slotFmt slot == 0x11

def execEBscale (a : BitVec 3) (s : State) : Host.Outcome State Fault Refusal :=
  runReg (fun x =>
    let vs := (yCols x a).map (unpackF fF32)
    let (u, f) := blockScale (slotE4 x.slot) (vs.take 32)
    let (v, g) := blockScale (slotE4 x.slot) (vs.drop 32)
    ({ x with esc0 := BitVec.ofNat 8 u, esc1 := BitVec.ofNat 8 v }, f ||| g)) s

def execEQ8 (d a : BitVec 3) (s : State) : Host.Outcome State Fault Refusal :=
  runReg (fun x => eMap (.y d) (fun n =>
    let e := if n < 32 then x.esc0 else x.esc1
    quantElem (slotE4 x.slot) (slotRnd x.slot) e.toNat (unpackF fF32 (yOf x a.toNat n))) x) s

/-- R256: one column converted to the output slot's format. -/
def ecvtF (d : Drain) (x : Nat) : Nat × Flags :=
  match numOf (slotFmt d.slot) with
  | some t => convert (.flt fF32) t (slotRnd d.slot) d.sat x
  | none => (x, 0)

def execECvt (d a : BitVec 3) (s : State) : Host.Outcome State Fault Refusal :=
  runReg (fun x => eMap (.y d) (fun n => ecvtF x (yOf x a.toNat n)) x) s

/-! ### Memory (R257, R258, R261, R262) -/

/-- Read `n` bytes at an address that is a multiple of `align`. -/
def epiRead (s : State) (d : Drain) (a n align : Nat) (g : List Byte → Drain × Flags) : ERes :=
  match formBad a align, findTeam s d.team with
  | some b, _ => .bad s b
  | none, none => .wait s
  | none, some tm =>
    match readSpan s tm d.lvl ⟨.read, false, false, none⟩ (drainKey d) none a n with
    | .ok s1 bs => .ok s1 (g bs).1 (g bs).2
    | .wait s1 => .wait s1
    | .bad s1 b => .bad s1 b

/-- The issuing core's copies of the lines that a drain writes go, written back first (R243; assumption 102). -/
def dropCopies (s : State) (tm : Team) (d : Drain) (ps : List (Place × Nat)) : State :=
  if d.task.isSome then s
  else ps.foldl (fun s p => match p.1 with
    | .pa a _ => dropOwn s tm.core (a / 128)
    | _ => s) s

/-- Write bytes beyond the L1 at an address that is a multiple of `align`. -/
def epiWrite (s : State) (d : Drain) (a align : Nat) (bs : List Byte) : ERes :=
  match formBad a align, findTeam s d.team with
  | some b, _ => .bad s b
  | none, none => .wait s
  | none, some tm =>
    match locateSpan s tm d.lvl ⟨.write, false, false, none⟩ a bs.length with
    | (s1, .error b) => .bad s1 b
    | (s1, .ok ps) =>
      match postWay s1 tm ps with
      | .fault c => .bad s1 ⟨c, 0, a, none⟩
      | .wait => .wait s1
      | _ => .ok (postParts tm (drainKey d) (fun s p bs => engWrite s (.matrix tm.id tm.core) p bs)
        (dropCopies s1 tm d ps) ps bs) d 0

def execELdbColF32 (d : BitVec 3) (p : BitVec 2) (k : BitVec 16) (s : State) : Host.Outcome State Fault Refusal :=
  runEpi (fun s x => epiRead s x ((sPair x p + k.toNat) % 2 ^ 64) 256 4 fun bs =>
    (putY x d ((bytesWords 64 bs).map BitVec.toNat), 0)) s

/-- Column `n` of 128 bytes of BF16, widened (R38). -/
def bfCol (bs : List Byte) (n : Nat) : Nat × Flags := cvtFF fBf16 fF32 .rne false (bytesVal ((bs.drop (2 * n)).take 2))

def execELdbColBf16 (d : BitVec 3) (p : BitVec 2) (k : BitVec 16) (s : State) : Host.Outcome State Fault Refusal :=
  runEpi (fun s x => epiRead s x ((sPair x p + k.toNat) % 2 ^ 64) 128 2 fun bs => eMap (.y d) (bfCol bs) x) s
def execELdbRowF32 (d : BitVec 3) (p : BitVec 2) (k : BitVec 16) (s : State) : Host.Outcome State Fault Refusal :=
  runEpi (fun s x => epiRead s x ((sPair x p + k.toNat + 4 * rowSeen x) % 2 ^ 64) 4 4 fun bs => (putS x d (bytesVal bs), 0)) s

def execESt (a : BitVec 3) (k : BitVec 16) (s : State) : Host.Outcome State Fault Refusal :=
  runEpi (fun s x =>
    let w := outSize x.slot
    epiWrite s x ((x.base.toNat + rowSeen x * x.pitch + k.toNat) % 2 ^ 64) w ((yCols x a).flatMap fun v => valBytes w v)) s

def execESts (p : BitVec 2) (s : State) : Host.Outcome State Fault Refusal :=
  runEpi (fun s x =>
    let a := (sPair x p + 2 * rowSeen x) % 2 ^ 64
    epiWrite s x a 1 [x.esc0, x.esc1]) s

/-! ### Rows (R250) -/

/-- The index of the entry word: after e.next, or the first. -/
def entryWord (ws : List (BitVec 32)) : Nat :=
  match ws.findIdx? fun w => decodeEpi w == some .eNext with
  | some x => x + 1
  | none => 0

/-- R250: the setup part ends: the snapshot is taken, and rows follow. -/
def execENext (s : State) : Host.Outcome State Fault Refusal :=
  match epiDrain s with
  | none => .fault .noFocus
  | some (k, d) => .next { putDrain s k { d with ySnap := d.y, sSnap := d.sreg, inSetup := false, ip := none } with epi := none }

/-- R250: the row ends. -/
def endRow (s : State) (k : Nat) (d : Drain) : State :=
  let d1 := { d with row := d.row + 1, ip := none, flags := 0 }
  settleDrain { putDrain (drainFlags s d) k d1 with epi := none } k d1

def execEStop (s : State) : Host.Outcome State Fault Refusal :=
  match epiDrain s with
  | none => .fault .noFocus
  | some (k, d) => .next (endRow s k d)

/-- The row of the accumulator that a drain runs on. -/
def accRow (s : State) (d : Drain) (n : Nat) : Word :=
  match d.task with
  | some k => (match s.tasks.find? fun x => x.id == k with
    | some x => x.acc.get (64 * d.row + n)
    | none => 0)
  | none => (match findTeam s d.team with
    | some tm => tm.accs.get (8192 * d.acc + 64 * d.row + n)
    | none => 0)

/-- R250: a drain takes up its setup part, or its next row. -/
def beginRow (s : State) (d : Drain) : Drain :=
  if d.inSetup then { d with ip := some 0 }
  else
    let y0 (t : Tab 32) (n : Nat) : Tab 32 := t.set n (accRow s d n)
    { d with y := (List.range 64).foldl y0 d.ySnap, sreg := d.sSnap, esc0 := 0x7F, esc1 := 0x7F, ip := some (entryWord d.prog) }

/-- R262, R409: a drain may go on: rows are left, its team's core is not frozen, and the earlier accesses of its lane are
performed. -/
def drainReady (s : State) (d : Drain) : Bool :=
  decide (d.row < 128) &&
  (match d.task, findTeam s d.team with
  | some n, _ => !(s.tasks.any fun x => x.id == n && (match x.core with
      | some k => isFrozen s (.core k)
      | none => false))
  | none, some tm =>
    onCore tm && tm.st != .frozen &&
    (match findSwarm tm d.swarm with
    | some sw =>
      (match findEntry sw.frame d.entry with
      | some e => !(sw.frame.log.any fun x => decide (x.seq < e.seq) && ((x.todo ||| x.away) &&& bit32 e.flane) != 0)
      | none => true)
    | none => true)
  | none, none => false)

/-- The next drain that may go on after place `k` of the list, in cyclic order. -/
def nextDrain (s : State) (k : Nat) : Option Nat :=
  let n := s.drains.length
  ((List.range n).map fun i => (k + i) % n).find? fun i => match (s.drains.map some).getD i none with
    | some d => drainReady s d
    | none => false

/-- R262: what the core holds dirty of earlier accesses reaches L2 before the loads of a row. -/
def beforeRow (s : State) (d : Drain) : State :=
  match d.task, findTeam s d.team with
  | none, some tm => writeBackAll s tm.core fun x => x.mode != .coh
  | _, _ => s

/-- The epilogue processor takes up a drain: between rows it begins the next one. -/
def takeUp (s : State) (k : Nat) : State :=
  match (s.drains.map some).getD k none with
  | none => s
  | some d => { (if d.ip.isNone then putDrain (beforeRow s d) k (beginRow s d) else s) with epi := some k }

/-- The processor goes on with a drain: the one it has is left where it stands for the next that may go on. -/
def takeNext (s : State) : State :=
  match s.epi with
  | none => (match nextDrain s 0 with
    | some k => takeUp s k
    | none => s)
  | some j => (match nextDrain s (j + 1) with
    | some k => takeUp { s with epi := none } k
    | none => s)

/-- The word that the processor runs next. -/
def epiWord (s : State) : Option (BitVec 32) := (epiDrain s).bind fun d => d.2.ip.bind fun i => (d.2.prog.map some).getD i none

/-- The meaning of an epilogue word; anything else leaves the state. -/
def runEpiWord (w : Instr) (s : State) : Host.Outcome State Fault Refusal :=
  match w with
  | .eNop => execENop s
  | .eMov d a => execEMov d a s
  | .eMovl d k => execEMovl d k s
  | .eMovh d k => execEMovh d k s
  | .eAdd d a b => execEAdd d a b s
  | .eSub d a b => execESub d a b s
  | .eMul d a b => execEMul d a b s
  | .eFma d a b c => execEFma d a b c s
  | .eMin d a b => execEMin d a b s
  | .eMax d a b => execEMax d a b s
  | .eRelu d a => execERelu d a s
  | .eGelu d a => execEGelu d a s
  | .eClamp d a b c => execEClamp d a b c s
  | .eAbsmaxRow d a => execEAbsmaxRow d a s
  | .eAbsmaxBlk d a => execEAbsmaxBlk d a s
  | .eSum d a => execESum d a s
  | .eIdx d => execEIdx d s
  | .eBscale a => execEBscale a s
  | .eQ8 d a => execEQ8 d a s
  | .eCvt d a => execECvt d a s
  | .eLdbColF32 d p k => execELdbColF32 d p k s
  | .eLdbColBf16 d p k => execELdbColBf16 d p k s
  | .eLdbRowF32 d p k => execELdbRowF32 d p k s
  | .eSt a k => execESt a k s
  | .eSts p => execESts p s
  | .eNext => execENext s
  | .eStop => execEStop s
  | _ => .next s

/-- Run words until the part that was taken up, setup or row, ends; a word that waits or faults leaves off there. -/
def rowWords : Nat → State → State
  | 0, s => s
  | n + 1, s =>
    match epiWord s with
    | none => s
    | some w =>
      match (decodeEpi w).map fun i => runEpiWord i s with
      | some (.next s1) => rowWords n s1
      | _ => s

/-- R250: the processor takes up the next drain that may go on, and runs its setup part or one row. -/
def execEpilogueRow (s : State) : Host.Outcome State Fault Refusal :=
  let s1 := takeNext s
  .next (if s1.epi.isSome && (epiDrain s1).isSome then rowWords 64 s1 else s1)

end Sys2Proof.Machine
end

