-- ==== Sys2Proof/Machine/Kernel.lean ====
section
/-!
DEFINITION. The kernel (R130, R271 to R298): EXIT, launch records, LAUNCH, SPAWN, JOIN, TICKET and KSTAT, and the events
that dispatch grids, place gangs, start teams and continuations, and count their ends.
-/
namespace Sys2Proof.Machine

/-! ### EXIT (R130, R187) -/

/-- R130, R317: a swarm that ends in a handler ends with its program's lanes. -/
def endInHandler (c : Ctx) (s : State) : State :=
  let out (x : Swarm) : Swarm := { x with mode := .program, frame := progFrame x, hidden := none, frg := none, off := false }
  updTeam (dropHandler s c.f.team c.f.swarm) c.f.team fun tm =>
    settleCtx (exitLanes (updSwarmIn (stopMma tm c.f.swarm) c.f.swarm out) c.f.swarm 0xFFFFFFFF)

/-- R187: the trap of a deadlock that no barrier word completed strikes the lowest-numbered live swarm, unless that swarm is
in a handler (assumption 24); `pc` is the word's address, or else that of the word at which the swarm waits. -/
def deadlockTrap (s : State) (t : TeamId) (pc : Option DWord) : Option State :=
  match (findTeam s t).bind fun tm => (liveSwarms tm).head? with
  | none => none
  | some sw =>
    let m := liveLanes sw.frame
    let ln := (lowest m).getD 0
    if sw.mode = .program then
      some (takeTrap s t sw.num m { cause := 0x0A, lane := ln } (pc.getD (lane sw.frame ln).pc) none)
    else none

/-- R187: an ending that completes a barrier deadlock is not performed, and the trap is taken; where the swarm to be struck
is in a handler it is performed, and strikes the swarm that is then the lowest (assumption 24). -/
def exitDeadlock (c : Ctx) (before after : State) : State :=
  match findTeam after c.f.team with
  | none => after
  | some tm =>
    if !barDeadlock tm then settleGangTeam after c.f.team
    else
      match deadlockTrap (standAt c before) c.f.team (some c.f.pc) with
      | some s => s
      | none => (deadlockTrap after c.f.team (some c.f.pc)).getD (settleGangTeam after c.f.team)

/-- R187: a handler returns into a deadlock that an EXIT has completed meanwhile. -/
def returnDeadlock (s : State) (t : TeamId) : State :=
  match findTeam s t with
  | none => s
  | some tm => if barDeadlock tm then (deadlockTrap s t none).getD s else s

/-- R130, R317: lanes of the program end, or, in a handler, the swarm, once the handler's accesses are performed (assumption
98); `f` is what the ending does to the team besides. -/
def endLanes (c : Ctx) (lanes : BitVec 32) (f : Team → Team) (s : State) : State :=
  match c.sw.mode with
  | .program => exitDeadlock c s (updTeam s c.f.team fun tm => exitLanes (f tm) c.f.swarm lanes)
  | .handler _ _ => handlerDone c s fun s2 => exitDeadlock c s2 (updTeam (endInHandler c s2) c.f.team f)

def execExit (o : Wd) (s : State) : Host.Outcome State Fault Refusal :=
  runWord (.exit o) o .prog (fun _ => none) (fun _ => (Instr.exit o).fields) (fun c s1 => endLanes c c.act id s1) s

/-! ### Launch records (R271, R272) -/

/-- The fields of the 768 bits of a record. -/
def parseLaunch (r : Nat) : LaunchRec where
  entry  := rbits r 56 0
  cbase  := rbits r 120 64
  spill  := rbits r 184 128
  gx     := rbits r 223 192
  gy     := rbits r 255 224
  gz     := rbits r 287 256
  csz    := 4096 * (rbits r 297 288 + 1)
  tsw    := rbits r 324 320 + 1
  vcnt   := rbits r 334 325
  tcnt   := rbits r 338 335
  acnt   := rbits r 342 339
  spadk  := rbits r 351 343
  power  := rbits r 353 352
  coldb  := rbits r 358 354
  xlgw   := if rbits r 362 360 = 0 then 32 else 2 ^ rbits r 362 360
  prio   := rbits r 365 363
  gsz    := rbits r 369 366
  glvl   := rbits r 371 370
  cont   := rbits r 440 384
  kspill := rbits r 511 448
  slots  := (List.range 8).map fun k => BitVec.ofNat 32 (rbits r (543 + 32 * k) (512 + 32 * k))

/-- The teams of a grid. -/
def LaunchRec.teams (l : LaunchRec) : Nat := l.gx * l.gy * l.gz

/-- R272: a malformed record. -/
def launchBad (r : Nat) : Bool :=
  let l := parseLaunch r
  rbits r 447 441 != 0 || rbits r 383 372 != 0 || r.testBit 359 || rbits r 319 298 != 0 || rbits r 191 185 != 0 ||
  rbits r 127 121 != 0 || rbits r 63 57 != 0 ||
  l.entry % 16 != 0 || l.cbase % 4096 != 0 || l.spill % 65536 != 0 || l.kspill % 65536 != 0 || l.cont % 32 != 0 ||
  l.gx == 0 || l.gy == 0 || l.gz == 0 || decide (2 ^ 32 ≤ l.teams) || decide (512 < l.vcnt + 64 * l.tcnt) ||
  decide (8 < l.tcnt) || decide (8 < l.acnt) || decide (384 < l.spadk) || l.power == 3 || decide (16 < l.coldb) ||
  (l.coldb != 0 && l.power != 1) || decide (5 < rbits r 362 360) || decide (11 < l.gsz) ||
  (l.gsz == 0 && l.glvl != 0) || l.teams % (l.gsz + 1) != 0

/-- R288, R296: a gang at core level that no core can hold. -/
def neverFits (l : LaunchRec) : Bool :=
  l.gsz != 0 && l.glvl == 0 &&
  decide (44 < (l.gsz + 1) * l.tsw ∨ 384 < (l.gsz + 1) * l.spadk ∨ 8 < (l.gsz + 1) * l.acnt)

/-! ### The launch queue (R274, R276) -/

def findGrid (s : State) (g : Nat) : Option Grid := s.grids.find? fun x => x.id == g
def updGrid (s : State) (g : Nat) (f : Grid → Grid) : State :=
  { s with grids := s.grids.map fun x => if x.id == g then f x else x }

/-- R276: 256 entries for a partition, 32 of them kept for each of its slices. -/
def queueFree (s : State) (p k : Nat) : Bool :=
  let of_ (j : Nat) : Nat := (s.grids.filter fun g => g.st == .queued && g.part == p && g.slice == j).length
  let all := (s.grids.filter fun g => g.st == .queued && g.part == p).length
  let kept := match findPart s p with
    | some x => (x.slices.filterMap fun y => if y.num = k then none else some (32 - of_ y.num)).sum
    | none => 0
  decide (all + kept < 256)

/-- R288: the id of a partition's next grid: the next number that is not 0 and that no grid of the partition which has not
retired has (assumption 105). -/
def freshId (s : State) (p : Nat) : Word :=
  let next : Word := match findPart s p with
    | some x => x.nextId
    | none => 1
  let live := (s.grids.filter fun g => g.part == p && g.st != .retired).map fun g => g.gid
  (((List.range (live.length + 2)).map fun k => next + BitVec.ofNat 32 k).find? fun w => w != 0 && !live.contains w).getD next

/-- The grid that an id names in a partition, the newest that had it (R288, R292). -/
def gridOf (s : State) (p : Nat) (id : Word) : Option Grid := s.grids.reverse.find? fun g => g.part == p && g.gid == id

/-- A grid enters the launch queue and gets its id (R274). -/
def queueGrid (s : State) (p k asn depth : Nat) (parent : Option Nat) (l : LaunchRec) (notify : Option (Level × Nat))
    (vec func : Nat) : State × Word :=
  let id := freshId s p
  let g : Grid :=
    { id := s.gridNo, gid := id, part := p, slice := k, asn := asn, depth := depth, parent := parent, launch := l, st := .queued,
      queuedAt := s.pulse.toNat, aged := false, tickets := [], drawn := [], started := 0, ended := 0, children := 0,
      conts := 0, users := [], notify := notify, vec := vec, func := func }
  ({ s with
     grids := s.grids ++ [g]
     gridNo := s.gridNo + 1
     parts := s.parts.map fun x => if x.num = p then { x with nextId := id + 1 } else x }, id)

/-- R287: the kernel-use trap. -/
def kernelUse (c : Ctx) (s : State) : State := undoTrap c s 0x0E c.f.pc

/-- R287: a leader word is issued by swarm 0 with lane 0 active. -/
def leader (c : Ctx) : Bool := c.sw.kind == .team && c.f.swarm == 0 && c.act.getLsbD 0

/-- The fault of a leader word, by stop. -/
def leaderFault (c : Ctx) (s : State) (b : SpanBad) : State :=
  formFault c (dropBufs s c.f.team (wordKey c.f.swarm)) c.sw.frame.prog.toNat b.cause b.stage (BitVec.ofNat 64 b.addr)

/-- A result pair in every active lane. -/
def pairAll (o : Wd) (c : Ctx) (x : DWord) (s : State) : State :=
  updFrame s c.f.team c.f.swarm fun fr => eachLane c.act fr fun ln fr => dst64 fr o ln x

/-- A relaxed load at .pkg. -/
def pkgQ : MemQ := ⟨.none, .rlx, .pkg, false⟩

/-- R288. -/
def launchEff (o : Wd) (c : Ctx) (s1 : State) : State :=
  let a := (laneAddr c.sw.frame o 0).toNat
  let key := wordKey c.f.swarm
  let answer (st : Nat) (id : Word) (s : State) : State :=
    pairAll o c (pairOf (BitVec.ofNat 32 st) id) (freeSwarm c (dropBufs s c.f.team key))
  if !leader c then kernelUse c s1
  else if c.tm.depth = 10 then undoTrap c s1 0x0D c.f.pc
  else if stillOpen c.sw.frame 0xFFFFFFFF fun _ _ => true then holdSwarm c s1
  else match formBad a 32 with
  | some b => leaderFault c s1 b
  | none =>
    match readSpan s1 c.tm (execLevel c.tm c.sw) ⟨.read, true, false, none⟩ key (some pkgQ) a 96 with
    | .wait s2 => holdSwarm c s2
    | .bad s2 b => leaderFault c s2 b
    | .ok s2 bs =>
      let r := bytesVal bs
      let l := parseLaunch r
      if launchBad r then leaderFault c s2 ⟨0x1C, 0, a, none⟩
      else if neverFits l then answer 2 0 s2
      else if !queueFree s2 c.tm.part c.tm.slice then answer 1 0 s2
      else
        let s3 := release s2 c.tm.core .pkg
        let (s4, id) := queueGrid s3 c.tm.part c.tm.slice c.tm.asn (c.tm.depth.toNat + 1) (some c.tm.id.grid) l none 0xFF 0
        answer 0 id (updGrid s4 c.tm.id.grid fun g => { g with children := g.children + 1 })

def execLaunch (o : Wd) (s : State) : Host.Outcome State Fault Refusal :=
  runWord (.launch o) o .prog (fun _ => none) (fun _ => (Instr.launch o).fields) (launchEff o) s

/-! ### Continuations (R280 to R284) -/

/-- A write by the part's own controllers to physical storage. -/
def partWrite (s : State) (part slice a : Nat) (bs : List Byte) : State :=
  if isAway s (.pa a .coh) then
    match routeOut s part slice a with
    | some (f, port) => if f.st = .draining then s else sendReq s part f port a (.write bs) (.post ⟨0, 0, none⟩ 0) false
    | none => s
  else if (heldLine s a).isSome then putHeld s a bs
  else landRam s none .coh a bs

/-- Bits [191:160] of a continuation record (R280). -/
def contWord (vcnt prio state hdie : Nat) : Nat := vcnt + state * 2 ^ 10 + prio * 2 ^ 13 + hdie * 2 ^ 16

def findCont (s : State) (n : Nat) : Option Cont := s.conts.find? fun k => k.num == n
def updCont (s : State) (n : Nat) (f : Cont → Cont) : State :=
  { s with conts := s.conts.map fun k => if k.num == n then f k else k }

/-- The partition and slice of a grid. -/
def gridHome (s : State) (g : Nat) : Nat × Nat :=
  match findGrid s g with
  | some x => (x.part, x.slice)
  | none => (0, 0)

/-- The address-space number of a grid. -/
def gridAsn (s : State) (g : Nat) : Nat :=
  match findGrid s g with
  | some x => x.asn
  | none => 0

/-- The cluster through which a slice's controllers' addresses are translated. -/
def sliceClus (s : State) (part slice : Nat) : Nat :=
  match findSlice s part slice with
  | some x => ((List.range 96).find? x.clus.getLsbD).getD 0
  | none => 0

/-- Where a controller of a slice finds the storage of an address of a level: each use passes the stages anew (R4, R346). -/
def ctlPa (s : State) (part slice asn : Nat) (lv : Level) (need : AccNeed) (a : Nat) : Option Nat :=
  match walkAll s (sliceClus s part slice) part slice asn lv need a with
  | .ok x => some x.pa
  | .error _ => none

/-- The physical address of a continuation's record. -/
def contPa (s : State) (k : Cont) : Nat :=
  let h := gridHome s k.grid
  (ctlPa s h.1 h.2 (gridAsn s k.grid) .prog .rw k.va.toNat).getD k.pa

/-- R281: an imprecise continuation fault goes to the slice's level-2 handler: to a live team of the slice, or as a fault
record when it has none. -/
def contFault (s : State) (part slice : Nat) (va : DWord) : State :=
  match s.teams.find? fun tm => tm.part == part && tm.slice == slice && !(liveSwarms tm).isEmpty && tm.st != .faulted with
  | some tm => imprecise s tm.id 0x1E va
  | none =>
    let w := trapcWord { cause := 0x1E, imp := true } .prog .two
    { s with faults := s.faults ++ [{ team := ⟨0, 0, none⟩, owner := .two, trapc := w, trapa := va }] }

/-- JOIN, STATE and HDIE of a continuation, into its record. One that its slice's stages no longer grant is not written, and
the continuation fault is raised (R4; assumption 106). -/
def contWrite (s : State) (part slice : Nat) (k : Cont) (state : Nat) : State :=
  match ctlPa s part slice (gridAsn s k.grid) .prog .rw k.va.toNat with
  | some pa => partWrite s part slice (pa + 16) (valBytes 4 k.join.toNat ++ valBytes 4 (contWord k.vcnt k.prio state k.die))
  | none => contFault s part slice k.va

/-- R283: the records that a brood queue of a die and a priority holds for a partition. -/
def broodOf (s : State) (part die prio : Nat) : List Cont :=
  s.conts.filter fun k => k.st == .queued && k.die == die && k.prio == prio && (gridHome s k.grid).1 == part

/-- R283: a queue has room for `n` records more. -/
def broodRoom (s : State) (part die prio n : Nat) : Bool := decide ((broodOf s part die prio).length + n ≤ 2 ^ 20)

/-- R283, R399: a record enters the queue of its die and priority, behind the others. Beyond the 64 that the die holds, the
record's address goes to the backing region, through the partition's stage, at the next of its 2^21 places (assumption 107). -/
def pushCont (s : State) (k : Cont) : State :=
  let h := gridHome s k.grid
  let q := 8 * k.die + k.prio
  let s1 := { s with conts := s.conts.filter (fun x => x.num != k.num) ++ [{ k with st := ContSt.queued }] }
  match findPart s h.1 with
  | none => s1
  | some p =>
    if (broodOf s h.1 k.die k.prio).length < 64 then s1
    else
      let n := p.spilt.get q
      let s2 := { s1 with parts := s1.parts.map fun x => if x.num = p.num then { x with spilt := x.spilt.set q (n + 1) } else x }
      match ctlPa s2 h.1 h.2 0 .one .write (p.brood + 2 ^ 24 * q + 8 * (n.toNat % 2 ^ 21)) with
      | some pa => partWrite s2 h.1 h.2 pa (valBytes 8 k.va.toNat)
      | none => s2

/-- A decrement of the record at a virtual address sets out to its die controller (R281). -/
def sendDec (s : State) (part slice asn : Nat) (va : DWord) : State :=
  match walkAll s (sliceClus s part slice) part slice asn .prog .rw va.toNat with
  | .error _ => contFault s part slice va
  | .ok x =>
    let die := match s.conts.find? fun k => contPa s k == x.pa with
      | some k => k.die
      | none => ramVal s.m (x.pa + 22) 1 % 16
    { s with decs := s.decs ++ [⟨die, x.pa, va, part, slice, asn⟩] }

/-- What a lane's record says once it is read. -/
structure ContRec where
  code   : Nat
  frame  : DWord
  vcnt   : Nat
  prio   : Nat
  state  : Nat
  parent : DWord
  bad    : Bool
deriving DecidableEq, Repr

/-- R280, R289: a record's fields, and whether SPAWN refuses it. -/
def parseCont (r : Nat) : ContRec :=
  let parent := rbits r 255 192
  let v := rbits r 169 160
  { code := rbits r 63 0, frame := BitVec.ofNat 64 (rbits r 127 64), vcnt := v, prio := rbits r 175 173,
    state := rbits r 172 170, parent := BitVec.ofNat 64 parent,
    bad := rbits r 172 170 != 0 || rbits r 63 57 != 0 || rbits r 63 0 % 16 != 0 || parent % 32 != 0 ||
      decide (v < 2 ∨ 512 < v) || rbits r 191 180 != 0 }

/-- The physical address of a lane's record. -/
def recordPa (s : State) (tm : Team) (lv : Level) (a : Nat) : Nat :=
  match (locateSpan s tm lv ⟨.rw, true, true, none⟩ a 32).2 with
  | .ok ((p, _) :: _) => placeAddr p
  | _ => 0

/-- R281, R289: one record is committed with its count. -/
def spawnOne (s : State) (tm : Team) (lv : Level) (va : Nat) (r : ContRec) (n : Word) : State :=
  let k : Cont :=
    { pa := recordPa s tm lv va, va := BitVec.ofNat 64 va, grid := tm.id.grid, die := dieOf tm.core, prio := r.prio,
      st := .waiting, join := n, code := r.code, frame := r.frame, vcnt := r.vcnt,
      parent := r.parent, by_ := tm.id, teamn := tm.lin, gx := tm.gx, gy := tm.gy, gz := tm.gz, num := s.contNo }
  let s0 := { s with conts := s.conts ++ [k], contNo := s.contNo + 1 }
  let s1 := if n = 0 then pushCont s0 k else s0
  let s2 := updGrid s1 tm.id.grid fun g => { g with conts := g.conts + 1 }
  contWrite s2 tm.part tm.slice k (if n = 0 then 2 else 1)

/-- What SPAWN comes to: done, a wait, or the lane that stops it. -/
inductive Spawned where
  | done (s : State)
  | wait (s : State)
  | bad (s : State) (lane : Nat) (b : SpanBad)

/-- R289: the lanes in ascending order; a record that the word has committed is found with STATE ≠ 0. -/
def spawnGo (tm : Team) (lv : Level) (key : Nat) : State → List (Nat × Nat × Word) → Spawned
  | s, [] => .done s
  | s, (ln, a, n) :: rest =>
    match formBad a 32 with
    | some b => .bad s ln b
    | none =>
      match readSpan s tm lv ⟨.rw, true, false, none⟩ key (some plainQ) a 32 with
      | .wait s1 => .wait s1
      | .bad s1 b => .bad s1 ln b
      | .ok s1 bs =>
        let r := parseCont (bytesVal bs)
        let again := s1.conts.any fun k => contPa s1 k == recordPa s1 tm lv a
        if r.bad || again then .bad s1 ln ⟨0x1D, 0, a, none⟩
        else spawnGo tm lv key (spawnOne s1 tm lv a r n) rest

/-- Records outside the package are asked for before the first lane is committed; a full brood queue makes the word
wait (R283). -/
def spawnReady (s : State) (tm : Team) (lv : Level) (key : Nat) (ls : List (Nat × Nat × Word)) : State × Bool :=
  let ask (st : State × Bool) (l : Nat × Nat × Word) : State × Bool :=
    if (formBad l.2.1 32).isSome then st
    else match readSpan st.1 tm lv ⟨.rw, false, false, none⟩ key none l.2.1 32 with
    | .wait s1 => (s1, false)
    | .ok s1 bs =>
      let r := parseCont (bytesVal bs)
      (s1, st.2 && (l.2.2 != 0 || broodRoom s1 tm.part (dieOf tm.core) r.prio ls.length))
    | .bad s1 _ => (s1, st.2)
  ls.foldl ask (s, true)

/-- R289: SPAWN by lanes with their addresses and counts. -/
def spawnDo (s : State) (tm : Team) (swn : Nat) (lv : Level) (ls : List (Nat × Nat × Word)) : Spawned :=
  let key := wordKey swn
  match spawnReady s tm lv key ls with
  | (s1, false) => .wait s1
  | (s1, true) => spawnGo tm lv key (release s1 tm.core .pkg) ls

/-- R284: some lane of some swarm of the team has an access that is not performed. -/
def teamOpen (tm : Team) : Bool := tm.swarms.any fun sw => stillOpen (progFrame sw) 0xFFFFFFFF (fun _ _ => true) ||
  stillOpen sw.frame 0xFFFFFFFF fun _ _ => true

/-- The operand-log entry of a stopped SPAWN: the lanes from the one that stopped it on are to be issued again. -/
def spawnEntry (fr : Frame) (i : Instr) (pc : DWord) (ls : List (Nat × Nat × Word)) (ln : Nat) (b : SpanBad) : LogEntry :=
  let rest := ls.filter fun l => ln ≤ l.1
  { onceEntry fr i pc ln 0 [] b with
    faulted := maskOf fun k => rest.any fun l => l.1 == k
    recs := rest.map fun l =>
      { lane := l.1, va := BitVec.ofNat 64 l.2.1, data := [l.2.2, 0], cmp := BitVec.ofNat 64 b.addr, place := none, fwd := false } }

def spawnEff (i : Instr) (o : Wd) (c : Ctx) (s1 : State) : State :=
  let fr := c.sw.frame
  let t := c.f.team
  let ls := (lanesOf c.act).map fun ln => (ln, (laneAddr fr o ln).toNat, op32 fr ln o.d)
  let stop (s : State) (ln : Nat) (b : SpanBad) : State :=
    let s2 := updFrame (dropBufs s t (wordKey c.f.swarm)) t c.f.swarm fun fr => addEntry fr (spawnEntry fr i c.f.pc ls ln b)
    violate s2 c.tm (.core c.tm.core) b.cause b.stage
  if c.sw.kind ≠ .team then kernelUse c s1
  else if c.tm.kspill = 0 then stop s1 ((lowest c.act).getD 0) ⟨0x1D, 0, c.f.pc.toNat, none⟩
  else match spawnDo s1 c.tm c.f.swarm (execLevel c.tm c.sw) ls with
  | .done s2 => dropBufs s2 t (wordKey c.f.swarm)
  | .wait s2 => standAt c s2
  | .bad s2 ln b => stop s2 ln b

def execSpawn (o : Wd) (s : State) : Host.Outcome State Fault Refusal :=
  runWait (fun c _ => c.sw.kind == .team && (logFull c.sw.frame || teamOpen c.tm)) (.spawn o) o .prog (fun _ => none)
    (fun _ => (Instr.spawn o).fields) (spawnEff (.spawn o) o) s

/-- R290. -/
def execJoin (o : Wd) (s : State) : Host.Outcome State Fault Refusal :=
  runWord (.join o) o .prog (fun _ => none) (fun _ => (Instr.join o).fields) (fun c s1 =>
    let a := laneAddr c.sw.frame o 0
    if !leader c then kernelUse c s1
    else if 2 ^ 57 ≤ a.toNat ∨ a.toNat % 32 ≠ 0 ∨ a = 0 then leaderFault c s1 ⟨0x1D, 0, a.toNat, none⟩
    else
      endLanes c (liveLanes c.sw.frame) (fun tm => { tm with joins := some a }) s1) s

/-! ### Dispatch (R277, R278) -/

/-- The dies in the order in which a core draws and pops: its own, the other die of its stack, the dies of its segment
by stack distance, those of the other segment likewise (R278). -/
def dieOrder (die : Nat) : List Nat :=
  let dist (d : Nat) : Nat := (d / 2 - die / 2) + (die / 2 - d / 2)
  let far (same : Bool) (k : Nat) : List Nat :=
    (List.range 16).filter fun d => (d / 8 == die / 8) == same && dist d == k && d != die
  die :: ((List.range 8).flatMap (far true) ++ (List.range 8).flatMap (far false))

/-- R278: a draw on the counters of a grid from a die: each counter before the one that gives a unit is found exhausted. -/
def drawUnit (ts : List Ticket) (order : List Nat) : List Ticket × Option Nat :=
  match order with
  | [] => (ts, none)
  | d :: rest =>
    match ts.find? fun t => t.die == d with
    | none => drawUnit ts rest
    | some t =>
      let bump (x : Ticket) : Ticket := if x.die = d ∧ x.cur.toNat < 2 ^ 32 - 1 then { x with cur := x.cur + 1 } else x
      let ts1 := ts.map bump
      if t.cur.toNat < t.hi then (ts1, some t.cur.toNat) else drawUnit ts1 rest

/-- R274: when every counter is exhausted the grid runs and its counters are free. -/
def settleTickets (g : Grid) : Grid :=
  if g.st = .dispatching ∧ g.tickets.all fun t => decide (t.hi ≤ t.cur.toNat) then { g with st := .running, tickets := [] } else g

/-- R291: TICKET of the own grid's units, or of a user counter. -/
def ticketEff (o : Wd) (c : Ctx) (s1 : State) : State :=
  let k := o.a.immVal.toNat
  let all (v : Word) (s : State) : State :=
    updFrame s c.f.team c.f.swarm fun fr => eachLane c.act fr fun ln fr => setReg fr ln (opIdx o.d) v
  match c.sw.kind, findGrid s1 c.tm.id.grid with
  | .team, some g =>
    if k = 0 then
      if g.launch.gsz ≠ 0 then kernelUse c s1
      else
        let (ts, u) := drawUnit g.tickets (dieOrder (dieOf c.tm.core))
        match u with
        | some u =>
          let s2 := updGrid s1 g.id fun g => settleTickets { g with tickets := ts, started := g.started + 1 }
          all (BitVec.ofNat 32 u) (updTeam s2 c.f.team fun tm => { tm with drew := tm.drew + 1 })
        | none => all 0xFFFFFFFF (updGrid s1 g.id fun g => settleTickets { g with tickets := ts })
    else
      let n := (op32 c.sw.frame ((lowest c.act).getD 0) o.b).toNat
      let old := g.users.get k
      let new := BitVec.ofNat 32 (min (old.toNat + n) (2 ^ 32 - 1))
      all old (updGrid s1 g.id fun g => { g with users := g.users.set k new })
  | .team, none => all 0xFFFFFFFF s1
  | _, _ => kernelUse c s1

def execTicket (o : Wd) (s : State) : Host.Outcome State Fault Refusal :=
  runWord (.ticket o) o .prog (fun _ => none) (fun _ => (Instr.ticket o).fields) (ticketEff o) s

def GridSt.code : GridSt → Nat
  | .queued => 0
  | .dispatching => 1
  | .running => 2
  | .joining => 3
  | .retired => 4
  | .aborted => 5

/-- R292: the pair that KSTAT gives for a grid of the caller's slice. -/
def kstatVal (s : State) (tm : Team) (id w : Nat) : DWord :=
  let g := if id = 0 then findGrid s tm.id.grid else gridOf s tm.part (BitVec.ofNat 32 id)
  match g with
  | some g =>
    if g.part = tm.part ∧ g.slice = tm.slice then
      let (lo, hi) : Nat × Nat := match w with
        | 0 => (GridSt.code g.st, g.gid.toNat)
        | 1 => (g.started, g.ended)
        | _ => (g.children, g.conts)
      pairOf (BitVec.ofNat 32 lo) (BitVec.ofNat 32 hi)
    else 0xFFFFFFFFFFFFFFFF
  | none => 0xFFFFFFFFFFFFFFFF

/-- R292: once for the swarm, by the lowest active lane. -/
def execKstat (o : Wd) (s : State) : Host.Outcome State Fault Refusal :=
  runWord (.kstat o) o .prog (fun _ => none) (fun _ => (Instr.kstat o).fields) (fun c s1 =>
    let id := (op32 c.sw.frame ((lowest c.act).getD 0) o.a).toNat
    if c.sw.kind ≠ .team then kernelUse c s1 else pairAll o c (kstatVal s1 c.tm id o.b.immVal.toNat) s1) s

/-! ### What a core can take (R76, R219, R278, R295) -/

/-- `n` teams of a shape fit on a core now: swarm slots outside slot 11 of each quadrant, scratchpad, accumulators, and a
free engine context for each. -/
def canHost (s : State) (core n nsw spad acnt : Nat) : Bool :=
  let tms := s.teams.filter fun tm => tm.core == core && onCore tm
  decide (n * nsw ≤ (teamSlots s core).length) &&
  decide ((tms.map fun tm => tm.spadSz).sum + n * spad ≤ 384 * 1024) && decide (n * acnt ≤ accsLent s core) &&
  decide (boundOn s core + n ≤ 64)

/-- The number of the unit of a level that holds a core (R271 GLVL). -/
def unitAt (lvl core : Nat) : Nat := if lvl = 0 then core else if lvl = 1 then clusOf core else if lvl = 2 then dieOf core else stkOf core

/-- R295: an older gang is pending for the unit. -/
def pendingBefore (s : State) (g : Gang) (lvl place : Nat) : Bool :=
  s.gangs.any fun h => decide (h.num < g.num) && h.st == .pending && h.lvl == lvl && h.place == place

/-- The launch priority of a gang. -/
def gangPrio (s : State) (g : Gang) : Nat :=
  match findGrid s g.grid with
  | some x => x.launch.prio
  | none => 0

/-- R295: a gang that is pending, the first for its unit, holds the resources of a core. -/
def gangHolds (s : State) (core : Nat) (g : Gang) : Bool :=
  g.st == .pending && g.place == unitAt g.lvl core && !pendingBefore s g g.lvl g.place

/-- R295: a pending gang holds the unit of a core against work of its priority or lower. -/
def heldByGang (s : State) (core prio : Nat) : Bool :=
  s.gangs.any fun g => gangHolds s core g && decide (prio ≤ gangPrio s g)

/-- R295: a pending gang of another level or unit holds a core against a pending gang: one of higher priority, or of the same
priority and drawn earlier, so that two never hold against each other (assumption 108). -/
def heldFrom (s : State) (core : Nat) (k : Gang) : Bool :=
  s.gangs.any fun g => g.num != k.num && gangHolds s core g &&
    (decide (gangPrio s k < gangPrio s g) || (gangPrio s k == gangPrio s g && decide (g.num < k.num)))

/-- The core belongs to a slice. -/
def coreOf (s : State) (core part slice : Nat) : Bool :=
  match findSlice s part slice with
  | some x => x.clus.getLsbD (clusOf core)
  | none => false

/-- R278: a core is idle for a grid. -/
def idleFor (s : State) (core : Nat) (g : Grid) : Bool :=
  coreOf s core g.part g.slice && !isFrozen s (.core core) && !heldByGang s core g.launch.prio &&
  canHost s core 1 g.launch.tsw (1024 * g.launch.spadk) g.launch.acnt

/-- The core can take a saved context: slots, scratchpad, accumulators, engine contexts, and a gang's placement unit
(R298, R334); a pending gang's hold stands against it (R295). -/
def canTake (s : State) (core : Nat) (tm : Team) : Bool :=
  let open_ := (tm.engs.filter fun e => e.mode != .closed).length
  let inUnit : Bool := match tm.gang with
    | some (n, _) => (match s.gangs.find? fun g => g.num == n with
      | some g => unitAt g.lvl core == g.place
      | none => true)
    | none => true
  coreOf s core tm.part tm.slice && !isFrozen s (.core core) && inUnit && decide (boundOn s core + open_ ≤ 64) &&
  !heldByGang s core tm.prio && canHost s core 1 (liveSwarms tm).length tm.spadSz tm.acnt

/-- R334: a saved context of a priority or higher waits for a core that can take it. -/
def savedWaits (s : State) (core prio : Nat) : Bool :=
  s.teams.any fun tm => tm.st == .saved && decide (prio ≤ tm.prio) && canTake s core tm

/-- R283: a continuation of a priority or higher that the core may pop waits on its own die. -/
def contWaits (s : State) (core prio : Nat) : Bool :=
  s.conts.any fun k => k.st == .queued && k.die == dieOf core && decide (prio ≤ k.prio) &&
    coreOf s core (gridHome s k.grid).1 (gridHome s k.grid).2

/-- The cores of the unit of a level, within a slice. -/
def coresIn (s : State) (lvl place part slice : Nat) : List Nat :=
  let per := if lvl = 0 then 1 else if lvl = 1 then 16 else if lvl = 2 then 96 else 192
  ((List.range per).map (per * place + ·)).filter fun k => coreOf s k part slice

/-- R294: the units in which a drawn gang may be placed: those on the die it was drawn from, or the one that holds it. -/
def gangUnits (g : Gang) : List Nat :=
  if g.lvl = 0 then (List.range 96).map (96 * g.die + ·)
  else if g.lvl = 1 then (List.range 6).map (6 * g.die + ·)
  else if g.lvl = 2 then [g.die] else [g.die / 2]

/-- R294, R295: the unit that a gang takes as its target at its draw: of those where it may be placed and within the slice, the
lowest of those with the most free swarm slots. -/
def targetUnit (s : State) (x : Grid) (g : Gang) : Nat :=
  let us := (gangUnits g).filter fun u => !(coresIn s g.lvl u x.part x.slice).isEmpty
  let free (u : Nat) : Nat := ((coresIn s g.lvl u x.part x.slice).map fun k => (teamSlots s k).length).sum
  us.foldl (fun b u => if free b < free u then u else b) (us.head?.getD 0)

/-! ### Grids leave the queue (R274, R276, R277) -/

/-- The priority at which an entry is taken (R276). -/
def queuePrio (g : Grid) : Nat := if g.aged then 7 else g.launch.prio

/-- The first grid of the highest priority. -/
def topGrid (prio : Grid → Nat) (gs : List Grid) : Option Grid :=
  gs.foldl (fun b g => match b with
    | some x => if prio x < prio g then some g else some x
    | none => some g) none

/-- The clusters of a slice, and of a partition, on a die. -/
def sliceOnDie (s : State) (part slice die : Nat) : Nat :=
  match findSlice s part slice with
  | some x => clustersIn x.clus die 6
  | none => 0

/-- R277: a counter of a die is free for a partition: 64 in all, of which each partition is guaranteed its share. -/
def counterFree (s : State) (part die : Nat) : Bool :=
  let used (p : Nat) : Nat := (s.grids.filter fun g => g.part == p && g.tickets.any fun t => t.die == die).length
  let share (p : Part) : Nat := 64 * clustersIn p.clus die 6 / 6
  let all := (s.grids.filter fun g => g.tickets.any fun t => t.die == die).length
  let kept := (s.parts.filterMap fun p => if p.num = part then none else some (share p - used p.num)).sum
  decide (all < 64) && (decide (all + kept < 64) || s.parts.any fun p => p.num == part && decide (used part < share p))

/-- R277: the ranges of `u` units over dies with their counts of clusters. -/
def ranges (u : Nat) (ds : List (Nat × Nat)) : List Ticket :=
  let c := (ds.map fun d => d.2).sum
  let base (d : Nat × Nat) : Nat := u * d.2 / c
  let rest := u - (ds.map base).sum
  let sizes := ds.mapIdx fun i d => (d.1, base d + if i < rest then 1 else 0)
  (sizes.foldl (fun (st : List Ticket × Nat) x =>
    (st.1 ++ [⟨x.1, BitVec.ofNat 32 st.2, st.2 + x.2⟩], st.2 + x.2)) ([], 0)).1

def execGridDispatch (p : Nat) (s : State) : Host.Outcome State Fault Refusal :=
  .next (match topGrid queuePrio (s.grids.filter fun g => g.st == .queued && g.part == p) with
    | none => s
    | some g =>
      let ds := ((List.range 16).map fun d => (d, sliceOnDie s g.part g.slice d)).filter fun d => d.2 != 0
      if ds.isEmpty || !(ds.all fun d => counterFree s p d.1) then s
      else
        let ts := ranges (g.launch.teams / (g.launch.gsz + 1)) ds
        updGrid s g.id fun g => settleTickets { g with st := .dispatching, tickets := ts })

/-- R276: an entry that has waited 1 ms is taken as priority 7. -/
def execLaunchQueueAge (g : Nat) (s : State) : Host.Outcome State Fault Refusal :=
  .next (updGrid s g fun x =>
    if x.st = .queued ∧ x.queuedAt + 1000000 ≤ s.pulse.toNat then { x with aged := true } else x)

/-- R278: an idle core draws for the highest-priority dispatching grid of its slice, the oldest among equals. -/
def execTicketDraw (core : Nat) (s : State) : Host.Outcome State Fault Refusal :=
  let busy := s.grids.any fun g => g.drawn.any fun d => d.2 == core
  .next (match topGrid (fun g => g.launch.prio) (s.grids.filter fun g => g.st == .dispatching && idleFor s core g) with
    | none => s
    | some g =>
      if busy || contWaits s core g.launch.prio || savedWaits s core g.launch.prio then s
      else
        let order := dieOrder (dieOf core)
        let (ts, u) := drawUnit g.tickets order
        match u with
        | none => updGrid s g.id fun g => settleTickets { g with tickets := ts }
        | some u =>
          if g.launch.gsz = 0 then
            updGrid s g.id fun g => settleTickets { g with tickets := ts, drawn := g.drawn ++ [(u, core)] }
          else
            let die := ((order.filterMap fun d => g.tickets.find? fun t => t.die == d).find? fun t => decide (t.cur.toNat < t.hi)).map
              fun t => t.die
            let k0 : Gang := { num := s.gangNo, grid := g.id, unit := u, st := .drawn, die := die.getD 0, lvl := g.launch.glvl,
                               place := 0, live := 0, cores := [], bar := 0 }
            let k := { k0 with place := targetUnit s g k0 }
            updGrid { s with gangs := s.gangs ++ [k], gangNo := s.gangNo + 1 } g.id fun g => settleTickets { g with tickets := ts })

/-! ### Teams start (R279, R282) -/

def freeSlot : GrpSlot := ⟨none, 0, false, 0, 0, [], []⟩
def offWatch : Watch := ⟨false, 0, 0, false, false, .core, 0, []⟩

/-- A team with nothing in it (R279). -/
def bareTeam (id : TeamId) (core part slice asn prio : Nat) : Team where
  id := id
  core := core
  part := part
  slice := slice
  level := .prog
  asn := asn
  st := .running
  before := .running
  swarms := []
  bars := []
  acnt := 0
  accs := []
  units := []
  tags := []
  binds := []
  mmas := []
  spad := []
  spadSz := 0
  engs := openedCtx :: List.replicate 7 closedCtx
  grps := List.replicate 4 freeSlot
  watches := List.replicate 4 offWatch
  traps := []
  fslots := List.replicate 8 0
  clwin := 120
  coldbase := 512
  teamn := 1
  depth := 0
  lin := 0
  gx := 0
  gy := 0
  gz := 0
  cbase := 0
  csize := 0
  spill := 0
  prio := prio
  gang := none
  preempt := none
  overdue := false
  entered := false
  saver := .two
  token := 0
  image := none
  imageAt := none
  nsw := 1
  since := 0
  joins := none
  drew := 0
  kspill := 0

/-- What a team of a grid takes from the launch record (R279, R271). -/
def gridTeam (g : Grid) (t core : Nat) (cont : Option Nat) : Team :=
  let l := g.launch
  let w (n : Nat) : Word := BitVec.ofNat 32 n
  { bareTeam ⟨g.id, t, cont⟩ core g.part g.slice g.asn l.prio with
    fslots := l.slots
    coldbase := w (if l.power = 1 then 32 * l.coldb else 512)
    teamn := w l.teams
    depth := w g.depth
    lin := w t
    gx := w (t % l.gx)
    gy := w (t / l.gx % l.gy)
    gz := w (t / (l.gx * l.gy))
    cbase := l.cbase
    csize := l.csz
    kspill := l.kspill }

/-- The start of a team acts as an acquire at .pkg (R279, R282). -/
def addTeam (s : State) (tm : Team) : State :=
  acquire { s with teams := s.teams ++ [seatTeam s tm] } tm.core .pkg

/-- R279: team `t` of a grid starts on a core. -/
def startTeam (s : State) (g : Grid) (t core : Nat) (gang : Option (Nat × Nat)) : State :=
  let l := g.launch
  let fr := freshFrame (BitVec.ofNat 64 l.entry) l.vcnt l.tcnt l.xlgw
  let tm := { gridTeam g t core none with
    swarms := (List.range l.tsw).map fun n => newSwarm n .team n fr
    acnt := l.acnt
    spadSz := 1024 * l.spadk
    spill := l.spill + 65536 * l.tsw * t
    gang := gang
    nsw := l.tsw }
  updGrid (addTeam s tm) g.id fun g => { g with started := g.started + 1 }

def execTeamStart (g unit core : Nat) (s : State) : Host.Outcome State Fault Refusal :=
  .next (match findGrid s g with
    | none => s
    | some x =>
      if x.drawn.contains (unit, core) && idleFor s core x then
        startTeam (updGrid s g fun x => { x with drawn := x.drawn.erase (unit, core) }) x unit core none
      else s)

/-! ### Gangs (R294, R295, R297) -/

/-- The members that cores from a list take in ascending order, as many as each can: the core of each member. The run is
of consecutive numbers, and no core of it is passed over. -/
def assign (s : State) (g : Grid) (held : Nat → Bool) : List Nat → Option Nat → Nat → List Nat
  | _, _, 0 => []
  | [], _, _ + 1 => []
  | k :: ks, prev, n + 1 =>
    let fits (m : Nat) : Bool := !isFrozen s (.core k) && !held k &&
      canHost s k m g.launch.tsw (1024 * g.launch.spadk) g.launch.acnt
    let m := ((List.range (n + 2)).filter fun m => m = 0 || fits m).foldl max 0
    if m = 0 || prev.any (fun p => p + 1 != k) then []
    else List.replicate m k ++ assign s g held ks (some k) (n + 1 - m)

/-- The first run of cores of a unit that takes every member. -/
def placeIn (s : State) (g : Grid) (lvl place : Nat) (held : Nat → Bool) : Option (List Nat) :=
  let n := g.launch.gsz + 1
  let cs := coresIn s lvl place g.part g.slice
  ((List.range cs.length).map fun i => assign s g held (cs.drop i) none n).find? fun r => r.length == n

/-- R294: every member starts. -/
def startGang (s : State) (x : Grid) (g : Gang) (place : Nat) (cores : List Nat) : State :=
  let live : BitVec 12 := (List.range (x.launch.gsz + 1)).foldl (fun m i => m ||| (1#12 <<< i)) 0
  let s1 := updGang s g.num fun g => { g with st := .running, place := place, cores := cores, live := live }
  (cores.mapIdx fun m k => (m, k)).foldl (fun s mk =>
    startTeam s x (g.unit * (x.launch.gsz + 1) + mk.1) mk.2 (some (g.num, mk.1))) s1

/-- R294, R295: a drawn gang is placed, or becomes pending with its target; a pending one is placed when it fits. -/
def execGangPlace (g unit : Nat) (s : State) : Host.Outcome State Fault Refusal :=
  .next (match s.gangs.find? fun k => k.grid == g && k.unit == unit, findGrid s g with
    | some k, some x =>
      (match k.st with
      | .running => s
      | .pending =>
        if pendingBefore s k k.lvl k.place then s
        else (match placeIn s x k.lvl k.place fun c => heldFrom s c k with
        | some cs => startGang s x k k.place cs
        | none => s)
      | .drawn =>
        (match (gangUnits k).findSome? fun u => if pendingBefore s k k.lvl u then none else (placeIn s x k.lvl u fun c => heldByGang s c x.launch.prio).map fun cs => (u, cs) with
        | some (u, cs) => startGang s x k u cs
        | none => updGang s k.num fun k => { k with st := .pending }))
    | _, _ => s)

/-! ### The end of grids and continuations (R275, R281, R282) -/

/-- R275: every write of a slice's cores is performed at .sys: what its L1s and L2s hold dirty goes to its home. -/
def flushSlice (s : State) (part slice : Nat) : State :=
  let mine (k : Nat) : Bool := coreOf s k part slice
  let s1 := (s.m.l1.filter fun x => mine x.core && x.dirty != 0).foldl writeBack s
  let s2 := (s1.m.misses.filter fun q => q.excl && q.data && mine q.core).foldl (fun s q => performAt s q.core q.line .sys) s1
  let near (d : Nat) : Bool := (List.range 96).any fun k => mine (96 * d + k)
  (s2.m.l2.filter fun x => x.mode != .coh && near x.die).foldl (fun s x => l2Clean s x.die x.line) s2

/-- R404: the retirement of a grid that RUN launched writes its notify word, where the stages of the level that named it grant
it (R4), and sends its vector. -/
def notifyRun (s : State) (g : Grid) : State :=
  let s1 := match g.notify with
    | some (lv, a) => (match ctlPa s g.part g.slice 0 lv .write a with
      | some pa => partWrite s g.part g.slice pa (valBytes 8 1)
      | none => s)
    | none => s
  sendMsi s1 g.func g.vec

/-- R275: a grid whose teams, child grids and continuations have all ended retires. -/
def execGridRetire (g : Nat) (s : State) : Host.Outcome State Fault Refusal :=
  .next (match findGrid s g with
    | none => s
    | some x =>
      if (x.st = .running ∨ x.st = .joining) ∧ x.ended = x.launch.teams ∧ x.children = 0 ∧ x.conts = 0 then
        let s1 := updGrid (flushSlice s x.part x.slice) g fun x => { x with st := .retired }
        let s2 := match x.parent with
          | some p => updGrid s1 p fun y => { y with children := y.children - 1 }
          | none => s1
        let s3 := if x.launch.cont = 0 then s2 else sendDec s2 x.part x.slice x.asn (BitVec.ofNat 64 x.launch.cont)
        notifyRun s3 x
      else s)

/-- R281: the die controller applies the next decrement that has reached it. -/
def execContinuationDecrement (die : Nat) (s : State) : Host.Outcome State Fault Refusal :=
  .next (match s.decs.find? fun d => d.die == die with
    | none => s
    | some d =>
      let s1 := { s with decs := s.decs.erase d }
      let pa := (ctlPa s d.part d.slice d.asn .prog .rw d.va.toNat).getD d.pa
      match s.conts.find? fun k => contPa s k == pa && k.st == .waiting with
      | none => contFault s1 d.part d.slice d.va
      | some k =>
        let k1 := { k with join := k.join - 1 }
        if k.join = 1 then
          if !broodRoom s d.part k.die k.prio 1 then s else contWrite (pushCont s1 k1) d.part d.slice k1 2
        else contWrite (updCont s1 k.num fun _ => k1) d.part d.slice k1 1)

/-- R282: a continuation runs as a team of one swarm. -/
def contTeam (g : Grid) (k : Cont) (core : Nat) : Team :=
  let load (fr : Frame) : Frame := lanes32.foldl (fun f i => setPair f i 0 k.frame) fr
  let fr := load (freshFrame (BitVec.ofNat 64 k.code) k.vcnt 0 g.launch.xlgw)
  { gridTeam g k.by_.idx core (some k.num) with
    swarms := [newSwarm 0 .team 0 fr]
    prio := k.prio
    lin := k.teamn
    gx := k.gx
    gy := k.gy
    gz := k.gz }

/-- R283: the queues that a core looks at before those of a die are empty for it. -/
def nearerEmpty (s : State) (core die part slice : Nat) : Bool :=
  !((dieOrder (dieOf core)).takeWhile fun d => d != die).any fun d => s.conts.any fun k =>
    k.st == .queued && k.die == d && gridHome s k.grid == (part, slice)

/-- R282, R283: an idle core pops the oldest record of a die's queue of a priority, the highest that is not empty. -/
def execContinuationStart (core die prio : Nat) (s : State) : Host.Outcome State Fault Refusal :=
  let mine (k : Cont) : Bool := k.st == .queued && k.die == die && coreOf s core (gridHome s k.grid).1 (gridHome s k.grid).2
  .next (match s.conts.find? fun k => mine k && k.prio == prio with
    | none => s
    | some k =>
      match findGrid s k.grid with
      | none => s
      | some g =>
        if (s.conts.any fun x => mine x && decide (prio < x.prio)) || !nearerEmpty s core die g.part g.slice ||
            isFrozen s (.core core) || heldByGang s core prio || savedWaits s core prio || !canHost s core 1 1 0 0 then s
        else
          let k1 := { k with st := ContSt.running }
          let s1 := contWrite (updCont s k.num fun _ => k1) g.part g.slice k1 3
          addTeam s1 (contTeam g k core))

end Sys2Proof.Machine
end

