-- ==== Sys2Proof/Machine/Group.lean ====
section
/-!
DEFINITION. Claim groups (R299 to R313): the six group words, and the events of the claim plane and of the arbiters.
-/
namespace Sys2Proof.Machine

/-! ### Groups and slots (R299 to R302) -/

/-- The one-way bound of the claim plane, in ns (R299). -/
def planeBound (fab : Bool) : Nat := if fab then 750 else 60
/-- Group scope. -/
def groupScope (fab : Bool) : Scope := if fab then .fab else .pkg

def findGroup (s : State) (a : Nat) : Option Group := s.groups.find? fun g => g.addr == a
def updGroup (s : State) (a : Nat) (f : Group → Group) : State :=
  { s with groups := s.groups.map fun g => if g.addr == a then f g else g }

def slotAt (tm : Team) (g : Nat) : GrpSlot := nth freeSlot tm.grps g
def updSlot (s : State) (t : TeamId) (g : Nat) (f : GrpSlot → GrpSlot) : State :=
  updTeam s t fun tm => { tm with grps := upd f tm.grps g }

def GrpSt.code : GrpSt → Nat
  | .prepared => 0
  | .forming => 1
  | .active => 2
  | .draining => 3
  | .closed => 4

/-- The low 16 bytes of a record as the part writes them (R300). -/
def groupBytes (g : Group) : List Byte :=
  valBytes 8 (g.n + (if g.fab then 2 ^ 20 else 0) + GrpSt.code g.st * 2 ^ 21 + g.win * 2 ^ 32) ++ valBytes 8 g.joined.toNat

/-- R301: JOINED has changed or a claim was decided: the state moves, and the record is written; a Closed group frees its
arbiter. -/
def settleGroup (s : State) (a : Nat) : State :=
  match findGroup s a with
  | none => s
  | some g =>
    let st1 : GrpSt := if (g.st = .forming ∨ g.st = .active) ∧ g.joined = 0 then .draining else g.st
    let st2 : GrpSt := if st1 = .draining ∧ g.claims.isEmpty then .closed else st1
    let g1 := { g with st := st2 }
    let s1 := if st2 = .closed then { s with groups := s.groups.filter fun x => x.addr != a } else updGroup s a fun _ => g1
    partWrite s1 g.part g.slice g.addr (groupBytes g1)

/-- A lane parked in CLAIM or CLWAIT on a dropped slot stands to trap (R303). -/
def dropParks (g : Nat) (fr : Frame) : Frame :=
  let drop (l : Lane) : Lane := match l.park with
    | some (.claim k) | some (.clwait k) => if k = g then { l with park := some .dropped, woken := true } else l
    | _ => l
  { fr with lanes := fr.lanes.map drop }

/-- R301, R303: a team leaves the group of a slot: the member is removed, its table is discarded, the slot is free. -/
def leaveGroup (s : State) (t : TeamId) (g : Nat) : State :=
  match findTeam s t with
  | none => s
  | some tm =>
    let k := slotAt tm g
    match k.grp with
    | none => s
    | some a =>
      let bit : BitVec 64 := 1#64 <<< k.member
      let s1 := updSlot s t g fun _ => freeSlot
      let park (sw : Swarm) : Swarm := { sw with frame := dropParks g sw.frame, hidden := sw.hidden.map (dropParks g) }
      let s2 := updTeam s1 t fun tm => { tm with swarms := tm.swarms.map park }
      settleGroup (updGroup s2 a fun x => { x with joined := x.joined &&& ~~~bit, dropped := x.dropped ||| bit }) a

/-- R303: a team that ends drops every bound slot. -/
def leaveGroups (s : State) (t : TeamId) : State := (List.range 4).foldl (fun s g => leaveGroup s t g) s

/-! ### The group words (R303, R304, R309 to R312) -/

/-- R312: the group-use trap. -/
def groupUse (c : Ctx) (s : State) : State := undoTrap c s 0x0F c.f.pc

/-- A value in every active lane, as a load brings it (R303). -/
def setAll (c : Ctx) (n : Nat) (v : Word) (s : State) : State :=
  updFrame s c.f.team c.f.swarm fun fr => eachLane c.act fr fun ln fr => setReg fr ln n v

/-- A 32-bit result at issue in every active lane, with the latches (R72). -/
def resultAll (c : Ctx) (o : Wd) (v : Word) (s : State) : State :=
  updFrame s c.f.team c.f.swarm fun fr => eachLane c.act fr fun ln fr => dst32 fr o 4 ln v

/-- A record as GRPDECL reads it (R300). -/
structure GroupRec where
  n      : Nat
  fab    : Bool
  st     : Nat
  joined : BitVec 64
  win    : Nat
  resv   : Bool
deriving DecidableEq, Repr

/-- R300: from the first declaration to Closed the part's own record stands, whatever a program wrote. -/
def groupRec (g : Option Group) (r : Nat) : GroupRec :=
  match g with
  | some g => ⟨g.n, g.fab, GrpSt.code g.st, g.joined, g.win, false⟩
  | none => ⟨rbits r 6 0, r.testBit 20, rbits r 23 21, BitVec.ofNat 64 (rbits r 127 64), rbits r 63 32,
             r / 2 ^ 128 != 0 || rbits r 31 24 != 0 || rbits r 19 7 != 0⟩

/-- The home of a record (R300): stack DRAM of this package, or, fabric-wide, of any package of the domain. -/
def groupHome (fab : Bool) (a : Nat) : Bool :=
  match storageOf a with
  | .dram _ _ => true
  | .peer i x => fab && decide (i < 576 ∧ x < 2 ^ 40)
  | _ => false

/-- The group's record is homed, and its claims are arbitrated, in another package (R299, R300). -/
def foreignGroup (a : Nat) : Bool := isRemote (.pa a .coh)

/-- The status of a declaration (R303), in the order of its checks. Whether another package's arbiter holds a group bound to
a record is what the record says (assumption 113). -/
def declStatus (tm : Team) (fab : Bool) (m g a : Nat) (old : Option Group) (r : GroupRec) : Nat :=
  if (slotAt tm g).grp.isSome then 1
  else if r.resv || r.n == 0 || decide (64 < r.n) || decide (1 < r.st) || (r.st == 1 && old.isNone && !foreignGroup a) then 3
  else if r.st = 1 ∧ r.fab ≠ fab then 3
  else if decide (r.n ≤ m) || r.joined.getLsbD m || (match old with
    | some x => x.dropped.getLsbD m
    | none => false) then 2
  else if !groupHome fab a || (match old with
    | some x => x.part != tm.part
    | none => false) then 4
  else 0

/-- The members that JOINED holds. -/
def memberCount (j : BitVec 64) : Nat := ((List.range 64).filter j.getLsbD).length

/-- R301, R303: the member joins, and the slot is bound. -/
def declare (s : State) (tm : Team) (fab : Bool) (m g a : Nat) (old : Option Group) (r : GroupRec) : State :=
  let fresh : Group :=
    { addr := a, part := tm.part, slice := tm.slice, fab := fab,
      win := if r.st = 1 then r.win else max tm.clwin.toNat (2 * planeBound fab), n := r.n,
      joined := r.joined, dropped := 0, st := .forming, claims := [], objs := [], past := [] }
  let x := old.getD fresh
  let j := x.joined ||| (1#64 <<< m)
  let x1 := { x with joined := j, st := if memberCount j < x.n then GrpSt.forming else .active }
  let s1 := { s with groups := x1 :: s.groups.filter fun y => y.addr != a }
  let s2 := updSlot s1 tm.id g fun _ => ⟨some a, m, fab, x1.win, 1, [], []⟩
  partWrite s2 x1.part x1.slice a (groupBytes x1)

def grpdeclEff (fab : Bool) (o : Wd) (c : Ctx) (s1 : State) : State :=
  let fr := c.sw.frame
  let i := (lowest c.act).getD 0
  let a := (opPair fr i o.a).toNat
  let mg := (op32 fr i o.b).toNat % 256
  let key := wordKey c.f.swarm
  let stop (s : State) (b : SpanBad) : State :=
    formFault c (dropBufs s c.f.team key) fr.prog.toNat b.cause b.stage (BitVec.ofNat 64 b.addr)
  if c.sw.kind ≠ .team then groupUse c s1
  -- the read of the record is not before the lane's own earlier accesses (R161)
  else if stillOpen fr 0xFFFFFFFF fun _ _ => true then holdSwarm c s1
  else match formBad a 64 with
  | some b => stop s1 b
  | none =>
    let q : MemQ := ⟨.none, .rlx, groupScope fab, false⟩
    match readSpan s1 c.tm (execLevel c.tm c.sw) ⟨.read, true, false, none⟩ key (some q) a 64 with
    | .wait s2 => standAt c s2
    | .bad s2 b => stop s2 b
    | .ok s2 bs =>
      let pa := match (locateSpan s2 c.tm (execLevel c.tm c.sw) ⟨.read, false, false, none⟩ a 64).2 with
        | .ok ((p, _) :: _) => placeAddr p
        | _ => 0
      let old := findGroup s2 pa
      let r := groupRec old (bytesVal bs)
      let st := declStatus c.tm fab (mg / 4) (mg % 4) pa old r
      let s3 := dropBufs s2 c.f.team key
      let s4 := if st = 0 then declare s3 c.tm fab (mg / 4) (mg % 4) pa old r else s3
      setAll c (opIdx o.d) (BitVec.ofNat 32 st) s4

def execGrpdecl (fab : Bool) (o : Wd) (s : State) : Host.Outcome State Fault Refusal :=
  runWord (.grpdecl fab o) o .prog (fun _ => none) (fun _ => (Instr.grpdecl fab o).fields) (grpdeclEff fab o) s

def execGrpdrop (o : Wd) (s : State) : Host.Outcome State Fault Refusal :=
  let g := o.a.immVal.toNat
  runWord (.grpdrop o) o .prog (fun _ => none) (fun _ => (Instr.grpdrop o).fields) (fun c s1 =>
    if c.sw.kind ≠ .team then groupUse c s1
    else if (slotAt c.tm g).grp.isNone then setAll c (opIdx o.d) 1 s1
    else setAll c (opIdx o.d) 0 (leaveGroup s1 c.f.team g)) s

/-- R304: the target of a claim is coherent and homed within the group's package or domain. -/
def claimHome (fab : Bool) (p : Place) : Bool :=
  match p with
  | .pa a m =>
    m == .coh && (match storageOf a with
    | .dram _ _ | .tier _ => true
    | .peer i _ => fab && decide (i < 576 ∨ 0xC00 ≤ i ∧ i ≤ 0xC23)
    | _ => false)
  | _ => false

/-- R304: from the check of the target on: the lane's address and value, and the lanes that receive the id. -/
def claimDo (s : State) (tm : Team) (swn : Nat) (lv : Level) (b8 : Bool) (g d : Nat) (va value : DWord) (act : BitVec 32) :
    Once :=
  let k := slotAt tm g
  let size := if b8 then 8 else 4
  match k.grp.bind (findGroup s) with
  | none => .bad s ⟨0x0F, 0, va.toNat, none⟩
  | some x =>
    match locate s tm lv ⟨.g, .write, size, false, false, none⟩ none va with
    | (s1, .error (cause, st)) => .bad s1 ⟨cause, st, va.toNat, none⟩
    | (s1, .ok (p, _)) =>
      if !claimHome x.fab p then .bad s1 ⟨0x20, 0, va.toNat, none⟩
      else
        match findSwarm tm swn with
        | none => .done s1
        | some sw =>
          if stillOpen sw.frame 0xFFFFFFFF fun _ _ => true then .wait s1
          else
            let s2 := release s1 tm.core (groupScope x.fab)
            let id := k.member * 2 ^ 24 + k.serial
            let serial := if k.serial + 1 = 2 ^ 24 then 1 else k.serial + 1
            let cl : Claim :=
              { id := id, member := k.member, pa := placeAddr p, va := va, wide := b8, value := value, ts := s2.pulse.toNat,
                arrived := false, team := tm.id, slot := g, pkg := none, objs := [], revoked := false }
            let s3 := updGroup s2 x.addr fun y => { y with claims := y.claims ++ [cl] }
            let s4 := updSlot s3 tm.id g fun k => { k with serial := serial, claims := k.claims ++ [⟨id, none⟩] }
            .done (updFrame s4 tm.id swn fun fr => eachLane act fr fun ln fr => setReg fr ln d (BitVec.ofNat 32 id))

/-- Lanes of the group were parked on a slot that has been dropped since (R303, R312). -/
def parkDropped (c : Ctx) : Bool := (lanesOf c.act).any fun i => (lane c.sw.frame i).park == some .dropped

def claimEff (b8 : Bool) (o : Wd) (c : Ctx) (s1 : State) : State :=
  let fr := c.sw.frame
  let g := o.b.immVal.toNat
  let k := slotAt c.tm g
  let i := (lowest c.act).getD 0
  let hold : State := parkLanes c c.f.mask (.claim g) s1
  let ready (fr : Frame) : Frame := eachLane c.f.mask fr fun i f => updLane f i fun l => { l with woken := true }
  let d := opIdx o.d
  let value : DWord := if b8 then regPair fr i d else (reg fr i d).setWidth 64
  let va := opPair fr i o.a
  match k.grp.bind (findGroup s1) with
  | none => groupUse c s1
  | some x =>
    if c.sw.kind ≠ .team || parkDropped c then groupUse c s1
    else if x.st = .forming then updFrame hold c.f.team c.f.swarm ready
    else if 16 ≤ k.claims.length then
      if k.claims.all fun r => r.res.isSome then groupUse c s1 else updFrame hold c.f.team c.f.swarm ready
    else
      onceEnd (.claim b8 o) va [loW value, hiW value, c.act] c
        (claimDo s1 c.tm c.f.swarm (execLevel c.tm c.sw) b8 g (d + if b8 then 2 else 1) va value c.act)

def execClaim (b8 : Bool) (o : Wd) (s : State) : Host.Outcome State Fault Refusal :=
  runWait (fun c _ => c.sw.kind == .team && logFull c.sw.frame) (.claim b8 o) o .prog (fun _ => none)
    (fun _ => (Instr.claim b8 o).fields) (claimEff b8 o) s

/-- R310. -/
def execObject (o : Wd) (s : State) : Host.Outcome State Fault Refusal :=
  runWord (.object o) o .prog (fun _ => none) (fun _ => (Instr.object o).fields) (fun c s1 =>
    let k := slotAt c.tm o.b.immVal.toNat
    let id := op32 c.sw.frame ((lowest c.act).getD 0) o.a
    match k.grp with
    | none => groupUse c s1
    | some a =>
      if c.sw.kind ≠ .team then groupUse c s1
      else match k.table.find? fun e => e.id == id.toNat with
      | none => undoTrap c s1 0x1F (id.setWidth 64)
      | some e =>
        if e.deadline.toNat ≤ s1.pulse.toNat then undoTrap c s1 0x1F (id.setWidth 64)
        else updGroup s1 a fun x => { x with objs := x.objs ++ [(id.toNat, k.member, s1.pulse.toNat)] }) s

/-- R311. -/
def execClwait (o : Wd) (s : State) : Host.Outcome State Fault Refusal :=
  let g := o.b.immVal.toNat
  runWord (.clwait o) o .prog (fun _ => none) (fun _ => (Instr.clwait o).fields) (fun c s1 =>
    let k := slotAt c.tm g
    let id := (op32 c.sw.frame ((lowest c.act).getD 0) o.a).toNat
    let end_ (v : Word) (s : State) : State :=
      setAll c (opIdx o.d) v (acquire s c.tm.core (groupScope k.fab))
    if c.sw.kind ≠ .team || k.grp.isNone || parkDropped c then groupUse c s1
    else match k.claims.find? fun r => r.id == id with
    | none => end_ 3 s1
    | some r =>
      match r.res with
      | none => parkLanes c c.act (.clwait g) s1
      | some v => end_ v (updSlot s1 c.f.team g fun k => { k with claims := k.claims.filter fun r => r.id != id })) s

/-- R309: the eight registers of an entry, with the number of unread entries that are left. -/
def inboxWords (e : ClaimEnt) (left : Nat) : List Word :=
  [BitVec.ofNat 32 e.id, BitVec.ofNat 32 (e.proposer + (if e.wide then 2 ^ 8 else 0) + left * 2 ^ 16), loW e.target, hiW e.target,
   loW e.value, hiW e.value, loW e.deadline, hiW e.deadline]

def execClinbox (o : Wd) (s : State) : Host.Outcome State Fault Refusal :=
  let g := o.a.immVal.toNat
  runWord (.clinbox o) o .prog (fun _ => none) (fun _ => (Instr.clinbox o).fields) (fun c s1 =>
    let k := slotAt c.tm g
    let unread := k.table.filter fun e => !e.own && !e.read
    let put (ws : List Word) (s : State) : State :=
      (List.range 8).foldl (fun s j => setAll c (opIdx o.d + j) (nth 0 ws j) s) s
    if c.sw.kind ≠ .team || k.grp.isNone then groupUse c s1
    else match unread with
    | [] => put [] s1
    | e :: rest =>
      let mark (x : ClaimEnt) : ClaimEnt := if x.id = e.id then { x with read := true } else x
      put (inboxWords e rest.length) (updSlot s1 c.f.team g fun k => { k with table := k.table.map mark })) s

/-! ### The claim plane and the arbiters (R305 to R308, R313) -/

/-- The members of a group in this package with their slots. -/
def membersOf (s : State) (a : Nat) : List (TeamId × Nat) :=
  s.teams.flatMap fun tm => ((List.range 4).filter fun g => (slotAt tm g).grp == some a).map fun g => (tm.id, g)

/-- R305: the entry of a claim in the table of one member; a full table objects on the member's behalf. -/
def deliverTo (x : Group) (cl : Claim) (s : State) (m : TeamId × Nat) : State :=
  match findTeam s m.1 with
  | none => s
  | some tm =>
    let k := slotAt tm m.2
    if 64 ≤ k.table.length then
      updGroup s x.addr fun y => { y with claims := y.claims.map fun q =>
        if q.id = cl.id then { q with objs := q.objs ++ [(2 ^ 64, 0x40)] } else q }
    else
      let e : ClaimEnt :=
        { id := cl.id, proposer := cl.member, wide := cl.wide, target := cl.va, value := cl.value,
          deadline := BitVec.ofNat 64 (cl.ts + x.win), own := cl.member == k.member, read := false }
      updSlot s m.1 m.2 fun k => { k with table := k.table ++ [e] }

/-- R305: a proposal reaches the arbiter. -/
def proposalArrives (s : State) (a id : Nat) : State :=
  match findGroup s a with
  | none => s
  | some x =>
    match x.claims.find? fun q => q.id == id && !q.arrived with
    | none => s
    | some cl =>
      let s1 := updGroup s a fun y => { y with claims := y.claims.map fun q => if q.id = id then { q with arrived := true } else q }
      (membersOf s1 a).foldl (deliverTo x cl) s1

/-- What the plane brings of another package is not late: by the receiver's $pulse it was sent within the bound, and the time
bases differ by at most 32 ns (R299, R373). -/
def planeTimely (s : State) (x : Group) (sent : Nat) : Bool :=
  decide (sent ≤ s.pulse.toNat + 32 ∧ s.pulse.toNat ≤ sent + planeBound x.fab)

/-- R299, R301, R305: a message of a fabric-wide group from another package. -/
def peerMsg (s : State) (x : Group) (id : Nat) : PlaneMsg → State
  | .join m =>
    if x.st = .forming ∧ m < x.n ∧ !x.joined.getLsbD m ∧ !x.dropped.getLsbD m then
      let j := x.joined ||| (1#64 <<< m)
      settleGroup (updGroup s x.addr fun y =>
        { y with joined := j, st := if memberCount j < y.n then GrpSt.forming else .active }) x.addr
    else s
  | .leave m =>
    let bit : BitVec 64 := 1#64 <<< m
    if x.joined.getLsbD m then
      settleGroup (updGroup s x.addr fun y => { y with joined := y.joined &&& ~~~bit, dropped := y.dropped ||| bit }) x.addr
    else s
  | .claim pkg m pa va wide value ts =>
    if x.st = .active ∧ x.joined.getLsbD m ∧ planeTimely s x ts ∧ !(x.claims.any fun q => q.id == id) then
      let cl : Claim :=
        { id := id, member := m, pa := pa, va := va, wide := wide, value := value, ts := ts, arrived := false,
          team := ⟨0, 0, none⟩, slot := 0, pkg := some pkg, objs := [], revoked := false }
      proposalArrives (updGroup s x.addr fun y => { y with claims := y.claims ++ [cl] }) x.addr id
    else s

def execClaimProposalArrival (grp : Nat) (id : OnPlane PlaneMsg) (s : State) : Host.Outcome State Fault Refusal :=
  .next (match id.peer, findGroup s grp with
    | none, _ => proposalArrives s grp id.no
    | some msg, some x => if x.fab then peerMsg s x id.no msg else s
    | _, none => s)

/-- R307: the objections of a group that have reached its arbiter, oldest first. -/
def objectionArrives (x : Group) : Group :=
  match x.objs with
  | [] => x
  | (id, m, st) :: rest =>
    { x with objs := rest, claims := x.claims.map fun q => if q.id = id then { q with objs := q.objs ++ [(st, m)] } else q }

/-- R305, R307: an objection of a member of another package, with its stamp, or an entry that could not be delivered there. -/
def peerObjects (s : State) (o : Nat × Nat × Nat) (x : Group) : Group :=
  if x.fab && planeTimely s x o.2.2 then
    { x with claims := x.claims.map fun q =>
        if q.id = o.1 then { q with objs := q.objs ++ [(if o.2.1 = 0x40 then 2 ^ 64 else o.2.2, o.2.1)] } else q }
  else x

def execObjectionArrival (grp : OnPlane (Nat × Nat × Nat)) (s : State) : Host.Outcome State Fault Refusal :=
  .next (updGroup s grp.no (match grp.peer with
    | none => objectionArrives
    | some o => peerObjects s o))

/-- What has been sent for a group is delivered: by the bound of the plane it has arrived (R299). -/
def planeEnds (s : State) (a : Nat) : State :=
  match findGroup s a with
  | none => s
  | some x =>
    let s1 := (x.claims.filter fun q => !q.arrived).foldl (fun s q => proposalArrives s a q.id) s
    updGroup s1 a fun y => y.objs.foldl (fun y _ => objectionArrives y) y

/-- The serial of an id. -/
def Claim.serial (q : Claim) : Nat := q.id % 2 ^ 24

/-- R306: the earlier stamp, then the lower member, then the lower serial. -/
def claimBefore (p q : Claim) : Bool :=
  decide (p.ts < q.ts) || (p.ts == q.ts && (decide (p.member < q.member) ||
    (p.member == q.member && decide (Claim.serial p < Claim.serial q))))

def Claim.size (q : Claim) : Nat := if q.wide then 8 else 4

/-- R306: two claims of one group collide. -/
def collide (win : Nat) (p q : Claim) : Bool :=
  decide (p.pa < q.pa + Claim.size q ∧ q.pa < p.pa + Claim.size p) && decide (p.ts < q.ts + win ∧ q.ts < p.ts + win)

/-- R306: the claim that beats every claim colliding with one, if it beats that one. -/
def winnerOver (x : Group) (cl : Claim) : Option Claim :=
  let others := (x.claims ++ x.past).filter fun q => q.id != cl.id && collide x.win q cl && claimBefore q cl
  others.foldl (fun b q => match b with
    | some p => if claimBefore q p then some q else some p
    | none => some q) none

/-- The earliest objection, then the lowest member (R307). -/
def firstObjection (os : List (Nat × Nat)) : Option Nat :=
  (os.foldl (fun (b : Option (Nat × Nat)) o => match b with
    | some p => if o.1 < p.1 ∨ (o.1 = p.1 ∧ o.2 < p.2) then some o else some p
    | none => some o) none).map fun o => o.2

/-- R307: OUT and CAUSE. -/
def claimResult (x : Group) (cl : Claim) : Nat × Nat :=
  match winnerOver x cl with
  | some w => (2, w.member)
  | none =>
    if cl.revoked then (1, 0x41)
    else match firstObjection (cl.objs.filter fun o => o.2 = 0x40 ∨ o.1 < cl.ts + x.win) with
    | some m => (1, m)
    | none => (0, 0)

/-- R307: the value is written at its home, for every agent; another team's watchpoint sees it (R158). -/
def commitClaim (s : State) (x : Group) (cl : Claim) : State :=
  let s1 := partWrite s x.part x.slice cl.pa (valBytes (Claim.size cl) cl.value.toNat)
  watchWrite s1 (.lane cl.team (((findTeam s cl.team).map fun tm => tm.core).getD 0)) cl.pa (Claim.size cl)

/-- R307: a claim is decided: its value where it is committed, its result and the end of its entries. A proposer in another
package is told over the fabric, and an arbiter in another package writes there itself. -/
def decideClaim (s : State) (a : Nat) (cl : Claim) (x : Group) (r : Nat × Nat) : State :=
  let (out, cause) := r
  let here := !(foreignGroup x.addr && isRemote (.pa cl.pa .coh))
  let s0 := if out = 0 ∧ here = true then commitClaim s x cl else s
  let s1 := match cl.pkg with
    | some p => { s0 with link := { s0.link with fabOut := s0.link.fabOut ++ [⟨p, cl.id, out + cause * 2 ^ 8, []⟩] } }
    | none => s0
  let old (q : Claim) : Bool := decide (cl.ts ≤ q.ts + 2 * x.win + 2 * planeBound x.fab)
  let s2 := updGroup s1 a fun y => { y with claims := y.claims.filter (fun q => q.id != cl.id), past := cl :: y.past.filter old }
  let clean (s : State) (m : TeamId × Nat) : State :=
    updSlot s m.1 m.2 fun k => { k with table := k.table.filter fun e => e.id != cl.id }
  let s3 := (membersOf s2 a).foldl clean s2
  let give (k : GrpSlot) : GrpSlot :=
    if k.grp = some a ∧ k.member = cl.member then
      { k with claims := k.claims.map fun r => if r.id = cl.id then { r with res := some (BitVec.ofNat 32 (out + cause * 2 ^ 8)) } else r }
    else k
  let waits (k : Park) : Bool := match k with
    | .clwait g => g == cl.slot
    | _ => false
  settleGroup (updTeam (updSlot s3 cl.team cl.slot give) cl.team (wakeTeam waits)) a

/-- R307: a claim is decided at T + WIN + b, the claims of a group in order of T, by the group's arbiter; what another
package's arbiter decides is `id.peer`. A commit waits for the answer of a host cache that holds its line (R368), and while its
page is under a home change, after which it goes to the new home (R176). -/
def execClaimDecision (grp : Nat) (id : OnPlane (Nat × Nat)) (s : State) : Host.Outcome State Fault Refusal :=
  let s0 := planeEnds s grp
  .next (match findGroup s0 grp with
    | none => s
    | some x =>
      match x.claims.find? fun q => q.id == id.no with
      | none => s
      | some cl =>
        let due : Bool := decide (cl.ts + x.win + planeBound x.fab ≤ s.pulse.toNat)
        let first := !(x.claims.any fun q => claimBefore q cl)
        let free := !s.link.hostLines.contains (cl.pa / 128) && !movingAt s.m cl.pa
        match id.peer, foreignGroup x.addr with
        | none, false => if due && first && free then decideClaim s0 grp cl x (claimResult x cl) else s
        | some r, true => if due && free && decide (r.1 < 3 ∧ r.2 < 256) then decideClaim s0 grp cl x r else s
        | _, _ => s)

/-- R313: the claims of a revoked team are objected with cause 0x41, and it leaves its groups. -/
def revokeGroups (s : State) (t : TeamId) : State :=
  let mark (q : Claim) : Claim := if q.team = t then { q with revoked := true } else q
  let s1 := { s with groups := s.groups.map fun x => { x with claims := x.claims.map mark } }
  leaveGroups s1 t

/-- What the bounds of the claim plane have made certain as time passes: arrivals at the arbiters by T + b (R299). -/
def planeDue (s : State) : State :=
  let late (x : Group) : Bool := (x.claims.any fun q => !q.arrived && decide (q.ts + planeBound x.fab ≤ s.pulse.toNat)) ||
    x.objs.any fun o => decide (o.2.2 + planeBound x.fab ≤ s.pulse.toNat)
  ((s.groups.filter late).map fun x => x.addr).foldl planeEnds s

end Sys2Proof.Machine
end

