-- ==== Sys2Proof/Machine/Fabric.lean ====
section
/-!
DEFINITION. The link words: CHAINST (R382 to R384), FRED and FREDWT (R385 to R388), VFCTL (R379 to R381), with the way
of a chain through its targets.
-/
namespace Sys2Proof.Machine

/-- An instruction waits for every earlier access of every lane of its swarm (R383, R387), and for a log entry and its
counter. -/
def swarmOpen (q : MemQ) (c : Ctx) (s : State) : Bool :=
  memWait (some q) c s || (stillOpen c.sw.frame 0xFFFFFFFF fun _ _ => true) || c.sw.frame.fences.any fun f => f.rel != 0

/-- The entry of a word that the swarm has sent out: it holds its counter until the answer (R366). -/
def awayEntry (fr : Frame) (i : Instr) (pc : DWord) (ln : Nat) (va : DWord) (vals : List (Nat × Word)) : LogEntry where
  num := freeNum fr
  seq := fr.seq
  ins := i
  addr := pc
  todo := 0
  away := bit32 ln
  done := 0
  faulted := 0
  cause := 0
  stage := 0
  flane := ln
  recs := vals.map fun x => { lane := x.1, va := va, data := [x.2], cmp := va, place := none, fwd := false }
  wp := none
  again := false
  word := fr.seq

/-! ### CHAINST (R382 to R384) -/

/-- The entries of a list: DST and SYNC. -/
def chainEntries (n : Nat) (bs : List Byte) : List (Nat × Nat) :=
  (List.range n).map fun k => (bytesVal ((bs.drop (16 * k)).take 8), bytesVal ((bs.drop (16 * k + 8)).take 8))

/-- R382: an entry that breaks the rules of a list, its DST's storage apart. -/
def chainBad (s : State) (tm : Team) (size dst sync : Nat) : Bool :=
  decide (2 ^ 57 ≤ dst) || dst % 16 != 0 || decide (4096 < dst % 4096 + size) ||
  (sync != 0 && (syncPlace s tm sync).isNone)

/-- The first entry of a list that breaks its rules. -/
def chainFirstBad (s : State) (tm : Team) (size : Nat) : List (Nat × Nat) → Nat → Option Nat
  | [], _ => none
  | (dst, sync) :: r, k => if chainBad s tm size dst sync then some k else chainFirstBad s tm size r (k + 1)

/-- The targets of a chain in order: every DST is translated for writing; a SYNC stands only beside one in the package. -/
def chainTargets (tm : Team) (lv : Level) (size list : Nat) : State → List (Nat × Nat) → Nat →
    State × Except SpanBad (List (DWord × DWord × Nat))
  | s, [], _ => (s, .ok [])
  | s, (dst, sync) :: r, k =>
    let bad : SpanBad := ⟨0x3D, 0, list + 16 * k, none⟩
    match locateSpan s tm lv ⟨.write, false, true, none⟩ dst size with
    | (s1, .error b) => (s1, .error { b with addr := dst })
    | (s1, .ok ps) =>
      let pa := match ps.head? with
        | some (p, _) => placeAddr p
        | none => 0
      if sync ≠ 0 ∧ isRemote (.pa pa .coh) then (s1, .error bad)
      else match chainTargets tm lv size list s1 r (k + 1) with
      | (s2, .error b) => (s2, .error b)
      | (s2, .ok ts) => (s2, .ok ((BitVec.ofNat 64 dst, BitVec.ofNat 64 sync, pa) :: ts))

def findChain (s : State) (n : Nat) : Option Chain := s.link.chains.find? fun x => x.num == n
def updChain (s : State) (n : Nat) (f : Chain → Chain) : State :=
  { s with link := { s.link with chains := s.link.chains.map fun x => if x.num == n then f x else x } }

/-- The bytes of a target are written at its home; the lines of it that the package holds through CXL.cache take them too
(R369). -/
def chainWay (s : State) (tm : Team) (pa : Nat) (data : List Byte) : State × Way :=
  if isRemote (.pa pa .coh) then
    ((chunkBytes (spanParts (data.length / 128 + 2) pa data.length) data).foldl (fun s x => putHeld s x.1 x.2) s, wayOut s tm pa)
  else (s, wayOf s tm true (.pa pa .coh))

/-- A chain ends: its swarm's entry is done, and its counter falls. -/
def endChain (s : State) (x : Chain) : State :=
  let s1 := { s with link := { s.link with chains := s.link.chains.filter fun y => y.num != x.num } }
  settleFences (updFrame s1 x.team x.swarm fun fr => doneLane fr x.entry x.lane) x.team x.swarm

/-- R383: a target that refuses or fails stops the chain: the issuer receives an imprecise fault. -/
def stopChain (s : State) (x : Chain) (cause : Nat) : State :=
  let a : DWord := match x.left with
    | (d, _, _) :: _ => d
    | [] => 0
  imprecise (endChain s x) x.team cause a

/-- A target has been written: its sync word rises, and the chain goes on with the next. -/
def passTarget (s : State) (tm : Team) (x : Chain) : State :=
  match x.left with
  | (_, sync, _) :: _ =>
    let s1 := updChain s x.num fun y => { y with left := y.left.drop 1, out := false }
    if sync = 0 then s1
    else match syncPlace s1 tm sync.toNat with
    | some (u, off) => { s1 with arrivals := s1.arrivals ++ [⟨u, off, x.data.length, none⟩] }
    | none => s1
  | [] => s

/-- R383: the chain writes its next targets as far as none has to be waited for. -/
def runChain (n : Nat) : Nat → State → State
  | 0, s => s
  | f + 1, s =>
    match findChain s n with
    | none => s
    | some x =>
      match findTeam s x.team, x.left with
      | none, _ => { s with link := { s.link with chains := s.link.chains.filter fun y => y.num != n } }
      | some _, [] => endChain s x
      | some tm, (_, _, pa) :: _ =>
        if x.out then s
        else match chainWay s tm pa x.data with
        | (s1, .here) => runChain n f (passTarget (writeRam s1 (.lane tm.id tm.core) pa x.data) tm x)
        | (s1, .send g port) => updChain (sendReq s1 tm.part g port pa (.write x.data) (.chain n) false) n fun y => { y with out := true }
        | (_, .wait) => s
        | (_, .fault ca) => stopChain s x ca

/-- A fault of CHAINST or FREDWT, precise at the word. -/
def wordFault (c : Ctx) (s : State) (b : SpanBad) : State :=
  formFault c (dropBufs s c.f.team (wordKey c.f.swarm)) c.sw.frame.prog.toNat b.cause b.stage (BitVec.ofNat 64 b.addr)

def chainstEff (q : MemQ) (o : Wd) (c : Ctx) (s1 : State) : State :=
  let fr := c.sw.frame
  let i := (lowest c.act).getD 0
  let lv := execLevel c.tm c.sw
  let list := (opPair fr i o.a).toNat
  let src := (opPair fr i o.d).toNat
  let n := o.b.immVal.toNat / 2 ^ 15 % 8 + 1
  let size := (o.b.immVal.toNat % 256 + 1) * 16
  let key := wordKey c.f.swarm
  if 2 ^ 57 ≤ list then wordFault c s1 ⟨0x10, 0, list, none⟩
  else if list % 64 ≠ 0 then wordFault c s1 ⟨0x3D, 0, list, none⟩
  else match readSpan s1 c.tm lv ⟨.read, true, false, none⟩ key (some plainQ) list (16 * n) with
  | .wait s2 => standAt c s2
  | .bad s2 b => wordFault c s2 b
  | .ok s2 bs =>
    match chainFirstBad s2 c.tm size (chainEntries n bs) 0, chainTargets c.tm lv size list s2 (chainEntries n bs) 0 with
    | some k, _ => wordFault c s2 ⟨0x3D, 0, list + 16 * k, none⟩
    | none, (s3, .error b) => wordFault c s3 b
    | none, (s3, .ok ts) =>
      match readSpan s3 c.tm lv ⟨.read, true, false, none⟩ key (some plainQ) src size with
      | .wait s4 => standAt c s4
      | .bad s4 b => wordFault c s4 b
      | .ok s4 data =>
        let s5 := release (dropBufs s4 c.f.team key) c.tm.core (if q.ord = .rel then q.scope else .die)
        let e := awayEntry fr (.chainst q o) c.f.pc i (BitVec.ofNat 64 list) [(i, 0)]
        let num := s5.link.reqNo
        let x : Chain := ⟨num, c.f.team, c.f.swarm, e.num, i, false, data, q.scope, ts⟩
        let s6 := { s5 with link := { s5.link with chains := s5.link.chains ++ [x], reqNo := num + 1 } }
        runChain num 9 (updFrame s6 c.f.team c.f.swarm fun fr => bumpCnt (addEntry fr e) q.cls true)

def execChainst (q : MemQ) (o : Wd) (s : State) : Host.Outcome State Fault Refusal :=
  runWait (swarmOpen q) (.chainst q o) o .prog (fun _ => none) (fun _ => (Instr.chainst q o).fields) (chainstEff q o) s

/-! ### FRED and FREDWT (R385 to R388) -/

/-- A reduction record that keeps its rules: node, slot of the node, N, ME, TMO, ROUND. -/
structure FredRec where
  node  : Nat
  slot  : Nat
  n     : Nat
  me    : Nat
  tmo   : Nat
  round : Nat
deriving DecidableEq, Repr

/-- R385: the grant of a partition at a node: base and count. -/
def fredGrant (s : State) (part node : Nat) : Nat × Nat :=
  match (findPart s part).bind fun p => p.fr.find? fun g => g.1 == node with
  | some (_, b, n) => (b, n)
  | none => (0, 0)

/-- R385: the record's bytes; none when they break its table. -/
def parseFred (s : State) (part r : Nat) : Option FredRec :=
  let node := rbits r 5 0
  let g := fredGrant s part node
  let x : FredRec := ⟨node, g.1 + rbits r 19 8, rbits r 30 24, rbits r 37 32, rbits r 79 64, rbits r 127 96⟩
  if r / 2 ^ 128 ≠ 0 ∨ rbits r 95 80 ≠ 0 ∨ rbits r 63 38 ≠ 0 ∨ r.testBit 31 ∨ rbits r 23 20 ≠ 0 ∨ rbits r 7 6 ≠ 0 ∨
     35 < node ∨ g.2 ≤ rbits r 19 8 ∨ x.n = 0 ∨ 64 < x.n ∨ x.n ≤ x.me ∨ x.tmo = 0 then none
  else some x

/-- The fabric address of a node's pool (R365), under which its requests are listed. -/
def nodeAddr (node : Nat) : Nat := 2 ^ 56 + (0xC00 + node) * 2 ^ 44

/-- R385, R387: the record at an address is read and checked, and a request goes to its node on its port. -/
def toNode (s : State) (tm : Team) (sw : Nat) (lv : Level) (a : Nat) (op : FredRec → ReqOp) (who : ReqFor) : Once :=
  match formBad a 64 with
  | some b => .bad s b
  | none =>
    match readSpan s tm lv ⟨.read, true, false, none⟩ (wordKey sw) (some pkgQ) a 64 with
    | .wait s1 => .wait s1
    | .bad s1 b => .bad s1 b
    | .ok s1 bs =>
      match parseFred s1 tm.part (bytesVal bs) with
      | none => .bad s1 ⟨0x3A, 0, a, none⟩
      | some r =>
        match sliceFn s1 tm.part tm.slice (r.node / 18) with
        | none => .bad s1 ⟨0x36, 0, a, none⟩
        | some f =>
          if !s1.boot.ready.getLsbD (216 + r.node) then .bad s1 ⟨0x36, 0, a, none⟩
          else if f.st = .draining then .bad s1 ⟨0x38, 0, a, none⟩
          else if canSend s1 tm.part f (some r.node) then
            .done (dropBufs (sendReq s1 tm.part f (some r.node) (nodeAddr r.node) (op r) who false) tm.id (wordKey sw))
          else .wait s1

/-- The values of the lanes laid out by lane. -/
def laneVals (vals : List (Nat × Word)) : List Word := lanes32.map fun i => match vals.find? fun x => x.1 == i with
  | some x => x.2
  | none => 0

/-- R387: the contribution of a word. -/
def fredOp (op : FredOp) (vals : List (Nat × Word)) (r : FredRec) : ReqOp :=
  .fred r.slot { me := r.me, round := r.round, op := op, n := r.n, tmo := r.tmo, mask := maskOf fun i => vals.any fun x => x.1 == i,
                 vals := laneVals vals, at_ := 0 }

/-- FRED on a record address: the entry `num` of lane `ln` holds the counter until the node answers. -/
def fredDo (s : State) (tm : Team) (sw : Nat) (lv : Level) (op : FredOp) (a num ln : Nat) (vals : List (Nat × Word)) : Once :=
  toNode s tm sw lv a (fredOp op vals) (.lane tm.id sw num ln)

def fredEff (op : FredOp) (q : MemQ) (o : Wd) (c : Ctx) (s1 : State) : State :=
  let fr := c.sw.frame
  let i := (lowest c.act).getD 0
  let va := laneAddr fr o i
  let vals := (lanesOf c.act).map fun j => (j, op32 fr j o.d)
  let e := awayEntry fr (.fred op q o) c.f.pc i va vals
  let s2 := if q.ord = .rel then release s1 c.tm.core .fab else s1
  match fredDo s2 c.tm c.f.swarm (execLevel c.tm c.sw) op va.toNat e.num i vals with
  | .done s3 => updFrame s3 c.f.team c.f.swarm fun fr => bumpCnt (addEntry fr e) q.cls true
  | .wait s3 => standAt c s3
  | .bad s3 b =>
    let bad : LogEntry := { e with away := 0, faulted := bit32 i, cause := BitVec.ofNat 8 b.cause, stage := b.stage,
                                   recs := e.recs.map fun r => { r with cmp := BitVec.ofNat 64 b.addr } }
    violate (updFrame (dropBufs s3 c.f.team (wordKey c.f.swarm)) c.f.team c.f.swarm fun fr => addEntry fr bad) c.tm
      (.core c.tm.core) b.cause b.stage

/-- R387: with .rel every earlier access of the swarm; else only a log entry and the counter. -/
def fredWaits (q : MemQ) (c : Ctx) (s : State) : Bool := if q.ord = .rel then swarmOpen q c s else memWait (some q) c s

def execFred (op : FredOp) (q : MemQ) (o : Wd) (s : State) : Host.Outcome State Fault Refusal :=
  runWait (fredWaits q) (.fred op q o) o .prog (fun _ => none) (fun _ => (Instr.fred op q o).fields) (fredEff op q o) s

/-- What a reply has brought a lane that waits in FREDWT. -/
def fredGot (fr : Frame) (ln : Nat) : Option (Nat × Word × Word × Word) :=
  match (lane fr ln).park with
  | some (.fredwt _ g) => g
  | _ => none

/-- R388: the lanes whose reply has come take it; the others send a collect request and wait. -/
def fredwtEff (q : MemQ) (o : Wd) (c : Ctx) (s1 : State) : State :=
  let fr := c.sw.frame
  let i := (lowest c.act).getD 0
  let va := (laneAddr fr o i).toNat
  let have_ := (lanesOf c.act).filterMap fun j => (fredGot fr j).map fun g => (j, g)
  let fresh := maskOf fun j => c.act.getLsbD j && (fredGot fr j).isNone
  match have_.find? fun x => x.2.1 != 0 with
  | some x => wordFault c s1 ⟨x.2.1, 0, va, none⟩
  | none =>
    let put (fr : Frame) (x : Nat × Nat × Word × Word × Word) : Frame :=
      setReg (setReg (setReg fr x.1 (opIdx o.d) x.2.2.1) x.1 (opIdx o.d + 1) x.2.2.2.1) x.1 (opIdx o.d + 2) x.2.2.2.2
    let s2 := updFrame s1 c.f.team c.f.swarm fun fr => have_.foldl put fr
    let s3 := if have_.isEmpty || q.ord != .acq then s2 else acquire s2 c.tm.core .fab
    if fresh = 0 then s3
    else match toNode s3 c.tm c.f.swarm (execLevel c.tm c.sw) va
        (fun r => .collect r.slot r.round r.me r.tmo) (.collect c.f.team c.f.swarm fresh c.sw.hidden.isSome) with
    | .done s4 => parkLanes c fresh (.fredwt (q.cls == .ld) none) s4
    | .wait s4 => updFrame s4 c.f.team c.f.swarm fun fr => eachLane fresh fr fun j fr => updLane fr j fun l => { l with pc := c.f.pc }
    | .bad s4 b => wordFault { c with act := fresh } s4 b

/-- A word of class ld that has not been sent waits for its counter. -/
def fredwtWaits (q : MemQ) (c : Ctx) (_ : State) : Bool :=
  (lanesOf c.act).any (fun j => (lane c.sw.frame j).park.isNone) && cntOf c.sw.frame q.cls == 63

def execFredwt (q : MemQ) (o : Wd) (s : State) : Host.Outcome State Fault Refusal :=
  runWait (fredwtWaits q) (.fredwt q o) o .prog (fun _ => none) (fun _ => (Instr.fredwt q o).fields) (fredwtEff q o) s

/-! ### The hive node's slot (R386) -/

def freeNode (node slot : Nat) : NodeSlot := ⟨node, slot, 0, .add, 0, 0, 0, 0, [], 0, 3, 0, 0⟩
def nodeSlot (s : State) (node slot : Nat) : NodeSlot :=
  match s.link.slots.find? fun x => x.node == node && x.slot == slot with
  | some x => x
  | none => freeNode node slot
def putNodeSlot (s : State) (x : NodeSlot) : State :=
  { s with link := { s.link with slots := x :: s.link.slots.filter fun y => !(y.node == x.node && y.slot == x.slot) } }

/-- One element combined with a value (R386). -/
def combine (op : FredOp) (supplied : Bool) (e v : Word) : Word :=
  let nan (x : Word) : Bool := decide (0x7F800000 < x.toNat % 2 ^ 31)
  let w : Word := if op = .amax then v &&& 0x7FFFFFFF else v
  if !supplied then w
  else if nan e || nan w then 0x7FC00000
  else BitVec.ofNat 32 (match op with
    | .add => (faddF fF32 .rne false false e.toNat w.toNat).1
    | .min => (minmaxF fF32 false e.toNat w.toNat).1
    | _ => (minmaxF fF32 true e.toNat w.toNat).1)

/-- A contribution is combined into an open slot; COUNT that reaches N closes it complete. -/
def combineIn (x : NodeSlot) (c : FredIn) : NodeSlot :=
  let el (j : Nat) : Word :=
    let e := nth 0 x.els j
    if c.mask.getLsbD j then combine x.op (x.emask.getLsbD j) e (nth 0 c.vals j) else e
  { x with els := lanes32.map el, emask := x.emask ||| c.mask, who := x.who ||| (1#64 <<< c.me), count := x.count + 1,
           closed := if x.count + 1 = x.n then 1 else 0 }

/-- R386: the deadline of an open slot has passed. -/
def expireSlot (x : NodeSlot) (now : Nat) : NodeSlot := if x.closed = 0 ∧ x.deadline ≤ now then { x with closed := 2 } else x

/-- R386: a contribution reaches the slot. Closed: 0 open, 1 complete, 2 timeout, 3 free. -/
def contribute (x0 : NodeSlot) (c : FredIn) : NodeSlot :=
  let x := expireSlot x0 c.at_
  if x.closed ≠ 3 ∧ c.round < x.round then x
  else if x.closed = 3 ∨ x.round < c.round then
    combineIn { x with round := c.round, op := c.op, n := c.n, count := 0, who := 0, emask := 0, els := List.replicate 32 0,
                       deadline := c.at_ + 1000 * c.tmo, closed := 0, late := 0, mism := 0 } c
  else if x.closed ≠ 0 then { x with late := x.late ||| (1#64 <<< c.me) }
  else if c.op ≠ x.op ∨ c.n ≠ x.n then { x with mism := x.mism ||| (1#64 <<< c.me) }
  else if x.who.getLsbD c.me then x
  else combineIn x c

/-- R388: what a collect of a round finds: OUT; none while it waits. -/
def collectOut (x : NodeSlot) (round me : Nat) (late : Bool) : Option Nat :=
  if x.closed ≠ 3 ∧ x.round = round then
    if x.late.getLsbD me then some 2
    else if x.mism.getLsbD me then some 3
    else if x.closed = 0 then none
    else some (x.closed - 1)
  else if x.closed ≠ 3 ∧ round < x.round then some 5
  else if late then some 4 else none

/-- R388: element of a lane, status word and mask of an answer. -/
def collectRes (x : NodeSlot) (out j : Nat) : Word × Word × Word :=
  if out ≤ 2 then
    let sup := (lanesOf x.emask).map fun k => nth 0 x.els k
    let sc := if sup.any fun w => decide (0x7F800000 ≤ w.toNat % 2 ^ 31) then 0xFF
      else (blockScale true (sup.map fun w => unpackF fF32 w.toNat)).1
    (if x.emask.getLsbD j then nth 0 x.els j else 0, BitVec.ofNat 32 (out * 2 ^ 28 + x.count % 128 * 2 ^ 21 + sc % 256), x.emask)
  else (0, BitVec.ofNat 32 (out * 2 ^ 28), 0)

/-! ### VFCTL (R379 to R381) -/

def fnCode : FnSt → Nat
  | .disabled => 0
  | .enabled => 1
  | .frozen => 2
  | .draining => 3
  | .torn => 4

/-- A function as at reset (R380). -/
def newFn (die num : Nat) : Fn := ⟨die, num, .disabled, none, 0, false, 0, [], 0, [], []⟩
def getFn (s : State) (die num : Nat) : Fn := (findFn s die num).getD (newFn die num)
def putFn (s : State) (f : Fn) : State :=
  { s with link := { s.link with fns := f :: s.link.fns.filter fun g => !(g.die == f.die && g.num == f.num) } }

/-- R379: the send allowances of a die that are free. -/
def freeAllow (s : State) (die : Nat) : Nat :=
  16384 - 256 * (s.link.fns.filter fun f => f.die == die && (f.st == .enabled || f.st == .frozen)).length

/-- R381: the function is the issuer's partition's, and the slice, where one is named, is its own. -/
def fnMine (s : State) (c : Ctx) (f : Fn) (k : Option Nat) : Bool :=
  f.num != 0 && f.part == some c.tm.part && (match k with
    | some k => (findSlice s c.tm.part k).isSome
    | none => true)

/-- The function that a word names. -/
def fnOf (s : State) (o : Wd) : Fn := getFn s (o.a.immVal.toNat / 256 % 2) (o.a.immVal.toNat % 256)

def enableStatus (s : State) (c : Ctx) (f : Fn) (k : Nat) (inb : Bool) : Nat :=
  if !fnMine s c f (some k) then 3
  else if f.st ≠ .disabled ∧ f.st ≠ .torn then 2
  else if inb && s.link.fns.any fun g => g.die == f.die && g.part == f.part && g.inbound &&
      (g.st == .enabled || g.st == .frozen || g.st == .draining) then 4
  else if freeAllow s f.die < 256 then 1
  else 0

/-- R380: enabled and bound; what a teardown has left is forgotten. -/
def enableFn (s : State) (f : Fn) (k : Nat) (inb : Bool) : State :=
  putFn s { f with st := .enabled, slice := k, inbound := inb, late := 0, kept := [], dropped := f.dropped }

def execVfctlEnable (o : Wd) (s : State) : Host.Outcome State Fault Refusal :=
  let k := o.b.immVal.toNat % 8
  let inb := o.b.immVal.getLsbD 3
  runWord (.vfctlEnable o) o .one (fun _ => none) (fun _ => (Instr.vfctlEnable o).fields) (fun c s1 =>
    let f := fnOf s1 o
    let st := enableStatus s1 c f k inb
    resultAll c o (BitVec.ofNat 32 st) (if st = 0 then enableFn s1 f k inb else s1)) s

/-- R381: the state word of a function. -/
def fnStatus (f : Fn) : Nat :=
  fnCode f.st + f.slice % 8 * 2 ^ 4 + (if f.inbound then 2 ^ 7 else 0) + f.part.getD 0 % 16 * 2 ^ 8 + min 65535 f.late * 2 ^ 16

def execVfctlStatus (o : Wd) (s : State) : Host.Outcome State Fault Refusal :=
  runWord (.vfctlStatus o) o .one (fun _ => none) (fun _ => (Instr.vfctlStatus o).fields) (fun c s1 =>
    let f := fnOf s1 o
    resultAll c o (if fnMine s1 c f none then BitVec.ofNat 32 (fnStatus f) else 3) s1) s

end Sys2Proof.Machine
end

