-- ==== Sys2Proof/Machine/Context.lean ====
section
/-!
DEFINITION. The context (R314 to R336): LIVE, TRAP, TRET, OPLOGRD, PROGRD, PROGWR and the ERET words, the issue of
faulted entries again (R322), and the events of pre-emption, saving and loading, and of register spilling (R76).
-/
namespace Sys2Proof.Machine

/-! ### LIVE (R323, R324) -/

/-- The live record of 1,024 bits. -/
def parseLive (r : Nat) : LiveRec where
  rows   := BitVec.ofNat 512 r
  preds  := BitVec.ofNat 8 (rbits r 519 512)
  ranges := (List.range 4).map fun k => (rbits r (607 + 64 * k) (576 + 64 * k), rbits r (639 + 64 * k) (608 + 64 * k))

/-- The bytes of a live record (R324, R331). -/
def liveBytes (l : LiveRec) : List Byte :=
  valBytes 64 l.rows.toNat ++ valBytes 8 (l.preds.toNat / 2 * 2) ++
  (l.ranges.flatMap fun r => valBytes 4 r.1 ++ valBytes 4 r.2) ++ List.replicate (56 - 8 * l.ranges.length) 0

/-- R324: a record that breaks a rule of the table. -/
def liveBad (spad r : Nat) : Bool :=
  rbits r 1023 832 != 0 || rbits r 575 520 != 0 || r.testBit 512 ||
  (parseLive r).ranges.any fun x => x.1 % 16 != 0 || x.2 % 16 != 0 || decide (x.2 < x.1) || decide (spad < x.2)

/-- R74: latches and operand file are 0. -/
def clearLatches (l : Lane) : Lane := { l with l0 := 0, l1 := 0, ofile := [] }

/-- R323, R326: the swarm takes the record as its live set, which a forager swarm never has; with a pre-emption pending it
stops here. -/
def takeLive (s : State) (tm : Team) (swn : Nat) (r : Nat) : State :=
  updSwarm s tm.id swn fun sw =>
    let fr := { sw.frame with lanes := sw.frame.lanes.map clearLatches }
    if sw.kind ≠ .team then { sw with frame := fr }
    else { sw with frame := { fr with liveSet := some (parseLive r) },
                   stopped := sw.stopped || (tm.st == .preempting && sw.mode == .program) }

/-- R323: the record at constant offset 64k is read and checked. -/
def liveDo (s : State) (tm : Team) (swn k : Nat) (skip : Option Nat) : Once :=
  let ask : Ask := ⟨.c, .read, 64, true, false, none⟩
  let at_ (j : Nat) : DWord := BitVec.ofNat 64 (64 * k + 64 * j)
  match locate s tm tm.level ask skip (at_ 0) with
  | (s1, .error (ca, st)) => .bad s1 ⟨ca, st, 64 * k, none⟩
  | (s1, .ok (p, _)) =>
    match locate s1 tm tm.level ask skip (at_ 1) with
    | (s2, .error (ca, st)) => .bad s2 ⟨ca, st, 64 * k + 64, none⟩
    | (s2, .ok (q, _)) =>
      match fetchAll tm (wordKey swn) (some plainQ) s2 [(p, 64), (q, 64)] with
      | (s3, .wait) => .wait s3
      | (s3, .fault ca) => .bad s3 ⟨ca, 0, 64 * k, none⟩
      | (s3, .ok bs) =>
        if liveBad tm.spadSz (bytesVal bs) then .bad s3 ⟨0x26, 0, tm.cbase + 64 * k, none⟩
        else .done (takeLive s3 tm swn (bytesVal bs))

def execLive (o : Wd) (s : State) : Host.Outcome State Fault Refusal :=
  let k := o.a.immVal.toNat
  runWait (fun c _ => logFull c.sw.frame) (.live o) o .prog (fun _ => none) (fun _ => (Instr.live o).fields)
    (fun c s1 => onceEnd (.live o) (BitVec.ofNat 64 (64 * k)) [] c (liveDo s1 c.tm c.f.swarm k none)) s

/-! ### Issuing a faulted entry again (R322) -/

/-- An entry of the log is replaced. -/
def putEntry (s : State) (t : TeamId) (sw : Nat) (e : LogEntry) : State := updFrame s t sw fun fr => updEntry fr e.num fun _ => e
/-- An entry of the log is freed. -/
def freeEntry (s : State) (t : TeamId) (sw n : Nat) : State :=
  updFrame s t sw fun fr => { fr with log := fr.log.filter fun e => e.num != n }

/-- R322, R158: the lanes of an access that faulted are checked once more, without the watchpoint that hit, and stand in
the log again; the counter of the word rises once more (R148). -/
def againAccess (s : State) (tm : Team) (swn : Nat) (e : LogEntry) (k : AccKind) : State :=
  let ask := askOf (spaceOf e.ins) e.ins k
  let vas := (e.recs.filter fun r => e.faulted.getLsbD r.lane).map fun r => (r.lane, r.va)
  let (s1, rs) := checkLanes tm tm.level ask e.wp s vas
  let data (ln : Nat) : List Word × DWord := match recOf e ln with
    | some r => (r.data, r.cmp)
    | none => ([], 0)
  let f := entryOf e.num e.seq e.ins e.addr data (watchOf tm tm.level ask e.wp rs) rs
  let kept := e.recs.filter fun r => !e.faulted.getLsbD r.lane
  let s2 := putEntry s1 tm.id swn { f with done := e.done ||| f.done, recs := kept ++ f.recs }
  violations (updFrame s2 tm.id swn fun fr => settleEntry (bumpCnt fr (entryQ e).cls true) e.num) tm rs

/-- R322: the lanes of a WAITC or SYNCWT that faulted are checked once more; those that pass read, and complete or park
at the word. -/
def againWait (s : State) (tm : Team) (swn : Nat) (e : LogEntry) (ask : Ask) (one : State → LaneRec → State) : State :=
  let vas := (e.recs.filter fun r => e.faulted.getLsbD r.lane).map fun r => (r.lane, r.va)
  let (s1, rs) := checkLanes tm tm.level ask e.wp s vas
  let data (ln : Nat) : List Word × DWord := match recOf e ln with
    | some r => (r.data, r.cmp)
    | none => ([], 0)
  let f := { entryOf e.num e.seq e.ins e.addr data (watchOf tm tm.level ask e.wp rs) rs with todo := 0 }
  let s2 := if f.faulted == 0 then freeEntry s1 tm.id swn e.num else putEntry s1 tm.id swn f
  violations ((f.recs.filter fun r => r.place.isSome).foldl one s2) tm rs

/-- What a word that acts once for its swarm comes to when it is issued again from its logged operands (R321). -/
def againOnce (s : State) (tm : Team) (swn : Nat) (e : LogEntry) (r : LaneRec) : Option Once :=
  let d (k : Nat) : Nat := (nth 0 r.data k).toNat
  let lv := tm.level
  let a := r.va.toNat
  match e.ins with
  | .wbld _ _ => some (wbldDo s tm swn lv e.wp a (d 0) (d 1) (d 2))
  | .accld q o => some (accldDo s tm swn lv e.wp q (opIdx o.d) a)
  | .accst q o => some (accstDo s tm swn lv e.wp q (opIdx o.d) a e.num (nth 0 r.data 0))
  | .epil o => some (epilDo s tm swn lv e.wp (opIdx o.d) a (d 0))
  | .claim b8 o => some (claimDo s tm swn lv b8 o.b.immVal.toNat (opIdx o.d + if b8 then 2 else 1) r.va (dataPair r.data) (nth 0 r.data 2))
  | .live o => some (liveDo s tm swn o.a.immVal.toNat e.wp)
  | _ => none

/-- The entry of a word that faulted again: its lanes and the address at which it did. -/
def stillBad (e : LogEntry) (b : SpanBad) : LogEntry :=
  { e with cause := BitVec.ofNat 8 b.cause, stage := b.stage, wp := b.wp, again := false,
           recs := e.recs.map fun r => { r with cmp := BitVec.ofNat 64 b.addr } }

/-- The drain of an ACCDR goes on from the row that was recorded (R243). -/
def againDrain (s : State) (tm : Team) (swn : Nat) (e : LogEntry) (r : LaneRec) (slot : BitVec 3) (sat : Bool) (o : Wd) : State :=
  let desc := nth 0 tm.fslots slot.toNat
  let pitch := (nth 0 r.data 0).toNat
  match bindOf tm (opIdx o.d) with
  | none => freeEntry s tm.id swn e.num
  | some ws =>
    if pitch % 4 ≠ 0 then putEntry s tm.id swn (stillBad e ⟨0x11, 0, pitch, none⟩)
    else
      let dr := newDrain tm swn tm.level (opIdx o.d) r.va pitch desc (sat || slotSat desc) ws (nth 0 r.data 1).toNat e.num
      startDrain (freeEntry s tm.id swn e.num) tm swn tm.level dr { e with away := e.faulted, faulted := 0, again := false }

/-- R322: one entry is issued again; none when it waits. -/
def againOne (s : State) (t : TeamId) (swn : Nat) (e : LogEntry) : State :=
  match findTeam s t, (findTeam s t).bind fun tm => findSwarm tm swn with
  | some tm, some _ =>
    let r := (e.recs.head?).getD ⟨0, 0, [], 0, none, false⟩
    let drop (s : State) : State := dropBufs s t (wordKey swn)
    match e.ins, accKind e.ins with
    | .accdr slot sat o, _ => againDrain s tm swn e r slot sat o
    | .waitc c uns q o, _ =>
      againWait s tm swn e ⟨.g, .read, 4, true, false, none⟩ fun s r => waitcLane (.waitc c uns q o) q o t swn e.addr s r none
    | .syncwt q o, _ =>
      againWait s tm swn e ⟨.s, .read, 16, true, false, none⟩ fun s r => syncwtLane q o t swn e.addr s r
    | .spawn _, _ =>
      let ls := e.recs.map fun r => (r.lane, r.va.toNat, nth 0 r.data 0)
      (match (if tm.kspill = 0 then .bad s e.flane ⟨0x1D, 0, e.addr.toNat, none⟩ else spawnDo s tm swn tm.level ls : Spawned) with
      | .done s1 => drop (freeEntry s1 t swn e.num)
      | .wait s1 => s1
      | .bad s1 ln b =>
        let f := stillBad { e with flane := ln, recs := e.recs.filter (fun r => decide (ln ≤ r.lane)) } b
        drop (putEntry s1 t swn { f with faulted := maskOf fun k => f.recs.any fun r => r.lane == k }))
    | .fred op q _, _ =>
      (match fredDo s tm swn tm.level op r.va.toNat e.num e.flane (e.recs.map fun x => (x.lane, nth 0 x.data 0)) with
      | .done s1 =>
        updFrame (putEntry s1 t swn { e with away := e.faulted, faulted := 0, again := false }) t swn fun fr => bumpCnt fr q.cls true
      | .wait s1 => s1
      | .bad s1 b => violate (drop (putEntry s1 t swn (stillBad e b))) tm (.core tm.core) b.cause b.stage)
    | i, some .byPart | i, none =>
      (match againOnce s tm swn e r with
      | some (.done s1) =>
        let out : Bool := (match i with
          | .accst _ _ => true
          | _ => false) && postsOut s1 t (entryKey swn e.num)
        if out then updTile (putEntry s1 t swn { e with away := e.faulted, faulted := 0, again := false }) t swn (· + 1)
        else drop (freeEntry s1 t swn e.num)
      | some (.wait s1) => s1
      | some (.bad s1 b) => violate (drop (putEntry s1 t swn (stillBad e b))) tm (.core tm.core) b.cause b.stage
      | none => freeEntry s t swn e.num)
    | _, some k => againAccess s tm swn e k
  | _, _ => s

/-- The oldest entry that is to be issued again. -/
def nextAgain (fr : Frame) : Option LogEntry :=
  (fr.log.filter fun e => e.again).foldl (fun b e => match b with
    | some x => if e.seq < x.seq then some e else some x
    | none => some e) none

/-- R322: the entries of a swarm in its program are issued again, oldest first, as far as none waits. -/
def reissue (t : TeamId) (swn : Nat) : Nat → State → State
  | 0, s => s
  | k + 1, s =>
    match (findTeam s t).bind fun tm => findSwarm tm swn with
    | none => s
    | some sw =>
      match sw.mode, nextAgain sw.frame with
      | .program, some e =>
        let s1 := againOne s t swn e
        let waits : Bool := match (findTeam s1 t).bind fun tm => findSwarm tm swn with
          | some x => x.frame.log.any fun f => f.num == e.num && f.again
          | none => false
        if waits then s1 else reissue t swn k s1
      | _, _ => s

/-! ### TRAP, TRET and ERET (R336) -/

/-- R322: ERET.res marks the faulted entries that the drop mask does not name, and frees the others. -/
def markAgain (drop : Nat) (fr : Frame) : Frame :=
  let mark (e : LogEntry) : LogEntry := if e.faulted = 0 then e else { e with again := true }
  { fr with log := (fr.log.filter fun e => e.faulted == 0 || !drop.testBit e.num).map mark }

/-- A swarm returns from its handler with a drop mask: its entries are issued again, and a fault, or a barrier deadlock
that stands, enters the handler once more. -/
def returnRes (s : State) (t : TeamId) (swn drop : Nat) : State :=
  let s1 := updFrame (leaveHandler s t swn) t swn (markAgain drop)
  returnDeadlock (settleFaults (reissue t swn 8 s1) t swn) t

/-- R315: a swarm returns to its program from a pre-emption or restore handler: a request in force is withdrawn, and the
swarms that have executed ERET.off return as by ERET.res with drop mask 0. -/
def withdraw (s : State) (t : TeamId) (cause : Nat) : State :=
  match findTeam s t with
  | none => s
  | some tm =>
    if cause ≠ 0x40 ∧ cause ≠ 0x41 then s
    else
      let back (tm : Team) : Team :=
        if tm.st = .preempting ∧ cause = 0x40 ∧ tm.entered then
          { tm with st := .running, preempt := none, overdue := false, entered := false, imageAt := none }
        else tm
      ((liveSwarms tm).filter fun sw => sw.off).foldl (fun s sw => returnRes s t sw.num 0) (updTeam s t back)

/-- The cause for which a swarm is in a handler. -/
def handlerCause (sw : Swarm) : Nat :=
  match sw.mode with
  | .handler _ c => c
  | .program => 0

/-- R319: the handler-use trap. -/
def handlerUse (c : Ctx) (s : State) : State := undoTrap c s 0x22 c.f.pc

def execTrap (o : Wd) (s : State) : Host.Outcome State Fault Refusal :=
  runWord (.trap o) o .prog (fun _ => none) (fun _ => (Instr.trap o).fields) (fun c s1 =>
    handlerDone c s1 fun s2 =>
      takeTrap s2 c.f.team c.f.swarm c.act { cause := 0x21, lane := (lowest c.act).getD 0 }
        (BitVec.ofNat 64 o.a.immVal.toNat) none) s

def execTret (o : Wd) (s : State) : Host.Outcome State Fault Refusal :=
  runWord (.tret o) o .prog (fun _ => none) (fun _ => (Instr.tret o).fields) (fun c s1 =>
    match c.sw.mode with
    | .handler .prog _ => handlerDone c s1 fun s2 => returnRes s2 c.f.team c.f.swarm 0
    | _ => handlerUse c s1) s

/-- ERET acts in a level-2 or level-1 handler only. -/
def inHandler (c : Ctx) : Bool :=
  match c.sw.mode with
  | .handler .two _ | .handler .one _ => true
  | _ => false

def execEret (o : Wd) (s : State) : Host.Outcome State Fault Refusal :=
  runWord (.eret o) o .two (fun _ => none) (fun _ => (Instr.eret o).fields) (fun c s1 =>
    if inHandler c then
      handlerDone c s1 fun s2 =>
        withdraw (returnRes s2 c.f.team c.f.swarm o.a.immVal.toNat) c.f.team (handlerCause c.sw)
    else handlerUse c s1) s

/-- R130: ERET.end ends the swarm, program lanes included. -/
def execEretEnd (o : Wd) (s : State) : Host.Outcome State Fault Refusal :=
  runWord (.eretEnd o) o .two (fun _ => none) (fun _ => (Instr.eretEnd o).fields) (fun c s1 =>
    if inHandler c then
      handlerDone c s1 fun s2 =>
        exitDeadlock c s2 (endInHandler c s2)
    else handlerUse c s1) s

/-! ### Leaving the core (R333) -/

/-- R328: a wait that keeps a Parked context armed. -/
def wakeable (l : Lane) : Bool :=
  match l.park with
  | some (.waitc _ _) | some (.waittl _ _) | some (.syncwt _ _ _) | some (.clwait _) | some (.barwt _) | some (.gbar _)
  | some (.bar _ _) => true
  | _ => false

/-- R315: every non-exited lane is parked in such a wait. -/
def allParked (tm : Team) : Bool := (liveSwarms tm).all fun sw => (progFrame sw).lanes.all fun l => l.exited || wakeable l

/-- A swarm as it stands once its context has left the core: its rows are gone, its control state is kept for its waits
and its image. -/
def offSwarm (sw : Swarm) : Swarm :=
  let fr := progFrame sw
  { sw with mode := .program, frame := fr, hidden := none, frg := none, off := false, stopped := false }

/-- R333, R144, R134: PRV lines are written back and invalidated, pins of .l1i released, the handlers' writes performed
at .pkg, and what the team held on its core is free. -/
def leaveCore (s : State) (t : TeamId) (lv : Level) : State :=
  match findTeam s t with
  | none => s
  | some tm =>
    let s1 := release (flushL1 s tm.core fun x => x.mode == .prv) tm.core .pkg
    let prv (y : L2Line) : Bool := y.die == dieOf tm.core && y.mode == .prv
    let s2 := (s1.m.l2.filter prv).foldl l2Out s1
    let s2 := { s2 with m := { s2.m with pins := s2.m.pins.filter fun p => !(p.level == .l1 && p.team == t) } }
    let token := match (liveSwarms tm).head? with
      | some sw => sw.trapa
      | none => 0
    updTeam s2 t fun tm =>
      { tm with
        st := if allParked tm then .parked else .saved
        swarms := tm.swarms.map offSwarm
        bars := []
        accs := []
        units := []
        tags := []
        binds := []
        mmas := []
        spad := []
        image := tm.imageAt
        saver := lv
        token := token
        preempt := none
        overdue := false
        entered := false
        imageAt := none
        since := s.pulse.toNat }

/-- R315, R333: once every live swarm has executed ERET.off the context leaves its core, saved by the level of their
handlers. -/
def offDone (s : State) (t : TeamId) : State :=
  match findTeam s t with
  | some tm =>
    match (liveSwarms tm).head? with
    | some sw => if (liveSwarms tm).all fun sw => sw.off then leaveCore s t (execLevel tm sw) else s
    | none => s
  | none => s

/-- R315, R336: an ERET.off of this context leaves the core: the restore handler's, or that of the pre-emption handler of the
request in force. In a handler of a request that has been withdrawn it returns to the program. -/
def leaves (tm : Team) : Bool := tm.st == .loading || (tm.st == .preempting && tm.entered)

def execEretOff (o : Wd) (s : State) : Host.Outcome State Fault Refusal :=
  runWord (.eretOff o) o .two (fun _ => none) (fun _ => (Instr.eretOff o).fields) (fun c s1 =>
    match c.sw.mode with
    | .handler lv 0x40 | .handler lv 0x41 =>
      if lv = .two ∨ lv = .one then
        handlerDone c s1 fun s2 =>
          if leaves c.tm then offDone (updSwarm s2 c.f.team c.f.swarm fun sw => { sw with off := true }) c.f.team
          else returnRes s2 c.f.team c.f.swarm 0
      else handlerUse c s1
    | _ => handlerUse c s1) s

/-! ### OPLOGRD, PROGRD, PROGWR (R336) -/

/-- The eight words that OPLOGRD gives a lane for an entry of the program's log, or for the trap being delivered. -/
def oplogWords (sw : Swarm) (e ln : Nat) : List Word :=
  if e = 8 then
    match sw.frg with
    | some (seq, bseq, a, merges) => [BitVec.ofNat 32 (merges * 2 ^ 16), 0, loW seq, hiW seq, bseq, 0, loW a, hiW a]
    | none => List.replicate 8 0
  else
    match findEntry (progFrame sw) e with
    | none => List.replicate 8 0
    | some x =>
      let w0 := BitVec.ofNat 32 (2 ^ 31 + (if x.faulted = 0 then 0 else 2 ^ 30) + x.cause.toNat)
      let own : List Word := match recOf x ln with
        | some r => [loW r.va, hiW r.va, nth 0 r.data 0, nth 0 r.data 1]
        | none => [0, 0, 0, 0]
      [w0, x.faulted, loW x.addr, hiW x.addr] ++ own

def execOplogrd (o : Wd) (s : State) : Host.Outcome State Fault Refusal :=
  runWord (.oplogrd o) o .two (fun _ => none) (fun _ => (Instr.oplogrd o).fields) (fun c s1 =>
    updFrame s1 c.f.team c.f.swarm fun fr => eachLane c.act fr fun ln fr =>
      (List.range 8).foldl (fun fr j => setReg fr ln (opIdx o.d + j) (nth 0 (oplogWords c.sw o.a.immVal.toNat ln) j)) fr) s

/-- The swarm that PROGRD or PROGWR names: of the team proper, and live. -/
def namedSwarm (c : Ctx) (o : Wd) : Option Swarm :=
  let n := match o.a with
    | .imm x => x.toNat
    | x => (op32 c.sw.frame ((lowest c.act).getD 0) x).toNat
  (liveSwarms c.tm).find? fun sw => sw.num == n

def execProgrd (o : Wd) (s : State) : Host.Outcome State Fault Refusal :=
  runFrame (.progrd o) o none (fun c fr =>
    let p : Word := match namedSwarm c o with
      | some sw => (progFrame sw).prog
      | none => 0
    eachLane c.act fr fun ln fr => dst32 fr o 4 ln p) s

/-- R336: PROGWR waits while the swarm has a macro-instruction in progress. -/
def execProgwr (o : Wd) (s : State) : Host.Outcome State Fault Refusal :=
  let busy (c : Ctx) (_ : State) : Bool := match namedSwarm c o with
    | some sw => sw.mode == .program && !sw.stopped && sw.frame.macroAt.isSome && sw.num != c.f.swarm
    | none => false
  runWait busy (.progwr o) o .prog (fun _ => none) (fun _ => (Instr.progwr o).fields) (fun c s1 =>
    let v := op32 c.sw.frame ((lowest c.act).getD 0) o.b
    match namedSwarm c o with
    | some sw => updSwarm s1 c.f.team sw.num (updProgFrame fun fr => { fr with prog := v })
    | none => s1) s

/-! ### Pre-emption (R325, R327) -/

/-- R14: a macro-instruction. -/
def Instr.macro? : Instr → Bool
  | .mma _ _ _ | .mmaz _ _ _ | .cpy _ | .cpy2d _ | .gath _ _ | .scat _ _ | .bread _ | .redx _ _ | .scanx _ _
  | .scanxEx _ _ | .atomv _ _ _ => true
  | _ => false

/-- The word that keeps a swarm from issuing anything else. -/
def macroWord (s : State) (tm : Team) (sw : Swarm) : Option Instr :=
  match sw.frame.macroAt with
  | none => none
  | some (pc, _) =>
    match fetchWord s tm (execLevel tm sw) pc with
    | .word _ bs => (match decodeBytes bs with
      | .ok i => if Instr.macro? i then some i else none
      | .bad _ _ => none)
    | .fail _ _ _ _ => none

/-- R325: every non-exited lane is parked in BSYNC or in a wait of R328. -/
def pointParked (fr : Frame) : Bool := liveLanes fr != 0 && fr.lanes.all fun l => l.exited || l.bsync.isSome || wakeable l

/-- R325: a swarm in its program that has registered a live set stands at a pre-emption point: the word in progress. -/
def pointOf (s : State) (tm : Team) (sw : Swarm) : Option (Option Instr) :=
  if sw.mode ≠ .program ∨ sw.frame.liveSet.isNone ∨ (sw.frame.log.any fun e => e.again) then none
  else match macroWord s tm sw with
  | some i => some (some i)
  | none => if sw.frame.macroAt.isNone && pointParked sw.frame then some none else none

/-- R325: the rows that a stopped word names join the live set. -/
def joinLive (i : Option Instr) (fr : Frame) : Frame :=
  match i, fr.liveSet with
  | some i, some l =>
    { fr with liveSet := some { l with rows := (namedRows fr ((lowest (liveLanes fr)).getD 0) i).foldl (fun m n => m ||| (1#512 <<< n)) l.rows } }
  | _, _ => fr

/-- An operation of a context that stands at a request boundary: nothing of it is under way (R224, R327). -/
def opSettled (o : EngOp) : Bool :=
  o.ended || (o.flight.isEmpty && decide (o.reqd < o.count) && !o.halt && (entKind o.ctl != 5 || (o.window.isEmpty && o.closedW.isEmpty))) ||
  (o.task && o.stat == 1)

/-- R195, R224, R243, R246, R327: what a save waits for has ended: accesses, tile work, engine requests, the swarms of
handler reads, and sync-word arrivals. -/
def teamDrained (s : State) (tm : Team) : Bool :=
  (tm.swarms.all fun sw => sw.ended || (sw.kind == .team && sw.frame.cLd == 0 && sw.frame.cSt == 0 && sw.frame.cTile == 0 &&
    sw.frame.fences.isEmpty && sw.frame.log.all fun e => e.todo == 0 && e.away == 0 && !e.again)) &&
  !(s.drains.any fun d => d.team == tm.id) && !(s.tasks.any fun x => x.team == tm.id && x.core.isSome) &&
  !(s.arrivals.any fun a => match a.src with
    | some (t, _, _) => t == tm.id
    | none => false) &&
  tm.engs.all fun e => e.ops.all opSettled

/-- DONE of the walked entries and the issue forms that stop at a request boundary (R216, R224). -/
def writeDone (s : State) (tm : Team) : State :=
  tm.engs.foldl (fun s e => (e.ops.filter fun o => !o.task && o.stat == 1 && (o.started || !o.walked)).foldl (fun s o => setDone s tm.id o o.reqd) s) s

/-- R327: once every live swarm stands at its point and the drains are complete, each enters PENT of the requesting
level. -/
def preemptGo (s : State) (t : TeamId) : State :=
  match findTeam s t with
  | none => s
  | some tm =>
    match tm.st, tm.preempt with
    | .preempting, some (lv, _, rec_) =>
      let sws := liveSwarms tm
      if sws.isEmpty || !(sws.all fun sw => sw.stopped && sw.mode == .program) || !teamDrained s tm then s
      else
        let s1 := writeDone s tm
        (match entryAt s1 tm.part tm.slice lv rec_ .pent with
        | some pc =>
          sws.foldl (fun s sw => enterHandler s t sw.num lv pc { cause := 0x40 } .prog 0 none)
            (updTeam s1 t fun tm => { tm with entered := true })
        | none => faultTeam s1 t lv (trapcWord { cause := 0x40 } .prog lv) 0)
    | _, _ => s

/-- R327: a swarm reaches a pre-emption point of a pending request. -/
def execPreemptPointStop (t : TeamId) (swn : Nat) (s : State) : Host.Outcome State Fault Refusal :=
  .next (match findTeam s t, (findTeam s t).bind fun tm => findSwarm tm swn with
    | some tm, some sw =>
      if tm.st ≠ .preempting ∨ sw.kind ≠ .team ∨ sw.ended then s
      else if sw.stopped then preemptGo s t
      else (match pointOf s tm sw with
        | some i => preemptGo (updTeam s t fun tm =>
            updSwarmIn (stopMma tm swn) swn fun sw => { sw with stopped := true, frame := joinLive i sw.frame }) t
        | none => s)
    | _, _ => s)

/-- R327: a request that has not completed within 2 ms is reported as overdue. -/
def execPreemptOverdue (t : TeamId) (s : State) : Host.Outcome State Fault Refusal :=
  .next (updTeam s t fun tm => match tm.st, tm.preempt with
    | .preempting, some (_, at_, _) => if at_ + 2000000 ≤ s.pulse.toNat then { tm with overdue := true } else tm
    | _, _ => tm)

/-- R320: the next imprecise trap of a team is delivered; not while its context is Frozen or off its core. -/
def execImpreciseTrapDelivery (t : TeamId) (s : State) : Host.Outcome State Fault Refusal :=
  .next (match findTeam s t with
    | some tm =>
      (match dueTrap tm with
      | some (n, _) =>
        let ok : Bool := match findSwarm tm n with
          | some sw => (firstFault sw.frame).isNone && swarmRuns tm sw
          | none => false
        if teamRuns s tm && ok then deliverTrap s t else s
      | none => s)
    | none => s)

/-! ### Coming back (R328, R334) -/

/-- R328: a wake source of a Parked context has fired. -/
def execParkedWake (t : TeamId) (s : State) : Host.Outcome State Fault Refusal :=
  .next (updTeam s t fun tm =>
    if tm.st = .parked ∧ ((liveSwarms tm).any fun sw => sw.frame.lanes.any fun l => !l.exited && l.woken) then { tm with st := .saved }
    else tm)

/-- A swarm of a context that is loaded: its frame is fresh until CTXLOAD fills it. -/
def loadSwarm (tm : Team) (xlgw : Nat) (sw : Swarm) : Swarm :=
  let _ := tm
  if sw.ended then sw else { sw with kept := some sw.frame, frame := freshFrame 0 0 0 xlgw }

/-- R334: the core takes the context: each live swarm enters RENT of the level that saved, with the resume token. -/
def loadTeam (s : State) (tm : Team) (core : Nat) : State :=
  let t := tm.id
  let s1 := { s with m := { s.m with mons := s.m.mons.filter fun x => x.team != t } }
  let s2 := updTeam s1 t fun x =>
    seatTeam s1 { x with core := core, st := .loading, swarms := x.swarms.map (loadSwarm x (gridXlgw s t)) }
  let s2 := match tm.gang with
    | some (n, k) => updGang s2 n fun g => { g with cores := g.cores.set k core }
    | none => s2
  let s3 := acquire s2 core .pkg
  match (findTeam s3 t).bind fun x => handlerEntry s3 x tm.saver .rent with
  | some pc => (liveSwarms tm).foldl (fun s sw => enterHandler s t sw.num tm.saver pc { cause := 0x41 } .prog tm.token none) s3
  | none => faultTeam s3 t tm.saver (trapcWord { cause := 0x41 } .prog tm.saver) tm.token

/-- R334, R278: no die that comes before a core's, in the order from the die where the context last stood (assumption 123),
has a core that can take it. -/
def nearestFor (s : State) (core : Nat) (tm : Team) : Bool :=
  !((dieOrder (dieOf tm.core)).takeWhile fun d => d != dieOf core).any fun d =>
    (List.range 96).any fun k => canTake s (96 * d + k) tm

/-- R334: the oldest saved context of the highest priority that the core can take. -/
def execContextLoad (t : TeamId) (core : Nat) (s : State) : Host.Outcome State Fault Refusal :=
  .next (match findTeam s t with
    | none => s
    | some tm =>
      let before (x : Team) : Bool := x.st == .saved && canTake s core x &&
        (decide (tm.prio < x.prio) || (x.prio == tm.prio && decide (x.since < tm.since)))
      if tm.st = .saved ∧ canTake s core tm ∧ nearestFor s core tm ∧ !(s.teams.any before) then loadTeam s tm core else s)

/-- R315: the owning level retires a Faulted context: no swarm of it runs on. -/
def execFaultedRetire (t : TeamId) (s : State) : Host.Outcome State Fault Refusal :=
  .next (match findTeam s t with
    | none => s
    | some tm =>
      if tm.st ≠ .faulted then s
      else
        let stop (sw : Swarm) : Swarm := { (offSwarm sw) with ended := true, frame := { progFrame sw with log := [], fences := [] } }
        let s1 := updTeam s t fun tm => { tm with st := .retired, swarms := tm.swarms.map stop }
        { s1 with faults := s1.faults.filter fun f => f.team != t, drains := s1.drains.filter fun d => !(d.team == t && d.task.isNone),
                  epi := none })

/-! ### Register spilling (R76, R77) -/

/-- The rows of a frame that hold physical rows, and those that a pending result will make live. -/
def heldRows (fr : Frame) : List Nat :=
  let due := pendingRows fr 0xFFFFFFFF
  (List.range 512).filter fun n => (fr.live.getLsbD n || due.contains n) && !fr.spilled.getLsbD n

/-- The physical rows of a core in use; a handler frame has 32 (R317). -/
def rowsUsed (s : State) (core : Nat) : Nat :=
  ((swarmsOn s core).map fun sw =>
    (heldRows (progFrame sw)).length + if sw.hidden.isSome then 32 else 0).sum

/-- The address of a row of a swarm in its spill region (R76). -/
def spillAddr (tm : Team) (sw n : Nat) : Nat := tm.spill + 65536 * sw + 128 * n

/-- R76: the rows of a swarm that may be spilled: live program rows of a team's swarm, but for those that a word in progress
may use and those that a pending or faulted access will write. -/
def spillable (sw : Swarm) : List Nat :=
  let fr := progFrame sw
  let due := pendingRows fr 0xFFFFFFFF
  if sw.kind = .team ∧ !sw.ended ∧ fr.macroAt.isNone then
    (List.range 512).filter fun n => fr.live.getLsbD n && !fr.spilled.getLsbD n && !due.contains n
  else []

/-- The bytes of a row. -/
def rowBytes (fr : Frame) (n : Nat) : List Byte := wordBytes (lanes32.map fun i => rawReg fr i n)

/-- A row's words from its bytes. -/
def putRow (fr : Frame) (n : Nat) (bs : List Byte) : Frame :=
  let ws := bytesWords 32 bs
  { fr with regs := lanes32.foldl (fun t i => t.set (32 * n + i) (nth 0 ws i)) fr.regs }

/-- R76, R319: a spill or fill access has faulted: its swarm stops before its next word. One such trap per swarm is
pending. -/
def spillFault (s : State) (tm : Team) (sw : Swarm) (b : SpanBad) : State :=
  if tm.traps.any fun p => p.sw == some sw.num then s
  else updTeam s tm.id fun x => addTrap x ⟨0x23, false, 0, 0, BitVec.ofNat 64 b.addr, 0, 0, some sw.num⟩

/-- R76: one row goes to its spill region; a fault is a register-spill fault. -/
def spillRow (s : State) (tm : Team) (sw : Swarm) (n : Nat) : State :=
  match locateSpan s tm tm.level ⟨.write, false, false, none⟩ (spillAddr tm sw.num n) 128 with
  | (s1, .error b) => spillFault s1 tm sw b
  | (s1, .ok ps) =>
    match postWay s1 tm ps with
    | .here =>
      let s2 := postParts tm 0 (fun s p bs => writePlace s tm.id tm.core plainQ p bs) s1 ps (rowBytes (progFrame sw) n)
      updSwarm s2 tm.id sw.num (updProgFrame fun fr => { fr with spilled := fr.spilled ||| (1#512 <<< n) })
    | _ => s1

/-- The rows of a core that may be spilled, of all swarms but one. -/
def spillList (s : State) (core : Nat) (but : Option (TeamId × Nat)) : List (Team × Swarm × Nat) :=
  (s.teams.filter fun tm => tm.core == core && onCore tm).flatMap fun tm =>
    (tm.swarms.filter fun sw => but != some (tm.id, sw.num)).flatMap fun sw => (spillable sw).map fun n => (tm, sw, n)

/-- R76: physical rows are made free for `n` rows that a swarm of a core is to take. Eleven swarms and their handler frames
never fill the register file. Which rows go is the model's choice (assumption 58). -/
def makeRoom (s : State) (core : Nat) (t : TeamId) (swn n : Nat) : State :=
  if 544 * (swarmsOn s core).length ≤ 6144 then s
  else ((spillList s core (some (t, swn))).take (rowsUsed s core + n - 6144)).foldl (fun s x => spillRow s x.1 x.2.1 x.2.2) s

/-- The rows that a word makes live in a frame. -/
def newRows (fr : Frame) (i : Instr) : Nat :=
  match i with
  | .ldix _ | .stix _ => 64
  | _ => ((namedRows fr 0 i).filter fun n => !fr.live.getLsbD n).length

/-- A row is spilled: which and when is the part's choice (R76, R80). -/
def execRegisterSpill (core : Nat) (s : State) : Host.Outcome State Fault Refusal :=
  .next (match spillList s core none with
    | (tm, sw, n) :: _ => spillRow s tm sw n
    | [] => s)

/-- What filling the rows of a swarm comes to. -/
inductive Filled where
  | done (s : State)
  | wait (s : State)

/-- R76: the spilled rows of a swarm's program are read back. -/
def fillRows (s : State) (tm : Team) (sw : Swarm) : List Nat → Filled
  | [] => .done s
  | n :: rest =>
    match readSpan s tm tm.level ⟨.read, false, false, none⟩ (wordKey sw.num) (some plainQ) (spillAddr tm sw.num n) 128 with
    | .wait s1 => .wait s1
    | .bad s1 b => .wait (spillFault s1 tm sw b)
    | .ok s1 bs =>
      fillRows (updSwarm (dropBufs s1 tm.id (wordKey sw.num)) tm.id sw.num
        (updProgFrame fun fr => { putRow fr n bs with spilled := fr.spilled &&& ~~~(1#512 <<< n) })) tm sw rest

/-- The rows of a swarm that stand in its spill region. -/
def spilledRows (sw : Swarm) : List Nat := (List.range 512).filter (progFrame sw).spilled.getLsbD

end Sys2Proof.Machine
end

