-- ==== Sys2Proof/Machine/Image.lean ====
section
/-!
DEFINITION. Context images (R329 to R332, R340): the layout, the header with its CRC, CTXSAVE and CTXLOAD.
-/
namespace Sys2Proof.Machine

/-! ### CRC-32 (R330) -/

/-- One bit: the register shifts right, and takes the reflected polynomial. -/
def crcBit (c : Nat) : Nat := if c % 2 = 1 then c / 2 ^^^ 0xEDB88320 else c / 2
/-- One byte, least significant bit first. -/
def crcByte (c : Nat) (b : Byte) : Nat := (List.range 8).foldl (fun c _ => crcBit c) (c ^^^ b.toNat)
/-- R330: the CRC-32 of IEEE 802.3. -/
def crc32 (bs : List Byte) : Nat := bs.foldl crcByte 0xFFFFFFFF ^^^ 0xFFFFFFFF

/-! ### Bytes of an image by their offsets -/

/-- Bytes to be written, each run at its offset. -/
abbrev Patch := List (Nat × List Byte)

/-- The base of the control area, the rows and the operand log of a swarm (R329). -/
def ctlBase (sw : Nat) : Nat := 0x4000 + 0x12000 * sw
def rowsBase (sw : Nat) : Nat := 0x6000 + 0x12000 * sw
def logBase (sw : Nat) : Nat := 0x340000 + 0x4000 * sw

/-- A patch laid over bytes that begin at offset 0. -/
def overlay (bs : List Byte) (p : Patch) : List Byte :=
  let t := p.foldl (fun (t : Tab 8) x => setBytes t x.1 x.2) (setBytes [] 0 bs)
  tabBytes t 0 bs.length

/-- Bytes that the part lays out as it chooses (R329): free values. -/
def freeBytes (s : State) (n : Nat) : State × List Byte :=
  ({ s with draws := s.draws + n }, (List.range n).map fun k => BitVec.ofNat 8 (Config.free (s.draws + k)).toNat)

/-- A patch of areas whose layout is the part's. -/
def freePatch : State → List (Nat × Nat) → State × Patch
  | s, [] => (s, [])
  | s, (off, n) :: r =>
    let (s1, bs) := freeBytes s n
    let (s2, p) := freePatch s1 r
    (s2, (off, bs) :: p)

/-! ### The control area (R331) -/

def waitByte (l : Lane) : Nat :=
  match l.bsync with
  | some (m, none) => 0x80 + m
  | some (m, some k) => 0xC0 + 8 * k + m
  | none => 0

def parkKind (l : Lane) : Nat :=
  if l.bsync.isSome then 1
  else match l.park with
  | some (.waitc _ _) => 2
  | some (.waittl _ _) => 3
  | some (.syncwt _ _ _) => 4
  | some (.barwt _) => 5
  | some (.clwait _) => 6
  | some (.bar _ _) => 7
  | some (.gbar _) => 8
  | _ => 0

def tokenOf (l : Lane) : Word :=
  match l.park with
  | some (.bar _ t) | some (.gbar t) => t
  | _ => 0

/-- The predicates of a lane as they are saved: those that the live set names, or all. -/
def savedPreds (fr : Frame) (every : Bool) (l : Lane) : Nat :=
  let m := if every then 0xFE else match fr.liveSet with
    | some x => x.preds.toNat / 2 * 2
    | none => 0
  l.preds.toNat &&& m

/-- The index word of an operand-log entry; the age is its rank. -/
def indexWord (fr : Frame) (e : LogEntry) : Nat :=
  let rank := (fr.log.filter fun x => decide (x.seq < e.seq)).length
  1 + (if e.faulted = 0 then 0 else 2) + rank % 8 * 4 + e.cause.toNat * 2 ^ 8 + 3 * 2 ^ 16

/-- The control area of a swarm, without the saved-row bitmap. -/
def ctlPatch (tm : Team) (fr : Frame) (every : Bool) : Patch :=
  let each (f : Lane → List Byte) : List Byte := (lanes32.map (lane fr)).flatMap f
  let b (n : Nat) : Byte := BitVec.ofNat 8 n
  let view := fr.vcnt + fr.tcnt * 2 ^ 10 + tm.acnt * 2 ^ 14
  let live := match fr.liveSet with
    | some l => liveBytes l
    | none => List.replicate 128 0
  let index (k : Nat) : List Byte := valBytes 32 (match findEntry fr k with
    | some e => indexWord fr e
    | none => 0)
  [(0x000, each fun l => valBytes 8 l.pc.toNat), (0x100, each fun l => [b (waitByte l)]),
   (0x120, each fun l => [b (parkKind l)]),
   (0x140, valBytes 4 (maskOf fun i => (lane fr i).exited).toNat ++ valBytes 4 0 ++ valBytes 8 fr.bcast.toNat),
   (0x150, (List.range 8).flatMap fun k => valBytes 4 (fr.marks.get k).toNat),
   (0x170, valBytes 4 view ++ valBytes 4 fr.xlgw ++ valBytes 4 fr.prog.toNat ++ [b fr.cLd, b fr.cSt, b fr.cCp, b fr.cTile]),
   (0x180, each fun l => [b (savedPreds fr every l)]), (0x1A0, each fun l => valBytes 4 l.fflags.toNat),
   (0x220, (List.range 16).flatMap fun k => valBytes 4 (fr.arrive.get k).toNat),
   (0x260, each fun l => valBytes 4 (tokenOf l).toNat), (0x2E0, live),
   (0x400, each fun l => valBytes 4 l.l0.toNat ++ valBytes 4 l.l1.toNat ++
     (List.range 8).flatMap fun k => valBytes 4 (l.ofile.get k).toNat),
   (0x900, (List.range 8).flatMap index)]

/-- A lane from the control area. A wait of R328 is executed again; BAR and GBAR resume at their wait with the token
(R328). -/
def ctlLane (c : List Byte) (i : Nat) (old : Lane) : Lane :=
  let n (off k : Nat) : Nat := bytesVal ((c.drop off).take k)
  let w := n (0x100 + i) 1
  let kind := n (0x120 + i) 1
  let tok : Word := BitVec.ofNat 32 (n (0x260 + 4 * i) 4)
  let word (k : Nat) : Word := BitVec.ofNat 32 (n (0x400 + 40 * i + 4 * k) 4)
  { old with
    pc := BitVec.ofNat 64 (n (8 * i) 8)
    exited := (n 0x140 4).testBit i
    bsync := if w.testBit 7 then some (w % 8, if w.testBit 6 then some (w / 8 % 8) else none) else none
    park := if kind = 7 then some (.bar 0 tok) else if kind = 8 then some (.gbar tok) else none
    woken := kind == 7 || kind == 8
    l0 := word 0
    l1 := word 1
    ofile := (List.range 8).foldl (fun (t : Tab 32) k => t.set k (word (2 + k))) []
    preds := BitVec.ofNat 8 (n (0x180 + i) 1 / 2 * 2 + 1)
    fflags := BitVec.ofNat 6 (n (0x1A0 + 4 * i) 4)
    age := 0 }

/-- The state of a swarm from its control area; `kept` is the frame for which the areas laid out by the part stand. -/
def ctlFrame (c : List Byte) (kept fr : Frame) : Frame :=
  let n (off k : Nat) : Nat := bytesVal ((c.drop off).take k)
  let view := n 0x170 4
  let words (off k : Nat) (t0 : Tab 32) : Tab 32 := (List.range k).foldl (fun t j => t.set j (BitVec.ofNat 32 (n (off + 4 * j) 4))) t0
  let inUse (e : LogEntry) : Bool := (n (0x900 + 32 * e.num) 1).testBit 0
  let live := n 0x2E0 128
  { fr with
    lanes := lanes32.map fun i => ctlLane c i (lane fr i)
    bcast := BitVec.ofNat 64 (n 0x148 8)
    marks := words 0x150 8 []
    vcnt := view % 1024
    tcnt := view / 1024 % 16
    xlgw := n 0x174 4
    prog := BitVec.ofNat 32 (n 0x178 4)
    cLd := n 0x17C 1
    cSt := n 0x17D 1
    cCp := n 0x17E 1
    cTile := n 0x17F 1
    arrive := words 0x220 16 kept.arrive
    liveSet := if live = 0 ∧ kept.liveSet.isNone then none else some (parseLive live)
    log := kept.log.filter inUse
    seq := max fr.seq kept.seq
    macroAt := none }

/-! ### CTXSAVE (R332, R340) -/

/-- The scratchpad ranges of live sets, within the allocation. -/
def liveRanges (spad : Nat) (ls : List LiveRec) : List (Nat × Nat) :=
  (ls.flatMap fun l => l.ranges).filterMap fun r => if r.1 < min r.2 spad then some (r.1, min r.2 spad - r.1) else none

/-- The rows of the view: those of its v-registers and of its tiles (R69). -/
def viewRows (fr : Frame) : BitVec 512 := BitVec.ofNat 512 (2 ^ fr.vcnt - 1 + (2 ^ 512 - 2 ^ (512 - 64 * fr.tcnt)))

/-- The rows that CTXSAVE writes: those of the live set that the view has (R324), or every live one (R332). -/
def savedRows (fr : Frame) (every : Bool) : BitVec 512 :=
  if every then fr.live else match fr.liveSet with
  | some l => fr.live &&& l.rows &&& viewRows fr
  | none => 0

/-- The entry of a pending imprecise trap (R320). -/
def trapBytes (p : PendTrap) : List Byte :=
  valBytes 4 (p.cause + (if p.frg then 2 ^ 8 else 0) + min p.merges 65535 * 2 ^ 16) ++ valBytes 4 p.bseq.toNat ++
  valBytes 8 p.addr.toNat ++ valBytes 8 p.rseq.toNat ++ List.replicate 8 0

/-- The parts that bits 0 and 1 name: the issuing swarm's. -/
def swarmPatch (tm : Team) (sw : Swarm) (m : Nat) : Patch :=
  let fr := progFrame sw
  let every := m.testBit 7
  let at_ (base : Nat) (p : Patch) : Patch := p.map fun x => (base + x.1, x.2)
  let rows := savedRows fr every
  (if m.testBit 1 then at_ (ctlBase sw.num) (ctlPatch tm fr every) else []) ++
  (if m.testBit 0 then
    (ctlBase sw.num + 0x360, valBytes 64 rows.toNat) ::
      ((List.range 512).filter rows.getLsbD).map fun n => (rowsBase sw.num + 128 * n, wordBytes (lanes32.map fun i => reg fr i n))
  else [])

/-- The areas that the part lays out as it chooses, by the bits of m (R329). -/
def freeAreas (sw : Swarm) (m : Nat) : List (Nat × Nat) :=
  (if m.testBit 1 then (progFrame sw).log.map fun e => (logBase sw.num + 2048 * e.num, 1600) else []) ++
  (if m.testBit 3 then [(0xC0, 1024)] else []) ++
  (if m.testBit 4 then [(0x4C0, 128), (0x540, 64), (0x1000, 12288)] else [])

/-- The team parts that bits 2 and 4 to 6 name. -/
def teamPatch (s : State) (tm : Team) (m : Nat) : Patch :=
  let sets := (liveSwarms tm).filterMap fun sw => (progFrame sw).liveSet
  let traps := ((tm.traps.take 8).flatMap trapBytes)
  (if m.testBit 2 then [(0x40, (List.range 16).flatMap fun b => valBytes 8 (tm.bars.get b).toNat)] else []) ++
  (if m.testBit 4 then [(0x580, traps ++ List.replicate (256 - traps.length) 0)] else []) ++
  (if m.testBit 5 then (liveRanges tm.spadSz sets).map fun r => (0x244000 + r.1, spadRead s tm.id r.1 r.2) else []) ++
  (if m.testBit 6 then
    [(0x2A4000, tabBytes tm.units 0 524288), (0x324000, (List.range 2048).flatMap fun u => valBytes 2 (tm.tags.get u).toNat)]
  else [])

/-- The header: values of the moment, the parts ORed in, the arrival map cleared with bit 5, the CRC with bits 2 to 4. -/
def headerBytes (old : Nat) (tm : Team) (m : Nat) (crc : Option Nat) : List Byte :=
  let live := liveSwarms tm
  let mask := (live.map fun sw => 2 ^ sw.num).sum
  let parts := rbits old 63 48 ||| m
  valBytes 16 (1 + live.length % 256 * 2 ^ 8 + mask * 2 ^ 16 + parts * 2 ^ 48 + crc.getD (rbits old 95 64) * 2 ^ 64) ++
  valBytes 48 (if m.testBit 5 then 0 else rbits old 511 128)

/-- Several checked runs of an image. -/
def locatePatch (tm : Team) (lv : Level) (a : Nat) : State → Patch → State × Except SpanBad (List (Place × Nat))
  | s, [] => (s, .ok [])
  | s, (off, bs) :: r =>
    match locateSpan s tm lv ⟨.write, false, false, none⟩ ((a + off) % 2 ^ 64) bs.length with
    | (s1, .error b) => (s1, .error b)
    | (s1, .ok ps) =>
      match locatePatch tm lv a s1 r with
      | (s2, .error b) => (s2, .error b)
      | (s2, .ok qs) => (s2, .ok (ps ++ qs))

/-- Some live swarm of the team is in its program. -/
def someProgram (tm : Team) : Bool := (liveSwarms tm).any fun sw => sw.mode == .program

/-- The status of CTXSAVE and CTXLOAD in every active lane. -/
def ctxDone (c : Ctx) (o : Wd) (st : Word) (s : State) : State :=
  resultAll c o st (dropBufs s c.f.team (wordKey c.f.swarm))

/-- A fault of CTXSAVE or CTXLOAD, by stop. -/
def imageFault (c : Ctx) (s : State) (b : SpanBad) : State :=
  formFault c (dropBufs s c.f.team (wordKey c.f.swarm)) c.sw.frame.prog.toNat b.cause b.stage (BitVec.ofNat 64 b.addr)

def ctxsaveEff (o : Wd) (c : Ctx) (s1 : State) : State :=
  let lv := execLevel c.tm c.sw
  let m := o.b.immVal.toNat % 256
  let a := (opPair c.sw.frame ((lowest c.act).getD 0) o.a).toNat
  if c.sw.mode = .program then handlerUse c s1
  else match formBad a 4096 with
  | some b => imageFault c s1 b
  | none =>
    if m / 4 % 32 ≠ 0 && someProgram c.tm then ctxDone c o 2 s1
    else
      let crc : Bool := m / 4 % 8 != 0
      match readSpan s1 c.tm lv ⟨.rw, false, false, none⟩ (wordKey c.f.swarm) (some pkgQ) a (if crc then 0x4000 else 64) with
      | .wait s2 => standAt c s2
      | .bad s2 b => imageFault c s2 b
      | .ok s2 old =>
        let (s3, free) := freePatch s2 (freeAreas c.sw m)
        let p := swarmPatch c.tm c.sw m ++ teamPatch s3 c.tm m ++ free
        let head := p.filter fun x => x.1 < 0x4000
        let sum : Option Nat := if crc then some (crc32 ((overlay old head).drop 64)) else none
        let p1 := p ++ [(0, headerBytes (bytesVal (old.take 64)) c.tm m sum)]
        (match locatePatch c.tm lv a s3 p1 with
        | (s4, .error b) => imageFault c s4 b
        | (s4, .ok ps) =>
          match postWay s4 c.tm ps with
          | .wait => standAt c s4
          | .fault ca => imageFault c s4 ⟨ca, 0, a, none⟩
          | _ =>
            let s5 := postParts c.tm 0 (fun s q bs => writePlace s c.tm.id c.tm.core pkgQ q bs) s4 ps (p1.flatMap fun x => x.2)
            let s6 := if m.testBit 5 then updTeam s5 c.f.team fun tm => { tm with imageAt := some a, saver := lv } else s5
            ctxDone c o 0 s6)

/-- CTXSAVE and CTXLOAD wait for the earlier accesses of the handler. -/
def imageWaits (c : Ctx) (_ : State) : Bool := stillOpen c.sw.frame 0xFFFFFFFF fun _ _ => true

def execCtxsave (o : Wd) (s : State) : Host.Outcome State Fault Refusal :=
  runWait imageWaits (.ctxsave o) o .two (fun _ => none) (fun _ => (Instr.ctxsave o).fields) (ctxsaveEff o) s

/-! ### CTXLOAD (R332, R194, R195) -/

/-- What several reads of an image come to. -/
inductive ImgRd where
  | ok (s : State) (bs : List (List Byte))
  | wait (s : State)
  | bad (s : State) (b : SpanBad)

/-- Runs of an image are read: offset and length; every run is asked for before one is waited for. -/
def readRuns (tm : Team) (lv : Level) (key a : Nat) : State → List (Nat × Nat) → ImgRd
  | s, [] => .ok s []
  | s, (off, n) :: r =>
    match readSpan s tm lv ⟨.read, false, false, none⟩ key (some pkgQ) ((a + off) % 2 ^ 64) n with
    | .bad s1 b => .bad s1 b
    | .wait s1 =>
      (match readRuns tm lv key a s1 r with
      | .ok s2 _ => .wait s2
      | x => x)
    | .ok s1 bs =>
      match readRuns tm lv key a s1 r with
      | .ok s2 bss => .ok s2 (bs :: bss)
      | x => x

/-- The rows of the saved-row bitmap become live, others do not. -/
def loadRows (bm : BitVec 512) (rows : List (Nat × List Byte)) (fr : Frame) : Frame :=
  rows.foldl (fun fr r => putRow fr r.1 r.2) { fr with regs := [], live := bm, freed := [], spilled := 0 }

/-- R194: the sync words of a team's scratchpad on which its lanes were parked. -/
def parkedSyncs (tm : Team) : List Nat :=
  tm.swarms.flatMap fun sw => ((sw.kept.getD (progFrame sw)).lanes.filterMap fun l => match l.park with
    | some (.syncwt _ u off) => if u = tm.id then some off else none
    | _ => none)

/-- R194, steps 1 and 2: the release loop, and IMG cleared. -/
def restoreSync (s : State) (t : TeamId) (off : Nat) : State :=
  let w := syncBump false (bytesVal (spadRead s t off 16)) 0
  let w1 := if w.testBit 97 then w - 2 ^ 97 else w
  spadWrite s (.lane t 0) t off (valBytes 16 w1)

/-- R332: the saved ranges and the units of the arrival map are restored; other scratchpad reads 0. -/
def loadSpad (s : State) (t : TeamId) (runs : List (Nat × List Byte)) : State :=
  let put (tm : Team) : Team := { tm with spad := runs.foldl (fun m r => setBytes m r.1 r.2) [], image := none, imageAt := none }
  let s1 := updTeam s t put
  match findTeam s1 t with
  | some tm => wakeSync ((parkedSyncs tm).eraseDups.foldl (fun s off => restoreSync s t off) s1) t
  | none => s1

/-- R195: barrier words; one that counts every live swarm is compared with the restored ones. -/
def loadBars (bs : List Byte) (tm : Team) : Team :=
  let bars := (List.range 16).foldl (fun (t : Tab 64) b => t.set b (BitVec.ofNat 64 (bytesVal ((bs.drop (8 * b)).take 8)))) []
  (List.range 16).foldl settleBar { tm with bars := bars }

/-- Weight units and tags. -/
def loadUnits (us ts : List Byte) (tm : Team) : Team :=
  let tag (t : Tab 16) (u : Nat) : Tab 16 := t.set u (BitVec.ofNat 16 (bytesVal ((ts.drop (2 * u)).take 2)))
  { tm with units := setBytes [] 0 us, tags := (List.range 2048).foldl tag [] }

/-- The runs of an image that bit 5 reads: the ranges of the saved swarms' live sets and the units of the arrival map. -/
def spadRuns (spad : Nat) (live : List (List Byte)) (map : Nat) : List (Nat × Nat) :=
  liveRanges spad (live.map fun b => parseLive (bytesVal b)) ++
  ((List.range 384).filter fun u => map.testBit u && decide (1024 * u + 1024 ≤ spad)).map fun u => (1024 * u, 1024)

def ctxloadEff (o : Wd) (c : Ctx) (s1 : State) : State :=
  let lv := execLevel c.tm c.sw
  let t := c.f.team
  let sw := c.f.swarm
  let m := o.b.immVal.toNat % 256
  let a := (opPair c.sw.frame ((lowest c.act).getD 0) o.a).toNat
  let key := wordKey sw
  let crc : Bool := m / 4 % 8 != 0
  let when_ (b : Bool) (x : Nat × Nat) : List (Nat × Nat) := if b then [x] else []
  if c.sw.mode = .program then handlerUse c s1
  else match formBad a 4096 with
  | some b => imageFault c s1 b
  | none =>
    if m / 4 % 32 ≠ 0 && someProgram c.tm then ctxDone c o 2 s1
    else match readRuns c.tm lv key a s1 ((0, if crc then 0x4000 else 64) :: when_ (m % 4 != 0) (ctlBase sw, 0xA00)) with
    | .wait s2 => standAt c s2
    | .bad s2 b => imageFault c s2 b
    | .ok s2 bss =>
      let h := nth [] bss 0
      let ctl := nth [] bss 1
      let hv := bytesVal (h.take 64)
      if rbits hv 7 0 ≠ 1 || (crc && rbits hv 95 64 != crc32 (h.drop 64)) then imageFault c s2 ⟨0x25, 0, a, none⟩
      else
        let bm : BitVec 512 := BitVec.ofNat 512 (bytesVal ((ctl.drop 0x360).take 64))
        let rows := if m.testBit 0 then (List.range 512).filter bm.getLsbD else []
        let swarms := if m.testBit 5 then (List.range 32).filter (rbits hv 47 16).testBit else []
        let units := m.testBit 6
        (match readRuns c.tm lv key a s2 (swarms.map (fun k => (ctlBase k + 0x2E0, 128)) ++
            rows.map (fun n => (rowsBase sw + 128 * n, 128)) ++ when_ units (0x2A4000, 524288) ++ when_ units (0x324000, 4096)) with
        | .wait s3 => standAt c s3
        | .bad s3 b => imageFault c s3 b
        | .ok s3 cs =>
          let k := swarms.length
          let runs := if m.testBit 5 then spadRuns c.tm.spadSz (cs.take k) (rbits hv 511 128) else []
          match readRuns c.tm lv key a s3 (runs.map fun r => (0x244000 + r.1, r.2)) with
          | .wait s4 => standAt c s4
          | .bad s4 b => imageFault c s4 b
          | .ok s4 ds =>
            let kept := c.sw.kept.getD (progFrame c.sw)
            let fr1 (fr : Frame) : Frame := if m.testBit 1 then ctlFrame ctl kept fr else fr
            let fr2 (fr : Frame) : Frame := if m.testBit 0 then loadRows bm (rows.zip ((cs.drop k).take rows.length)) fr else fr
            let tmf (tm : Team) : Team :=
              let x := if m.testBit 2 then loadBars ((h.drop 64).take 128) tm else tm
              if units then loadUnits (nth [] cs (k + rows.length)) (nth [] cs (k + rows.length + 1)) x else x
            let s5 := acquire s4 c.tm.core .pkg
            let s6 := updTeam (updSwarm s5 t sw (updProgFrame fun fr => fr2 (fr1 fr))) t tmf
            -- R189, R190: a restored arrival may be the last of its team
            ctxDone c o 0 (settleGangTeam (if m.testBit 5 then loadSpad s6 t ((runs.map fun r => r.1).zip ds) else s6) t))

def execCtxload (o : Wd) (s : State) : Host.Outcome State Fault Refusal :=
  runWait imageWaits (.ctxload o) o .two (fun _ => none) (fun _ => (Instr.ctxload o).fields) (ctxloadEff o) s

end Sys2Proof.Machine
end

