-- ==== Sys2Proof/Machine/Page.lean ====
section
/-!
DEFINITION. The page words: PAGEMODE, TLBINV, PROBE, BMAPRD and REMAP (R351 to R362), and the events of translation
and of the banks (R347, R359 to R364).
-/
namespace Sys2Proof.Machine

/-! ### Physical pages -/

/-- A run of physical memory: its base and the log of its size. -/
abbrev Run := Nat × Nat

def inRun (r : Run) (a : Nat) : Bool := a / 2 ^ r.2 == r.1 / 2 ^ r.2
def inRuns (rs : List Run) (a : Nat) : Bool := rs.any fun r => inRun r a

/-- The line lies in one of the runs: a page holds whole lines. -/
def lineIn (rs : List Run) (line : Nat) : Bool := inRuns rs (128 * line)

/-- R353, R354: what was written before is performed everywhere; every L1 of the package, and every L2 where `l2` says so,
writes back the dirty bytes of the lines and drops them. -/
def flushRuns (s : State) (rs : List Run) (l2 : Bool) : State :=
  let s1 := (s.m.misses.filter fun q => q.excl && q.data && lineIn rs q.line).foldl (fun s q => performAt s q.core q.line .sys) s
  let s2 := (s1.m.l1.filter fun x => lineIn rs x.line).foldl l1Out s1
  let s3 := if l2 then (s2.m.l2.filter fun x => lineIn rs x.line).foldl l2Out s2 else s2
  { s3 with m := { s3.m with l1 := s3.m.l1.filter (fun x => !lineIn rs x.line),
                             invq := s3.m.invq.filter (fun q => !lineIn rs q.line),
                             misses := s3.m.misses.filter fun q => !lineIn rs q.line } }

/-- The bytes that a directory entry covers begin here (R166). -/
def DirEnt.addr (d : DirEnt) : Nat := if d.level = .clus then 128 * d.region else 512 * d.region

/-- Directory entries of the runs take a state; I is no entry. -/
def dirRuns (m : MemSys) (rs : List Run) (st : DirSt) : MemSys :=
  let put (d : DirEnt) : DirEnt := if inRuns rs d.addr then { d with st := st, owner := none, sharers := [] } else d
  { m with dirs := if st = .i then m.dirs.filter (fun d => !inRuns rs d.addr) else m.dirs.map put }

/-! ### PAGEMODE (R353) -/

/-- The stage-1 leaf of an address in an address space, and where its entry stands in physical memory. -/
structure Leaf1 where
  out   : Nat
  bits  : Nat
  ent   : Nat
  at_   : Nat
deriving DecidableEq, Repr

/-- A slice address through stages 2 and 3; a forwarding leaf gives the address it forwards to (R350). -/
def sliceToPa (m : MemSys) (r : Roots) (a : Nat) : Option Nat :=
  match walk2 m r a with
  | .leaf b _ _ _ _ =>
    (match walk3 m r b with
    | .leaf out _ _ _ _ | .fwd out _ _ _ => some out
    | .fail _ _ => none)
  | _ => none

/-- R353: stages 1 to 3 are walked afresh; none when any stage fails. -/
def leaf1 (m : MemSys) (r : Roots) (va : Nat) : Option Leaf1 :=
  match walk1 m r va with
  | .leaf out b e t _ =>
    (match sliceToPa m r out, sliceToPa m r t with
    | some _, some q => some ⟨out, b, e, q⟩
    | _, _ => none)
  | _ => none

/-- The runs of a stage-1 page, by 64 KiB. -/
def leafRuns (m : MemSys) (r : Roots) (x : Leaf1) : List Run :=
  let base := x.out / 2 ^ x.bits * 2 ^ x.bits
  (List.range (2 ^ (x.bits - 16))).filterMap fun k => (sliceToPa m r (base + 65536 * k)).map fun a => (a, 16)

/-- R353, re-arm: the accesses that wait, of teams that use the page through this address space, go on under the new
mode. -/
def remode (p k asn va bits : Nat) (md : CohMode) (tm : Team) : Team :=
  let hit (r : LaneRec) : Bool := inRun (va, bits) r.va.toNat
  let one (r : LaneRec) : LaneRec := match r.place with
    | some (.pa a _) => if hit r then { r with place := some (.pa a md) } else r
    | _ => r
  let frame (fr : Frame) : Frame := { fr with log := fr.log.map fun e => { e with recs := e.recs.map one } }
  if tm.part = p ∧ tm.slice = k ∧ tm.asn = asn then
    { tm with swarms := tm.swarms.map fun sw => if execLevel tm sw = .prog then { sw with frame := frame sw.frame } else sw }
  else tm

/-- MODE of a stage-1 leaf (R345). -/
def modeCode : CohMode → Nat
  | .coh => 0
  | .swc => 1
  | .prv => 2

/-- R353: the mode of a page that translates and has another mode is changed. -/
def setMode (s : State) (tm : Team) (va : Nat) (md : CohMode) (r : Roots) (x : Leaf1) : State :=
  let rs := leafRuns s.m r x
  let s1 := flushRuns s rs (md == .prv || modeOf x.ent == .prv)
  let again (y : L2Line) : L2Line := if lineIn rs y.line then { y with mode := md } else y
  let s2 := { s1 with m := dirRuns { s1.m with l2 := s1.m.l2.map again } rs .i }
  let e := x.ent % 2 ^ 58 + modeCode md * 2 ^ 58 + x.ent / 2 ^ 60 * 2 ^ 60
  let s3 := writeRam s2 (.lane tm.id tm.core) x.at_ (valBytes 8 e)
  let keep (t : TlbEnt) : Bool :=
    !(t.part == tm.part && t.slice == tm.slice && t.level == .prog && inRun (va, x.bits) t.va)
  { s3 with m := { s3.m with tlb := s3.m.tlb.filter keep },
            teams := s3.teams.map (remode tm.part tm.slice tm.asn va x.bits md) }

/-- A page word that has waited is done; its status goes to every active lane (R352). -/
def pageDone (c : Ctx) (o : Wd) (st : Nat) (s : State) : State :=
  setAll c (opIdx o.d) (BitVec.ofNat 32 st) (freeSwarm c s)

/-- An earlier access of the lane that the word acts through is not performed (R352). -/
def laneOpen (c : Ctx) (_ : State) : Bool := stillOpen c.sw.frame (bit32 ((lowest c.act).getD 0)) fun _ _ => true

def pagemodeEff (md : CohMode) (o : Wd) (c : Ctx) (s1 : State) : State :=
  let va := (opPair c.sw.frame ((lowest c.act).getD 0) o.a).toNat % 2 ^ 57
  let r := rootsOf s1 c.tm.part c.tm.slice c.tm.asn
  match leaf1 s1.m r va with
  | none => pageDone c o 1 s1
  | some x =>
    if modeOf x.ent = md then pageDone c o 2 s1
    else if (leafRuns s1.m r x).any (fun q => movingAt s1.m q.1) then holdSwarm c s1
    else
      let s2 := release s1 c.tm.core .pkg
      pageDone c o 0 (setMode s2 c.tm va md r x)

def execPagemode (md : CohMode) (o : Wd) (s : State) : Host.Outcome State Fault Refusal :=
  runWait laneOpen (.pagemode md o) o .two (fun _ => none) (fun _ => (Instr.pagemode md o).fields) (pagemodeEff md o) s

/-! ### TLBINV (R356) -/

/-- The level that a stage's page words need (R62). -/
def stageLevel : Stage → Level
  | .s1 => .two
  | .s2 => .one
  | .s3 => .fw

/-- A context of TLBINV and PROBE: partition, slice and address-space number, as far as the stage names them. -/
structure PageCtx where
  part  : Nat
  slice : Option Nat
  asn   : Option Nat
deriving DecidableEq, Repr

def pageCtx (c : Ctx) (k : Stage) (x : Nat) : PageCtx :=
  match k with
  | .s1 => ⟨c.tm.part, some (x / 256 % 8), some (x % 256)⟩
  | .s2 => ⟨c.tm.part, some (x / 256 % 8), none⟩
  | .s3 => ⟨x % 16, none, none⟩

/-- R356: a context names a slice that is not the issuer's to name. -/
def ctxForeign (s : State) (c : Ctx) (k : Stage) (x : Nat) : Bool :=
  k != .s3 && (match execLevel c.tm c.sw with
    | .two => x / 256 % 8 != c.tm.slice
    | .one => (findSlice s c.tm.part (x / 256 % 8)).isNone
    | _ => false)

/-- A partition, slice and address-space number belong to a context. -/
def PageCtx.has (x : PageCtx) (p k asn : Nat) : Bool :=
  x.part == p && (match x.slice with
    | some q => q == k
    | none => true) && (match x.asn with
    | some q => q == asn
    | none => true)

/-- Accesses of a level pass a stage (R346). -/
def passes (k : Stage) (l : Level) : Bool :=
  match k with
  | .s1 => l == .prog
  | .s2 => l == .prog || l == .two
  | .s3 => l != .fw

/-- R356: the entry's walk used an entry of the stage that covers the address, or may have: a walk that read tables
through the stage counts for every address (assumption 60). -/
def tlbUses (k : Stage) (a : Option Nat) (t : TlbEnt) : Bool :=
  passes k t.level && (match a, k with
    | none, _ => true
    | some a, .s1 => inRun (t.va, t.sz1) a
    | some a, .s2 => t.level == .prog || inRun (t.in2, t.sz2) a
    | some a, .s3 => t.level == .prog || t.level == .two || inRun (t.in3, t.sz3) a)

/-- The teams of a context. -/
def ctxTeams (s : State) (x : PageCtx) : List Team := s.teams.filter fun tm => x.has tm.part tm.slice tm.asn

/-- A pending access of a swarm whose translation no TLB of its cluster holds any more. -/
def staleAccess (s : State) (k : Stage) (tm : Team) (sw : Swarm) : Bool :=
  let lv := execLevel tm sw
  let held (a : Nat) : Bool := s.m.tlb.any fun t => t.clus == clusOf tm.core && t.part == tm.part && t.slice == tm.slice &&
    t.asn == tm.asn && t.level == lv && inRun (t.va, t.size) a
  passes k lv && sw.frame.log.any fun e => e.recs.any fun r => undone e r.lane && (match r.place with
    | some (.pa _ _) => !held r.va.toNat
    | _ => false)

/-- A request of the teams of a context is on the link with an address that no TLB entry of them gives. -/
def staleReq (s : State) (x : PageCtx) : Bool :=
  let mine (t : TeamId) : Bool := (ctxTeams s x).any fun tm => tm.id == t
  let held (a : Nat) : Bool := s.m.tlb.any fun t => x.has t.part t.slice t.asn && inRun (t.pa, t.size) a
  s.link.reqs.any fun q => (match q.who with
    | .lane t _ _ _ | .engine t _ _ _ | .fetch t _ _ _ | .post t _ | .wait t _ _ _ => mine t
    | _ => false) && (match q.op with
    | .fred _ _ | .collect _ _ _ _ => false
    | _ => !held q.addr)

/-- R356: drop the translations, and wake the lanes of the context that are parked in WAITC. -/
def dropTlb (s : State) (x : PageCtx) (k : Stage) (a : Option Nat) : State :=
  let s1 := { s with m := { s.m with tlb := s.m.tlb.filter fun t => !(x.has t.part t.slice t.asn && tlbUses k a t) } }
  let waits (p : Park) : Bool := match p with
    | .waitc _ _ => true
    | _ => false
  let mine (t : TeamId) : Bool := (ctxTeams s x).any fun tm => tm.id == t
  { s1 with teams := s1.teams.map (fun tm => if x.has tm.part tm.slice tm.asn then wakeTeam waits tm else tm),
            m := { s1.m with mons := s1.m.mons.filter fun q => !mine q.team } }

def tlbinvEff (all : Bool) (k : Stage) (o : Wd) (c : Ctx) (s1 : State) : State :=
  let x := pageCtx c k o.b.immVal.toNat
  let a := if all then none else some ((opPair c.sw.frame ((lowest c.act).getD 0) o.a).toNat % 2 ^ 57)
  if ctxForeign s1 c k o.b.immVal.toNat then undoTrap c s1 0x05 c.f.pc
  else
    let s2 := if c.sw.frame.macroAt.isSome then s1
      else dropTlb (release s1 c.tm.core .pkg) x k a
    if (ctxTeams s2 x).any (fun tm => tm.swarms.any (staleAccess s2 k tm)) || staleReq s2 x then holdSwarm c s2
    else freeSwarm c s2

def execTlbinv (all : Bool) (k : Stage) (o : Wd) (s : State) : Host.Outcome State Fault Refusal :=
  runWait laneOpen (.tlbinv all k o) o (stageLevel k) (fun _ => none) (fun _ => (Instr.tlbinv all k o).fields) (tlbinvEff all k o) s

/-! ### PROBE (R357) -/

/-- The walk of one stage for a context. -/
def probeWalk (s : State) (x : PageCtx) (k : Stage) (a : Nat) : Walk :=
  let r := rootsOf s x.part (x.slice.getD 8) (x.asn.getD 0)
  match k with
  | .s1 => walk1 s.m r a
  | .s2 => walk2 s.m r a
  | .s3 => walk3 s.m r a

/-- R357: the output address and the result word of a walk. -/
def probeWord : Walk → DWord × Word
  | .leaf out _ e _ l => (BitVec.ofNat 64 out, BitVec.ofNat 32 (leafWord e l))
  | .fwd out _ e l => (BitVec.ofNat 64 out, BitVec.ofNat 32 (leafWord e l))
  | .fail c k => (0, BitVec.ofNat 32 (c % 256 * 2 ^ 8 + k % 4 * 2 ^ 4))
where
  /-- The bits of a leaf: MV, FWD, MODE, PL, X, W and R, and its level. -/
  leafWord (e l : Nat) : Nat :=
    e / 2 ^ 7 % 2 * 2 ^ 23 + e / 2 ^ 6 % 2 * 2 ^ 22 + entMode e * 2 ^ 20 + e / 2 ^ 2 % 16 * 2 ^ 16 + l % 8

def execProbe (k : Stage) (o : Wd) (s : State) : Host.Outcome State Fault Refusal :=
  runWord (.probe k o) o (stageLevel k) (fun _ => none) (fun _ => (Instr.probe k o).fields) (fun c s1 =>
    if ctxForeign s1 c k o.b.immVal.toNat then undoTrap c s1 0x05 c.f.pc
    else
      let a := (opPair c.sw.frame ((lowest c.act).getD 0) o.a).toNat % 2 ^ 57
      let (pa, w) := probeWord (probeWalk s1 (pageCtx c k o.b.immVal.toNat) k a)
      setAll c (opIdx o.d + 2) w (setAll c (opIdx o.d + 1) (hiW pa) (setAll c (opIdx o.d) (loW pa) s1))) s

/-! ### Banks (R358 to R362) -/

/-- The ring of a pillar (R358). -/
def ringOf (c : Nat) : Nat :=
  let d (x : Nat) : Nat := if 2 * x < 15 then 15 - 2 * x else 2 * x - 15
  max (d (c % 16)) (d (c / 16)) / 2

/-- The pillar, layer and unit of a bank. -/
def bankPillar (n : Nat) : Nat := n % 1024 / 4
def bankLayer (n : Nat) : Nat := n / 1024
def bankUnit (n : Nat) : Nat := 8 * bankPillar n + bankLayer n
/-- The slot of a unit (R364). -/
def unitSlot (u : Nat) : Nat := u % 8 + ringOf (u / 8)

/-- The stacks of the package, all of them written out. -/
def allStacks (m : MemSys) : List StackSt := (List.range 8).map (stackOf m)
def updStack (s : State) (k : Nat) (f : StackSt → StackSt) : State :=
  { s with m := { s.m with stackSts := upd f (allStacks s.m) k } }

def isRetired (st : StackSt) (n : Nat) : Bool := st.retired.any fun x => x.1 == n
def isFolding (st : StackSt) (n : Nat) : Bool := match st.fold with
  | some f => f.bank == n
  | none => false
/-- R359: the bank is Live, Asleep, Waking or Quiesced. -/
def bankOn (st : StackSt) (n : Nat) : Bool := !isRetired st n && !isFolding st n
/-- R359: the bank is Live: its unit is awake and its pillar is not quiesced. -/
def bankLive (st : StackSt) (n : Nat) : Bool :=
  bankOn st n && !st.asleep.contains (bankUnit n) && !(st.assay != 0 && st.pillar == bankPillar n)

/-- R361: the status of a start. -/
def remapStatus (st : StackSt) (reinstate : Bool) (n : Nat) : Nat :=
  if st.fold.isSome then 1
  else if reinstate then
    (match st.retired.getLast? with
    | some (b, thermal) => if b = n ∧ thermal then 0 else 3
    | none => 3)
  else if !bankLive st n then 3
  else if st.retired.length = 64 then 4
  else 0

def remapBankEff (o : Wd) (c : Ctx) (s1 : State) : State :=
  let a := o.a.immVal.toNat
  let n := match o.b with
    | .imm x => x.toNat
    | x => (op32 c.sw.frame ((lowest c.act).getD 0) x).toNat
  let k := a % 8
  let reinstate : Bool := a / 8 % 2 == 1
  let st := stackOf s1.m k
  let ok := remapStatus st reinstate n
  let s2 := if ok = 0 then updStack s1 k fun st => { st with fold := some ⟨n, reinstate, a / 16 % 2 == 1, 0⟩ } else s1
  setAll c (opIdx o.d) (BitVec.ofNat 32 ok) s2

def execRemapBank (o : Wd) (s : State) : Host.Outcome State Fault Refusal :=
  runWord (.remapBank o) o .fw (fun _ => none) (fun _ => (Instr.remapBank o).fields) (remapBankEff o) s

/-- R362: a word of the bank map. -/
def bmapWord (st : StackSt) (w : Nat) : Nat :=
  if w < 128 then ((List.range 64).map fun j => if bankOn st (64 * w + j) then 2 ^ j else 0).sum
  else if w = 128 then
    ((List.range 8192).filter (bankOn st)).length % 2 ^ 32 + st.retired.length % 128 * 2 ^ 32 + st.gen % 2 ^ 16 * 2 ^ 48
  else if w = 129 then
    (match st.fold with
    | some f => f.bank % 2 ^ 13 + (if f.unfold then 2 else 1) * 2 ^ 13 + (if f.thermal then 2 ^ 16 else 0) + f.moved % 2 ^ 17 * 2 ^ 32
    | none => 0)
  else if w = 130 then st.pillar % 256 + st.bank % 32 * 2 ^ 8 + st.row % 2 ^ 17 * 2 ^ 16 + st.assay % 4 * 2 ^ 33
  else st.holds % 2 ^ 32

def execBmaprd (o : Wd) (s : State) : Host.Outcome State Fault Refusal :=
  runWord (.bmaprd o) o .one (fun _ => none) (fun _ => (Instr.bmaprd o).fields) (fun c s1 =>
    let x : DWord := BitVec.ofNat 64 (bmapWord (stackOf s1.m o.a.immVal.toNat) o.b.immVal.toNat)
    setAll c (opIdx o.d + 1) (hiW x) (setAll c (opIdx o.d) (loW x) s1)) s

/-! ### REMAP.page (R354, R355) -/

/-- The level at which a table walk from a base meets the entry at an address. -/
def entryLevel (m : MemSys) (a : Nat) : List Nat → Nat → Option Nat
  | [], _ => none
  | l :: more, base =>
    let n := if l = 4 then 32 else 512
    if base ≤ a ∧ a < base + 8 * n then some l
    else (List.range n).findSome? fun k =>
      let e := ramVal m (base + 8 * k) 8
      if entV e && entT e && !entBad false 3 l e then entryLevel m a more (entAddr e) else none

/-- The level of an entry of some partition's stage-3 tables. -/
def leafLevel (s : State) (a : Nat) : Option Nat :=
  s.parts.findSome? fun p => if p.root3 = 0 then none else entryLevel s.m a [0, 1, 2, 3, 4] p.root3

/-- R354: the valid stage-3 leaf at an address: the entry and the log of its page size. -/
def leaf3 (s : State) (a : Nat) : Option (Nat × Nat) :=
  let e := ramVal s.m a 8
  match leafLevel s a with
  | some l => if a % 8 = 0 ∧ entV e ∧ !entT e ∧ !entBad false 3 l e then some (e, leafBits l) else none
  | none => none

/-- An address of the old page, moved. -/
def movedTo (base to_ bits a : Nat) : Nat := if a / 2 ^ bits = base / 2 ^ bits then to_ + a % 2 ^ bits else a

/-- R355: every address that was translated before the move is redirected to the new home. -/
def redirect (base to_ bits : Nat) (s : State) : State :=
  let mv := movedTo base to_ bits
  let away : Bool := isRemote (.pa to_ .coh)
  let rec_ (r : LaneRec) : LaneRec := match r.place with
    | some (.pa a m) => { r with place := some (.pa (mv a) m), fwd := r.fwd || (away && mv a != a) }
    | _ => r
  let frame (fr : Frame) : Frame := { fr with log := fr.log.map fun e => { e with recs := e.recs.map rec_ } }
  let seg (g : Nat × Nat × Nat) : Nat × Nat × Nat := (g.1, mv g.2.1, g.2.2)
  let team (tm : Team) : Team :=
    { tm with swarms := tm.swarms.map (fun sw => { sw with frame := frame sw.frame, hidden := sw.hidden.map frame }),
              watches := tm.watches.map (fun w => { w with segs := w.segs.map seg }),
              grps := tm.grps.map fun g => { g with grp := g.grp.map mv } }
  let claim (x : Claim) : Claim := { x with pa := mv x.pa }
  { s with teams := s.teams.map team,
           groups := s.groups.map (fun g => { g with addr := mv g.addr, claims := g.claims.map claim, past := g.past.map claim }),
           conts := s.conts.map (fun x => { x with pa := mv x.pa }),
           decs := s.decs.map fun d => { d with pa := mv d.pa } }

/-- Every translation through a page of stage 3 is dropped, of every partition (R354). -/
def dropPage (s : State) (base bits : Nat) : State :=
  (List.range 16).foldl (fun s p => dropTlb s ⟨p, none, none⟩ .s3 none)
    { s with m := { s.m with tlb := s.m.tlb.filter fun t => !inRun (base, bits) t.pa } }

/-- R354, freeze and drain: the old home's copies are recalled. -/
def freezePage (s : State) (base bits : Nat) (st : DirSt) : State :=
  let s1 := flushRuns (dropPage s base bits) [(base, bits)] true
  { s1 with m := dirRuns s1.m [(base, bits)] st }

/-- R354, copy within the package; no cache keeps what the new home held before. -/
def copyPage (s : State) (base to_ bits : Nat) : State :=
  let s1 := flushRuns s [(to_, bits)] true
  { s1 with m := { s1.m with ram := setBytes s1.m.ram to_ (tabBytes s1.m.ram base (2 ^ bits)) } }

/-- A leaf with another ADDR, and MV 0. -/
def leafTo (e to_ : Nat) : Nat := e / 2 ^ 57 * 2 ^ 57 + to_ / 2 ^ 8 * 2 ^ 8 + e % 2 ^ 7
/-- A forwarding leaf (R354): V 0, FWD 1. -/
def leafFwd (e to_ : Nat) : Nat := leafTo e to_ / 2 * 2 + (if e.testBit 6 then 0 else 2 ^ 6)

/-- The key of a page move's writes outside the package. -/
def moveKey (sw : Nat) : Nat := 9000 + sw

/-- The lines of a page go to its new home outside the package. -/
def sendPage (s : State) (tm : Team) (key base to_ bits : Nat) : State :=
  (List.range (2 ^ (bits - 7))).foldl (fun s k =>
    match routeOut s tm.part tm.slice (to_ + 128 * k) with
    | some (f, port) =>
      sendReq s tm.part f port (to_ + 128 * k) (.write (tabBytes s.m.ram (base + 128 * k) 128)) (.post tm.id key) false
    | none => s) s

/-- R354: the new base is refused. -/
def newBaseBad (s : State) (tm : Team) (nb base bits : Nat) : Bool :=
  nb % 2 ^ bits != 0 || storageOf nb == .none || withdrawn s.m nb || inRun (base, bits) nb ||
  (isRemote (.pa nb .coh) && (routeOut s tm.part tm.slice nb).isNone)

def remapPageEff (o : Wd) (c : Ctx) (s1 : State) : State :=
  let i := (lowest c.act).getD 0
  let a := (opPair c.sw.frame i o.a).toNat
  let nb := (opPair c.sw.frame i o.b).toNat % 2 ^ 57
  let key := moveKey c.f.swarm
  let ag : Agent := .lane c.tm.id c.tm.core
  match s1.m.moving.find? fun x => x.leaf == a with
  | some x =>
    if c.sw.frame.macroAt.isNone then pageDone c o 3 s1
    else if s1.link.reqs.any fun r => r.who == .post c.tm.id key then holdSwarm c s1
    else
      let e := ramVal s1.m a 8
      let s2 := { s1 with m := { dirRuns s1.m [(x.base, x.bits)] .i with moving := s1.m.moving.erase x } }
      pageDone c o 0 (redirect x.base x.to_ x.bits (writeRam s2 ag a (valBytes 8 (leafFwd (e - 2 ^ 7) x.to_))))
  | none =>
    match leaf3 s1 a with
    | none => pageDone c o 3 s1
    | some (e, bits) =>
      let base := entAddr e
      if newBaseBad s1 c.tm nb base bits then pageDone c o 2 s1
      else if isRemote (.pa nb .coh) then
        let s2 := freezePage (writeRam s1 ag a (valBytes 8 (e + 2 ^ 7))) base bits .mv
        let s3 := { s2 with m := { s2.m with moving := s2.m.moving ++ [⟨a, base, nb, bits⟩] } }
        holdSwarm c (sendPage s3 c.tm key base nb bits)
      else
        let s2 := copyPage (freezePage s1 base bits .i) base nb bits
        pageDone c o 0 (redirect base nb bits (writeRam s2 ag a (valBytes 8 (leafTo e nb))))

def execRemapPage (o : Wd) (s : State) : Host.Outcome State Fault Refusal :=
  runWord (.remapPage o) o .fw (fun _ => none) (fun _ => (Instr.remapPage o).fields) (remapPageEff o) s

/-! ### Events -/

/-- R347, R348: a walk for a program-level access of a core; a translation that succeeds is held. -/
def execTableWalk (core part slice asn : Nat) (va : DWord) (need : AccNeed) (s : State) :
    Host.Outcome State Fault Refusal :=
  .next (match walkAll s (clusOf core) part slice asn .prog need (va.toNat % 2 ^ 57) with
    | .ok x => tlbFill s x
    | .error _ => s)

/-- The lines that a fold or an unfold moves: those of its bank below the live limit (R360). -/
def foldLines (st : StackSt) (f : Fold) : Nat :=
  2 ^ 17 - 16 * (st.retired.length + if f.unfold then 0 else 1)

/-- R359, R360: a fold that has moved its last line retires the bank; an unfold gives it back, with 16 MiB that read 0. -/
def foldEnds (s : State) (k : Nat) (st : StackSt) (f : Fold) : State :=
  if f.unfold then
    let base := 2 ^ 37 * k + liveLimit st
    let s1 := updStack s k fun st => { st with retired := st.retired.dropLast, gen := st.gen + 1, fold := none }
    let back (a : Nat) : Bool := decide (base ≤ a ∧ a < base + 2 ^ 24)
    { s1 with m := { s1.m with ram := s1.m.ram.keep (fun a => !back a), l1 := s1.m.l1.filter (fun x => !back (128 * x.line)),
                               l2 := s1.m.l2.filter fun x => !back (128 * x.line) } }
  else updStack s k fun st => { st with retired := st.retired ++ [(f.bank, f.thermal)], gen := st.gen + 1, fold := none }

def execFoldLineMove (k : Nat) (s : State) : Host.Outcome State Fault Refusal :=
  let st := stackOf s.m k
  .next (match st.fold with
    | none => s
    | some f =>
      if f.moved + 1 < foldLines st f then updStack s k fun st => { st with fold := some { f with moved := f.moved + 1 } }
      else foldEnds s k st f)

/-- The next bank of the assay engine that may be tested: pillar and bank, skipping those that are not on or asleep. -/
def nextAssay (st : StackSt) : Nat → Nat → Nat × Nat
  | 0, x => (x / 32 % 256, x % 32)
  | f + 1, x =>
    let p := x / 32 % 256
    let n := 1024 * (x % 32 / 4) + 4 * p + x % 4
    if bankOn st n && !st.asleep.contains (bankUnit n) then (p, x % 32) else nextAssay st f (x + 1)

/-- R363: one beat: the engine quiesces the pillar it is at, patterns a row, and restores when the last row is done. A
soft error that the beat finds is a free value. -/
def execAssayBeat (k : Nat) (s : State) : Host.Outcome State Fault Refusal :=
  let st := stackOf s.m k
  let set (f : StackSt → StackSt) : State := updStack s k f
  let next : Nat × Nat := nextAssay st 8192 (32 * st.pillar + st.bank)
  .next (if 8 ≤ k then s
    else match st.assay with
    | 0 => set fun st => { st with pillar := next.1, bank := next.2, row := if next = (st.pillar, st.bank) then st.row else 0, assay := 1 }
    | 1 => set fun st => { st with assay := 2 }
    | 2 =>
      let s1 := set fun st => { st with row := (st.row + 1) % 2 ^ 17, assay := if st.row + 1 < 2 ^ 17 then 2 else 3 }
      let s2 := { s1 with draws := s1.draws + 1 }
      if (Config.free s.draws).getLsbD 0 then logEvent s2 .fw 2 (.softError k st.pillar) else s2
    | _ =>
      let x := 32 * st.pillar + st.bank + 1
      set fun st => { st with pillar := x / 32 % 256, bank := x % 32, row := 0, assay := 0 })

/-- R363: a demand access to the quiesced pillar: the beat ends, the rows are restored, and the hold is counted. -/
def execDemandHold (k : Nat) (s : State) : Host.Outcome State Fault Refusal :=
  .next (if 8 ≤ k ∨ (stackOf s.m k).assay = 0 then s
    else updStack s k fun st => { st with assay := 0, holds := st.holds + 1 })

/-- R359: firmware's power policy puts an idle unit to sleep: its banks are Live. -/
def execBankSleep (k pillar layer : Nat) (s : State) : Host.Outcome State Fault Refusal :=
  let u := 8 * pillar + layer
  let banks := (List.range 4).map fun j => 1024 * layer + 4 * pillar + j
  .next (if k < 8 ∧ pillar < 256 ∧ layer < 8 ∧ banks.all (bankLive (stackOf s.m k))
    then updStack s k fun st => { st with asleep := st.asleep ++ [u] } else s)

/-- R364: a unit asleep is asked for: by the run under way when its slot has not begun, else by the next one. A request
for the next run stands 2,048 higher. -/
def askUnit (st : StackSt) (u : Nat) : StackSt :=
  if !st.asleep.contains u || st.waking.contains u || st.waking.contains (2048 + u) then st
  else match st.run with
  | none => { st with run := some 0, waking := st.waking ++ [u] }
  | some k => { st with waking := st.waking ++ [if k < unitSlot u then u else 2048 + u] }

/-- R364: a slot of a wake run ends: its units are awake; after the last slot the requests that came too late start a
run of their own. -/
def endSlot (st : StackSt) : StackSt :=
  match st.run with
  | none => st
  | some k =>
    let now (u : Nat) : Bool := decide (u < 2048) && unitSlot u == k && st.waking.contains u
    let st1 := { st with asleep := st.asleep.filter fun u => !now u, waking := st.waking.filter fun u => !now u }
    if k < 14 then { st1 with run := some (k + 1) }
    else
      let late := st1.waking.map fun u => u % 2048
      { st1 with waking := late, run := if late.isEmpty then none else some 0 }

/-- The units of a stack that pending accesses of lanes ask for. -/
def demandUnits (s : State) (k : Nat) : List Nat :=
  s.teams.flatMap fun tm => tm.swarms.flatMap fun sw => sw.frame.log.flatMap fun e => e.recs.filterMap fun r =>
    match r.place with
    | some (.pa a _) =>
      (match storageOf a with
      | .dram j off => if j = k && undone e r.lane then some (8 * linePillar off + lineLayer off) else none
      | _ => none)
    | _ => none

/-- R364: the requests of the slot join, and the slot ends. -/
def execWakeSlot (k : Nat) (s : State) : Host.Outcome State Fault Refusal :=
  .next (if 8 ≤ k then s else updStack s k fun st => endSlot ((demandUnits s k).foldl askUnit st))

end Sys2Proof.Machine
end

