-- ==== Sys2Proof/Machine/Coherence.lean ====
section
/-!
DEFINITION. The coherence events (R166 to R170, R197 to R199): requests that climb the directories, invalidations and
their acknowledgements, directory errors, and a die that fails. An access that is performed sends by itself what it still
needs (`ownLine`, `performAt`); these events are the same messages one by one, and those that arrive later.
-/
namespace Sys2Proof.Machine

/-- An access of a lane of a core to a COH line is still to be performed: one that writes, or one that reads. -/
def accessWaits (s : State) (core line : Nat) (write : Bool) : Bool :=
  s.teams.any fun tm => tm.core == core && onCore tm && tm.swarms.any fun sw => sw.frame.log.any fun e =>
    (match accKind e.ins with
    | some k => if write then k.stores else k.loads
    | none => false) &&
    e.recs.any fun r => e.todo.getLsbD r.lane && (match r.place with
      | some (.pa a .coh) => a / 128 == line
      | _ => false)

/-- A lane of a core that is parked in WAITC has been woken: it reads again (R180, R198). -/
def rereads (s : State) (core : Nat) : Bool :=
  s.teams.any fun tm => tm.core == core && onCore tm && tm.swarms.any fun sw => sw.frame.lanes.any fun l =>
    l.woken && (match l.park with
    | some (.waitc _ _) => true
    | _ => false)

/-- R167: the GetM of a COH store that needs it goes out. -/
def execGetM (core line : Nat) (s : State) : Host.Outcome State Fault Refusal :=
  .next (if core < 1536 ∧ dirHome s.m line ∧ needM s.m core line ∧ accessWaits s core line true then
      { s with m := startM s.m core line }
    else s)

/-- R198, R199: a read that the core's L1 does not serve sends GetS. -/
def execGetS (core line : Nat) (s : State) : Host.Outcome State Fault Refusal :=
  .next (if core < 1536 ∧ dirHome s.m line ∧ (findMiss s.m core line).isNone ∧ (l1Find s.m core line).isNone ∧
      (accessWaits s core line false ∨ rereads s core) then
      { s with m := { s.m with misses := s.m.misses ++ [⟨core, line, false, [], false, false, [], []⟩] } }
    else s)

/-- R168, R198: an invalidation of another core's GetM enters the queue of a core that holds an older copy, is answered at
once, and fires the monitors that the core's L1 holds. -/
def execInv (core line : Nat) (s : State) : Host.Outcome State Fault Refusal :=
  .next (match l1Find s.m core line with
    | none => s
    | some x =>
      let sends (q : Miss) : Bool := q.excl && q.line == line && q.core != core && !q.fresh.contains core &&
        !q.acks.contains (sepCores q.core core)
      match s.m.misses.find? sends with
      | none => s
      | some q =>
        if liveCopy s.m x then
          let s1 := { s with m := queueInv s.m s.pulse.toNat core line (DirLevel.scope (sepCores q.core core)) }
          let s2 := fireMonitors s1 line (some core)
          { s2 with m := redoDirs s2.m core line }
        else s)

/-- R167: every branch that a level invalidated has answered: its combined Ack reaches the requester. -/
def execAck (core line : Nat) (l : DirLevel) (s : State) : Host.Outcome State Fault Refusal :=
  .next (if dirLevels.contains l then ackLevel s core line l else s)

/-- R167, R199: a directory that records another owner forwards the request to it. -/
def execFwd (core line : Nat) (s : State) : Host.Outcome State Fault Refusal :=
  .next (match findMiss s.m core line with
    | none => s
    | some q =>
      if q.fwd || q.data || (otherOwner s.m core line).isNone then s else { s with m := putMiss s.m { q with fwd := true } })

/-- The Data of a request comes from an owner, to which it must have been forwarded: a read that the L2 of the core's die
serves needs none beyond the die. -/
def fwdDue (s : State) (q : Miss) : Bool :=
  match otherOwner s.m q.core q.line with
  | none => false
  | some k => !q.fwd && (q.excl || dieOf k == dieOf q.core || (l2Find s.m (dieOf q.core) q.line).isNone)

/-- R167: Data reaches the requester: its L1 holds the line as it now stands. -/
def execData (core line : Nat) (s : State) : Host.Outcome State Fault Refusal :=
  .next (match findMiss s.m core line with
    | none => s
    | some q =>
      if q.data || fwdDue s q then s
      else if q.excl then takeData s core line true
      else if (l1Find s.m core line).isNone then l1Fill s core line .coh true
      else { s with m := { s.m with misses := s.m.misses.erase q } })

/-- R198: the background drain applies the invalidation that stands longest in a core's queue. -/
def execInvDrain (core : Nat) (s : State) : Host.Outcome State Fault Refusal :=
  .next (match s.m.invq.find? fun q => q.core == core with
    | none => s
    | some q => { s with m := redoDirs (applyWhere s.m core (· == q)) core q.line })

/-! ### Errors and failures (R169, R170) -/

/-- A walk from a base reaches a leaf that gives a physical address. -/
def tableMaps (m : MemSys) (a : Nat) : List Nat → Nat → Bool
  | [], _ => false
  | l :: more, base =>
    (List.range (if l = 4 then 32 else 512)).any fun k =>
      let e := ramVal m (base + 8 * k) 8
      entV e && !entBad false 3 l e &&
        (if entT e then tableMaps m a more (entAddr e) else inRun (entAddr e, leafBits l) a)

/-- R407: the partitions whose memory an address is part of. -/
def partsOf (s : State) (a : Nat) : List Part :=
  s.parts.filter fun p => p.root3 != 0 && tableMaps s.m a [0, 1, 2, 3, 4] p.root3

/-- R407: an event of log 1 of firmware and of the partitions whose memory is concerned, with their notifications. -/
def notifyMem (s : State) (a : Nat) (ev : LogEv) : State :=
  (partsOf s a).foldl (fun s p => notify s (.part p.num) 1 ev) (notify s .fw 1 ev)

/-- A pending access of a lane to a region: team, swarm, entry and lane. -/
def concerned (s : State) (base n : Nat) : Option (TeamId × Nat × Nat × Nat) :=
  s.teams.findSome? fun tm => tm.swarms.findSome? fun sw => sw.frame.log.findSome? fun e => e.recs.findSome? fun r =>
    match r.place with
    | some (.pa a _) => if e.todo.getLsbD r.lane && decide (base ≤ a ∧ a < base + n) then some (tm.id, sw.num, e.num, r.lane) else none
    | _ => none

/-- R169: the owners and the sharers that the probe of every branch finds: those of the copies there are, and those that
answer besides. -/
def probeAnswers (m : MemSys) (l : DirLevel) (unit region : Nat) (owners sharers : List Nat) : List Nat × List Nat :=
  let os := (branchesIn m l unit region (fun st => st == .m || st == .o) ++ owners).eraseDups
  (os, ((holders m l unit region ++ sharers).eraseDups).filter fun b => os.head? != some b)

/-- R169: an entry holds an uncorrectable error: every branch is probed and the answers rewrite it, which ends its rebuild
(R170). Two owners are a machine check, with which the access concerned completes with fault 0x18. -/
def execDirectoryError (l : DirLevel) (unit region : Nat) (owners sharers : List Nat) (s : State) :
    Host.Outcome State Fault Refusal :=
  let ans := probeAnswers s.m l unit region owners sharers
  let e := entFrom l unit region ans.1 ans.2
  let a := e.addr
  let m1 := putDir s.m e
  let s1 := { s with m := { m1 with rebuild := m1.rebuild.filter fun x => !(x.1 == l && x.2.1 == unit && x.2.2.1 == region) } }
  .next (match ans.1 with
    | _ :: _ :: _ =>
      let s2 := notifyMem s1 a (.machineCheck a)
      (match concerned s2 a (if l = .clus then 128 else 512) with
      | some (t, sw, n, ln) => settleFaults (settleFences (failLane s2 t sw n ln 0x18) t sw) t sw
      | none => s2)
    | _ => notifyMem s1 a (.dirError a))

/-- The cores that have failed hold nothing: what their L1s held and their requests are lost. -/
def loseCores (m : MemSys) (dead : Nat → Bool) : MemSys :=
  { m with l1 := m.l1.filter (fun x => !dead x.core), invq := m.invq.filter (fun q => !dead q.core),
           misses := m.misses.filter (fun q => !dead q.core), mons := m.mons.filter fun x => !dead (monHolder x).1 }

/-- R170: the regions at the stack directory that name a failed die, or that the die held as a directory. -/
def failedRegions (m : MemSys) (d : Nat) : List Nat :=
  let named (e : DirEnt) : Bool := e.level == .stk && e.unit == d / 2 && (e.owner == some d || e.sharers.contains d)
  ((m.dirs.filter fun e => named e || (e.level == .die && e.unit == d)).map fun e => e.region).eraseDups

/-- R170: a die fails: what its L1s and its L2 held is lost, memory standing in for it; its own directories are gone; every
region that names it, or that it held, is under rebuild, and the entries above the dies are rewritten from the answers of
the dies that are left. -/
def rebuildDirs (s : State) (d : Nat) : State :=
  let rs := failedRegions s.m d
  let s1 := (s.m.l2.filter fun x => x.die == d).foldl (fun s x => l2Lose s d x.line) s
  let m1 := loseCores s1.m fun k => dieOf k == d
  let held (e : DirEnt) : Bool := (e.level == .clus && e.unit / 6 == d) || (e.level == .die && e.unit == d)
  let above (e : DirEnt) : Bool := e.level != .clus && e.level != .die && rs.contains e.region
  let again (e : DirEnt) : DirEnt := if above e && e.st != .mv then dirNow m1 e.level e.unit e.region else e
  { s1 with m := { m1 with dirs := ((m1.dirs.filter fun e => !held e).map again).filter (fun e => e.st != .i),
                           rebuild := m1.rebuild ++ rs.map fun r => (.stk, d / 2, r, s.pulse.toNat) } }

def execDieFailure (d : Nat) (s : State) : Host.Outcome State Fault Refusal :=
  let who := ((failedRegions s.m d).flatMap fun r => (partsOf s (512 * r)).map fun p => p.num).eraseDups
  .next (if 16 ≤ d then s
    else who.foldl (fun s p => notify s (.part p) 1 (.rebuild d)) (notify (rebuildDirs s d) .fw 1 (.rebuild d)))

end Sys2Proof.Machine
end

