-- ==== Sys2Proof/Machine/Link.lean ====
section
/-!
DEFINITION. The link's events (R366 to R380, R386, R390): answers to requests that left the package, functions that
drain, the ordering point of inbound writes, reads and snoops of the host, and the Mirrek fabric.
-/
namespace Sys2Proof.Machine

/-! ### Answers (R366, R377) -/

/-- A request's answer: its data, or the cause of its failure. -/
abbrev Answer := Except Nat (List Byte)

/-- A lane whose access has failed outside the package (R350, R377). -/
def laneFails (s : State) (t : TeamId) (sw n ln cause : Nat) (fwd : Bool) : State :=
  let (c, st) := if fwd && cause == 0x35 then (0x34, 3) else (cause, 0)
  settleFaults (settleFences (updFrame s t sw fun fr => settleEntry (faultLane fr n ln c st) n) t sw) t sw

/-- A line that arrives through CXL.cache is held, and the lane's access can be performed on it (R369). -/
def holdLine (s : State) (t : TeamId) (sw n ln line : Nat) (bs : List Byte) : State :=
  let held := { s with link := { s.link with cxl := ⟨line, setBytes [] 0 bs, false⟩ :: s.link.cxl.filter fun x => x.line != line } }
  updFrame held t sw fun fr => updEntry fr n fun e =>
    { e with away := e.away &&& ~~~(bit32 ln), todo := e.todo ||| bit32 ln }

/-- A lane's access has been performed at a home outside the package: what arrives, and its acquire (R148, R366). -/
def laneArrives (s : State) (t : TeamId) (sw n ln : Nat) (e : LogEntry) (r : LaneRec) (bs : List Byte) : State :=
  let q := entryQ e
  let put (fr : Frame) : Frame := match accKind e.ins with
    | some (.load _) => arriveIn e.ins ln bs 0 fr
    | some (.atomic k) => arriveIn e.ins ln bs (updateOf (aoOf e.ins) k (dataPair r.data) r.cmp bs).2 fr
    | _ => fr
  let s1 := updFrame s t sw put
  let s2 := if q.ord = .acq ∨ q.ord = .ar then
      (match findTeam s1 t with
      | some tm => acquire s1 tm.core q.scope
      | none => s1)
    else s1
  settleFaults (settleFences (updFrame s2 t sw fun fr => doneLane fr n ln) t sw) t sw

/-- The answer of a lane's access. -/
def laneAnswer (s : State) (q : LinkReq) (t : TeamId) (sw n ln : Nat) (a : Answer) : State :=
  match (findTeam s t).bind fun tm => findSwarm tm sw with
  | none => s
  | some x =>
    match findEntry x.frame n with
    | none => s
    | some e =>
      match recOf e ln, a with
      | none, _ => s
      | some _, .error c => laneFails s t sw n ln c q.fwd
      | some r, .ok bs =>
        match q.op with
        | .line => holdLine s t sw n ln (q.addr / 128) bs
        | _ => laneArrives s t sw n ln e r bs

/-- An element of an operation fails outside the package (R213, R223). -/
def engineFails (s : State) (t : TeamId) (c n cause : Nat) : State :=
  match findTeam s t with
  | none => s
  | some tm =>
    match findOp (engOf tm c) n with
    | none => s
    | some o =>
      if o.walked then walkFault s tm c o cause 0
      else imprecise (updOp s t c n fun o => { o with fcode := if o.fcode = 0 then cause else o.fcode }) t 0x17 o.entry

/-- The bytes of a read, or of a write that has been performed (R212). -/
def engineAnswer (s : State) (q : LinkReq) (t : TeamId) (c n : Nat) (dst : Option Place) (a : Answer) : State :=
  let s1 := updOp s t c n fun o => { o with flight := o.flight.erase 0 }
  match a, (findTeam s1 t), (findTeam s1 t).bind fun tm => findOp (engOf tm c) n with
  | .error ca, _, _ => engineFails s1 t c n ca
  | .ok bs, some tm, some o =>
    (match dst, q.op with
    | some p, _ => deliver s1 tm c o p bs
    | none, .write out => raiseSync s1 t c o out.length
    | none, _ => s1)
  | _, _, _ => s1

/-- A drain's place in the list, by the key of its accesses. -/
def drainAt (s : State) (t : TeamId) (key : Nat) : Option (Nat × Drain) :=
  ((List.range s.drains.length).zip s.drains).find? fun d => d.2.team == t && drainKey d.2 == key

/-- A write of a word, a drain or the part itself has been answered (R240, R243). -/
def postAnswer (s : State) (t : TeamId) (key : Nat) (a : Answer) : State :=
  match a, drainAt s t key with
  | .error ca, some (k, d) => drainFault s k d ⟨ca, 0, d.base.toNat, none⟩
  | .ok _, some (k, d) => settleDrain s k d
  | _, none =>
    if key = 0 ∨ 1000 ≤ key then s
    else
      let sw := (key - 1) / 8
      let n := (key - 1) % 8
      match (findTeam s t).bind fun tm => (findSwarm tm sw).bind fun x => findEntry x.frame n with
      | none => s
      | some e =>
        let down (s : State) : State := updTile s t sw (· - 1)
        match a with
        | .error ca => if e.away = 0 then s else laneFails (down s) t sw n e.flane ca false
        | .ok _ =>
          if e.away = 0 || postsOut s t key then s
          else settleFences (updFrame (down s) t sw fun fr => doneLane fr n e.flane) t sw

/-- The value that a remote read of a WAITC brought, or the cause of its failure (R180). -/
def waitAnswer (s : State) (t : TeamId) (sw ln : Nat) (inH : Bool) (a : Answer) : State :=
  let g : Nat × Word := match a with
    | .ok bs => (0, BitVec.ofNat 32 (bytesVal bs))
    | .error c => (c, 0)
  let got (l : Lane) : Lane := match l.park with
    | some (.waitc ld _) => { l with park := some (.waitc ld (some g)), woken := true }
    | _ => l
  updSwarm s t sw (updWaitFrame inH fun fr => updLane fr ln got)

/-- A collect has been answered, or has failed. -/
def collectAnswer (s : State) (t : TeamId) (sw : Nat) (lanes : BitVec 32) (inH : Bool) (got : Nat → Nat × Word × Word × Word) : State :=
  let put (fr : Frame) : Frame := eachLane lanes fr fun j fr => updLane fr j fun l => match l.park with
    | some (.fredwt ld _) => { l with park := some (.fredwt ld (some (got j))), woken := true }
    | _ => l
  updSwarm s t sw (updWaitFrame inH put)

/-- The answer of a fabric request that this package forwarded (R350). -/
def forwardAnswer (s : State) (pkg n : Nat) (a : Answer) : State :=
  let out : FabAns := match a with
    | .ok bs => ⟨pkg, n, 0, bs⟩
    | .error c => ⟨pkg, n, if c = 0x35 then 0x34 else c, []⟩
  { s with link := { s.link with fabOut := s.link.fabOut ++ [out] } }

/-- A request is answered: whoever waits for it goes on. -/
def answerReq (s : State) (q : LinkReq) (a : Answer) : State :=
  let s1 := { s with link := { s.link with reqs := s.link.reqs.filter fun r => r.n != q.n } }
  match q.who with
  | .lane t sw n ln => laneAnswer s1 q t sw n ln a
  | .engine t c n dst => engineAnswer s1 q t c n dst a
  | .fetch t key pa n =>
    let b : RBuf := match a with
      | .ok bs => ⟨t, key, pa, n, 0, bs⟩
      | .error c => ⟨t, key, pa, n, c, []⟩
    { s1 with link := { s1.link with bufs := s1.link.bufs ++ [b] } }
  | .post t key => postAnswer s1 t key a
  | .chain n =>
    (match findChain s1 n, a with
    | some x, .ok _ => (match findTeam s1 x.team with
      | some tm => runChain n 9 (passTarget s1 tm x)
      | none => s1)
    | some x, .error c => stopChain s1 x c
    | none, _ => s1)
  | .wait t sw ln inH => waitAnswer s1 t sw ln inH a
  | .collect t sw lanes inH => (match a with
    | .error c => collectAnswer s1 t sw lanes inH fun _ => (c, 0, 0, 0)
    | .ok _ => s1)
  | .forward pkg n => forwardAnswer s1 pkg n a
  | .boot | .snp _ => s1

/-- What a reply means for a request to the host, and for one on the fabric (R377). -/
def hostReply : Reply → Answer
  | .ok bs => .ok bs
  | .poisoned => .error 0x3E
  | _ => .error 0x3B
def fabReply : Reply → Answer
  | .ok bs => .ok bs
  | .refused => .error 0x35
  | .aborted => .error 0x38
  | .notAdmitted => .error 0x39
  | .poisoned => .error 0x3E
  | .hostError => .error 0x35

def findReq (s : State) (n : Nat) : Option LinkReq := s.link.reqs.find? fun r => r.n == n

/-- A reply reaches a reservation that a draining function keeps, or comes after its teardown (R380). -/
def lateReply (s : State) (n : Nat) : State :=
  let one (f : Fn) : Fn :=
    if f.kept.contains n then
      let kept := f.kept.erase n
      { f with kept := kept, st := if f.st = .draining ∧ kept.isEmpty then .torn else f.st }
    else if f.dropped.contains n then
      { f with dropped := f.dropped.erase n, late := if f.st = .torn then f.late + 1 else f.late }
    else f
  { s with link := { s.link with fns := s.link.fns.map one } }

/-- The length of data that a request's answer must bring; a longer or shorter one is cut or filled with 0. -/
def fitData (q : LinkReq) (bs : List Byte) : List Byte :=
  let n := match q.op with
    | .read n => n
    | .atomic _ wide _ _ => if wide then 8 else 4
    | .line => 128
    | _ => 0
  (bs ++ List.replicate n 0).take n

def fitAnswer (q : LinkReq) : Answer → Answer
  | .ok bs => .ok (fitData q bs)
  | e => e

/-- R377, R380: the host answers a request. -/
def execHostCompletion (n : Nat) (r : Reply) (s : State) : Host.Outcome State Fault Refusal :=
  .next (match findReq s n with
    | none => lateReply s n
    | some q => if q.port.isSome || q.who == .boot then s else answerReq s q (fitAnswer q (hostReply r)))

/-- R367: 10 ms have passed without a completion. -/
def execCompletionTimeout (n : Nat) (s : State) : Host.Outcome State Fault Refusal :=
  .next (match findReq s n with
    | none => s
    | some q =>
      if q.port.isSome || q.who == .boot || decide (s.pulse.toNat < q.at_.toNat + 10000000) then s else answerReq s q (.error 0x3C))

/-- The request still waits in a port's transmit buffers (R374). -/
def inTx (s : State) (q : LinkReq) : Bool := match q.port with
  | some m => (findPort s m).tx.any fun x => x.2 == q.n
  | none => false

/-- The request is answered by a hive node's slot (R386, R388). -/
def toSlot (q : LinkReq) : Bool := match q.op with
  | .fred _ _ | .collect _ _ _ _ => true
  | _ => false

/-- R366, R377: a package or a hive node answers a request; what refuses a reduction is an answer too. -/
def execRemoteReply (n : Nat) (r : Reply) (s : State) : Host.Outcome State Fault Refusal :=
  .next (match findReq s n with
    | none => lateReply s n
    | some q =>
      let good : Bool := match r with
        | .ok _ => !toSlot q
        | _ => true
      if q.port.isNone || inTx s q || !good then s else answerReq s q (fitAnswer q (fabReply r)))

/-- The time after which a request on the fabric is late: 2 ms; a collect may wait its TMO besides (R377, R388). -/
def remoteLate (q : LinkReq) : Nat := match q.op with
  | .collect _ _ _ tmo => 2000000 + 1000 * tmo
  | _ => 2000000

def execRemoteTimeout (n : Nat) (s : State) : Host.Outcome State Fault Refusal :=
  .next (match findReq s n with
    | none => s
    | some q => if q.port.isNone || decide (s.pulse.toNat < q.at_.toNat + remoteLate q) then s else answerReq s q (.error 0x37))

/-! ### Reductions (R386, R388) -/

/-- Contributions of other packages, in the order of their arrival. -/
def contributeAll (x : NodeSlot) (cs : List FredIn) : NodeSlot := cs.foldl contribute x

/-- The arrivals are in order and not after the answer; the node's time base and $pulse differ by at most 32 ns (R373). -/
def fredTimes (s : State) (others : List FredIn) (now : Nat) : Bool :=
  let go (p : Nat × Bool) (c : FredIn) : Nat × Bool := (c.at_, p.2 && decide (p.1 ≤ c.at_))
  let r := others.foldl go (0, true)
  r.2 && decide (r.1 ≤ now) && decide (now ≤ s.pulse.toNat + 32) && decide (s.pulse.toNat ≤ now + 32)

/-- R386 to R388: a node takes contributions of other packages, and then answers a request of this one; a collect that
finds nothing to answer goes on waiting. -/
def execFredAnswer (n : Nat) (others : List FredIn) (now : Nat) (s : State) : Host.Outcome State Fault Refusal :=
  .next (match findReq s n with
    | none => lateReply s n
    | some q =>
      let node := q.port.getD 0
      if inTx s q || !fredTimes s others now then s
      else match q.op with
      | .fred slot c =>
        let x := contribute (contributeAll (nodeSlot s node slot) others) { c with at_ := now }
        answerReq (putNodeSlot s x) q (.ok [])
      | .collect slot round me tmo =>
        let x := expireSlot (contributeAll (nodeSlot s node slot) others) now
        let s1 := putNodeSlot s x
        (match collectOut x round me (decide (q.at_.toNat + 1000 * tmo ≤ now)), q.who with
        | some out, .collect t sw lanes inH =>
          let s2 := { s1 with link := { s1.link with reqs := s1.link.reqs.filter fun r => r.n != q.n } }
          collectAnswer s2 t sw lanes inH fun j => (0, collectRes x out j)
        | _, _ => s1)
      | _ => s)

/-! ### Functions that drain (R380) -/

/-- R380: Draining begins: lane accesses and requests through the function complete with fault 0x38; reservations stay. -/
def drainFn (s : State) (die num : Nat) : State :=
  let f := getFn s die num
  let mine := s.link.reqs.filter fun q => q.die == die && q.fnum == num
  let s1 := putFn s { f with st := .draining, kept := mine.map fun q => q.n, since := s.pulse.toNat }
  let s2 := { s1 with freezes := s1.freezes.filter fun z => z.master != .fn die num }
  mine.foldl (fun s q => answerReq s q (.error 0x38)) s2

def execVfctlDrain (o : Wd) (s : State) : Host.Outcome State Fault Refusal :=
  runWord (.vfctlDrain o) o .one (fun _ => none) (fun _ => (Instr.vfctlDrain o).fields) (fun c s1 =>
    let f := fnOf s1 o
    let st : Nat := if !fnMine s1 c f none then 3 else if f.st = .enabled ∨ f.st = .frozen then 0 else 2
    resultAll c o (BitVec.ofNat 32 st) (if st = 0 then drainFn s1 f.die f.num else s1)) s

/-- R380: the host resets a function. -/
def execFunctionLevelReset (die fn : Nat) (s : State) : Host.Outcome State Fault Refusal :=
  let f := getFn s die fn
  .next (if fn ≠ 0 ∧ (f.st = .enabled ∨ f.st = .frozen) then drainFn s die fn else s)

/-- R380: a draining function with no reservation left, or after 4 ms, is torn down. -/
def execDrainTimeout (die fn : Nat) (s : State) : Host.Outcome State Fault Refusal :=
  let f := getFn s die fn
  .next (if f.st = .draining ∧ (f.kept.isEmpty ∨ f.since + 4000000 ≤ s.pulse.toNat) then
      putFn s { f with st := .torn, kept := [], dropped := f.dropped ++ f.kept }
    else s)

/-- R367: a write to a function's configuration space. -/
def execConfigurationWrite (die fn off : Nat) (val : Word) (s : State) : Host.Outcome State Fault Refusal :=
  let f := getFn s die fn
  .next (if die < 2 ∧ fn ≤ 128 ∧ off < 4096 then putFn s { f with cfg := f.cfg.set (off / 4) val } else s)

/-- R367: the size that a field of a function's Device Control sets: 128 × 2^k bytes, at most 4,096 (assumption 112). -/
def sizeSet (s : State) (die fn pos : Nat) : Nat :=
  min 4096 (128 * 2 ^ (((getFn s die fn).cfg.get Config.devCtl).toNat / 2 ^ pos % 8))

/-- The largest payload of a write, and the largest read, as the host sets them. -/
def maxPayload (s : State) (die fn : Nat) : Nat := sizeSet s die fn 5
def maxReadReq (s : State) (die fn : Nat) : Nat := sizeSet s die fn 12

/-! ### Inbound requests of the host (R367, R370, R379, R380) -/

def answerHost (s : State) (die fn stat : Nat) (bs : List Byte) : State :=
  { s with link := { s.link with hostOut := s.link.hostOut ++ [⟨die, fn, stat, bs⟩] } }

/-- One line of an inbound request: function 0 reaches the HDM range of a CXL link through stage 3 of its partition
(R368); a bound function, slice addresses through stages 2 and 3 (R379). -/
def inXlat (s : State) (die fn a : Nat) (need : AccNeed) : Except (Nat × Nat) Nat :=
  let out (r : Except (Nat × Nat) Xlat) : Except (Nat × Nat) Nat := match r with
    | .ok x => if isRemote (.pa x.pa x.mode) then .error (0x36, 0) else .ok x.pa
    | .error e => .error e
  if fn = 0 then
    (match s.link.hdm with
    | some p => if s.link.cxlDies.contains die ∧ a < 2 ^ 40 then out (walkAll s 0 p 0 0 .one need a) else .error (0x36, 0)
    | none => .error (0x36, 0))
  else
    let f := getFn s die fn
    out (walkAll s 0 (f.part.getD 16) f.slice 0 .two need a)

/-- Every line of a request, translated: none where some line fails. -/
def inLines (s : State) (die fn : Nat) (need : AccNeed) : List Chunk → Option (List Chunk)
  | [] => some []
  | (a, n) :: r =>
    match inXlat s die fn a need, inLines s die fn need r with
    | .ok pa, some l => some ((pa, n) :: l)
    | _, _ => none

/-- R380, R408: an inbound request that fails its translation freezes its function. -/
def inViolates (s : State) (die fn : Nat) : State :=
  match (getFn s die fn).part with
  | some p => notify (freezeMaster s (.fn die fn) .one p (getFn s die fn).slice) (.part p) 0 (.freeze (.fn die fn))
  | none => s

/-- What a request comes to before it is performed (R380): its answer, or its lines. -/
def inCheck (s : State) (die fn : Nat) (addr : DWord) (n : Nat) (need : AccNeed) : Sum State (List Chunk) :=
  let cs := spanParts (n / 128 + 2) addr.toNat n
  let st := (getFn s die fn).st
  if fn ≠ 0 ∧ st = .draining then .inl (answerHost s die fn 4 [])
  else if fn ≠ 0 ∧ st ≠ .enabled then .inl (answerHost s die fn 1 [])
  else if fn = 0 ∧ !s.boot.ready.getLsbD 256 then .inl (answerHost s die fn 1 [])
  else match inLines s die fn need cs with
  | some l => .inr l
  | none => .inl (answerHost (if fn = 0 then s else inViolates s die fn) die fn 1 [])

/-- The route of a home (R370): a stack's base die, or 8 and 9 for the second tier. -/
def routeOfPa (a : Nat) : Nat := match storageOf a with
  | .dram k _ => k
  | .tier g => 8 + g
  | _ => 10

/-- R370: an inbound write enters the ordering point, cut into pieces by home; one with Relaxed Ordering is released at
once. Poisoned data is dropped and logged (R367). -/
def execInboundWrite (die fn : Nat) (addr : DWord) (bytes : List Byte) (ro poison : Bool) (s : State) :
    Host.Outcome State Fault Refusal :=
  .next (if 2 ≤ die ∨ 128 < fn ∨ bytes.isEmpty ∨ maxPayload s die fn < bytes.length then s
    else if poison then logEvent s .fw 1 (.poison die fn)
    else match inCheck s die fn addr bytes.length .write with
    | .inl s1 => s1
    | .inr l =>
      let ls := chunkBytes l bytes
      let routes := (ls.map fun x => routeOfPa x.1).eraseDups
      let num := s.link.inNo
      let piece (r : Nat) : Piece := ⟨r, ls.filter (fun x => routeOfPa x.1 == r), if ro then some num else none, false⟩
      { s with link := { s.link with inw := s.link.inw ++ [⟨die, num, ro, routes.map piece⟩], inNo := num + 1 } })

/-- R370, step 4: a piece of a write may be released onto its route: earlier writes without Relaxed Ordering have every
piece on other routes acknowledged, and their pieces on this route released. -/
def mayRelease (s : State) (w : InWrite) (route : Nat) : Bool :=
  w.ro || s.link.inw.all fun x =>
    !(x.die == w.die && decide (x.num < w.num) && !x.ro) ||
    x.pieces.all fun p => if p.route == route then p.released.isSome else p.acked

def updPiece (s : State) (die w route : Nat) (f : Piece → Piece) : State :=
  let put (x : InWrite) : InWrite :=
    if x.die = die ∧ x.num = w then { x with pieces := x.pieces.map fun p => if p.route == route then f p else p } else x
  { s with link := { s.link with inw := s.link.inw.map put } }

def findPiece (s : State) (die w route : Nat) : Option (InWrite × Piece) :=
  (s.link.inw.find? fun x => x.die == die && x.num == w).bind fun x =>
    (x.pieces.find? fun p => p.route == route).map fun p => (x, p)

/-- R390: an earlier piece of the route, by the order of release, that a test picks. -/
def earlierOn (s : State) (die route k : Nat) (t : Piece → Bool) : Bool :=
  s.link.inw.any fun x => x.die == die && x.pieces.any fun p => p.route == route && t p && (match p.released with
    | some j => decide (j < k)
    | none => false)

/-- A turn of a home: the piece is released, or its next line is performed at .sys (R370, R390). -/
def homeLine (s : State) (die w route : Nat) : State :=
  match findPiece s die w route with
  | none => s
  | some (x, p) =>
    match p.released, p.lines with
    | none, _ =>
      if mayRelease s x route then
        let k := s.link.inNo
        updPiece { s with link := { s.link with inNo := k + 1 } } die w route fun p => { p with released := some k }
      else s
    | some _, [] => s
    | some k, (a, bs) :: rest =>
      if earlierOn s die route k (fun q => !q.lines.isEmpty) || movingAt s.m a then s
      else
        updPiece (writeRam s (.host die) a bs) die w route fun p => { p with lines := rest }

/-- R370, R372, R390: a home acknowledges a piece whose bytes are performed, the Snp of fabric sharers included; a write with
every piece acknowledged is globally performed. -/
def execPieceAck (die w route : Nat) (s : State) : Host.Outcome State Fault Refusal :=
  .next (match findPiece s die w route with
    | none => s
    | some (_, p) =>
      match p.released with
      | none => s
      | some k =>
        if !p.lines.isEmpty || p.acked || snpWaits s || earlierOn s die route k (fun q => !q.acked) then s
        else
          let s1 := updPiece s die w route fun p => { p with acked := true }
          { s1 with link := { s1.link with inw := s1.link.inw.filter fun x => !(x.pieces.all fun p => p.acked) } })

/-- R368: the lines of an HDM read are recorded as held by host caches. -/
def hostHolds (s : State) (die fn : Nat) (l : List Chunk) : State :=
  let one (s : State) (k : Nat) : State :=
    let mine := s.link.hostLines.filter fun y => homeSeg y == homeSeg k && !s.link.bis.contains y
    -- a full directory of 2^20 lines first sends a BISnp for the line that it has recorded longest
    let out := if mine.length < 2 ^ 20 then [] else mine.take 1
    if s.link.hostLines.contains k then s
    else { s with link := { s.link with hostLines := s.link.hostLines ++ [k], bis := s.link.bis ++ out } }
  if fn = 0 ∧ s.link.cxlDies.contains die then (l.map fun x => x.1 / 128).foldl one s else s

/-- R370, step 5: an inbound read is answered once every earlier inbound write of its die is globally performed. -/
def execInboundRead (die fn : Nat) (addr : DWord) (n : Nat) (s : State) : Host.Outcome State Fault Refusal :=
  .next (if 2 ≤ die ∨ 128 < fn ∨ n = 0 ∨ 4096 < n then s
    else match inCheck s die fn addr n .read with
    | .inl s1 => s1
    | .inr l =>
      if (s.link.inw.any fun x => x.die == die) || l.any fun x => movingAt s.m x.1 then s
      else hostHolds (answerHost s die fn 0 (l.flatMap fun x => tabBytes s.m.ram x.1 x.2)) die fn l)

/-- R367: an inbound AtomicOp is answered Unsupported Request. -/
def execInboundAtomicop (die fn : Nat) (s : State) : Host.Outcome State Fault Refusal := .next (answerHost s die fn 1 [])

/-! ### CXL (R368, R369) -/

/-- R368: a back-invalidation snoop goes out for a line that the host holds. -/
def execBiSnp (line : Nat) (s : State) : Host.Outcome State Fault Refusal :=
  .next (if s.link.hostLines.contains line ∧ !s.link.bis.contains line then
      { s with link := { s.link with bis := s.link.bis ++ [line] } }
    else s)

/-- R368: the host answers it, with its dirty bytes where it held the line modified. -/
def execBiSnpAnswer (line : Nat) (r : BiAnswer) (s : State) : Host.Outcome State Fault Refusal :=
  .next (if !s.link.bis.contains line then s
    else
      let s1 := { s with link := { s.link with bis := s.link.bis.erase line, hostLines := s.link.hostLines.erase line } }
      match r with
      | .clean => s1
      | .dirty bs => writeRam s1 (.host 0) (128 * line) (bs.take 128))

/-- R369: the host snoops a line that the package holds: dirty bytes go to it, and the line is dropped or kept clean. -/
def execCxlCacheSnoop (line : Nat) (invalidate : Bool) (s : State) : Host.Outcome State Fault Refusal :=
  .next (match s.link.cxl.find? fun x => x.line == line with
    | none => s
    | some x =>
      let rest := s.link.cxl.filter fun y => y.line != line
      let s1 := { s with link := { s.link with cxl := if invalidate then rest else { x with dirty := false } :: rest } }
      let s2 := if x.dirty then answerHost s1 (128 * line / 2 ^ 43 % 2) 0 0 (tabBytes x.bytes 0 128) else s1
      if invalidate then fireMonitors s2 line none else s2)

/-! ### The fabric (R371 to R376) -/

def answerFab (s : State) (pkg n cause : Nat) (bs : List Byte) : State :=
  { s with link := { s.link with fabOut := s.link.fabOut ++ [⟨pkg, n, cause, bs⟩] } }

/-- The function of a partition on a die that takes fabric requests (R379). -/
def inboundFn (s : State) (p die : Nat) : Option Fn :=
  s.link.fns.find? fun f => f.die == die && f.part == some p && f.inbound &&
    (f.st == .enabled || f.st == .frozen || f.st == .draining)

/-- R376: the partition's admission table names a package and partition. -/
def admits (s : State) (p pkg rpart : Nat) : Bool :=
  match findPart s p with
  | some x => (List.range 64).any fun e =>
      let w := (x.grants.get e).toNat
      w.testBit 16 && w % 2 ^ 12 == pkg && w / 2 ^ 12 % 16 == rpart
  | none => false

/-- R347: the rights that a fabric request needs, and its length. -/
def fabNeed : FabOp → AccNeed
  | .read _ => .read
  | .write _ => .write
  | .atomic _ _ _ _ => .rw
def fabSize : FabOp → Nat
  | .read n => n
  | .write bs => bs.length
  | .atomic _ wide _ _ => if wide then 8 else 4

/-- The request that forwards a fabric request (R350). -/
def fabOut : FabOp → ReqOp
  | .read n => .read n
  | .write bs => .write bs
  | .atomic ao wide d c => .atomic ao wide d c

/-- R376: a request is performed at its home in this package. -/
def fabDo (s : State) (pkg a : Nat) (op : FabOp) : State × List Byte :=
  match op with
  | .read n =>
    ((linesOf a n).foldl (fun s l => snpNote s l pkg) s, tabBytes s.m.ram a n)
  | .write bs => (writeRam s (.pkg pkg) a bs, [])
  | .atomic ao wide d c =>
    let n := if wide then 8 else 4
    let old := tabBytes s.m.ram a n
    (match (updateOf ao n d c old).1 with
      | some bs => writeRam s (.pkg pkg) a bs
      | none => s, old)

/-- R350, R376: a request of another package arrives: admitted, translated by the partition's stage 3, forwarded or
performed, and answered. A write to a line that a host holds, and an access to a page that moves, wait. -/
def execFabricRequest (port pkg rpart p : Nat) (addr : DWord) (op : FabOp) (s : State) :
    Host.Outcome State Fault Refusal :=
  let n := s.link.reqNo
  let a := addr.toNat % 2 ^ 40
  let held (pa : Nat) : Bool := fabNeed op != .read && s.link.hostLines.any (linesOf pa (fabSize op)).contains
  .next (if 36 ≤ port ∨ fabSize op = 0 ∨ 4096 < a % 4096 + fabSize op then s
    else match inboundFn s p (portDie port) with
    | none => answerFab s pkg n 0x39 []
    | some f =>
      if f.st = .draining then answerFab s pkg n 0x38 []
      else if f.st = .frozen || !admits s p pkg rpart then answerFab s pkg n 0x39 []
      else match walkAll s 0 p f.slice 0 .one (fabNeed op) a with
      | .error _ => answerFab s pkg n 0x35 []
      | .ok x =>
        let s1 := if x.fwd then { s with forwarded := s.forwarded.set p (s.forwarded.get p + 1) } else s
        if isRemote (.pa x.pa x.mode) then
          (match routeOut s1 p f.slice x.pa with
          | none => answerFab s1 pkg n 0x34 []
          | some (g, m) =>
            if canSend s1 p g m then
              sendReq { s1 with link := { s1.link with reqNo := n + 1 } } p g m x.pa (fabOut op) (.forward pkg n) true
            else s)
        else if held x.pa || movingAt s.m x.pa then s
        else
          let (s2, bs) := fabDo { s1 with link := { s1.link with reqNo := n + 1 } } pkg x.pa op
          answerFab s2 pkg n 0 bs)

/-- R372: a snoop of the fabric acts as a write does: copies are invalidated, and monitors fire. -/
def execSnp (line : Nat) (s : State) : Host.Outcome State Fault Refusal :=
  .next (landLine s (some (.pkg 0)) .coh line (lineBytes s.m line) [])

/-- R371: a flit fails its CRC, and what the replay buffer holds is sent again. -/
def execFlitCrcFail (m : Nat) (s : State) : Host.Outcome State Fault Refusal :=
  let p := findPort s m
  .next (if p.replay.isEmpty then s else setPort s { p with sent := p.sent + p.replay.length })

/-- R374: the link acknowledges the oldest flit, and the port sends what has waited. -/
def execFlitAcknowledge (m : Nat) (s : State) : Host.Outcome State Fault Refusal :=
  let p := findPort s m
  .next (match p.replay with
    | [] => s
    | _ :: r => setPort s (pushFlits { p with replay := r } (p.tx.length + 1)))

/-- R373: the time base is corrected by at most 32 ns; $pulse does not decrease (R81), so a correction downwards holds it. -/
def execPulseCorrection (d : Int) (s : State) : Host.Outcome State Fault Refusal :=
  .next (if 0 < d ∧ d ≤ 32 then passTime s d.toNat else s)

end Sys2Proof.Machine
end

