-- ==== Sys2Proof/Machine/Mgmt.lean ====
section
/-!
DEFINITION. Partitions and management (R399 to R409): the queues and their records, the commands of R404, revocation
(R204, R286, R313, R380), rights (R405, R406), freeze and thaw (R409).
-/
namespace Sys2Proof.Machine

/-! ### The ready map (R410, R411) -/

/-- The bit of a unit in the ready map. -/
def unitBit : UnitId → Nat
  | .tier g => 258 + g
  | .pulse => 257
  | .fw => 256
  | .lrx g => 254 + g
  | .lnk g => 252 + g
  | .port m => 216 + m
  | .eng c => 120 + c
  | .clu c => 24 + c
  | .die d => 8 + d
  | .stk k => k

def isReady (s : State) (u : UnitId) : Bool := s.boot.ready.getLsbD (unitBit u)

/-- R411: a cluster, its die and its stack are ready. -/
def clusReady (s : State) (c : Nat) : Bool := isReady s (.clu c) && isReady s (.die (c / 6)) && isReady s (.stk (c / 12))

/-- The clusters of a mask. -/
def maskClus (m : BitVec 96) : List Nat := (List.range 96).filter m.getLsbD

/-! ### Queues (R401 to R403) -/

def qOwner : QId → LogOwner
  | .fw => .fw
  | .part p => .part p
  | .slice p k => .slice p k

def qPart : QId → Nat
  | .fw => 16
  | .part p | .slice p _ => p
def qSlice : QId → Nat
  | .slice _ k => k
  | _ => 8

/-- The level that commands through a queue. -/
def qLevel : QId → Level
  | .fw => .fw
  | .part _ => .one
  | .slice _ _ => .two

/-- The addresses at which a queue's region stands: partition addresses for a slice, physical ones else (R401). What an
argument of a command points to stands at an address of the commanding level instead (R346; assumption 109). -/
def qSpace : QId → Level
  | .slice _ _ => .one
  | _ => .fw

def updPart (s : State) (p : Nat) (f : Part → Part) : State := { s with parts := s.parts.map fun x => if x.num = p then f x else x }
def updSlice (s : State) (p k : Nat) (f : Slice → Slice) : State :=
  updPart s p fun x => { x with slices := x.slices.map fun y => if y.num = k then f y else y }

/-- The queue of a level is replaced. -/
def setQueue (s : State) (q : QId) (x : Option MgmtQ) : State :=
  match q with
  | .fw => { s with fwq := x }
  | .part p => updPart s p fun y => { y with queue := x }
  | .slice p k => updSlice s p k fun y => { y with queue := x }

def getQueue (s : State) (q : QId) : Option MgmtQ := queueOf s (qOwner q)

/-- The storage of an address that a queue gives, in the space of a level; it must lie in the package. -/
def mgmtPa (s : State) (q : QId) (lv : Level) (need : AccNeed) (a : Nat) : Option Nat :=
  match walkAll s 0 (qPart q) (qSlice q) 0 lv need a with
  | .ok x => if isRemote (.pa x.pa x.mode) then none else some x.pa
  | .error _ => none

/-- The chunks of `n` bytes at an address of a level's space; none where some byte has no storage. -/
def mgmtSpan (s : State) (q : QId) (lv : Level) (need : AccNeed) (a n : Nat) : Option (List Chunk) :=
  (spanParts (n / 128 + 2) a n).mapM fun x => (mgmtPa s q lv need x.1).map fun pa => (pa, x.2)

def mgmtRead (s : State) (q : QId) (lv : Level) (a n : Nat) : Option (List Byte) :=
  (mgmtSpan s q lv .read a n).map fun l => l.flatMap fun x => tabBytes s.m.ram x.1 x.2

def mgmtWrite (s : State) (q : QId) (lv : Level) (a : Nat) (bs : List Byte) : State :=
  match mgmtSpan s q lv .write a bs.length with
  | some l => (chunkBytes l bs).foldl (fun s x => partWrite s (qPart q) (qSlice q) x.1 x.2) s
  | none => s

/-- Where record `e` of a queue stands. -/
def recAddr (q : MgmtQ) (e : Nat) : Nat := q.base + 64 + 64 * (e % 256)

/-- R403, steps 3 and 4: RESULT, then STATUS, then HEAD are written, and VEC is sent. -/
def endCmd (s : State) (c : Cmd) (vec status result : Nat) : State :=
  match getQueue s c.q with
  | none => s
  | some q =>
    let s1 := mgmtWrite s c.q (qSpace c.q) (recAddr q c.e + 8) (valBytes 8 result)
    let s2 := mgmtWrite s1 c.q (qSpace c.q) (recAddr q c.e + 4) [BitVec.ofNat 8 status]
    let s3 := mgmtWrite s2 c.q (qSpace c.q) (q.base + 4) (valBytes 4 ((c.e + 1) % 2 ^ 32))
    sendMsi (setQueue s3 c.q (some { q with cur := none })) q.func vec

/-- What a command comes to: it is done with a status and a result, or goes on. -/
inductive CmdEnd where
  | done (s : State) (status result : Nat)
  | wait (s : State)

/-- The VEC of a record (R402). -/
def recVec (s : State) (c : Cmd) (q : MgmtQ) : Nat :=
  match mgmtRead s c.q (qSpace c.q) (recAddr q c.e + 5) 1 with
  | some bs => bytesVal bs
  | none => 0xFF

/-- R404: a command named for a queue, with the right its issuer must hold (R405). -/
structure Named where
  fw    : Bool
  part  : Bool
  slice : Bool
  right : Slice → Bool

def Named.has (n : Named) : QId → Bool
  | .fw => n.fw
  | .part _ => n.part
  | .slice _ _ => n.slice

def Named.held (n : Named) (s : State) : QId → Bool
  | .slice p k => (match findSlice s p k with
    | some x => n.right x
    | none => false)
  | _ => true

def byFw : Named := ⟨true, false, false, fun _ => true⟩
def byPart : Named := ⟨false, true, false, fun _ => true⟩
def byAbove : Named := ⟨true, true, false, fun _ => true⟩
def byLevels : Named := ⟨false, true, true, fun _ => true⟩

/-- R403, step 2: the command that stands on a queue is performed, or goes on; `eff` is told whether it begins. -/
def runCmd (i : Instr) (c : Cmd) (n : Named) (eff : State → Bool → CmdEnd) (s : State) : Host.Outcome State Fault Refusal :=
  let settle (vec : Nat) (q : MgmtQ) (e : CmdEnd) : State := match e with
    | .done s1 st r => endCmd s1 c vec st r
    | .wait s1 => setQueue s1 c.q (some { q with cur := some (i, vec) })
  .next (match getQueue s c.q with
    | none => s
    | some q =>
      match q.cur with
      | some (j, vec) => if j = i then settle vec q (eff s false) else s
      | none =>
        let vec := recVec s c q
        if !n.has c.q then endCmd s c vec 0x80 0
        else if !n.held s c.q then endCmd s c vec 0x81 0
        else settle vec q (eff s true))

/-- A command that is performed at once. -/
def runNow (i : Instr) (c : Cmd) (n : Named) (eff : State → State × Nat × Nat) (s : State) : Host.Outcome State Fault Refusal :=
  runCmd i c n (fun s _ => let r := eff s; .done r.1 r.2.1 r.2.2) s

/-- A status alone. -/
def stat (s : State) (k : Nat) : State × Nat × Nat := (s, k, 0)

/-! ### Slices and partitions (R399, R400) -/

def maskOf2 (a1 a2 : DWord) : Nat := a1.toNat + a2.toNat * 2 ^ 64

/-- R404: SLICE. Bit j of the mask is the partition's j-th cluster in ascending number. -/
def sliceEff (c : Cmd) (s : State) : State × Nat × Nat :=
  match findPart s (qPart c.q) with
  | none => stat s 0x82
  | some x =>
    let k := c.a0.toNat
    let own := maskClus x.clus
    let m := maskOf2 c.a1 c.a2
    let picked := (List.range own.length).filter m.testBit
    let cl := picked.map fun j => nth 0 own j
    if 8 ≤ k ∨ m = 0 then stat s 0x82
    else if !(cl.all (clusReady s)) then stat s 0x83
    else if x.slices.any (fun y => y.num == k) then stat s 1
    else if 2 ^ own.length ≤ m ∨ x.slices.any fun y => cl.any y.clus.getLsbD then stat s 2
    else
      let y : Slice :=
        { num := k, clus := cl.foldl (fun b j => b ||| (1#96 <<< j)) 0, root2 := 0, roots1 := [], queue := none, hnd := 0, carve := [],
          rP := false, rF := false, rL := false }
      stat (updPart s x.num fun x => { x with slices := x.slices ++ [y] }) 0

def execSlice (c : Cmd) (s : State) : Host.Outcome State Fault Refusal := runNow (.slice c) c byPart (sliceEff c) s

/-- R404: PART. -/
def partEff (c : Cmd) (s : State) : State × Nat × Nat :=
  let p := c.a0.toNat
  let m := maskOf2 c.a1 c.a2
  let cl := maskClus (BitVec.ofNat 96 m)
  if 16 ≤ p ∨ m = 0 ∨ 2 ^ 96 ≤ m ∨ c.a3.toNat % 4096 ≠ 0 ∨ 2 ^ 57 ≤ c.a3.toNat ∨ c.a4.toNat % 2 ^ 30 ≠ 0 ∨ 2 ^ 57 ≤ c.a4.toNat
  then stat s 0x82
  else if !(cl.all (clusReady s)) then stat s 0x83
  else if (findPart s p).isSome then stat s 1
  else if s.parts.any fun x => cl.any x.clus.getLsbD then stat s 2
  else
    let x : Part :=
      { num := p, clus := BitVec.ofNat 96 m, root3 := c.a3.toNat, brood := c.a4.toNat, slices := [], queue := none, hnd := 0,
        carve := [], grants := [], nextId := 1, spilt := [], fr := [] }
    stat { s with parts := s.parts ++ [x] } 0

def execPart (c : Cmd) (s : State) : Host.Outcome State Fault Refusal := runNow (.part c) c byFw (partEff c) s

/-! ### Revocation (R204, R286, R313, R380) -/

/-- Everything that a revoked team holds is dropped; nothing of it is written (R286). -/
def dropTeam (s : State) (t : TeamId) : State :=
  let s1 := revokeGroups s t
  { s1 with
    teams := s1.teams.filter fun x => x.id != t
    focus := s1.focus.bind fun f => if f.team = t then none else some f
    drains := s1.drains.filter fun d => d.team != t
    epi := none
    tasks := s1.tasks.filter fun x => x.team != t
    arrivals := s1.arrivals.filter fun a => a.owner != t && !(a.src.any fun x => x.1 == t)
    faults := s1.faults.filter fun f => f.team != t
    m := { s1.m with pins := s1.m.pins.filter (fun x => x.team != t), mons := s1.m.mons.filter (fun x => x.team != t),
                     unlaid := s1.m.unlaid.filter fun x => x.1 != t }
    link := { s1.link with chains := s1.link.chains.filter (fun x => x.team != t),
                           bufs := s1.link.bufs.filter fun x => x.team != t } }

/-- The caches of a slice's cores are written back and dropped. -/
def emptyCores (s : State) (part slice : Nat) : State :=
  let mine (k : Nat) : Bool := coreOf s k part slice
  let s1 := ((flushSlice s part slice).m.l1.filter fun x => mine x.core).foldl l1Out (flushSlice s part slice)
  { s1 with m := { s1.m with icache := s1.m.icache.filter (fun x => !mine x.1),
                             tlb := s1.m.tlb.filter fun x => !(x.part == part && x.slice == slice) } }

/-- The freezes of masters among the clusters of a slice end with their work (R409). -/
def liftFreezes (s : State) (part slice : Nat) : State :=
  let mine (f : Freeze) : Bool := match f.master with
    | .core k | .eng k => coreOf s k part slice
    | .fn _ _ => false
  { s with freezes := s.freezes.filter fun f => !mine f }

/-- The functions bound to a slice. -/
def sliceFns (s : State) (part slice : Nat) : List Fn := s.link.fns.filter fun f => f.part == some part && f.slice == slice

/-- Carved bytes of a slice on a stack beyond a size are discarded (R404). -/
def cutCarve (s : State) (p k stack bytes : Nat) : State :=
  let base := l3Key ((8 * p + k) * 8 + stack) 0
  { s with m := { s.m with l3 := s.m.l3.keep fun k => !(decide (base + bytes ≤ k ∧ k < base + 2 ^ 28)) } }

/-- R286: a slice is revoked: its grids are Aborted, its teams end, its continuations, counters and entries are freed, and
its functions drain. Its queue stops. -/
def revokeSlice (s : State) (p k : Nat) : State :=
  let mine (g : Nat) : Bool := gridHome s g == (p, k)
  let s1 := setQueue s (.slice p k) none
  let s2 := ((s.teams.filter fun tm => tm.part == p && tm.slice == k).map fun tm => tm.id).foldl dropTeam s1
  let abort (g : Grid) : Grid :=
    if g.part = p ∧ g.slice = k ∧ g.st ≠ .retired then { g with st := .aborted, tickets := [], drawn := [] } else g
  let s3 := { s2 with
    grids := s2.grids.map abort
    gangs := s2.gangs.filter fun g => !mine g.grid
    conts := s2.conts.filter fun x => !mine x.grid
    decs := s2.decs.filter fun d => !(d.part == p && d.slice == k) }
  -- R140: the next slice of this number finds its carve zero
  let s4 := (List.range 8).foldl (fun s st => cutCarve s p k st 0) (emptyCores (liftFreezes s3 p k) p k)
  ((sliceFns s4 p k).filter fun f => f.st == .enabled || f.st == .frozen).foldl (fun s f => drainFn s f.die f.num) s4

/-- Nothing of a revoked slice remains: its functions are torn down. -/
def sliceGone (s : State) (p k : Nat) : Bool := (sliceFns s p k).all fun f => f.st != .draining

def unsliceEff (c : Cmd) (s : State) (_ : Bool) : CmdEnd :=
  let p := (qPart c.q)
  let k := c.a0.toNat
  match findSlice s p k with
  | none => .done s 0x82 0
  | some _ =>
    let s1 := revokeSlice s p k
    if sliceGone s1 p k then .done (updPart s1 p fun x => { x with slices := x.slices.filter fun y => y.num != k }) 0 0 else .wait s1

def execUnslice (c : Cmd) (s : State) : Host.Outcome State Fault Refusal := runCmd (.unslice c) c byPart (unsliceEff c) s

/-- A partition is gone: its record, its logs and grants, and the bindings that name it. -/
def erasePart (s : State) (p : Nat) : State :=
  let log (x : LogLine) : Bool := match x.owner with
    | .part q | .slice q _ => q == p
    | .fw => false
  let free (f : Fn) : Fn := if f.part = some p then { f with part := none } else f
  { s with
    parts := s.parts.filter fun x => x.num != p
    logs := s.logs.filter fun x => !log x
    forwarded := s.forwarded.set p 0
    m := { s.m with tlb := s.m.tlb.filter fun x => x.part != p }
    link := { s.link with fns := s.link.fns.map free, hdm := if s.link.hdm = some p then none else s.link.hdm } }

def unpartEff (c : Cmd) (s : State) (_ : Bool) : CmdEnd :=
  let p := c.a0.toNat
  match findPart s p with
  | none => .done s 0x82 0
  | some x =>
    let s1 := (x.slices.map fun y => y.num).foldl (fun s k => revokeSlice s p k) (setQueue s (.part p) none)
    if s1.link.fns.all fun f => !(f.part == some p && f.st == .draining) then .done (erasePart s1 p) 0 0 else .wait s1

def execUnpart (c : Cmd) (s : State) : Host.Outcome State Fault Refusal := runCmd (.unpart c) c byFw (unpartEff c) s

/-! ### SETQ, ROOT, HND, GRANT -/

/-- The queue that SETQ binds: of a partition for firmware, of a slice for a partition; none where there is none. -/
def targetQ (s : State) (c : Cmd) : Option QId :=
  let k := c.a0.toNat
  match c.q with
  | .fw => (findPart s k).map fun _ => .part k
  | .part p => (findSlice s p k).map fun _ => .slice p k
  | .slice _ _ => none

/-- The header of a queue that is bound (R401). -/
def headerOf (func evec : Nat) : List Byte := List.replicate 13 0 ++ valBytes 1 evec ++ valBytes 2 func ++ List.replicate 48 0

/-- R404: SETQ waits for the record that the old queue performs. -/
def setqEff (c : Cmd) (s : State) (_ : Bool) : CmdEnd :=
  let base := c.a1.toNat
  let func := c.a2.toNat % 512
  let evec := c.a2.toNat / 2 ^ 16 % 256
  match targetQ s c with
  | none => .done s 0x82 0
  | some t =>
    if base % 65536 ≠ 0 ∨ c.a2.toNat ≠ func + evec * 2 ^ 16 ∨ 128 < func % 256 ∨ (mgmtSpan s t (qSpace t) .rw base 16448).isNone then .done s 0x82 0
    else if !isReady s (.lrx (func / 256)) then .done s 0x83 0
    else if (getQueue s t).any fun q => q.cur.isSome then .wait s
    else .done (mgmtWrite (setQueue s t (some ⟨base, func, evec, false, none⟩)) t (qSpace t) base (headerOf func evec)) 0 0

def execSetq (c : Cmd) (s : State) : Host.Outcome State Fault Refusal := runCmd (.setq c) c byAbove (setqEff c) s

/-- The accesses that ROOT waits for, as TLBINV .all of the stage and context does (R356). -/
def rootWaits (s : State) (x : PageCtx) (k : Stage) : Bool :=
  (ctxTeams s x).any (fun tm => tm.swarms.any (staleAccess s k tm)) || staleReq s x

/-- R404: ROOT sets a root once, drops the translations, and waits. -/
def rootEff (c : Cmd) (s : State) (first : Bool) : CmdEnd :=
  let a := c.a0.toNat
  let r := c.a1.toNat
  let bad : Bool := decide (r % 4096 ≠ 0 ∨ 2 ^ 57 ≤ r)
  let go (x : PageCtx) (k : Stage) (set : State → State) : CmdEnd :=
    let s1 := if first then dropTlb (set s) x k none else s
    if rootWaits s1 x k then .wait s1 else .done s1 0 0
  match c.q with
  | .part p =>
    if bad ∨ (findSlice s p a).isNone then .done s 0x82 0
    else go ⟨p, some a, none⟩ .s2 fun s => updSlice s p a fun y => { y with root2 := r }
  | .slice p k =>
    if bad ∨ 256 ≤ a then .done s 0x82 0
    else go ⟨p, some k, some a⟩ .s1 fun s => updSlice s p k fun y => { y with roots1 := y.roots1.set a (BitVec.ofNat 64 r) }
  | .fw => .done s 0x80 0

def execRoot (c : Cmd) (s : State) : Host.Outcome State Fault Refusal := runCmd (.root c) c byLevels (rootEff c) s

/-- R316: a handler record that HND refuses. -/
def hndBad (r : Nat) : Bool := r / 2 ^ 256 != 0 || (List.range 4).any fun k => r / 2 ^ (64 * k) % 16 != 0

/-- R404: HND. -/
def hndEff (c : Cmd) (s : State) : State × Nat × Nat :=
  let a := c.a0.toNat
  let set (s : State) : State := match c.q with
    | .part p => updPart s p fun x => { x with hnd := a }
    | .slice p k => updSlice s p k fun y => { y with hnd := a }
    | .fw => s
  if a = 0 then stat (set s) 0
  else if a % 64 ≠ 0 then stat s 0x82
  else match mgmtRead s c.q (qLevel c.q) a 64 with
  | none => stat s 0x82
  | some bs => if hndBad (bytesVal bs) then stat s 0x82 else stat (set s) 0

def execHnd (c : Cmd) (s : State) : Host.Outcome State Fault Refusal := runNow (.hnd c) c byLevels (hndEff c) s

/-- R406: freezes that level 2 of a slice owns pass to level 1. -/
def passFreezes (s : State) (p k : Nat) : State :=
  let up (f : Freeze) : Freeze := if f.owner = .two ∧ f.part = p ∧ f.slice = k then { f with owner := .one } else f
  { s with freezes := s.freezes.map up }

/-- R404, R406: GRANT. -/
def grantEff (c : Cmd) (s : State) : State × Nat × Nat :=
  let p := (qPart c.q)
  let k := c.a0.toNat
  let m := c.a1.toNat
  let on := c.a2.toNat == 0
  if (findSlice s p k).isNone ∨ 8 ≤ m ∨ 2 ≤ c.a2.toNat then stat s 0x82
  else
    let put (y : Slice) : Slice :=
      { y with rP := if m.testBit 0 then on else y.rP, rF := if m.testBit 1 then on else y.rF, rL := if m.testBit 2 then on else y.rL }
    let s1 := updSlice s p k put
    stat (if m.testBit 1 && !on then passFreezes s1 p k else s1) 0

def execGrant (c : Cmd) (s : State) : Host.Outcome State Fault Refusal := runNow (.grant c) c byPart (grantEff c) s

/-! ### RUN and PREEMPT -/

/-- RESULT of RUN: the grid's id and the launch status. -/
def runResult (id st : Nat) : Nat := id % 2 ^ 32 * 2 ^ 32 + st

/-- R404: RUN. -/
def runEff (c : Cmd) (s : State) : State × Nat × Nat :=
  let p := (qPart c.q)
  let k := match c.q with
    | .slice _ k => k
    | _ => c.a4.toNat
  let a := c.a0.toNat
  let note := c.a2.toNat
  let word := if note = 0 then none else some (qLevel c.q, note)
  let func := match getQueue s c.q with
    | some q => q.func
    | none => 0
  if (findSlice s p k).isNone ∨ a % 32 ≠ 0 ∨ note % 8 ≠ 0 ∨ 2 ^ 57 ≤ note ∨ 256 ≤ c.a1.toNat ∨ 256 ≤ c.a3.toNat then stat s 0x82
  else match mgmtRead s c.q (qLevel c.q) a 96 with
  | some bs =>
    let l := parseLaunch (bytesVal bs)
    if launchBad (bytesVal bs) then (s, 0, runResult 0 3)
    else if neverFits l then (s, 0, runResult 0 2)
    else if !queueFree s p k then (s, 0, runResult 0 1)
    else
      let r := queueGrid s p k c.a1.toNat 0 none l word c.a3.toNat func
      (r.1, 0, runResult r.2.toNat 0)
  | none => stat s 0x82

def execRun (c : Cmd) (s : State) : Host.Outcome State Fault Refusal := runNow (.run c) c byLevels (runEff c) s

/-- R327: the level's record has a PENT and a RENT. -/
def canPreempt (s : State) (part slice : Nat) (lv : Level) : Bool :=
  let a := handlerAddr s part slice lv
  recWord s part slice lv a .pent != 0 && recWord s part slice lv a .rent != 0

/-- The team that PREEMPT names, among those of the issuer's partition or slice: the grid's own team of that index, or, once it
has ended, the oldest continuation that runs with its $team (R282; assumption 110). -/
def namedTeam (s : State) (c : Cmd) : Option Team :=
  let inSlice (tm : Team) : Bool := match c.q with
    | .slice _ k => tm.slice == k
    | _ => true
  let ofGrid (tm : Team) : Bool := tm.part == qPart c.q && inSlice tm &&
    (gridOf s (qPart c.q) (c.a0.setWidth 32)).any (fun g => g.id == tm.id.grid) && decide (c.a0.toNat < 2 ^ 32)
  (s.teams.find? fun tm => ofGrid tm && tm.id.cont.isNone && tm.id.idx == c.a1.toNat).orElse fun _ =>
    s.teams.find? fun tm => ofGrid tm && tm.id.cont.isSome && tm.lin.toNat == c.a1.toNat

/-- R327: the request stands, for the level's handler record as it is now. -/
def askPreempt (s : State) (tm : Team) (lv : Level) (st : CtxSt) : State :=
  updTeam s tm.id fun x => { x with st := st, preempt := some (lv, s.pulse.toNat, handlerAddr s tm.part tm.slice lv), overdue := false, entered := false }

/-- R327, R404, R409: PREEMPT. The request of a context that is Loading or Frozen is held; one that its handler has
withdrawn (R315) ends as refused. -/
def preemptEff (c : Cmd) (s : State) (first : Bool) : CmdEnd :=
  let lv := (qLevel c.q)
  match namedTeam s c with
  | none => .done s 2 0
  | some tm =>
    let ok := canPreempt s tm.part tm.slice lv
    let ask (st : CtxSt) : CmdEnd :=
      if !first then .wait s
      else if !ok then .done s 1 0
      else if tm.preempt.isSome then .wait s
      else .wait (askPreempt s tm lv st)
    match tm.st with
    | .saved | .parked => .done s (if first then 2 else 0) 0
    | .retired => .done s 2 0
    | .faulted => .done s 1 0
    | .frozen => ask .frozen
    | .loading => ask .loading
    | .preempting => if tm.overdue then .done s 3 0 else ask .preempting
    | .running | .resident =>
      if first then ask .preempting
      else (match tm.preempt with
      | some (l, _, a) => .wait (updTeam s tm.id fun x => { x with st := .preempting, preempt := some (l, s.pulse.toNat, a) })
      | none => .done s 1 0)

def byRight (r : Slice → Bool) : Named := ⟨false, true, true, r⟩

def execPreempt (c : Cmd) (s : State) : Host.Outcome State Fault Refusal :=
  runCmd (.preempt c) c (byRight fun y => y.rP) (preemptEff c) s

/-! ### Freeze and thaw (R409) -/

/-- A core belongs to what the issuer of a command holds. -/
def coreMine (s : State) (q : QId) (k : Nat) : Bool :=
  match q with
  | .fw => decide (k < 1536)
  | .part p => (match findPart s p with
    | some x => x.clus.getLsbD (clusOf k)
    | none => false)
  | .slice p j => coreOf s k p j

/-- A function belongs to what the issuer of a command holds. -/
def fnHeld (s : State) (q : QId) (die num : Nat) : Bool :=
  let f := getFn s die num
  match q with
  | .fw => true
  | .part p => f.part == some p
  | .slice p j => f.part == some p && f.slice == j && f.st != .disabled

/-- R404: the master that a command names, or a status. -/
def masterOf (s : State) (c : Cmd) : Except Nat Master :=
  let a := c.a0.toNat
  let x := a / 4 % 2 ^ 11
  if 2 ^ 13 ≤ a ∨ a % 4 = 3 then .error 0x82
  else if a % 4 = 2 then
    let die := x / 256
    let num := x % 256
    if 2 ≤ die ∨ num = 0 ∨ 128 < num ∨ !fnHeld s c.q die num then .error 0x82
    else if !isReady s (.lrx die) then .error 0x83
    else .ok (.fn die num)
  else if 1536 ≤ x ∨ !coreMine s c.q x then .error 0x82
  else if !clusReady s (clusOf x) ∨ (a % 4 = 1 ∧ !isReady s (.eng (clusOf x))) then .error 0x83
  else .ok (if a % 4 = 0 then .core x else .eng x)

/-- A function that is not bound cannot be frozen (R380). -/
def freezable (s : State) (m : Master) : Bool :=
  match m with
  | .fn d f => (getFn s d f).st == .enabled || (getFn s d f).st == .frozen
  | _ => true

/-- R409: FREEZE. -/
def freezeEff (c : Cmd) (s : State) : State × Nat × Nat :=
  match masterOf s c with
  | .error k => stat s k
  | .ok m =>
    if !freezable s m then stat s 0x82
    else stat (freezeMaster s m (qLevel c.q) (qPart c.q) (qSlice c.q)) (if isFrozen s m then 1 else 0)

def execFreeze (c : Cmd) (s : State) : Host.Outcome State Fault Refusal :=
  runNow (.freeze c) c (byRight fun y => y.rF) (freezeEff c) s

/-- R409, R315: a master goes on: contexts return to their earlier state and pending faults are delivered. -/
def thawMaster (s : State) (m : Master) : State :=
  let s1 := { s with freezes := s.freezes.filter fun f => f.master != m }
  match m with
  | .eng _ => s1
  | .fn d f => updFn s1 d f fun x => if x.st = .frozen then { x with st := .enabled } else x
  | .core k =>
    let mine (tm : Team) : Bool := tm.core == k && tm.st == .frozen
    let s2 := { s1 with teams := s1.teams.map fun tm => if mine tm then { tm with st := tm.before } else tm }
    (s.teams.filter mine).foldl (fun s tm => (liveSwarms tm).foldl (fun s sw => settleFaults s tm.id sw.num) s) s2

/-- R409: THAW. -/
def thawEff (c : Cmd) (s : State) : State × Nat × Nat :=
  match masterOf s c with
  | .error k => stat s k
  | .ok m =>
    match s.freezes.find? fun f => f.master == m with
    | none => stat s 1
    | some f => if levelLt (qLevel c.q) f.owner then stat s 2 else stat (thawMaster s m) 0

def execThaw (c : Cmd) (s : State) : Host.Outcome State Fault Refusal :=
  runNow (.thaw c) c ⟨true, true, true, fun y => y.rF⟩ (thawEff c) s

/-! ### CARVE, ADMIT, LOG -/

/-- R404, R140: CARVE of a partition from the 192 MiB of a stack, or of a slice from its partition's grant. -/
def carveEff (c : Cmd) (s : State) : State × Nat × Nat :=
  let a := c.a0.toNat
  let st := c.a1.toNat
  let n := c.a2.toNat
  let size (t : Tab 32) : Nat := (t.get st).toNat
  let set (t : Tab 32) : Tab 32 := t.set st (BitVec.ofNat 32 n)
  if 8 ≤ st then stat s 0x82
  else if !isReady s (.stk st) then stat s 0x83
  else match c.q with
  | .fw =>
    (match findPart s a with
    | none => stat s 0x82
    | some x =>
      let others := ((s.parts.filter fun y => y.num != a).map fun y => size y.carve).sum
      let kids := (x.slices.map fun y => size y.carve).sum
      if 192 < n + others ∨ n < kids then stat s 1 else stat (updPart s a fun x => { x with carve := set x.carve }) 0)
  | .part p =>
    (match findPart s p, findSlice s p a with
    | some x, some _ =>
      let others := ((x.slices.filter fun y => y.num != a).map fun y => size y.carve).sum
      if 192 < n ∨ size x.carve < n + others then stat s 1
      else stat (cutCarve (updSlice s p a fun y => { y with carve := set y.carve }) p a st (n * 2 ^ 20)) 0
    | _, _ => stat s 0x82)
  | .slice _ _ => stat s 0x80

def execCarve (c : Cmd) (s : State) : Host.Outcome State Fault Refusal := runNow (.carve c) c byAbove (carveEff c) s

/-- R404, R376: ADMIT. -/
def admitsEff (c : Cmd) (s : State) : State × Nat × Nat :=
  let e := c.a0.toNat
  if 64 ≤ e ∨ 2 ^ 17 ≤ c.a1.toNat then stat s 0x82
  else stat (updPart s (qPart c.q) fun x => { x with grants := x.grants.set e (BitVec.ofNat 32 c.a1.toNat) }) 0

def execAdmits (c : Cmd) (s : State) : Host.Outcome State Fault Refusal := runNow (.admits c) c byPart (admitsEff c) s

/-- The bytes of `n` log entries, whose layout is not given, drawn one by one. -/
def logEntries (k n : Nat) : List Byte :=
  (List.range n).flatMap fun j => (Config.logBytes (k + j) ++ List.replicate 64 0).take 64

/-- R404, R407: LOG. Log 3 of a partition is one entry, its count. -/
def logEff (c : Cmd) (s : State) : State × Nat × Nat :=
  let k := c.a0.toNat
  let owner := (qOwner c.q)
  let p := (qPart c.q)
  let mine := s.logs.filter fun x => x.owner == owner && x.log == k
  let counts : Bool := k == 3 && owner == .part p
  let have_ := if counts then (if s.forwarded.get p = 0 then 0 else 1) else mine.length
  let n := min have_ c.a2.toNat
  if 4 ≤ k ∨ (mgmtSpan s c.q (qLevel c.q) .write c.a1.toNat (64 * n)).isNone then stat s 0x82
  else
    let s1 := mgmtWrite { s with draws := s.draws + n } c.q (qLevel c.q) c.a1.toNat (logEntries s.draws n)
    let gone := mine.take n
    let s2 := if counts then (if n = 0 then s1 else { s1 with forwarded := s1.forwarded.set p 0 })
      else { s1 with logs := gone.foldl (fun l x => l.erase x) s1.logs }
    (s2, 0, n)

def execLog (c : Cmd) (s : State) : Host.Outcome State Fault Refusal :=
  runNow (.log c) c (byRight fun y => y.rL) (logEff c) s

/-! ### Firmware's own commands -/

/-- R404, R380: VFASSIGN. -/
def vfassignEff (c : Cmd) (s : State) : State × Nat × Nat :=
  let a := c.a0.toNat
  let die := a / 256
  let num := a % 256
  let f := getFn s die num
  if 512 ≤ a ∨ num = 0 ∨ 128 < num ∨ (findPart s c.a1.toNat).isNone then stat s 0x82
  else if !isReady s (.lrx die) then stat s 0x83
  else if f.st ≠ .disabled ∧ f.st ≠ .torn then stat s 2
  else stat (putFn s { f with part := some c.a1.toNat }) 0

def execVfassign (c : Cmd) (s : State) : Host.Outcome State Fault Refusal := runNow (.vfassign c) c byFw (vfassignEff c) s

/-- R368: HDM. -/
def hdmEff (c : Cmd) (s : State) : State × Nat × Nat :=
  if (findPart s c.a0.toNat).isNone then stat s 0x82 else stat { s with link := { s.link with hdm := some c.a0.toNat } } 0

def execHdm (c : Cmd) (s : State) : Host.Outcome State Fault Refusal := runNow (.hdm c) c byFw (hdmEff c) s

/-- R385: FRGRANT. -/
def frgrantEff (c : Cmd) (s : State) : State × Nat × Nat :=
  let p := c.a0.toNat
  let n := c.a1.toNat
  let g := c.a2.toNat
  if (findPart s p).isNone ∨ 36 ≤ n ∨ 2 ^ 32 ≤ g then stat s 0x82
  else stat (updPart s p fun x => { x with fr := (x.fr.filter fun y => y.1 != n) ++ [(n, g / 2 ^ 16, g % 2 ^ 16)] }) 0

def execFrgrant (c : Cmd) (s : State) : Host.Outcome State Fault Refusal := runNow (.frgrant c) c byFw (frgrantEff c) s

/-- R412: FWUPD. An image of a length that R412 does not allow fails its verification. A write of flash that fails, which a free value decides, leaves no image. -/
def fwupdEff (c : Cmd) (s : State) : State × Nat × Nat :=
  let n := c.a1.toNat
  if n ≤ 384 ∨ 2 ^ 24 < n then stat s 1
  else match mgmtRead s c.q (qLevel c.q) c.a0.toNat n with
  | none => stat s 0x82
  | some bs =>
    if !imageOk bs then stat s 1
    else
      let s1 := { s with draws := s.draws + 1 }
      if (Config.free s.draws).getLsbD 0 then stat { s1 with boot := { s1.boot with flash := [] } } 1
      else stat { s1 with boot := { s1.boot with flash := bs } } 0

def execFwupd (c : Cmd) (s : State) : Host.Outcome State Fault Refusal := runNow (.fwupd c) c byFw (fwupdEff c) s

/-! ### The next record (R403) -/

/-- The command of a code. -/
def cmdOf (code : Nat) (c : Cmd) : Option Instr :=
  match code with
  | 0x01 => some (.slice c)
  | 0x02 => some (.unslice c)
  | 0x03 => some (.setq c)
  | 0x04 => some (.root c)
  | 0x05 => some (.hnd c)
  | 0x06 => some (.grant c)
  | 0x07 => some (.run c)
  | 0x08 => some (.preempt c)
  | 0x09 => some (.freeze c)
  | 0x0A => some (.thaw c)
  | 0x0B => some (.carve c)
  | 0x0C => some (.admits c)
  | 0x0D => some (.log c)
  | 0x20 => some (.part c)
  | 0x21 => some (.unpart c)
  | 0x22 => some (.vfassign c)
  | 0x23 => some (.hdm c)
  | 0x24 => some (.frgrant c)
  | 0x25 => some (.fwupd c)
  | _ => none

/-- The arguments of a record. -/
def recArgs (q : QId) (e : Nat) (bs : List Byte) : Cmd :=
  let a (k : Nat) : DWord := BitVec.ofNat 64 (bytesVal ((bs.drop (16 + 8 * k)).take 8))
  ⟨q, e, a 0, a 1, a 2, a 3, a 4, a 5⟩

/-- ERR of a queue (R401). -/
def setErr (s : State) (q : QId) (x : MgmtQ) (err : Bool) : State :=
  if x.err = err then s
  else setQueue (mgmtWrite s q (qSpace q) (x.base + 8) [if err then 1 else 0]) q (some { x with err := err })

/-- R403, step 1: what a queue performs next: the record under way, the record at HEAD, or nothing; an unknown command and
a record with a reserved bit are answered at once. -/
def mgmtNext (s : State) (q : QId) : State × Option Instr :=
  match getQueue s q with
  | none => (s, none)
  | some x =>
    match x.cur with
    | some (i, _) => (s, some i)
    | none =>
      match mgmtRead s q (qSpace q) x.base 8 with
      | none => (s, none)
      | some h =>
        let tail := bytesVal (h.take 4)
        let head := bytesVal (h.drop 4)
        let d := (tail + 2 ^ 32 - head) % 2 ^ 32
        if d = 0 then (s, none)
        else if 256 < d then (setErr s q x true, none)
        else
          let s1 := setErr s q x false
          match mgmtRead s1 q (qSpace q) (recAddr x head) 64 with
          | none => (s1, none)
          | some bs =>
            let c := recArgs q head bs
            let vec := bytesVal ((bs.drop 5).take 1)
            if bytesVal ((bs.drop 6).take 2) ≠ 0 then (endCmd s1 c vec 0x82 0, none)
            else match cmdOf (bytesVal (bs.take 1)) c with
            | some i => (s1, some i)
            | none => (endCmd s1 c vec 0x80 0, none)

end Sys2Proof.Machine
end

