-- ==== Sys2Proof/Machine/Boot.lean ====
section
/-!
DEFINITION. Bring-up (R410 to R413): units that become ready or fail, power-on and reset, the recovery window, and the
host's writes to function 0's BAR 0.
-/
namespace Sys2Proof.Machine

/-! ### Units (R410, R411) -/

/-- The numbers of the units of each kind (R410). -/
def unitOk : UnitId → Bool
  | .tier g | .lrx g | .lnk g => decide (g < 2)
  | .pulse | .fw => true
  | .port m => decide (m < 36)
  | .eng c | .clu c => decide (c < 96)
  | .die d => decide (d < 16)
  | .stk k => decide (k < 8)

def setReady (s : State) (u : UnitId) (on : Bool) : State :=
  let bit : BitVec 512 := 1#512 <<< unitBit u
  { s with boot := { s.boot with ready := if on then s.boot.ready ||| bit else s.boot.ready &&& ~~~bit } }

/-- The firmware's queue, once its image runs (R401, R411). -/
def fwQueueOf : MgmtQ := ⟨65536 * (Config.fwQueue % 2 ^ 24), 0, 0xFF, false, none⟩

/-- The image in flash is started where its signature holds: FW is set (R412). -/
def startImage (s : State) : State :=
  if imageOk s.boot.flash then { (setReady s .fw true) with fwq := some fwQueueOf } else s

/-- R410: a unit has passed its own test. FW is set by a verified image only, the time base counts from 0, and a host
link has trained as CXL or not (R368). -/
def execUnitReady (u : UnitId) (cxl : Bool) (s : State) : Host.Outcome State Fault Refusal :=
  .next (if !unitOk u || isReady s u then s
    else match u with
    | .fw => startImage s
    | .pulse => { (setReady s u true) with pulse := 0 }
    | .lnk g =>
      let s1 := setReady s u true
      { s1 with link := { s1.link with cxlDies := if cxl then s1.link.cxlDies ++ [g] else s1.link.cxlDies } }
    | _ => setReady s u true)

/-- The cores that a unit is part of. -/
def unitHas (u : UnitId) (core : Nat) : Bool :=
  match u with
  | .eng c | .clu c => clusOf core == c
  | .die d => dieOf core == d
  | .stk k => stkOf core == k
  | _ => false

/-- R170 for a cluster: its copies are lost, its directory is gone, and its die's entries are rewritten. -/
def rebuildClus (m : MemSys) (c : Nat) : MemSys :=
  let m1 := loseCores m fun k => clusOf k == c
  let held (e : DirEnt) : Bool := e.level == .clus && e.unit == c
  let names (e : DirEnt) : Bool := e.level == .die && (e.owner == some c || e.sharers.contains c)
  let again (e : DirEnt) : DirEnt := if names e && e.st != .mv then dirNow m1 e.level e.unit e.region else e
  { m1 with dirs := ((m1.dirs.filter fun e => !held e).map again).filter fun e => e.st != .i }

/-- The directories after a unit has failed (R411, R170). -/
def rebuildUnit (s : State) (u : UnitId) : State :=
  match u with
  | .clu c => { s with m := rebuildClus s.m c }
  | .die d => rebuildDirs s d
  | .stk k => rebuildDirs (rebuildDirs s (2 * k)) (2 * k + 1)
  | _ => s

/-- The fault record of a context whose unit has failed. -/
def failTeam (u : UnitId) (s : State) (tm : Team) : State :=
  let s1 := faultTeam s tm.id (routeOf 0x18 0 .prog) (trapcWord { cause := 0x18 } .prog (routeOf 0x18 0 .prog)) 0
  let ev : LogEv := .unitFailure u
  logEvent (logEvent s1 .fw 1 (.fault tm.id 0x18 0)) (.part tm.part) 1 ev

/-- R411: a unit fails: its bit falls, the directories rebuild, and every context that holds it becomes Faulted, which
log 1 of firmware and of its partition reports. -/
def execUnitFailure (u : UnitId) (s : State) : Host.Outcome State Fault Refusal :=
  .next (if !unitOk u || !isReady s u then s
    else
      let s1 := setReady s u false
      let s2 := { rebuildUnit s1 u with fwq := if u == UnitId.fw then none else s1.fwq }
      let hit (tm : Team) : Bool := onCore tm && unitHas u tm.core
      (s2.teams.filter hit).foldl (failTeam u) (notify s2 .fw 1 (.unitFailure u)))

/-! ### Power-on and reset (R412, R413) -/

/-- The package starts anew: flash, the schedule, the package number and what has been sent outlive it. -/
def restarted (s : State) (ram : Tab 8) : State :=
  { State.reset with
    turns := s.turns
    draws := s.draws
    pkgid := s.pkgid
    msis := s.msis
    m := { MemSys.reset with ram := ram }
    link := { Link.reset with hostOut := s.link.hostOut, fabOut := s.link.fabOut, reqNo := s.link.reqNo, inNo := s.link.inNo }
    boot := { Boot.reset with flash := s.boot.flash } }

/-- R412: at power-on the boot code verifies the image in flash and starts it if the signature holds. -/
def execPowerOn (s : State) : Host.Outcome State Fault Refusal := .next (startImage (restarted s []))

/-- R413: a conventional reset of the host link resets the package, which boots from flash. -/
def execConventionalReset (s : State) : Host.Outcome State Fault Refusal := .next (startImage (restarted s s.m.ram))

/-! ### The recovery window (R413) -/

def fwRuns (s : State) : Bool := isReady s .fw
def updBoot (s : State) (f : Boot → Boot) : State := { s with boot := f s.boot }

/-- The requests of the recovery run are taken back. -/
def dropBootReqs (s : State) : State := { s with link := { s.link with reqs := s.link.reqs.filter fun q => q.who != .boot } }

/-- The next read of the run: at most 4,096 bytes of the image, and what the host lets function 0 read (R367). -/
def bootRead (s : State) : State :=
  let n := min (maxReadReq s 0 0) (s.boot.len.toNat - s.boot.done.toNat)
  let a := s.boot.addr.toNat + s.boot.done.toNat
  let q : LinkReq := ⟨s.link.reqNo, a, .read n, .boot, s.pulse, false, 16, 0, 0, none⟩
  { s with link := { s.link with reqs := s.link.reqs ++ [q], reqNo := s.link.reqNo + 1 } }

/-- GO in STATE 0 or 4 to 7 starts a run; an image of a wrong length is refused. -/
def goRun (s : State) : State :=
  let st := s.boot.state
  let n := s.boot.len.toNat
  if fwRuns s ∨ (1 ≤ st ∧ st ≤ 3) then s
  else if n < 385 ∨ 2 ^ 24 < n then updBoot s fun b => { b with state := 5, code := 1, done := 0, buf := [] }
  else bootRead (updBoot s fun b => { b with state := 1, code := 0, done := 0, buf := [] })

def execGo (s : State) : Host.Outcome State Fault Refusal := .next (goRun s)

/-- ABORT in STATE 1 or 2 stops the run. -/
def abortRun (s : State) : State :=
  if fwRuns s ∨ ¬(s.boot.state = 1 ∨ s.boot.state = 2) then s else dropBootReqs (updBoot s fun b => { b with state := 0, buf := [] })

def execAbort (s : State) : Host.Outcome State Fault Refusal := .next (abortRun s)

/-- A read of the run completes: DONE rises and the next one goes out, or the run goes on to verifying; a PCI Express
status other than successful ends it. -/
def execRecoveryReadCompletion (bytes : List Byte) (status : Nat) (s : State) : Host.Outcome State Fault Refusal :=
  .next (match s.link.reqs.find? fun q => q.who == .boot with
    | none => s
    | some q =>
      if fwRuns s ∨ s.boot.state ≠ 1 then s
      else
        let s1 := dropBootReqs s
        if status ≠ 0 then updBoot s1 fun b => { b with state := 6, code := BitVec.ofNat 32 status }
        else
          let bs := fitData q bytes
          let s2 := updBoot s1 fun b => { b with done := b.done + BitVec.ofNat 32 bs.length, buf := b.buf ++ bs }
          if s2.boot.len.toNat ≤ s2.boot.done.toNat then updBoot s2 fun b => { b with state := 2 } else bootRead s2)

/-- The image is verified by R412: writing of flash begins, or it is refused, with what fails in CODE. -/
def execRecoveryVerifyDone (s : State) : Host.Outcome State Fault Refusal :=
  .next (if fwRuns s ∨ s.boot.state ≠ 2 then s
    else match verdict s.boot.buf with
    | .ok => updBoot s fun b => { b with state := 3 }
    | .length => updBoot s fun b => { b with state := 5, code := 1 }
    | .digest => updBoot s fun b => { b with state := 5, code := 2 }
    | .sign => updBoot s fun b => { b with state := 5, code := 3 })

/-- The write of flash completes, or fails at a block. -/
def execFlashWriteDone (block : Option Nat) (s : State) : Host.Outcome State Fault Refusal :=
  .next (if fwRuns s ∨ s.boot.state ≠ 3 then s
    else match block with
    | none => updBoot s fun b => { b with state := 4, flash := b.buf }
    | some k => updBoot s fun b => { b with state := 7, code := BitVec.ofNat 32 k, flash := [] })

/-! ### Writes to BAR 0 of function 0 -/

/-- Eight bytes of BAR 0 are written: GO and ABORT, ADDR, or LEN of the recovery window while FW = 0 (R413), or the region of
firmware's queue once it runs (R401). -/
def execRegisterWrite (off : Nat) (val : DWord) (s : State) : Host.Outcome State Fault Refusal :=
  .next (if off % 8 ≠ 0 then s
    else if !fwRuns s then
      (if off = 0x1000 then
        let s1 := if val.getLsbD 1 then abortRun s else s
        if val.getLsbD 0 then goRun s1 else s1
      else if off = 0x1008 then updBoot s fun b => { b with addr := val }
      else if off = 0x1010 then updBoot s fun b => { b with len := loW val }
      else s)
    else match s.fwq with
    | some q =>
      if 0x10000 ≤ off ∧ off < 0x10000 + 16448 then mgmtWrite s .fw .fw (q.base + (off - 0x10000)) (valBytes 8 val.toNat) else s
    | none => s)

end Sys2Proof.Machine
end

