-- ==== Sys2Proof/Machine/CrossLane.lean ====
section
/-!
DEFINITION. The cross-lane and predicate words (R112 to R117).
-/
namespace Sys2Proof.Machine

/-- The lanes of a mask that share a group of `g` lanes with a lane (R90). -/
def groupOf (g ln : Nat) (m : BitVec 32) : List Nat := (lanesOf m).filter fun j => j / g == ln / g

/-- R112: the source position of SHFL in a group of `g`, with the lane at `p`. -/
def shflPos (m : ShflMode) (g p b : Nat) : Option Nat :=
  match m with
  | .at => if b < g then some b else none
  | .back => if b ≤ p then some (p - b) else none
  | .fwd => if p + b < g then some (p + b) else none
  | .mix => if p ^^^ b < g then some (p ^^^ b) else none
  | .rot => some ((p + b) % g)

def execShfl (m : ShflMode) (o : Wd) (s : State) : Host.Outcome State Fault Refusal :=
  let i : Instr := .shfl m o
  runInt i o false 32 (fun c ln =>
    let fr := c.sw.frame
    let g := fr.xlgw
    match shflPos m g (ln % g) (srcB c i o (.int false 32) ln) with
    | some p =>
      let j := g * (ln / g) + p
      (if (lane fr j).exited then 0 else (op32 fr j o.a).toNat, 0)
    | none => (0, 0)) s

/-- R113: predicate A of a lane: 8 to 15 name the inverse of p0 to p7. -/
def votePred (c : Ctx) (o : Wd) (ln : Nat) : Bool :=
  let n := o.a.immVal.toNat
  predOf (lane c.sw.frame ln) (n % 8) != decide (8 ≤ n)

def execVote (v : VoteOp) (o : Wd) (s : State) : Host.Outcome State Fault Refusal :=
  let i : Instr := .vote v o
  let grp (c : Ctx) (ln : Nat) : List Nat := groupOf c.sw.frame.xlgw ln c.act
  let yes (c : Ctx) (ln : Nat) : List Nat := (grp c ln).filter (votePred c o)
  match v with
  | .every => runPred i o (fun c ln => ((grp c ln).all (votePred c o), 0)) s
  | .some => runPred i o (fun c ln => ((grp c ln).any (votePred c o), 0)) s
  | .alike => runPred i o (fun c ln => ((yes c ln).isEmpty || yes c ln == grp c ln, 0)) s
  | .mask => runInt i o false 32 (fun c ln => ((maskOf fun j => (yes c ln).contains j).toNat, 0)) s
  | .count => runInt i o false 32 (fun c ln => ((yes c ln).length, 0)) s

def execMatchL (wide : Bool) (o : Wd) (s : State) : Host.Outcome State Fault Refusal :=
  let i : Instr := .matchL wide o
  let w := widthOf wide
  runInt i o false 32 (fun c ln =>
    let same (j : Nat) : Bool := srcA c i o (.pat w) j == srcA c i o (.pat w) ln
    ((maskOf fun j => (groupOf c.sw.frame.xlgw ln c.act).contains j && same j).toNat, 0)) s

/-! ### REDX and SCANX (R115, R116) -/

/-- Fold of a list that is not empty, with the flags of its operations. -/
def foldOp (op : RedOp) : List Nat → Nat × Flags
  | [] => (redIdent op, 0)
  | y :: ys => ys.foldl (fun a x =>
      let (r, fl) := redOpF op a.1 x
      (r, a.2 ||| fl)) (y, 0)

/-- The scan of the values of a group: lane and value in, lane and result out, with flags. -/
def scanOp (op : RedOp) (ex : Bool) : Option Nat → List (Nat × Nat) → List (Nat × Nat) × Flags
  | _, [] => ([], 0)
  | acc, (ln, x) :: rest =>
    let (new, f1) := match acc with
      | none => (x, 0)
      | some a => redOpF op a x
    let (out, f2) := scanOp op ex (some new) rest
    if ex then ((ln, acc.getD (redIdent op)) :: out, (if rest.isEmpty then 0 else f1) ||| f2)
    else ((ln, new) :: out, f1 ||| f2)

/-- The value of row `n` in a lane, or operand A when the word has one row. -/
def rowVal (c : Ctx) (i : Instr) (o : Wd) (sg : OpTy) (ln j : Nat) : Nat :=
  if redCount o.b ≤ 1 then srcA c i o sg ln else (reg c.sw.frame ln (opIdx o.a + j)).toNat

/-- The operand type of an operation, for a sign modifier (R55). -/
def redTy : RedOp → OpTy
  | .addF | .minF | .maxF => .flt fF32
  | .addS | .minS | .maxS => .int true 32
  | .addN | .minN | .maxN => .int false 32
  | .and | .or | .xor => .pat 32

/-- Row `j` of REDX in one lane: the group's value so far and the flags of this row. -/
def redRow (c : Ctx) (i : Instr) (o : Wd) (op : RedOp) (j ln : Nat) : Nat × Flags :=
  let grp := groupOf c.sw.frame.xlgw ln c.act
  let (y, f1) := foldOp op (grp.map fun k => rowVal c i o (redTy op) k j)
  if j = 0 then (y, f1)
  else
    let (r, f2) := redOpF op (reg c.sw.frame (grp.head?.getD ln) (opIdx o.d)).toNat y
    (r, f1 ||| f2)

/-- Write row `j` of `n` of REDX: the latches take the result of the whole word. -/
def redWrite (o : Wd) (n j ln x : Nat) (fr : Frame) : Frame :=
  if j + 1 < n then setReg fr ln (opIdx o.d) (BitVec.ofNat 32 x) else dst32 fr o 4 ln (BitVec.ofNat 32 x)

def execRedx (op : RedOp) (o : Wd) (s : State) : Host.Outcome State Fault Refusal :=
  let i : Instr := .redx op o
  let n := redCount o.b
  let row (c : Ctx) (j : Nat) (s : State) : State :=
    updFrame s c.f.team c.f.swarm fun fr => eachLane c.act fr fun ln fr =>
      let (x, fl) := redRow c i o op j ln
      orFlags (redWrite o n j ln x fr) ln fl
  runWord i o .prog (fun _ => none) (fun _ => i.fields)
    (fun c s1 => if n ≤ 1 then row c 0 s1 else macroStep c n (row c) s1) s

/-- The carry into row `j` of SCANX, from the row before (R116). -/
def scanCarry (c : Ctx) (o : Wd) (op : RedOp) (ex : Bool) (j : Nat) (grp : List Nat) : Option Nat × Flags :=
  if j = 0 then (none, 0)
  else match grp.getLast? with
    | none => (none, 0)
    | some h =>
      let d := (reg c.sw.frame h (opIdx o.d + j - 1)).toNat
      if ex then
        let (r, fl) := redOpF op d (reg c.sw.frame h (opIdx o.a + j - 1)).toNat
        (some r, fl)
      else (some d, 0)

/-- Row `j` of SCANX in one lane: its value and the flags of its group. -/
def scanRow (c : Ctx) (i : Instr) (o : Wd) (op : RedOp) (ex : Bool) (j ln : Nat) : Nat × Flags :=
  let grp := groupOf c.sw.frame.xlgw ln c.act
  let (carry, f0) := scanCarry c o op ex j grp
  let (out, f1) := scanOp op ex carry (grp.map fun k => (k, rowVal c i o (redTy op) k j))
  (match out.find? fun x => x.1 == ln with
    | some x => x.2
    | none => 0, f0 ||| f1)

def runScan (i : Instr) (op : RedOp) (ex : Bool) (o : Wd) (s : State) : Host.Outcome State Fault Refusal :=
  let n := redCount o.b
  let row (c : Ctx) (j : Nat) (s : State) : State :=
    updFrame s c.f.team c.f.swarm fun fr => eachLane c.act fr fun ln fr =>
      let (x, fl) := scanRow c i o op ex j ln
      let w := BitVec.ofNat 32 x
      orFlags (if n ≤ 1 then dst32 fr o 4 ln w else setReg fr ln (opIdx o.d + j) w) ln fl
  runWord i o .prog (fun _ => none) (fun _ => i.fields)
    (fun c s1 => if n ≤ 1 then row c 0 s1 else macroStep c n (row c) s1) s

def execScanx (op : RedOp) (o : Wd) (s : State) : Host.Outcome State Fault Refusal := runScan (.scanx op o) op false o s
def execScanxEx (op : RedOp) (o : Wd) (s : State) : Host.Outcome State Fault Refusal :=
  runScan (.scanxEx op o) op true o s

/-! ### Predicates (R117) -/

def execPset (o : Wd) (s : State) : Host.Outcome State Fault Refusal :=
  runPred (.pset o) o (fun c ln => (op32 c.sw.frame ln o.a != 0, 0)) s

def execPlop (tt : BitVec 8) (o : Wd) (s : State) : Host.Outcome State Fault Refusal :=
  runPred (.plop tt o) o (fun c ln =>
    let p (x : Opnd) (k : Nat) : Nat := if predOf (lane c.sw.frame ln) x.immVal.toNat then k else 0
    (tt.getLsbD (p o.a 1 + p o.b 2 + p o.d 4), 0)) s

def execPmovGet (o : Wd) (s : State) : Host.Outcome State Fault Refusal :=
  runInt (.pmovGet o) o false 32 (fun c ln => ((lane c.sw.frame ln).preds.toNat / 2 * 2 + 1, 0)) s

def execPmovSet (o : Wd) (s : State) : Host.Outcome State Fault Refusal :=
  runFrame (.pmovSet o) o none (fun c fr => eachLane c.act fr fun ln fr => updLane fr ln fun l =>
    let m : BitVec 8 := o.b.immVal.extractLsb' 0 8
    let a : BitVec 8 := (op32 c.sw.frame ln o.a).extractLsb' 0 8
    { l with preds := (l.preds &&& ~~~m) ||| (a &&& m) ||| 1 }) s

end Sys2Proof.Machine
end

