-- ==== Sys2Proof/Machine/FloatInstr.lean ====
section
/-!
DEFINITION. The floating-point words (R102 to R111).
-/
namespace Sys2Proof.Machine

/-- R102: the slot of a class S word must hold one of the floating formats. -/
def floatSlot (k : BitVec 3) : SlotNeed := some (k, fun f => f ≤ 4)
/-- R102, R108: FCVT in its slot form also accepts the integer formats. -/
def fcvtSlot (k : BitVec 3) : SlotNeed := some (k, fun f => f ≤ 4 || (decide (8 ≤ f) && decide (f ≤ 15)))
/-- R42: saturation is in effect. -/
def satOf (c : Ctx) (k : BitVec 3) (sat : Bool) : Bool := sat || slotSat (slotOf c k)

/-- A class S word of one type: a result and its flags in each active lane. -/
def runFloat (i : Instr) (o : Wd) (t : FTy) (slot : BitVec 3) (sat : Bool)
    (f : Ctx → Bool → Nat → Nat × Flags) (s : State) : Host.Outcome State Fault Refusal :=
  runFrame i o (floatSlot slot) (fun c fr => eachLane c.act fr fun ln fr =>
    let (x, fl) := f c (satOf c slot sat) ln
    orFlags (dst32 fr o t.bytes ln (BitVec.ofNat 32 x)) ln fl) s

def fA (c : Ctx) (i : Instr) (o : Wd) (t : FTy) (ln : Nat) : Nat := srcA c i o (.flt (ftyFmt t)) ln
def fB (c : Ctx) (i : Instr) (o : Wd) (t : FTy) (ln : Nat) : Nat := srcB c i o (.flt (ftyFmt t)) ln
def fD (c : Ctx) (i : Instr) (o : Wd) (t : FTy) (ln : Nat) : Nat := oldD c i o (8 * t.bytes) ln

def execFadd (r : Rnd) (t : FTy) (slot : BitVec 3) (sat : Bool) (o : Wd) (s : State) : Host.Outcome State Fault Refusal :=
  let i : Instr := .fadd r t slot sat o
  runFloat i o t slot sat (fun c sa ln => faddF (ftyFmt t) r sa false (fA c i o t ln) (fB c i o t ln)) s
def execFsub (r : Rnd) (t : FTy) (slot : BitVec 3) (sat : Bool) (o : Wd) (s : State) : Host.Outcome State Fault Refusal :=
  let i : Instr := .fsub r t slot sat o
  runFloat i o t slot sat (fun c sa ln => faddF (ftyFmt t) r sa true (fA c i o t ln) (fB c i o t ln)) s
def execFmul (r : Rnd) (t : FTy) (slot : BitVec 3) (sat : Bool) (o : Wd) (s : State) : Host.Outcome State Fault Refusal :=
  let i : Instr := .fmul r t slot sat o
  runFloat i o t slot sat (fun c sa ln => fmulF (ftyFmt t) r sa (fA c i o t ln) (fB c i o t ln)) s
def execFfma (r : Rnd) (t : FTy) (slot : BitVec 3) (sat : Bool) (o : Wd) (s : State) : Host.Outcome State Fault Refusal :=
  let i : Instr := .ffma r t slot sat o
  runFloat i o t slot sat (fun c sa ln => ffmaF (ftyFmt t) r sa (fA c i o t ln) (fB c i o t ln) (fD c i o t ln)) s
/-- R103: FFMA.l reads l0 as its addend. -/
def execFfmaL (r : Rnd) (t : FTy) (slot : BitVec 3) (sat : Bool) (o : Wd) (s : State) : Host.Outcome State Fault Refusal :=
  let i : Instr := .ffmaL r t slot sat o
  runFloat i o t slot sat (fun c sa ln => ffmaF (ftyFmt t) r sa (fA c i o t ln) (fB c i o t ln)
    ((lane c.sw.frame ln).l0.toNat % 2 ^ (8 * t.bytes))) s

/-- R104: no rounding and no slot. -/
def runMinMax (i : Instr) (o : Wd) (t : FTy) (isMax : Bool) (s : State) : Host.Outcome State Fault Refusal :=
  runFrame i o none (fun c fr => eachLane c.act fr fun ln fr =>
    let (x, fl) := minmaxF (ftyFmt t) isMax (fA c i o t ln) (fB c i o t ln)
    orFlags (dst32 fr o t.bytes ln (BitVec.ofNat 32 x)) ln fl) s
def execFmin (t : FTy) (o : Wd) (s : State) : Host.Outcome State Fault Refusal := runMinMax (.fmin t o) o t false s
def execFmax (t : FTy) (o : Wd) (s : State) : Host.Outcome State Fault Refusal := runMinMax (.fmax t o) o t true s

def execFcmp (t : FTy) (cc : FCond) (o : Wd) (s : State) : Host.Outcome State Fault Refusal :=
  let i : Instr := .fcmp t cc o
  runPred i o (fun c ln => cmpF (ftyFmt t) cc (fA c i o t ln) (fB c i o t ln)) s

def execFrcp (r : Rnd) (t : FTy) (slot : BitVec 3) (sat : Bool) (o : Wd) (s : State) : Host.Outcome State Fault Refusal :=
  let i : Instr := .frcp r t slot sat o
  runFloat i o t slot sat (fun c sa ln => viaF32 t r sa (recipF fF32) (fA c i o t ln)) s
def execFrsq (r : Rnd) (t : FTy) (slot : BitVec 3) (sat : Bool) (o : Wd) (s : State) : Host.Outcome State Fault Refusal :=
  let i : Instr := .frsq r t slot sat o
  runFloat i o t slot sat (fun c sa ln => viaF32 t r sa rsq32 (fA c i o t ln)) s
def execFsqrt (r : Rnd) (t : FTy) (slot : BitVec 3) (sat : Bool) (o : Wd) (s : State) : Host.Outcome State Fault Refusal :=
  let i : Instr := .fsqrt r t slot sat o
  runFloat i o t slot sat (fun c sa ln => viaF32 t r sa (sqrtF fF32) (fA c i o t ln)) s
def execFexp2 (r : Rnd) (t : FTy) (slot : BitVec 3) (sat : Bool) (o : Wd) (s : State) : Host.Outcome State Fault Refusal :=
  let i : Instr := .fexp2 r t slot sat o
  runFloat i o t slot sat (fun c sa ln => viaF32 t r sa exp232 (fA c i o t ln)) s
def execFlog2 (r : Rnd) (t : FTy) (slot : BitVec 3) (sat : Bool) (o : Wd) (s : State) : Host.Outcome State Fault Refusal :=
  let i : Instr := .flog2 r t slot sat o
  runFloat i o t slot sat (fun c sa ln => viaF32 t r sa log232 (fA c i o t ln)) s
def execFsin (r : Rnd) (t : FTy) (slot : BitVec 3) (sat : Bool) (o : Wd) (s : State) : Host.Outcome State Fault Refusal :=
  let i : Instr := .fsin r t slot sat o
  runFloat i o t slot sat (fun c sa ln => viaF32 t r sa (fun r _ x => sin32 r x) (fA c i o t ln)) s
def execFcos (r : Rnd) (t : FTy) (slot : BitVec 3) (sat : Bool) (o : Wd) (s : State) : Host.Outcome State Fault Refusal :=
  let i : Instr := .fcos r t slot sat o
  runFloat i o t slot sat (fun c sa ln => viaF32 t r sa (fun r _ x => cos32 r x) (fA c i o t ln)) s

def execFrnd (r : Rnd) (t : FTy) (o : Wd) (s : State) : Host.Outcome State Fault Refusal :=
  let i : Instr := .frnd r t o
  runFrame i o none (fun c fr => eachLane c.act fr fun ln fr =>
    let (x, fl) := rndF (ftyFmt t) r (fA c i o t ln)
    orFlags (dst32 fr o t.bytes ln (BitVec.ofNat 32 x)) ln fl) s

/-- The operand type of a number format. -/
def numTy : Num → OpTy
  | .flt f => .flt f
  | .int sg w => .int sg w

/-- R108: the destination format and the rounding of an FCVT word. -/
def fcvtTo (c : Ctx) (fromSlot : Bool) (r : Rnd) (slot : BitVec 3) (o : Wd) : Nat × Rnd :=
  if fromSlot then (slotFmt (slotOf c slot), slotRnd (slotOf c slot)) else (fcvtDst o.b, r)

/-- Field D of an FCVT word once the slot is read: in the slot form it has the slot's format. -/
def fcvtFields (i : Instr) (fromSlot : Bool) (slot : BitVec 3) (c : Ctx) : FS × FS × FS :=
  let f := i.fields
  if fromSlot then ({ FS.fmtDst (slotFmt (slotOf c slot)) with zero := false }, f.2.1, f.2.2) else f

/-- R108: FCVT. A 64-bit result takes a pair; the format of the slot form is known only when the slot is read. -/
def execFcvt (fromSlot : Bool) (r : Rnd) (slot : BitVec 3) (sat : Bool) (o : Wd) (s : State) :
    Host.Outcome State Fault Refusal :=
  let i : Instr := .fcvt fromSlot r slot sat o
  runWord i o .prog (fun _ => if fromSlot then fcvtSlot slot else floatSlot slot) (fcvtFields i fromSlot slot)
    (fun c s1 => updFrame s1 c.f.team c.f.swarm fun fr => eachLane c.act fr fun ln fr =>
      let (dc, rr) := fcvtTo c fromSlot r slot o
      match numOf (fcvtSrc o.b), numOf dc with
      | some src, some dst =>
        let (x, fl) := convert src dst rr (satOf c slot sat) (srcA c i o (numTy src) ln)
        orFlags (dstInt fr o dst.signed dst.width ln x) ln fl
      | _, _ => fr) s

def execHfma2 (r : Rnd) (pr : BitVec 2) (slot : BitVec 3) (sat : Bool) (o : Wd) (s : State) :
    Host.Outcome State Fault Refusal :=
  let i : Instr := .hfma2 r pr slot sat o
  runFloat i o .f32 slot sat (fun c sa ln =>
    hfma2F r pr sa (srcA c i o .halves ln) (srcB c i o .halves ln) (oldD c i o 32 ln)) s
def execFdot4 (r : Rnd) (e5 : Bool) (slot : BitVec 3) (sat : Bool) (o : Wd) (s : State) : Host.Outcome State Fault Refusal :=
  let i : Instr := .fdot4 r e5 slot sat o
  runFloat i o .f32 slot sat (fun c sa ln =>
    fdot4F r e5 sa (srcA c i o .bytes4 ln) (srcB c i o .bytes4 ln) (oldD c i o 32 ln)) s

def execFsplit3 (o : Wd) (s : State) : Host.Outcome State Fault Refusal :=
  let i : Instr := .fsplit3 o
  runFrame i o none (fun c fr => eachLane c.act fr fun ln fr =>
    let (a, b, fl) := fsplit3F (srcA c i o (.flt fF32) ln)
    orFlags (dst64 fr o ln (pairOf a b)) ln fl) s

end Sys2Proof.Machine
end

