-- ==== Sys2Proof/Machine/RegSpace.lean ====
section
/-!
DEFINITION. The register-space words: VIEW, LDIX, STIX, REGFREE, RDSR, WRSR (R83 to R87).
-/
namespace Sys2Proof.Machine

/-- R83: new bounds for the swarm, or the register-view trap. -/
def execView (o : Wd) (s : State) : Host.Outcome State Fault Refusal :=
  let v := o.a.immVal.toNat
  let t := o.b.immVal.toNat
  runWord (.view o) o .prog (fun _ => none) (fun _ => (Instr.view o).fields) (fun c s1 =>
    if 512 < v ∨ 8 < t ∨ 512 < v + 64 * t then undoTrap c s1 0x06 c.f.pc
    else updFrame s1 c.f.team c.f.swarm fun fr => { fr with vcnt := v, tcnt := t }) s

/-- R84: the row a lane names. -/
def ixRow (c : Ctx) (i : Instr) (o : Wd) (ln : Nat) : Nat :=
  (srcA c i o (.int false 32) ln + srcB c i o (.int false 32) ln) % 2 ^ 32

/-- R84: some active lane names a row beyond the view. -/
def ixBad (c : Ctx) (i : Instr) (o : Wd) : Bool :=
  (lanesOf c.act).any fun ln => decide (c.sw.frame.vcnt ≤ ixRow c i o ln)

/-- LDIX and STIX: the trap of R84, or one effect per active lane. -/
def runIx (i : Instr) (o : Wd) (g : Ctx → Nat → Nat → Frame → Frame) (s : State) : Host.Outcome State Fault Refusal :=
  runWord i o .prog (fun _ => none) (fun _ => i.fields) (fun c s1 =>
    if ixBad c i o then undoTrap c s1 0x06 c.f.pc 1
    else updFrame s1 c.f.team c.f.swarm fun fr => eachLane c.act fr fun ln fr => g c ln (ixRow c i o ln) fr) s

def execLdix (o : Wd) (s : State) : Host.Outcome State Fault Refusal :=
  runIx (.ldix o) o (fun c ln n fr => dst32 fr o 4 ln (reg c.sw.frame ln n)) s
def execStix (o : Wd) (s : State) : Host.Outcome State Fault Refusal :=
  runIx (.stix o) o (fun c ln n fr => setReg fr ln n (op32 c.sw.frame ln o.d)) s

/-- R86: one row is freed by some lanes. -/
def freeRow (act : BitVec 32) (fr : Frame) (n : Nat) : Frame :=
  if !fr.live.getLsbD n then fr
  else
    let f := fr.freed.get n ||| act
    if liveLanes fr &&& ~~~f = 0 then
      { fr with live := fr.live &&& ~~~(1#512 <<< n), freed := fr.freed.set n 0,
                regs := clearRow fr.regs n }
    else { fr with freed := fr.freed.set n f }

def execRegfree (o : Wd) (s : State) : Host.Outcome State Fault Refusal :=
  runFrame (.regfree o) o none (fun c fr => (rowsOf (Instr.regfree o).fields.2.1 o.a).foldl (freeRow c.act) fr) s

/-- R71: the word of $view. -/
def viewWord (c : Ctx) : Word := BitVec.ofNat 32 (c.sw.frame.vcnt + c.sw.frame.tcnt * 2 ^ 10 + acntOf c * 2 ^ 14)

/-- R81: a special register as a lane reads it. -/
def readSpecial (s : State) (c : Ctx) (ln n : Nat) : DWord :=
  let l := lane c.sw.frame ln
  let w (x : Word) : DWord := x.setWidth 64
  let k (x : Nat) : DWord := BitVec.ofNat 64 (x % 2 ^ 32)
  match n with
  | 0x00 => k ln
  | 0x01 => k (if c.sw.kind = .team then c.sw.num else 32)
  | 0x02 => w c.tm.lin
  | 0x03 => w c.tm.teamn
  | 0x04 => w c.tm.gx
  | 0x05 => w c.tm.gy
  | 0x06 => w c.tm.gz
  | 0x07 => k c.tm.core
  | 0x08 => k (clusOf c.tm.core)
  | 0x09 => k (dieOf c.tm.core)
  | 0x0A => k (stkOf c.tm.core)
  | 0x0B => k (segOf c.tm.core)
  | 0x0C => w s.pkgid
  | 0x0D => w c.tm.depth
  | 0x10 => s.pulse
  | 0x11 => w (progFrame c.sw).prog
  | 0x12 => w l.bx
  | 0x13 => w l.by_
  | 0x14 => w l.bseq
  | 0x15 => w l.btag
  | 0x16 => w l.bn
  | 0x18 => k c.sw.frame.xlgw
  | 0x19 => w c.tm.clwin
  | 0x1A => w c.tm.coldbase
  | 0x1B => w (viewWord c)
  | 0x1C => l.fflags.setWidth 64
  | 0x1E => w c.sw.trapc
  | 0x1F => c.sw.trapa
  | _ => 0

def execRdsr (o : Wd) (s : State) : Host.Outcome State Fault Refusal :=
  let n := o.a.immVal.toNat
  let wide := match spReg n with
    | some (w, _) => w
    | none => false
  runFrame (.rdsr o) o none (fun c fr => eachLane c.act fr fun ln fr =>
    let v := readSpecial s c ln n
    if wide then dst64 fr o ln v else dst32 fr o 4 ln (loW v)) s

/-- R87: $xlgw takes the largest power of two not above the value, between 2 and 32. -/
def xlgwOf (x : Nat) : Nat := if x < 2 then 2 else if 32 ≤ x then 32 else 2 ^ Nat.log2 x

/-- R82, R87: what a write of a special register does; a register held by the swarm or team takes the value of the
lowest-numbered active lane. -/
def writeSpecial (c : Ctx) (n : Nat) (v : Nat → DWord) (s : State) : State :=
  let low := v ((lowest c.act).getD 0)
  let t := c.f.team
  let sw := c.f.swarm
  match n with
  | 0x18 => updFrame s t sw fun fr => { fr with xlgw := xlgwOf (loW low).toNat }
  | 0x19 => updTeam s t fun tm => { tm with clwin := loW low }
  | 0x1C => updFrame s t sw fun fr => eachLane c.act fr fun ln fr => updLane fr ln fun l => { l with fflags := (v ln).extractLsb' 0 6 }
  | 0x1E => updSwarm s t sw fun x => { x with trapc := loW low }
  | 0x1F => updSwarm s t sw fun x => { x with trapa := low }
  | _ => s

def execWrsr (o : Wd) (s : State) : Host.Outcome State Fault Refusal :=
  let i : Instr := .wrsr o
  let n := o.d.immVal.toNat
  runWord i o (if n = 0x1E ∨ n = 0x1F then .two else .prog) (fun _ => none) (fun _ => i.fields)
    (fun c s1 => writeSpecial c n (fun ln => BitVec.ofNat 64 (srcA c i o (.pat (if n = 0x1F then 64 else 32)) ln)) s1) s

end Sys2Proof.Machine
end

