-- ==== Sys2Proof/Machine/Dispatch.lean ====
section
/-!
DEFINITION. The dispatcher: one arm per instruction, each one call of its meaning.
-/
namespace Sys2Proof.Machine

def exec (i : Instr) (s : State) : Host.Outcome State Fault Refusal :=
  match i with
  | .iadd t sat o => Sys2Proof.Machine.execIadd t sat o s
  | .isub t sat o => Sys2Proof.Machine.execIsub t sat o s
  | .iaddc t sat o => Sys2Proof.Machine.execIaddc t sat o s
  | .imul t sat o => Sys2Proof.Machine.execImul t sat o s
  | .imulhi t o => Sys2Proof.Machine.execImulhi t o s
  | .imad t sat o => Sys2Proof.Machine.execImad t sat o s
  | .imin t o => Sys2Proof.Machine.execImin t o s
  | .imax t o => Sys2Proof.Machine.execImax t o s
  | .iabs wide sat o => Sys2Proof.Machine.execIabs wide sat o s
  | .shl wide o => Sys2Proof.Machine.execShl wide o s
  | .shr wide o => Sys2Proof.Machine.execShr wide o s
  | .sar wide o => Sys2Proof.Machine.execSar wide o s
  | .rot wide o => Sys2Proof.Machine.execRot wide o s
  | .and wide o => Sys2Proof.Machine.execAnd wide o s
  | .or wide o => Sys2Proof.Machine.execOr wide o s
  | .xor wide o => Sys2Proof.Machine.execXor wide o s
  | .not wide o => Sys2Proof.Machine.execNot wide o s
  | .lop3 tt o => Sys2Proof.Machine.execLop3 tt o s
  | .bfx signed o => Sys2Proof.Machine.execBfx signed o s
  | .bfi o => Sys2Proof.Machine.execBfi o s
  | .popc wide o => Sys2Proof.Machine.execPopc wide o s
  | .clz wide o => Sys2Proof.Machine.execClz wide o s
  | .brev wide o => Sys2Proof.Machine.execBrev wide o s
  | .icmp wide c uns o => Sys2Proof.Machine.execIcmp wide c uns o s
  | .sel np p o => Sys2Proof.Machine.execSel np p o s
  | .lea sh o => Sys2Proof.Machine.execLea sh o s
  | .mov wide o => Sys2Proof.Machine.execMov wide o s
  | .movi c o => Sys2Proof.Machine.execMovi c o s
  | .view o => Sys2Proof.Machine.execView o s
  | .ldix o => Sys2Proof.Machine.execLdix o s
  | .stix o => Sys2Proof.Machine.execStix o s
  | .regfree o => Sys2Proof.Machine.execRegfree o s
  | .rdsr o => Sys2Proof.Machine.execRdsr o s
  | .wrsr o => Sys2Proof.Machine.execWrsr o s
  | .fadd r t slot sat o => Sys2Proof.Machine.execFadd r t slot sat o s
  | .fsub r t slot sat o => Sys2Proof.Machine.execFsub r t slot sat o s
  | .fmul r t slot sat o => Sys2Proof.Machine.execFmul r t slot sat o s
  | .ffma r t slot sat o => Sys2Proof.Machine.execFfma r t slot sat o s
  | .ffmaL r t slot sat o => Sys2Proof.Machine.execFfmaL r t slot sat o s
  | .fmin t o => Sys2Proof.Machine.execFmin t o s
  | .fmax t o => Sys2Proof.Machine.execFmax t o s
  | .fcmp t c o => Sys2Proof.Machine.execFcmp t c o s
  | .frcp r t slot sat o => Sys2Proof.Machine.execFrcp r t slot sat o s
  | .frsq r t slot sat o => Sys2Proof.Machine.execFrsq r t slot sat o s
  | .fsqrt r t slot sat o => Sys2Proof.Machine.execFsqrt r t slot sat o s
  | .fexp2 r t slot sat o => Sys2Proof.Machine.execFexp2 r t slot sat o s
  | .flog2 r t slot sat o => Sys2Proof.Machine.execFlog2 r t slot sat o s
  | .fsin r t slot sat o => Sys2Proof.Machine.execFsin r t slot sat o s
  | .fcos r t slot sat o => Sys2Proof.Machine.execFcos r t slot sat o s
  | .frnd r t o => Sys2Proof.Machine.execFrnd r t o s
  | .fcvt fromSlot r slot sat o => Sys2Proof.Machine.execFcvt fromSlot r slot sat o s
  | .hfma2 r pr slot sat o => Sys2Proof.Machine.execHfma2 r pr slot sat o s
  | .fdot4 r e5 slot sat o => Sys2Proof.Machine.execFdot4 r e5 slot sat o s
  | .fsplit3 o => Sys2Proof.Machine.execFsplit3 o s
  | .shfl m o => Sys2Proof.Machine.execShfl m o s
  | .vote v o => Sys2Proof.Machine.execVote v o s
  | .matchL wide o => Sys2Proof.Machine.execMatchL wide o s
  | .redx op o => Sys2Proof.Machine.execRedx op o s
  | .scanx op o => Sys2Proof.Machine.execScanx op o s
  | .scanxEx op o => Sys2Proof.Machine.execScanxEx op o s
  | .pset o => Sys2Proof.Machine.execPset o s
  | .plop tt o => Sys2Proof.Machine.execPlop tt o s
  | .pmovGet o => Sys2Proof.Machine.execPmovGet o s
  | .pmovSet o => Sys2Proof.Machine.execPmovSet o s
  | .bra o => Sys2Proof.Machine.execBra o s
  | .brx o => Sys2Proof.Machine.execBrx o s
  | .call o => Sys2Proof.Machine.execCall o s
  | .ret o => Sys2Proof.Machine.execRet o s
  | .loop o => Sys2Proof.Machine.execLoop o s
  | .bmark o => Sys2Proof.Machine.execBmark o s
  | .bsync o => Sys2Proof.Machine.execBsync o s
  | .exit o => Sys2Proof.Machine.execExit o s
  | .yield o => Sys2Proof.Machine.execYield o s
  | .nop o => Sys2Proof.Machine.execNop o s
  | .ipref l o => Sys2Proof.Machine.execIpref l o s
  | .ipin l o => Sys2Proof.Machine.execIpin l o s
  | .iunpin l o => Sys2Proof.Machine.execIunpin l o s
  | .ld z sp sx q o => Sys2Proof.Machine.execLd z sp sx q o s
  | .st z sp q o => Sys2Proof.Machine.execSt z sp q o s
  | .ldv n sp q o => Sys2Proof.Machine.execLdv n sp q o s
  | .stv n sp q o => Sys2Proof.Machine.execStv n sp q o s
  | .pref l q o => Sys2Proof.Machine.execPref l q o s
  | .cctl op q o => Sys2Proof.Machine.execCctl op q o s
  | .wpset r w q o => Sys2Proof.Machine.execWpset r w q o s
  | .wpclr q o => Sys2Proof.Machine.execWpclr q o s
  | .fence q o => Sys2Proof.Machine.execFence q o s
  | .fenceSc q o => Sys2Proof.Machine.execFenceSc q o s
  | .fenceLy q o => Sys2Proof.Machine.execFenceLy q o s
  | .atom f ao q o => Sys2Proof.Machine.execAtom f ao q o s
  | .atomv ao q o => Sys2Proof.Machine.execAtomv ao q o s
  | .red f ao q o => Sys2Proof.Machine.execRed f ao q o s
  | .waitc c uns q o => Sys2Proof.Machine.execWaitc c uns q o s
  | .mmaz t spad o => Sys2Proof.Machine.execMmaz t spad o s
  | .mma t spad o => Sys2Proof.Machine.execMma t spad o s
  | .wbld slot o => Sys2Proof.Machine.execWbld slot o s
  | .accld q o => Sys2Proof.Machine.execAccld q o s
  | .accst q o => Sys2Proof.Machine.execAccst q o s
  | .accdr slot sat o => Sys2Proof.Machine.execAccdr slot sat o s
  | .epil o => Sys2Proof.Machine.execEpil o s
  | .ttask q o => Sys2Proof.Machine.execTtask q o s
  | .cpy o => Sys2Proof.Machine.execCpy o s
  | .cpy2d o => Sys2Proof.Machine.execCpy2d o s
  | .gath z o => Sys2Proof.Machine.execGath z o s
  | .scat z o => Sys2Proof.Machine.execScat z o s
  | .bread o => Sys2Proof.Machine.execBread o s
  | .chapp o => Sys2Proof.Machine.execChapp o s
  | .waittl q o => Sys2Proof.Machine.execWaittl q o s
  | .rdtl o => Sys2Proof.Machine.execRdtl o s
  | .waitcnt c o => Sys2Proof.Machine.execWaitcnt c o s
  | .ctxtlOpen o => Sys2Proof.Machine.execCtxtlOpen o s
  | .ctxtlClose o => Sys2Proof.Machine.execCtxtlClose o s
  | .ctxtlReset o => Sys2Proof.Machine.execCtxtlReset o s
  | .bar o => Sys2Proof.Machine.execBar o s
  | .bararv o => Sys2Proof.Machine.execBararv o s
  | .barwt o => Sys2Proof.Machine.execBarwt o s
  | .gbar o => Sys2Proof.Machine.execGbar o s
  | .syncwi o => Sys2Proof.Machine.execSyncwi o s
  | .syncwt q o => Sys2Proof.Machine.execSyncwt q o s
  | .launch o => Sys2Proof.Machine.execLaunch o s
  | .spawn o => Sys2Proof.Machine.execSpawn o s
  | .join o => Sys2Proof.Machine.execJoin o s
  | .ticket o => Sys2Proof.Machine.execTicket o s
  | .kstat o => Sys2Proof.Machine.execKstat o s
  | .grpdecl fab o => Sys2Proof.Machine.execGrpdecl fab o s
  | .grpdrop o => Sys2Proof.Machine.execGrpdrop o s
  | .claim b8 o => Sys2Proof.Machine.execClaim b8 o s
  | .object o => Sys2Proof.Machine.execObject o s
  | .clwait o => Sys2Proof.Machine.execClwait o s
  | .clinbox o => Sys2Proof.Machine.execClinbox o s
  | .live o => Sys2Proof.Machine.execLive o s
  | .trap o => Sys2Proof.Machine.execTrap o s
  | .tret o => Sys2Proof.Machine.execTret o s
  | .ctxsave o => Sys2Proof.Machine.execCtxsave o s
  | .ctxload o => Sys2Proof.Machine.execCtxload o s
  | .oplogrd o => Sys2Proof.Machine.execOplogrd o s
  | .progrd o => Sys2Proof.Machine.execProgrd o s
  | .progwr o => Sys2Proof.Machine.execProgwr o s
  | .eret o => Sys2Proof.Machine.execEret o s
  | .eretOff o => Sys2Proof.Machine.execEretOff o s
  | .eretEnd o => Sys2Proof.Machine.execEretEnd o s
  | .pagemode m o => Sys2Proof.Machine.execPagemode m o s
  | .tlbinv all k o => Sys2Proof.Machine.execTlbinv all k o s
  | .probe k o => Sys2Proof.Machine.execProbe k o s
  | .bmaprd o => Sys2Proof.Machine.execBmaprd o s
  | .remapPage o => Sys2Proof.Machine.execRemapPage o s
  | .remapBank o => Sys2Proof.Machine.execRemapBank o s
  | .chainst q o => Sys2Proof.Machine.execChainst q o s
  | .fred op q o => Sys2Proof.Machine.execFred op q o s
  | .fredwt q o => Sys2Proof.Machine.execFredwt q o s
  | .vfctlEnable o => Sys2Proof.Machine.execVfctlEnable o s
  | .vfctlDrain o => Sys2Proof.Machine.execVfctlDrain o s
  | .vfctlStatus o => Sys2Proof.Machine.execVfctlStatus o s
  | .eNop => Sys2Proof.Machine.execENop s
  | .eMov d a => Sys2Proof.Machine.execEMov d a s
  | .eMovl d k => Sys2Proof.Machine.execEMovl d k s
  | .eMovh d k => Sys2Proof.Machine.execEMovh d k s
  | .eAdd d a b => Sys2Proof.Machine.execEAdd d a b s
  | .eSub d a b => Sys2Proof.Machine.execESub d a b s
  | .eMul d a b => Sys2Proof.Machine.execEMul d a b s
  | .eFma d a b c => Sys2Proof.Machine.execEFma d a b c s
  | .eMin d a b => Sys2Proof.Machine.execEMin d a b s
  | .eMax d a b => Sys2Proof.Machine.execEMax d a b s
  | .eRelu d a => Sys2Proof.Machine.execERelu d a s
  | .eGelu d a => Sys2Proof.Machine.execEGelu d a s
  | .eClamp d a b c => Sys2Proof.Machine.execEClamp d a b c s
  | .eAbsmaxRow d a => Sys2Proof.Machine.execEAbsmaxRow d a s
  | .eAbsmaxBlk d a => Sys2Proof.Machine.execEAbsmaxBlk d a s
  | .eSum d a => Sys2Proof.Machine.execESum d a s
  | .eIdx d => Sys2Proof.Machine.execEIdx d s
  | .eBscale a => Sys2Proof.Machine.execEBscale a s
  | .eQ8 d a => Sys2Proof.Machine.execEQ8 d a s
  | .eCvt d a => Sys2Proof.Machine.execECvt d a s
  | .eLdbColF32 d p k => Sys2Proof.Machine.execELdbColF32 d p k s
  | .eLdbColBf16 d p k => Sys2Proof.Machine.execELdbColBf16 d p k s
  | .eLdbRowF32 d p k => Sys2Proof.Machine.execELdbRowF32 d p k s
  | .eSt a k => Sys2Proof.Machine.execESt a k s
  | .eSts p => Sys2Proof.Machine.execESts p s
  | .eNext => Sys2Proof.Machine.execENext s
  | .eStop => Sys2Proof.Machine.execEStop s
  | .slice c => Sys2Proof.Machine.execSlice c s
  | .unslice c => Sys2Proof.Machine.execUnslice c s
  | .setq c => Sys2Proof.Machine.execSetq c s
  | .root c => Sys2Proof.Machine.execRoot c s
  | .hnd c => Sys2Proof.Machine.execHnd c s
  | .grant c => Sys2Proof.Machine.execGrant c s
  | .run c => Sys2Proof.Machine.execRun c s
  | .preempt c => Sys2Proof.Machine.execPreempt c s
  | .freeze c => Sys2Proof.Machine.execFreeze c s
  | .thaw c => Sys2Proof.Machine.execThaw c s
  | .carve c => Sys2Proof.Machine.execCarve c s
  | .admits c => Sys2Proof.Machine.execAdmits c s
  | .log c => Sys2Proof.Machine.execLog c s
  | .part c => Sys2Proof.Machine.execPart c s
  | .unpart c => Sys2Proof.Machine.execUnpart c s
  | .vfassign c => Sys2Proof.Machine.execVfassign c s
  | .hdm c => Sys2Proof.Machine.execHdm c s
  | .frgrant c => Sys2Proof.Machine.execFrgrant c s
  | .fwupd c => Sys2Proof.Machine.execFwupd c s
  | .accessCompletion tm sw n lane => Sys2Proof.Machine.execAccessCompletion tm sw n lane s
  | .monitorFire pa => Sys2Proof.Machine.execMonitorFire pa s
  | .monitorParkTimeout tm sw lane => Sys2Proof.Machine.execMonitorParkTimeout tm sw lane s
  | .pulseTick s1 => Sys2Proof.Machine.execPulseTick s1 s
  | .mmaKStep tm sw => Sys2Proof.Machine.execMmaKStep tm sw s
  | .tileTaskStart n core => Sys2Proof.Machine.execTileTaskStart n core s
  | .tileTaskEnd n => Sys2Proof.Machine.execTileTaskEnd n s
  | .epilogueRow => Sys2Proof.Machine.execEpilogueRow s
  | .engineWalkEntry tm c => Sys2Proof.Machine.execEngineWalkEntry tm c s
  | .operationEnd tm c n => Sys2Proof.Machine.execOperationEnd tm c n s
  | .burstArrival tm c n j bad => Sys2Proof.Machine.execBurstArrival tm c n j bad s
  | .gatherWindowClose tm c n => Sys2Proof.Machine.execGatherWindowClose tm c n s
  | .foragerStart tm c n => Sys2Proof.Machine.execForagerStart tm c n s
  | .finalHandlerStart tm c n => Sys2Proof.Machine.execFinalHandlerStart tm c n s
  | .syncArrival tm off n => Sys2Proof.Machine.execSyncArrival tm off n s
  | .gridDispatch p => Sys2Proof.Machine.execGridDispatch p s
  | .launchQueueAge g => Sys2Proof.Machine.execLaunchQueueAge g s
  | .ticketDraw core => Sys2Proof.Machine.execTicketDraw core s
  | .teamStart g unit core => Sys2Proof.Machine.execTeamStart g unit core s
  | .gangPlace g unit => Sys2Proof.Machine.execGangPlace g unit s
  | .gridRetire g => Sys2Proof.Machine.execGridRetire g s
  | .continuationDecrement die => Sys2Proof.Machine.execContinuationDecrement die s
  | .continuationStart core die prio => Sys2Proof.Machine.execContinuationStart core die prio s
  | .claimProposalArrival grp id => Sys2Proof.Machine.execClaimProposalArrival grp id s
  | .objectionArrival grp => Sys2Proof.Machine.execObjectionArrival grp s
  | .claimDecision grp id => Sys2Proof.Machine.execClaimDecision grp id s
  | .impreciseTrapDelivery tm => Sys2Proof.Machine.execImpreciseTrapDelivery tm s
  | .preemptPointStop tm sw => Sys2Proof.Machine.execPreemptPointStop tm sw s
  | .preemptOverdue tm => Sys2Proof.Machine.execPreemptOverdue tm s
  | .parkedWake tm => Sys2Proof.Machine.execParkedWake tm s
  | .contextLoad tm core => Sys2Proof.Machine.execContextLoad tm core s
  | .faultedRetire tm => Sys2Proof.Machine.execFaultedRetire tm s
  | .registerSpill core => Sys2Proof.Machine.execRegisterSpill core s
  | .tableWalk core part slice asn va need => Sys2Proof.Machine.execTableWalk core part slice asn va need s
  | .foldLineMove stack => Sys2Proof.Machine.execFoldLineMove stack s
  | .assayBeat stack => Sys2Proof.Machine.execAssayBeat stack s
  | .demandHold stack => Sys2Proof.Machine.execDemandHold stack s
  | .bankSleep stack pillar layer => Sys2Proof.Machine.execBankSleep stack pillar layer s
  | .wakeSlot stack => Sys2Proof.Machine.execWakeSlot stack s
  | .getM core line => Sys2Proof.Machine.execGetM core line s
  | .getS core line => Sys2Proof.Machine.execGetS core line s
  | .inv core line => Sys2Proof.Machine.execInv core line s
  | .ack core line l => Sys2Proof.Machine.execAck core line l s
  | .fwd core line => Sys2Proof.Machine.execFwd core line s
  | .data core line => Sys2Proof.Machine.execData core line s
  | .invDrain core => Sys2Proof.Machine.execInvDrain core s
  | .directoryError l unit region owners sharers => Sys2Proof.Machine.execDirectoryError l unit region owners sharers s
  | .dieFailure d => Sys2Proof.Machine.execDieFailure d s
  | .inboundWrite die fn1 addr bytes ro poison => Sys2Proof.Machine.execInboundWrite die fn1 addr bytes ro poison s
  | .inboundRead die fn1 addr n => Sys2Proof.Machine.execInboundRead die fn1 addr n s
  | .inboundAtomicop die fn1 => Sys2Proof.Machine.execInboundAtomicop die fn1 s
  | .pieceAck die w route => Sys2Proof.Machine.execPieceAck die w route s
  | .functionLevelReset die fn1 => Sys2Proof.Machine.execFunctionLevelReset die fn1 s
  | .drainTimeout die fn1 => Sys2Proof.Machine.execDrainTimeout die fn1 s
  | .hostCompletion n r => Sys2Proof.Machine.execHostCompletion n r s
  | .completionTimeout n => Sys2Proof.Machine.execCompletionTimeout n s
  | .biSnp line => Sys2Proof.Machine.execBiSnp line s
  | .biSnpAnswer line r => Sys2Proof.Machine.execBiSnpAnswer line r s
  | .cxlCacheSnoop line invalidate => Sys2Proof.Machine.execCxlCacheSnoop line invalidate s
  | .fabricRequest port pkg rpart p addr op => Sys2Proof.Machine.execFabricRequest port pkg rpart p addr op s
  | .remoteReply n r => Sys2Proof.Machine.execRemoteReply n r s
  | .remoteTimeout n => Sys2Proof.Machine.execRemoteTimeout n s
  | .snp line => Sys2Proof.Machine.execSnp line s
  | .flitCrcFail port => Sys2Proof.Machine.execFlitCrcFail port s
  | .flitAcknowledge port => Sys2Proof.Machine.execFlitAcknowledge port s
  | .pulseCorrection d => Sys2Proof.Machine.execPulseCorrection d s
  | .fredAnswer n others now => Sys2Proof.Machine.execFredAnswer n others now s
  | .configurationWrite die fn1 off val => Sys2Proof.Machine.execConfigurationWrite die fn1 off val s
  | .unitFailure u => Sys2Proof.Machine.execUnitFailure u s
  | .unitReady u cxl => Sys2Proof.Machine.execUnitReady u cxl s
  | .powerOn => Sys2Proof.Machine.execPowerOn s
  | .conventionalReset => Sys2Proof.Machine.execConventionalReset s
  | .go => Sys2Proof.Machine.execGo s
  | .abort => Sys2Proof.Machine.execAbort s
  | .recoveryReadCompletion bytes status => Sys2Proof.Machine.execRecoveryReadCompletion bytes status s
  | .recoveryVerifyDone => Sys2Proof.Machine.execRecoveryVerifyDone s
  | .flashWriteDone block => Sys2Proof.Machine.execFlashWriteDone block s
  | .registerWrite off val => Sys2Proof.Machine.execRegisterWrite off val s

end Sys2Proof.Machine
end

