-- ==== Sys2Proof/Machine/Sched.lean ====
section
/-!
DEFINITION. What happens next: the issue of a swarm (R64 to R66, R123), the turns of the schedule, and what is settled
after every step: chains go on, teams that are over end (R204, R275, R281, R290, R297), pre-emptions take their swarms
(R327).
-/
namespace Sys2Proof.Machine

/-! ### The issue of a swarm -/

/-- The word of the group that issues: fetched, decoded and free of interlocks; checks 1 to 4 of R64 trap here. -/
def issueWord (s : State) (tm : Team) (sw : Swarm) (split : Bool) : Issue :=
  match chooseGroup s tm sw split with
  | none => .done s
  | some x =>
    let mask := x.1.mask
    let s0 := updFrame s tm.id sw.num (noteChoice x)
    let trap (s : State) (c fld st : Nat) (a : DWord) : State :=
      takeTrap s tm.id sw.num mask { cause := c, field := fld, stage := st, lane := (lowest mask).getD 0 } a none
    match fetchWord s0 tm (execLevel tm sw) x.1.pc with
    | .fail c fld st a => .done (trap s0 c fld st a)
    | .word s1 bs =>
      match decodeBytes bs with
      | .bad c fld => .done (trap s1 c fld 0 x.1.pc)
      | .ok i =>
        -- R76: rows are free for what the word makes live
        .word { makeRoom s1 tm.core tm.id sw.num (newRows sw.frame i) with focus := some ⟨tm.id, sw.num, mask, x.1.pc⟩ } i

/-- R321, R322, R320, R76: before a word, faults are delivered, entries are issued again, an imprecise trap is delivered, and
spilled rows are read back. -/
def issueNext (s : State) (t : TeamId) (swn : Nat) (split : Bool) : Issue :=
  match findTeam s t with
  | none => .done s
  | some tm =>
    match findSwarm tm swn with
    | none => .done s
    | some sw =>
      if !teamRuns s tm || !swarmRuns tm sw then .done s
      else if (firstFault sw.frame).isSome then .done (settleFaults s t swn)
      else if sw.mode == .program && (nextAgain sw.frame).isSome then .done (settleFaults (reissue t swn 8 s) t swn)
      else if (dueTrap tm).any (fun d => d.1 == swn) then .done (deliverTrap s t)
      else if closedLanes sw.frame ≠ 0 then .done (closedTrap t s swn)
      else match spilledRows sw with
      | [] => issueWord s tm sw split
      | rows =>
        match fillRows (makeRoom s tm.core tm.id swn rows.length) tm sw rows with
        | .done s1 => .done s1
        | .wait s1 => if sw.mode == .program then .done s1 else issueWord s tm sw split

/-! ### Teams that are over -/

/-- R204: what will not go on once the last swarm has ended is aborted: held entries, and stopped issue forms. -/
def abortHeld (s : State) (tm : Team) : State :=
  (List.range 8).foldl (fun s k =>
    abortOps s tm.id k fun o =>
      abortable s tm k o && (if o.walked then (engOf tm k).mode == .halted else !formActive tm o)) s

/-- Nothing of a team is under way: accesses, fences, drains, tasks, arrivals, chains and engine operations (R130, R204,
R275). -/
def teamOver (s : State) (tm : Team) : Bool :=
  let t := tm.id
  !tm.swarms.isEmpty && (tm.swarms.all fun sw => sw.ended && sw.frame.fences.isEmpty && openLanes sw.frame == 0) &&
  !(s.drains.any fun d => d.team == t) && !(s.tasks.any fun x => x.team == t) && !(s.link.chains.any fun x => x.team == t) &&
  !(s.arrivals.any fun a => a.src.any fun x => x.1 == t) &&
  (tm.engs.all fun e => (pendingOps e).isEmpty) &&
  !(s.link.reqs.any fun q => match q.who with
    | .lane u _ _ _ | .engine u _ _ _ | .post u _ => u == t
    | _ => false)

/-- R189, R297: a member leaves its gang, and the record of a gang with no member left is freed. -/
def leaveGang (s : State) (tm : Team) : State :=
  match tm.gang with
  | none => s
  | some (n, k) =>
    let s1 := settleGangBar (updGang s n fun g => { g with live := g.live &&& ~~~(1#12 <<< k) }) n
    { s1 with gangs := s1.gangs.filter fun g => !(g.num == n && g.live == 0) }

/-- R274, R275, R291: a team of a grid has ended, with the units that it drew; a continuation is no team of its grid. -/
def countEnd (s : State) (tm : Team) : State :=
  updGrid s tm.id.grid fun g =>
    let n := g.ended + (if tm.id.cont.isNone then 1 else 0) + tm.drew
    let out : Bool := g.children != 0 || g.conts != 0
    { g with ended := n, st := if g.st = .running ∧ n = g.launch.teams ∧ out then .joining else g.st }

/-- R281: a continuation has ended: STATE is written, and its parent's counter falls. -/
def endCont (s : State) (tm : Team) (k : Cont) : State :=
  let s1 := contWrite { s with conts := s.conts.filter fun x => x.num != k.num } tm.part tm.slice k 4
  let s2 := updGrid s1 k.grid fun g => { g with conts := g.conts - 1 }
  if k.parent = 0 then s2 else sendDec s2 tm.part tm.slice tm.asn k.parent

/-- What a team holds on its core and in the tables of the part is free. -/
def freeTeam (s : State) (t : TeamId) : State :=
  let mine (f : Focus) : Option Focus := if f.team = t then none else some f
  { s with
    teams := s.teams.filter (fun x => x.id != t)
    focus := s.focus.bind mine
    tasks := s.tasks.filter (fun x => x.team != t)
    arrivals := s.arrivals.filter (fun a => a.owner != t)
    m := { s.m with pins := s.m.pins.filter (fun x => x.team != t), mons := s.m.mons.filter (fun x => x.team != t),
                    unlaid := s.m.unlaid.filter fun x => x.1 != t }
    link := { s.link with bufs := s.link.bufs.filter fun x => x.team != t } }

/-- A team ends: it leaves its groups and its gang, its grid or continuation counts it, and JOIN signals. -/
def endTeam (s : State) (tm : Team) : State :=
  let s1 := release (leaveGroups s tm.id) tm.core .pkg
  let s2 := freeTeam (leaveGang s1 tm) tm.id
  let s3 := match tm.id.cont with
    | none => countEnd s2 tm
    | some n => (match findCont s2 n with
      | some k => endCont (countEnd s2 tm) tm k
      | none => s2)
  match tm.joins with
  | some a => sendDec s3 tm.part tm.slice tm.asn a
  | none => s3

/-- A team whose last swarm has ended: what will not go on is aborted, and the team ends once nothing of it is under way. -/
def settleOver (s : State) (tm : Team) : State :=
  let s1 := abortHeld s tm
  match findTeam s1 tm.id with
  | some tm1 => if teamOver s1 tm1 then endTeam s1 tm1 else s1
  | none => s1

/-- A team after a step: it ends, or its pre-emption goes on. A Retired context has no storage (R315). -/
def settleTeam (s : State) (t : TeamId) : State :=
  match s.teams.find? fun x => x.id == t && x.st == .retired with
  | some tm => endTeam s tm
  | none =>
    match findTeam s t with
    | none => s
    | some tm =>
      match tm.st with
      | .retired | .frozen | .saved | .parked | .faulted => s
      | .preempting => if (liveSwarms tm).isEmpty then settleOver s tm else offDone (preemptGo s t) t
      | .loading => if (liveSwarms tm).isEmpty then settleOver s tm else offDone s t
      | _ => if (liveSwarms tm).isEmpty then settleOver s tm else s

/-- What is settled after every step. -/
def settle (s : State) : State :=
  let s1 := (s.link.chains.map fun x => x.num).foldl (fun s n => runChain n 9 s) s
  let s2 := planeDue s1
  (s2.teams.map fun tm => tm.id).foldl settleTeam s2

/-! ### Turns -/

/-- What a turn comes to: a state, or an instruction and the state in which it is executed. -/
inductive Plan where
  | done (s : State)
  | run (s : State) (i : Instr)

def Issue.plan : Issue → Plan
  | .done s => .done s
  | .word s i => .run s i

/-- R250: the drain that the processor has runs its next word; a row ends where its program has no further word. -/
def epiPlan (s : State) : Plan :=
  match epiDrain s with
  | none => .done (takeNext s)
  | some (k, d) =>
    match (epiWord s).bind decodeEpi with
    | some i => .run s i
    | none => .done (endRow s k d)

/-- R141: a line leaves an L1; dirty bytes go to the next level. -/
def evictLine (s : State) (core line : Nat) : State :=
  match l1Find s.m core line with
  | none => s
  | some x => l1Out s x

/-- R141: a line leaves an L2; dirty bytes go home. -/
def evictL2 (s : State) (die line : Nat) : State :=
  match l2Find s.m die line with
  | none => s
  | some x => l2Out s x

/-- R132: an instruction line that is not pinned leaves a core. -/
def evictInstr (s : State) (core line : Nat) : State :=
  if s.m.pins.any fun p => p.level == .l1 && p.core == core && p.line == line then s
  else { s with m := { s.m with icache := s.m.icache.filter fun x => !(x.1 == core && x.2.1 == line) } }

/-- A turn of the schedule. -/
def planTurn (s : State) (t : Turn) : Plan :=
  match t with
  | .issue tm sw => (issueNext s tm sw false).plan
  | .split tm sw => (issueNext s tm sw true).plan
  | .event i => if i.isEvent then .run s i else .done s
  | .mgmt q => (match mgmtNext s q with
    | (s1, some i) => .run s1 i
    | (s1, none) => .done s1)
  | .epi => epiPlan s
  | .evict core line => .done (evictLine s core line)
  | .evictL2 die line => .done (evictL2 s die line)
  | .evictI core line => .done (evictInstr s core line)
  | .dataError line on => .done { s with m := { s.m with bad := s.m.bad.filter (· != line) ++ if on then [line] else [] } }
  | .evictT n => .done { s with m := { s.m with tlb := s.m.tlb.eraseIdx n } }
  | .homeLine die w route => .done (homeLine s die w route)
  | .wait ns => .done (passTime s ns)

/-- The accesses of a swarm that stand in its log. -/
def standing (s : State) (t : TeamId) (swn : Nat) : Nat :=
  match (findTeam s t).bind fun tm => findSwarm tm swn with
  | some sw => pendingCount sw.frame
  | none => 0

/-- With no turn left: the epilogue processor goes on, else the oldest access of the swarm in focus is performed, else that
swarm issues, else time passes. -/
def planIdle (s : State) : Plan :=
  if (epiDrain s).isSome then epiPlan s
  else if (nextDrain s 0).isSome then .done (takeNext s)
  else match s.focus with
  | none => .done (passTime s 1)
  | some f =>
    let next := ((findTeam s f.team).bind fun tm => findSwarm tm f.swarm).bind fun sw => nextAccess sw.frame
    let s1 := match next with
      | some (n, i) => settleFaults (perform s f.team f.swarm n i) f.team f.swarm
      | none => s
    if standing s1 f.team f.swarm < standing s f.team f.swarm then .done s1
    else match issueNext s f.team f.swarm false with
    | .done s2 => .done (passTime s2 1)
    | .word s2 i => .run s2 i

/-- What happens next. -/
def plan (s : State) : Plan :=
  match s.turns with
  | t :: rest => planTurn { s with turns := rest } t
  | [] => planIdle s

/-- The state after a turn. -/
def after : Host.Outcome State Fault Refusal → Host.Outcome State Fault Refusal
  | .next s => .next (settle s)
  | o => o

end Sys2Proof.Machine
end

