-- ==== Sys2Proof/Machine/Place.lean ====
section
/-!
DEFINITION. A bare team at firmware level, whose addresses are physical (R346), and the placing of an instruction before
it: what stands for the load of a program from outside the machine.
-/
namespace Sys2Proof.Machine

/-- The team that a placed instruction runs in. -/
def placedId : TeamId := ⟨0, 0, none⟩

def placedTeam : Team :=
  { bareTeam placedId 0 0 0 0 0 with
    level := .fw
    acnt := 8
    swarms := [newSwarm 0 .team 0 (freshFrame 0 512 0 32)] }

/-- The placed team stands on core 0 with nothing else scheduled. -/
def placeTeam (s : State) : State :=
  { s with
    turns := []
    focus := some ⟨placedId, 0, 0xFFFFFFFF, 0⟩
    teams := [placedTeam]
    drains := []
    epi := none
    freezes := []
    m := { s.m with icache := [], tlb := [] } }

/-- The twelve bytes of a word at address 0, where the placed team's swarm stands. -/
def placeWord (s : State) (bs : List Byte) : State :=
  let s1 := placeTeam s
  { s1 with m := { s1.m with ram := setBytes s1.m.ram 0 bs } }

/-- A drain of the placed team that stands at a word. -/
def placeEpi (s : State) (w : BitVec 32) : State :=
  let d := newDrain placedTeam 0 .fw 0 0 256 0 false [w] 0 8
  { placeTeam s with
    drains := [{ d with ip := some 0, inSetup := decodeEpi w == some .eNext }]
    epi := some 0 }

end Sys2Proof.Machine
end

