-- ==== Sys2Proof/Machine/Step.lean ====
section
/-!
DEFINITION. One step of the machine: the next turn is planned, its instruction is executed, and what follows from it is
settled; and the placing of one instruction where the next step fetches.
-/
namespace Sys2Proof.Machine

/-- One step. -/
def step (s : State) : Host.Outcome State Fault Refusal :=
  match plan s with
  | .done s1 => after (.next s1)
  | .run s1 i => after (exec i s1)

/-- The instruction of `nbits` bits `w`, stored where the next step fetches: a word of 32 bits at the most is the program of
a drain that stands at it, a longer one the word at the pc of the swarm in focus. -/
def State.withFetchWord (s : State) (nbits w : Nat) : State :=
  if nbits ≤ 32 then placeEpi s (BitVec.ofNat 32 w) else placeWord s (valBytes 12 w)

end Sys2Proof.Machine
end

