-- ==== Sys2Proof/Safety.lean ====
section
/-!
DEFINITION. What the statements call a good state, and the words in which they are made: memory in its one canonical
form, a swarm and its frame by name, a word that stands ready, and the state that a word of registers leaves.
-/
namespace Sys2Proof.Machine

/-- Physical memory, the second tier and carved L3 in canonical form: addresses strictly rising, no entry 0, which is what an
unlisted address reads as. -/
def Memory.wf (m : MemSys) : Bool := Tab.wf m.ram && Tab.wf m.l3

/-- R315: the states Absent and Retired have no storage: no team stands in Retired. -/
def NoRetired (s : State) : Prop := ∀ tm ∈ s.teams, tm.st ≠ .retired

/-- A step goes on. -/
def Runs (s : State) : Prop := ∃ t, step s = .next t

/-- The swarm of a number in a team. -/
def swarmAt (s : State) (t : TeamId) (n : Nat) : Option Swarm := (findTeam s t).bind fun tm => findSwarm tm n

/-- The frame in which a swarm runs. -/
def frameAt (s : State) (t : TeamId) (n : Nat) : Option Frame := (swarmAt s t n).map fun sw => sw.frame

/-- The word `i` with the common part `o` and the fields `fs` stands before its issue in the context `c`, at privilege level
`lv` and with the slot `sl` to check: its swarm is there and has not ended, a lane's guard holds, checks 5 to 7 of R64 pass, and no fault of an
earlier access waits in the swarm's operand log. -/
structure Ready (s : State) (i : Instr) (o : Wd) (lv : Level) (sl : SlotNeed) (fs : FS × FS × FS) (c : Ctx) : Prop where
  ctx   : ctxOf s o = some c
  act   : c.act ≠ 0
  pass  : checks c i fs o lv sl = none
  live  : c.sw.ended = false
  clean : firstFault c.sw.frame = none

/-- A word of program level with no slot stands ready. -/
abbrev Stands (s : State) (i : Instr) (o : Wd) (c : Ctx) : Prop := Ready s i o .prog none i.fields c

/-- The lanes of the issuing group have moved past the word; the others have waited one issue cycle longer (R119, R123). -/
def moved (f : Focus) (fr : Frame) : Frame :=
  { fr with tried := 0, lanes := (List.range 32).map fun i =>
      let l := lane fr i
      if f.mask.getLsbD i then { l with pc := f.pc + 12, park := none, woken := false, age := 0 }
      else { l with age := l.age + 1 } }

/-- The state after a word that changes the frame of its swarm by `g` and nothing else: the issuing lanes move past the word,
the frame changes, and the broadcast group is chosen again (R119 to R123). -/
def wrote (c : Ctx) (g : Frame → Frame) (s : State) : State :=
  finish c (updFrame (advance s c.f) c.f.team c.f.swarm g)

/-- An integer or pattern result in every active lane: `x` gives the result and the flags of a lane (R72, R88, R39). -/
def results (c : Ctx) (o : Wd) (sg : Bool) (w : Nat) (x : Nat → Nat × Flags) (fr : Frame) : Frame :=
  eachLane c.act fr fun ln fr => orFlags (dstInt fr o sg w ln (x ln).1) ln (x ln).2

/-- The operands A, B and D of an integer word of type `t` in a lane, as integers (R27, R92). -/
def intA (c : Ctx) (i : Instr) (o : Wd) (t : IntTy) (ln : Nat) : Int :=
  readInt t.signed (IntTy.width t) (srcA c i o (.int t.signed (IntTy.width t)) ln)
def intB (c : Ctx) (i : Instr) (o : Wd) (t : IntTy) (ln : Nat) : Int :=
  readInt t.signed (IntTy.width t) (srcB c i o (.int t.signed (IntTy.width t)) ln)
def intD (c : Ctx) (i : Instr) (o : Wd) (t : IntTy) (ln : Nat) : Int :=
  readInt t.signed (IntTy.width t) (oldD c i o (IntTy.width t) ln)

/-- The operands A and B of a word of patterns, as bit vectors (R94, R95). -/
def bitsA (c : Ctx) (i : Instr) (o : Wd) (t : OpTy) (ln : Nat) : BitVec t.width := BitVec.ofNat _ (srcA c i o t ln)
def bitsB (c : Ctx) (i : Instr) (o : Wd) (t : OpTy) (ln : Nat) : BitVec t.width := BitVec.ofNat _ (srcB c i o t ln)

/-- A predicate result in every active lane (R89). -/
def predicates (c : Ctx) (o : Wd) (x : Nat → Bool × Flags) (fr : Frame) : Frame :=
  eachLane c.act fr fun ln fr => orFlags (dstPred fr o ln (x ln).1) ln (x ln).2

/-- A floating result of type `t` in every active lane (R88, R39, R89). -/
def floats (c : Ctx) (o : Wd) (t : FTy) (x : Nat → Nat × Flags) (fr : Frame) : Frame :=
  eachLane c.act fr fun ln fr => orFlags (dst32 fr o t.bytes ln (BitVec.ofNat 32 (x ln).1)) ln (x ln).2

/-- A word of class S stands ready: its slot holds one of the floating formats (R102). -/
abbrev StandsS (s : State) (i : Instr) (o : Wd) (slot : BitVec 3) (c : Ctx) : Prop :=
  Ready s i o .prog (floatSlot slot) i.fields c

/-- The operands A, B and D of a floating word in a lane, as exact data (R28). -/
def fltA (c : Ctx) (i : Instr) (o : Wd) (t : FTy) (ln : Nat) : FV := unpackF (ftyFmt t) (fA c i o t ln)
def fltB (c : Ctx) (i : Instr) (o : Wd) (t : FTy) (ln : Nat) : FV := unpackF (ftyFmt t) (fB c i o t ln)
def fltD (c : Ctx) (i : Instr) (o : Wd) (t : FTy) (ln : Nat) : FV := unpackF (ftyFmt t) (fD c i o t ln)

/-- What memory holds once a core may have written back dirty bytes of its L1: each byte is as before, or the dirty byte that
a line of the core held for it (R141, R143, R144). -/
def Flushed (s : State) (core : Nat) (f : Nat → Byte) : Prop :=
  ∀ a, f a = s.m.ram.get a ∨ ∃ x ∈ s.m.l1, x.core = core ∧ x.line = a / 128 ∧ x.dirty.getLsbD (a % 128) = true ∧
    f a = x.bytes.get (a % 128)

/-- A frame but for what a monitor that fires changes in it: the waiting lanes that it has readied (R181). -/
def asleep (fr : Frame) : Frame := { fr with lanes := fr.lanes.map fun l => { l with woken := false } }

/-- The checks of the active lanes of a memory word, in ascending order, from the state in which the word issues (R146). -/
def accessChecks (s : State) (i : Instr) (o : Wd) (k : AccKind) (c : Ctx) : State × List (Nat × DWord × Found) :=
  checkLanes c.tm (execLevel c.tm c.sw) (askOf (spaceOf i) i k) none (advance s c.f)
    ((lanesOf c.act).map fun ln => (ln, laneAddr c.sw.frame o ln))

/-- A condition between two integers (R61, R98). -/
def condHolds (cc : ICond) (x y : Int) : Bool :=
  match cc with
  | .eq => decide (x = y)
  | .ne => decide (x ≠ y)
  | .lt => decide (x < y)
  | .le => decide (x ≤ y)
  | .gt => decide (x > y)
  | .ge => decide (x ≥ y)

/-- The active lanes of a lane's cross-lane group (R90). -/
def peers (c : Ctx) (ln : Nat) : List Nat := groupOf c.sw.frame.xlgw ln c.act

/-- After a memory word whose lanes have all passed their checks: it stands in the operand log with the address and the place
of each active lane, its class's counter is one higher, and nothing else has changed but the lanes' addresses, the TLB
and the count of forwarded accesses; an atomic that executes beyond the core's L1 has written back and dropped the lines
there that it names (R146, R148, R176, R321, R348, R350). -/
def Logged (s : State) (i : Instr) (o : Wd) (k : AccKind) (q : MemQ) (c : Ctx) (t : State) : Prop :=
  { t with teams := s.teams, m := s.m, link := s.link, forwarded := s.forwarded } = s ∧
  ((∀ m, beyondL1 i q m = false) → t.link = s.link ∧ { t.m with tlb := s.m.tlb } = s.m) ∧
  Flushed s c.tm.core t.m.ram.get ∧ t.m.l3 = s.m.l3 ∧
  ∃ fr e b, frameAt t c.f.team c.f.swarm = some fr ∧
    asleep fr = asleep { moved c.f c.sw.frame with
      log := c.sw.frame.log ++ [e], seq := c.sw.frame.seq + 1, bcast := b,
      cLd := c.sw.frame.cLd + (if q.cls = .ld then 1 else 0), cSt := c.sw.frame.cSt + (if q.cls = .st then 1 else 0),
      cCp := c.sw.frame.cCp + (if q.cls = .cp then 1 else 0) } ∧
    e.ins = i ∧ e.addr = c.f.pc ∧ e.todo ||| e.done = c.act ∧ e.todo &&& e.done = 0 ∧ e.away = 0 ∧ e.faulted = 0 ∧
    ((∀ n, k ≠ .store n) → e.done = 0) ∧ (∀ x ∈ c.sw.frame.log, x.num ≠ e.num) ∧
    ∀ ln ∈ lanesOf c.act, ∃ r p f, recOf e ln = some r ∧ r.va = laneAddr c.sw.frame o ln ∧ r.place = some p ∧
      (ln, laneAddr c.sw.frame o ln, Except.ok (p, f)) ∈ (accessChecks s i o k c).2 ∧
      (r.data, r.cmp) = accData c.sw.frame i ln

/-- A lane's access stands in the log of a live swarm and may be performed now: no older access, fence or lower lane holds it
back, no fault of the swarm waits, and no fence stands (R161, R163, R171, R177). -/
structure Due (s : State) (t : TeamId) (n num ln : Nat) (tm : Team) (sw : Swarm) (e : LogEntry) (r : LaneRec) : Prop where
  team  : findTeam s t = some tm
  swarm : findSwarm tm n = some sw
  entry : findEntry sw.frame num = some e
  may   : mayPerform sw.frame e ln = true
  rcd   : recOf e ln = some r
  live  : sw.ended = false
  clean : firstFault sw.frame = none
  free  : sw.frame.fences = []

/-- An access of an entry at a place of the package that nothing keeps from being performed there: the host does not hold the
line, its page does not move, its region is not under rebuild, its data are good, and no package has a Snp for it to
answer (R170, R355, R368, R372). -/
def Reached (s : State) (core : Nat) (e : LogEntry) (p : Place) : Prop :=
  hostHeld s e.ins p = false ∧ movingPlace s.m p = false ∧ rebuilding s.m p = false ∧ badRead s core e.ins p = false ∧
  fabHolds s e p = false ∧ isRemote p = false ∧ heldLine s (placeAddr p) = none

/-- After a word of the drain `d` at place `k` of the list: the drain stands at its next word as `d'`, and holds the flags of
the word for the end of its row (R40, R245, R250). -/
def ran (s : State) (k : Nat) (d d' : Drain) (fl : Flags) : State :=
  putDrain (dropBufs s d.team (drainKey d)) k { d' with ip := d.ip.map (· + 1), flags := d.flags ||| fl }

/-- An epilogue word writes `f` into its destination, once for an s-register and per column for a y-register, and changes no
other register of the drain (R248, R251). -/
def EpiPuts (i : Instr) (s s1 : State) (k : Nat) (d : Drain) (dst : EReg) (f : Nat → Nat × Flags) : Prop :=
  ∃ d', exec i s = .next (ran s1 k d d' (match dst with
      | .s _ => (f 0).2
      | .y _ => (List.range 64).foldl (fun m n => m ||| (f n).2) 0)) ∧
    { d' with y := d.y, sreg := d.sreg } = d ∧
    (∀ j n, j < 8 → n < 64 → yOf d' j n = if dst = .y (BitVec.ofNat 3 j) then (f n).1 % 2 ^ 32 else yOf d j n) ∧
    ∀ j, j < 8 → sOf d' j = if dst = .s (BitVec.ofNat 3 j) then (f 0).1 % 2 ^ 32 else sOf d j

end Sys2Proof.Machine
end

