-- ==== Sys2Proof/Certificates/Slice0/Obligations.lean ====
section
/-!
DEFINITION. What is claimed of the model, one proposition per statement.
-/
open Sys2Proof Sys2Proof.Machine

/-! ### Integer and address words -/

/-- R31: an integer is two's complement for the signed types and unsigned for the others; an exact integer that the type holds is the result, with no flag; one that it does not hold is the nearest bound with
SA set when saturation is in effect, and wraps modulo 2^w otherwise. A ready IADD, ISUB, IMUL, IMULHI, IMAD, IMIN, IMAX or
IABS writes its exact result, so narrowed to its type, in each active lane and nothing else. -/
def Obligations.IntegerArithmetic : Prop :=
  (∀ (w : Nat) (x : BitVec w), readInt true w x.toNat = x.toInt ∧ readInt false w x.toNat = x.toNat) ∧
  (∀ (sat sg : Bool) (w : Nat) (x : Int), 0 < w →
    (minOf sg w ≤ x → x ≤ maxOf sg w → readInt sg w (narrow sat sg w x).1 = x ∧ (narrow sat sg w x).2 = 0) ∧
    (x < minOf sg w → readInt sg w (narrow true sg w x).1 = minOf sg w ∧ (narrow true sg w x).2 = flSA) ∧
    (maxOf sg w < x → readInt sg w (narrow true sg w x).1 = maxOf sg w ∧ (narrow true sg w x).2 = flSA) ∧
    ((narrow false sg w x).1 = (BitVec.ofInt w x).toNat ∧ (narrow false sg w x).2 = 0)) ∧
  (∀ (s : State) (c : Ctx) (o : Wd) (t : IntTy) (sat wide : Bool),
    (let i : Instr := .iadd t sat o
     Stands s i o c → exec i s = .next (wrote c (results c o t.signed (IntTy.width t) fun ln =>
       narrow sat t.signed (IntTy.width t) (intA c i o t ln + intB c i o t ln)) s)) ∧
    (let i : Instr := .isub t sat o
     Stands s i o c → exec i s = .next (wrote c (results c o t.signed (IntTy.width t) fun ln =>
       narrow sat t.signed (IntTy.width t) (intA c i o t ln - intB c i o t ln)) s)) ∧
    (let i : Instr := .imul t sat o
     Stands s i o c → exec i s = .next (wrote c (results c o t.signed (IntTy.width t) fun ln =>
       narrow sat t.signed (IntTy.width t) (intA c i o t ln * intB c i o t ln)) s)) ∧
    (let i : Instr := .imulhi t o
     Stands s i o c → exec i s = .next (wrote c (results c o t.signed (IntTy.width t) fun ln =>
       narrow false t.signed (IntTy.width t) ((intA c i o t ln * intB c i o t ln) >>> IntTy.width t)) s)) ∧
    (let i : Instr := .imad t sat o
     Stands s i o c → exec i s = .next (wrote c (results c o t.signed (IntTy.width t) fun ln =>
       narrow sat t.signed (IntTy.width t) (intA c i o t ln * intB c i o t ln + intD c i o t ln)) s)) ∧
    (let i : Instr := .imin t o
     Stands s i o c → exec i s = .next (wrote c (results c o t.signed (IntTy.width t) fun ln =>
       narrow false t.signed (IntTy.width t) (min (intA c i o t ln) (intB c i o t ln))) s)) ∧
    (let i : Instr := .imax t o
     Stands s i o c → exec i s = .next (wrote c (results c o t.signed (IntTy.width t) fun ln =>
       narrow false t.signed (IntTy.width t) (max (intA c i o t ln) (intB c i o t ln))) s)) ∧
    (let i : Instr := .iabs wide sat o
     let t : IntTy := if wide then .s64 else .s32
     Stands s i o c → exec i s = .next (wrote c (results c o true (widthOf wide) fun ln =>
       narrow sat true (widthOf wide) (((intA c i o t ln).natAbs : Nat) : Int)) s)))

/-- R93: a ready IADDC adds its operands and the low bit of the carry register as unsigned numbers; the 32-bit form writes the
sum and the carry as a pair, the 64-bit form the sum as a pair and the carry in the next register. -/
def Obligations.AddWithCarry : Prop :=
  ∀ (s : State) (c : Ctx) (o : Wd) (t : IntTy) (sat : Bool),
    let i : Instr := .iaddc t sat o
    let n := opIdx o.d
    let sum (ln : Nat) : Nat := srcA c i o (.int false (IntTy.width t)) ln + srcB c i o (.int false (IntTy.width t)) ln +
      (reg c.sw.frame ln (if t.wide then n + 2 else n + 1)).toNat % 2
    Stands s i o c → exec i s = .next (wrote c (fun fr => eachLane c.act fr fun ln fr =>
      if t.wide then setReg (dst64 fr o ln (BitVec.ofNat 64 (sum ln))) ln (n + 2) (BitVec.ofNat 32 (sum ln / 2 ^ 64))
      else dst64 fr o ln (pairOf (BitVec.ofNat 32 (sum ln)) (BitVec.ofNat 32 (sum ln / 2 ^ 32)))) s)

/-- R94, R95: a ready SHL, SHR, SAR, ROT, AND, OR, XOR, NOT or LOP3 writes the shifted, rotated or combined pattern in each active
lane and nothing else; a count of the width or more gives what shifting bit by bit gives, and ROT counts modulo the
width. -/
def Obligations.ShiftsAndLogic : Prop :=
  ∀ (s : State) (c : Ctx) (o : Wd) (wide : Bool) (tt : BitVec 8),
    let w := widthOf wide
    (let i : Instr := .shl wide o
     Stands s i o c → exec i s = .next (wrote c (results c o false w fun ln =>
       ((bitsA c i o (.int false w) ln <<< srcB c i o (.int false 32) ln).toNat, 0)) s)) ∧
    (let i : Instr := .shr wide o
     Stands s i o c → exec i s = .next (wrote c (results c o false w fun ln =>
       ((bitsA c i o (.int false w) ln >>> srcB c i o (.int false 32) ln).toNat, 0)) s)) ∧
    (let i : Instr := .sar wide o
     Stands s i o c → exec i s = .next (wrote c (results c o false w fun ln =>
       (((bitsA c i o (.int false w) ln).sshiftRight (srcB c i o (.int false 32) ln)).toNat, 0)) s)) ∧
    (let i : Instr := .rot wide o
     Stands s i o c → exec i s = .next (wrote c (results c o false w fun ln =>
       (((bitsA c i o (.int false w) ln).rotateLeft (srcB c i o (.int false 32) ln)).toNat, 0)) s)) ∧
    (let i : Instr := .and wide o
     Stands s i o c → exec i s = .next (wrote c (results c o false w fun ln =>
       ((bitsA c i o (.pat w) ln &&& bitsB c i o (.pat w) ln).toNat, 0)) s)) ∧
    (let i : Instr := .or wide o
     Stands s i o c → exec i s = .next (wrote c (results c o false w fun ln =>
       ((bitsA c i o (.pat w) ln ||| bitsB c i o (.pat w) ln).toNat, 0)) s)) ∧
    (let i : Instr := .xor wide o
     Stands s i o c → exec i s = .next (wrote c (results c o false w fun ln =>
       ((bitsA c i o (.pat w) ln ^^^ bitsB c i o (.pat w) ln).toNat, 0)) s)) ∧
    (let i : Instr := .not wide o
     Stands s i o c → exec i s = .next (wrote c (results c o false w fun ln =>
       ((~~~(bitsA c i o (.pat w) ln)).toNat, 0)) s)) ∧
    (let i : Instr := .lop3 tt o
     Stands s i o c → ∃ x : Nat → Nat, exec i s = .next (wrote c (results c o false 32 fun ln => (x ln, 0)) s) ∧
       ∀ ln k, k < 32 → (x ln).testBit k =
         tt.getLsbD (((srcA c i o (.pat 32) ln).testBit k).toNat + 2 * ((srcB c i o (.pat 32) ln).testBit k).toNat +
           4 * ((oldD c i o 32 ln).testBit k).toNat))

/-- R96, R97, R98, R99, R100, R101: a ready BFX, BFI, POPC, CLZ, BREV, SEL, LEA, MOV or MOVI writes its result in each active
lane and nothing else. -/
def Obligations.FieldsCountsAndMoves : Prop :=
  ∀ (s : State) (c : Ctx) (o : Wd) (wide sg np : Bool) (p : BitVec 3) (sh : BitVec 4) (k : BitVec 32),
    let w := widthOf wide
    let put (i : Instr) (w : Nat) (x : Nat → Nat) : Prop :=
      exec i s = .next (wrote c (results c o false w fun ln => (x ln, 0)) s)
    (let i : Instr := .bfx sg o
     let pos (ln : Nat) := srcB c i o (.int false 32) ln % 32
     let len (ln : Nat) := min (srcB c i o (.int false 32) ln / 256 % 64) 32
     let a (ln : Nat) : BitVec 64 :=
       if sg then (BitVec.ofNat 32 (srcA c i o (.int sg 32) ln)).signExtend 64 else BitVec.ofNat 64 (srcA c i o (.int sg 32) ln)
     Stands s i o c → put i 32 fun ln =>
       (if sg then ((a ln).extractLsb' (pos ln) (len ln)).signExtend 32 else ((a ln).extractLsb' (pos ln) (len ln)).setWidth 32).toNat) ∧
    (let i : Instr := .bfi o
     let pos (ln : Nat) := srcB c i o (.pat 32) ln % 32
     let len (ln : Nat) := min (srcB c i o (.pat 32) ln / 256 % 64) 32
     Stands s i o c → ∃ x : Nat → Nat, put i 32 x ∧ ∀ ln n, n < 32 → (x ln).testBit n =
       if pos ln ≤ n ∧ n < pos ln + len ln then (srcA c i o (.pat 32) ln).testBit (n - pos ln) else (oldD c i o 32 ln).testBit n) ∧
    (let i : Instr := .popc wide o
     Stands s i o c → put i 32 fun ln =>
       ((List.range w).filter fun n => (srcA c i o (.int false w) ln).testBit n).length) ∧
    (let i : Instr := .clz wide o
     Stands s i o c → ∃ x : Nat → Nat, put i 32 x ∧ ∀ ln,
       (srcA c i o (.int false w) ln = 0 → x ln = w) ∧
       (srcA c i o (.int false w) ln ≠ 0 → x ln < w ∧ 2 ^ (w - 1 - x ln) ≤ srcA c i o (.int false w) ln ∧
         srcA c i o (.int false w) ln < 2 ^ (w - x ln))) ∧
    (let i : Instr := .brev wide o
     Stands s i o c → ∃ x : Nat → Nat, put i w x ∧ ∀ ln n, n < w →
       (x ln).testBit n = (srcA c i o (.int false w) ln).testBit (w - 1 - n)) ∧
    (let i : Instr := .sel np p o
     Stands s i o c → put i 32 fun ln =>
       if predOf (lane c.sw.frame ln) p.toNat != np then srcA c i o (.pat 32) ln else srcB c i o (.pat 32) ln) ∧
    (let i : Instr := .lea sh o
     Stands s i o c → put i 64 fun ln =>
       (opPair c.sw.frame ln o.a +
         ((BitVec.ofNat 32 (srcB c i o (.int true 32) ln)).signExtend 64 <<< sh.toNat)).toNat) ∧
    (let i : Instr := .mov wide o
     Stands s i o c → put i w fun ln => srcA c i o (.pat w) ln) ∧
    (let i : Instr := .movi k o
     Stands s i o c → put i 32 fun _ => k.toNat)

/-! ### What a word of registers leaves -/

/-- R50, R58, R72, R75, R88, R89: a result changes, in each active lane, the destination register, the latches, the named entry of the
operand file and the sticky flags, as the destination says, and in a raw-byte destination the lane bytes that it names; a
predicate result changes the named predicate and the flags. Every other lane, register, byte, predicate and part of the
frame is unchanged. -/
def Obligations.Writeback : Prop :=
  (∀ (c : Ctx) (o : Wd) (sg : Bool) (w : Nat) (x : Nat → Nat × Flags) (fr : Frame), fr.lanes.length = 32 →
    let fr' := results c o sg w x fr
    let v (ln : Nat) : Word := widen sg w (x ln).1
    let y (ln : Nat) : DWord := BitVec.ofNat 64 (x ln).1
    let act (ln : Nat) : Bool := c.act.getLsbD ln
    { fr' with lanes := fr.lanes, regs := fr.regs, live := fr.live, freed := fr.freed } = fr ∧
    (∀ ln, ln < 32 → act ln = false → lane fr' ln = lane fr ln ∧ ∀ m, m < 512 → reg fr' ln m = reg fr ln m) ∧
    (∀ ln, ln < 32 → act ln = true → ∃ (l0 l1 : Word) (t : Tab 32), lane fr' ln =
        { lane fr ln with l0 := l0, l1 := l1, ofile := t, fflags := (lane fr ln).fflags ||| (x ln).2 } ∧
      (w ≤ 32 →
        (∀ k m, o.d = .lat k m → k ≠ 0 → l0 = (lane fr ln).l0 ∧ l1 = v ln ∧ t = (lane fr ln).ofile) ∧
        (∀ m, o.d = .lat 0 m → l0 = v ln ∧ l1 = (lane fr ln).l0 ∧ t = (lane fr ln).ofile) ∧
        (∀ k m, o.d = .opf k m → l0 = v ln ∧ l1 = (lane fr ln).l0 ∧
          ∀ j, t.get j = if j = k.toNat then v ln else (lane fr ln).ofile.get j) ∧
        (∀ q k m, o.d = .main q k m → l0 = v ln ∧ l1 = (lane fr ln).l0 ∧
          ∀ j, t.get j = if o.dlev = 3 ∧ j = m.toNat % 8 then v ln else (lane fr ln).ofile.get j)) ∧
      (32 < w → l0 = loW (y ln) ∧ l1 = hiW (y ln) ∧ t = (lane fr ln).ofile)) ∧
    (∀ ln r n m, ln < 32 → r < 512 → o.d = .main .v n m → act ln = true →
      (w ≤ 32 → n.toNat < 512 → reg fr' ln r = if r = n.toNat then v ln else reg fr ln r) ∧
      (32 < w → n.toNat + 1 < 512 → reg fr' ln r = if r = n.toNat then loW (y ln)
        else if r = n.toNat + 1 then hiW (y ln) else reg fr ln r)) ∧
    ((∀ q n m, o.d ≠ .main q n m) → fr'.regs = fr.regs ∧ fr'.live = fr.live ∧ fr'.freed = fr.freed)) ∧
  (∀ (c : Ctx) (o : Wd) (sg : Bool) (w : Nat) (x : Nat → Nat × Flags) (fr : Frame) (n : BitVec 12) (m : BitVec 4) (ln b : Nat),
    fr.lanes.length = 32 → o.d = .main .b n m → w = 8 ∨ w = 16 ∨ w = 32 ∨ w = 64 → n.toNat % (w / 8) = 0 → n.toNat < 2048 →
    ln < 32 → b < 2048 → c.act.getLsbD ln = true → (∀ k, (fr.freed.get k).getLsbD ln = false) →
      rawBytes (results c o sg w x fr) ln b 1 =
        if n.toNat ≤ b ∧ b < n.toNat + w / 8 then (x ln).1 / 256 ^ (b - n.toNat) % 256 else rawBytes fr ln b 1) ∧
  (∀ (c : Ctx) (o : Wd) (x : Nat → Bool × Flags) (fr : Frame) (ln : Nat), fr.lanes.length = 32 → ln < 32 →
    1 ≤ o.d.immVal.toNat → o.d.immVal.toNat ≤ 7 →
    let l := lane fr ln
    let l' := lane (predicates c o x fr) ln
    { predicates c o x fr with lanes := fr.lanes } = fr ∧
    { l' with preds := l.preds, fflags := l.fflags } = l ∧
    (c.act.getLsbD ln = false → l' = l) ∧
    (c.act.getLsbD ln = true → l'.fflags = l.fflags ||| (x ln).2 ∧
      ∀ k, k < 8 → predOf l' k = if k = o.d.immVal.toNat then (x ln).1 else predOf l k))

/-- R65, R82, R119 to R121: a word that only changes its swarm's frame leaves the rest of the machine as it was: memory and
every other team, swarm and counter; its swarm has the frame that the word computes, in which the lanes of the issuing
group have moved to the next word and the others have kept theirs. -/
def Obligations.RegisterWordFrame : Prop :=
  ∀ (s : State) (o : Wd) (c : Ctx) (g : Frame → Frame), ctxOf s o = some c →
    let t := wrote c g s
    let fr := moved c.f c.sw.frame
    { t with teams := s.teams } = s ∧
    (∀ u n, (u, n) ≠ (c.f.team, c.f.swarm) → swarmAt t u n = swarmAt s u n) ∧
    (∃ b, frameAt t c.f.team c.f.swarm = some { g fr with bcast := b }) ∧
    { fr with lanes := c.sw.frame.lanes, tried := c.sw.frame.tried } = c.sw.frame ∧
    ∀ ln, ln < 32 → ∃ p w a, lane fr ln = { lane c.sw.frame ln with
      pc := if c.f.mask.getLsbD ln then c.f.pc + 12 else (lane c.sw.frame ln).pc, park := p, woken := w, age := a }

/-- R89, R98, R105, R117: a ready ICMP, FCMP, PSET, PLOP or PMOV writes its comparison or its predicates in each active lane and
nothing else. -/
def Obligations.ComparisonsAndPredicates : Prop :=
  ∀ (s : State) (c : Ctx) (o : Wd) (wide uns : Bool) (cc : ICond) (fc : FCond) (t : FTy) (tt : BitVec 8),
    let w := widthOf wide
    (let i : Instr := .icmp wide cc uns o
     Stands s i o c → exec i s = .next (wrote c (predicates c o fun ln =>
       (condHolds cc (readInt (!uns) w (srcA c i o (.int (!uns) w) ln)) (readInt (!uns) w (srcB c i o (.int (!uns) w) ln)), 0)) s)) ∧
    (let i : Instr := .fcmp t fc o
     Stands s i o c → exec i s = .next (wrote c (predicates c o fun ln =>
       cmpF (ftyFmt t) fc (fA c i o t ln) (fB c i o t ln)) s)) ∧
    (let i : Instr := .pset o
     Stands s i o c → exec i s = .next (wrote c (predicates c o fun ln => (decide (op32 c.sw.frame ln o.a ≠ 0), 0)) s)) ∧
    (let i : Instr := .plop tt o
     let p (x : Opnd) (ln : Nat) : Nat := (predOf (lane c.sw.frame ln) x.immVal.toNat).toNat
     Stands s i o c → exec i s = .next (wrote c (predicates c o fun ln =>
       (tt.getLsbD (p o.a ln + 2 * p o.b ln + 4 * p o.d ln), 0)) s)) ∧
    (let i : Instr := .pmovGet o
     Stands s i o c → ∃ x : Nat → Nat, exec i s = .next (wrote c (results c o false 32 fun ln => (x ln, 0)) s) ∧
       ∀ ln, x ln < 256 ∧ ∀ k, k < 8 → (x ln).testBit k = predOf (lane c.sw.frame ln) k) ∧
    (let i : Instr := .pmovSet o
     Stands s i o c → ∃ p : Nat → BitVec 8, exec i s = .next (wrote c (fun fr => eachLane c.act fr fun ln fr =>
         updLane fr ln fun l => { l with preds := (l.preds &&& ~~~(o.b.immVal.setWidth 8)) ||| p ln }) s) ∧
       ∀ ln k, 0 < k → k < 8 → (p ln).getLsbD k = (o.b.immVal.getLsbD k && (op32 c.sw.frame ln o.a).getLsbD k))

/-! ### Floating-point words -/

/-- R28, R37: an exact magnitude rounded to a multiple of 2^q delivers the multiple that the mode names, and is inexact exactly when it
is not the magnitude itself. A non-zero exact value ±m × 2^e is rounded into one of the five formats, M × 2^E its largest
finite value: while the multiple n × 2^q at the spacing of its binade does not exceed that, the result holds exactly this
multiple, subnormals kept, with NX when it differs from the value and UF too when the value rounded with an unbounded
exponent is tiny; beyond it, the result is what R37's table gives, or the largest finite value with SA under saturation. -/
def Obligations.FloatRounding : Prop :=
  (∀ (r : Rnd) (neg : Bool) (m : Nat) (e q : Int),
    let n := (roundAt r neg m e q).1
    let x := (roundAt r neg m e q).2
    (q ≤ e → n = m * 2 ^ (e - q).toNat ∧ x = false) ∧
    (e < q → let d := 2 ^ (q - e).toNat
      (x = true ↔ ¬ d ∣ m) ∧ (x = false → n * d = m) ∧
      (r = .rne → 2 * (m - n * d) ≤ d ∧ 2 * (n * d - m) ≤ d ∧
        (2 * (m - n * d) = d ∨ 2 * (n * d - m) = d → n % 2 = 0)) ∧
      (r = .rz ∨ (r = .rd ∧ neg = false) ∨ (r = .ru ∧ neg = true) → n * d ≤ m ∧ m < (n + 1) * d) ∧
      ((r = .rd ∧ neg = true) ∨ (r = .ru ∧ neg = false) → m ≤ n * d ∧ n * d < m + d))) ∧
  (∀ (f : Fmt) (r : Rnd) (sat neg : Bool) (m : Nat) (e : Int) (M : Nat) (E : Int),
    f ∈ [fF32, fF16, fBf16, fE4m3, fE5m2] → 0 < m → unpackF f (maxBits f) = .fin false M E →
    let emin : Int := 1 - f.bias
    let qu : Int := e + Nat.log2 m - f.mb
    let q : Int := max qu (emin - f.mb)
    let n := (roundAt r neg m e q).1
    let inexact := (roundAt r neg m e q).2
    let tiny : Prop := (roundAt r neg m e qu).1 * 2 ^ (qu - emin).toNat < 2 ^ (emin - qu).toNat
    let y := roundF f r sat neg m e
    (n * 2 ^ (q - E).toNat ≤ M * 2 ^ (E - q).toNat →
      (∃ m' e', unpackF f y.1 = .fin neg m' e' ∧ m' * 2 ^ (e' - q).toNat = n * 2 ^ (q - e').toNat) ∧
      (inexact = false → y.2 = 0) ∧
      (inexact = true → ¬ tiny → y.2 = flNX) ∧ (inexact = true → tiny → y.2 = flNX ||| flUF)) ∧
    (M * 2 ^ (E - q).toNat < n * 2 ^ (q - E).toNat →
      (sat = true → y = (signBit f neg + maxBits f, flSA ||| flNX)) ∧
      (sat = false → y.2 = flOF ||| flNX ∧
        (r = .rne ∨ (r = .rd ∧ neg = true) ∨ (r = .ru ∧ neg = false) → y.1 = infBits f neg) ∧
        (r = .rz ∨ (r = .rd ∧ neg = false) ∨ (r = .ru ∧ neg = true) → y.1 = signBit f neg + maxBits f))))

/-- R29, R30: zeros and NaNs carry the kinds that their bits give; sums and products of exact data. A NaN operand gives the canonical NaN, with NV when it is signalling;
∞ − ∞ and 0 × ∞ give it with NV; other infinities give an infinity with no flag; the exact finite sum or product is
rounded once, and an exact zero sum has the sign that R29 gives. -/
def Obligations.FloatSumsAndProducts : Prop :=
  (∀ f ∈ [fF32, fF16, fBf16, fE4m3, fE5m2], ∀ n : Bool, unpackF f (signBit f n) = .fin n 0 (1 - f.bias - f.mb)) ∧
  (∀ f ∈ [fF32, fF16, fBf16, fE5m2], ∀ x, x / 2 ^ f.mb % 2 ^ f.eb = 2 ^ f.eb - 1 → x % 2 ^ f.mb ≠ 0 →
    unpackF f x = .nan (!x.testBit (f.mb - 1))) ∧
  (∀ x, x % 128 = 0x7F → unpackF fE4m3 x = .nan false) ∧
  ∀ (f : Fmt) (r : Rnd) (sat : Bool) (a b c : FV),
    let sum := addFV f r sat
    (∀ x, (sum (.nan x) b).1 = nanBits f ∧ (sum b (.nan x)).1 = nanBits f) ∧
    (a.isNan = true ∨ b.isNan = true → (sum a b).2 = if a.isSnan || b.isSnan then flNV else 0) ∧
    (∀ n, sum (.inf n) (.inf n) = (infBits f n, 0) ∧ sum (.inf n) (.inf (!n)) = (nanBits f, flNV)) ∧
    (∀ n k m e, sum (.inf n) (.fin k m e) = (infBits f n, 0) ∧ sum (.fin k m e) (.inf n) = (infBits f n, 0)) ∧
    (∀ n m e k p g, let q := min e g
      let x : Int := (if n then -(m : Int) else m) * 2 ^ (e - q).toNat + (if k then -(p : Int) else p) * 2 ^ (g - q).toNat
      (x ≠ 0 → sum (.fin n m e) (.fin k p g) = roundF f r sat (decide (x < 0)) x.natAbs q) ∧
      (m = 0 → p = 0 → n = k → sum (.fin n m e) (.fin k p g) = (zeroBits f n, 0)) ∧
      (x = 0 → ¬ (m = 0 ∧ p = 0 ∧ n = k) → sum (.fin n m e) (.fin k p g) = (zeroBits f (decide (r = .rd)), 0))) ∧
    (∀ x, (mulRound f r sat (.nan x) b).1 = nanBits f ∧ (mulRound f r sat b (.nan x)).1 = nanBits f) ∧
    (∀ n k e, mulRound f r sat (.inf n) (.fin k 0 e) = (nanBits f, flNV) ∧
      mulRound f r sat (.fin k 0 e) (.inf n) = (nanBits f, flNV)) ∧
    (∀ n k m e, mulRound f r sat (.inf n) (.fin k (m + 1) e) = (infBits f (n != k), 0) ∧
      mulRound f r sat (.inf n) (.inf k) = (infBits f (n != k), 0)) ∧
    (∀ n m e k p g, mulRound f r sat (.fin n m e) (.fin k p g) = roundF f r sat (n != k) (m * p) (e + g)) ∧
    (∀ n m e k p g, fmaFV f r sat (.fin n m e) (.fin k p g) c = sum (.fin (n != k) (m * p) (e + g)) c) ∧
    (∀ n k e, fmaFV f r sat (.inf n) (.fin k 0 e) c = (nanBits f, flNV) ∧ fmaFV f r sat (.fin k 0 e) (.inf n) c = (nanBits f, flNV))

/-- R104, R105: FMIN, FMAX and FCMP. The lesser or greater datum is delivered, −0 below +0, and the other operand in place of a
NaN; a comparison with a NaN is false but for .ne and .un, an ordered one sets NV on any NaN, the others on a signalling
one; −0 equals +0. -/
def Obligations.FloatOrder : Prop :=
  ∀ (f : Fmt) (x y : Nat) (cc : FCond),
    let a := unpackF f x
    let b := unpackF f y
    let un : Bool := a.isNan || b.isNan
    let sn : Bool := a.isSnan || b.isSnan
    let lt (u v : FV) : Bool := match u, v with
      | .fin n m e, .fin k p g => decide ((if n then -(m : Int) else m) * 2 ^ (e - min e g).toNat <
          (if k then -(p : Int) else p) * 2 ^ (g - min e g).toNat)
      | .inf n, .inf k => n && !k
      | .inf n, _ => n
      | _, .inf k => !k
      | _, _ => false
    (∀ mx, (minmaxF f mx x y).2 = if sn then flNV else 0) ∧
    (∀ mx, a.isNan = true → b.isNan = true → (minmaxF f mx x y).1 = nanBits f) ∧
    (∀ mx, a.isNan = true → b.isNan = false → (minmaxF f mx x y).1 = y) ∧
    (∀ mx, a.isNan = false → b.isNan = true → (minmaxF f mx x y).1 = x) ∧
    (un = false → lt a b = true → (minmaxF f false x y).1 = x ∧ (minmaxF f true x y).1 = y) ∧
    (un = false → lt b a = true → (minmaxF f false x y).1 = y ∧ (minmaxF f true x y).1 = x) ∧
    (a.isZero = true → b.isZero = true → a.neg = true → b.neg = false →
      (minmaxF f false x y).1 = x ∧ (minmaxF f true x y).1 = y) ∧
    ((cmpF f cc x y).2 = if (if cc = .lt ∨ cc = .le ∨ cc = .gt ∨ cc = .ge then un else sn) then flNV else 0) ∧
    ((cmpF f cc x y).1 = match cc with
      | .un => un
      | .num => !un
      | .ne => un || lt a b || lt b a
      | .eq => !un && !lt a b && !lt b a
      | .lt => !un && lt a b
      | .le => !un && !lt b a
      | .gt => !un && lt b a
      | .ge => !un && !lt a b)

/-- R42, R102, R103, R104, R109, R110, R111: a ready word of floating arithmetic writes its exact result, rounded once by its
mode, in each active lane and nothing else; saturation is in effect by the word or by its slot. -/
def Obligations.FloatArithmetic : Prop :=
  ∀ (s : State) (c : Ctx) (o : Wd) (r : Rnd) (t : FTy) (slot : BitVec 3) (sat e5 : Bool) (pr : BitVec 2),
    let f := ftyFmt t
    let sa : Bool := sat || (slotOf c slot).getLsbD 14
    (let i : Instr := .fadd r t slot sat o
     StandsS s i o slot c → exec i s = .next (wrote c (floats c o t fun ln => addFV f r sa (fltA c i o t ln) (fltB c i o t ln)) s)) ∧
    (let i : Instr := .fsub r t slot sat o
     StandsS s i o slot c → exec i s = .next (wrote c (floats c o t fun ln =>
       addFV f r sa (fltA c i o t ln) (negFV (fltB c i o t ln))) s)) ∧
    (let i : Instr := .fmul r t slot sat o
     StandsS s i o slot c → exec i s = .next (wrote c (floats c o t fun ln =>
       mulRound f r sa (fltA c i o t ln) (fltB c i o t ln)) s)) ∧
    (let i : Instr := .ffma r t slot sat o
     StandsS s i o slot c → exec i s = .next (wrote c (floats c o t fun ln =>
       fmaFV f r sa (fltA c i o t ln) (fltB c i o t ln) (fltD c i o t ln)) s)) ∧
    (let i : Instr := .ffmaL r t slot sat o
     StandsS s i o slot c → exec i s = .next (wrote c (floats c o t fun ln => fmaFV f r sa (fltA c i o t ln) (fltB c i o t ln)
       (unpackF f ((lane c.sw.frame ln).l0.toNat % 2 ^ f.width))) s)) ∧
    (let i : Instr := .fmin t o
     Stands s i o c → exec i s = .next (wrote c (floats c o t fun ln => minmaxF f false (fA c i o t ln) (fB c i o t ln)) s)) ∧
    (let i : Instr := .fmax t o
     Stands s i o c → exec i s = .next (wrote c (floats c o t fun ln => minmaxF f true (fA c i o t ln) (fB c i o t ln)) s)) ∧
    (let i : Instr := .hfma2 r pr slot sat o
     let half (x : Nat) (up : Bool) : FV := unpackF fBf16 (if up then x / 65536 % 65536 else x % 65536)
     let one (up : Bool) (ln : Nat) : Nat × Flags :=
       let a := srcA c i o .halves ln
       let b := srcB c i o .halves ln
       fmaFV fBf16 r sa (half a up) (half b (if pr = 0 then up else if pr = 1 then !up else decide (pr = 3)))
         (half (oldD c i o 32 ln) up)
     StandsS s i o slot c → exec i s = .next (wrote c (floats c o .f32 fun ln =>
       ((one true ln).1 * 65536 + (one false ln).1, (one false ln).2 ||| (one true ln).2)) s)) ∧
    (let i : Instr := .fdot4 r e5 slot sat o
     let f8 := if e5 then fE5m2 else fE4m3
     let part (x k : Nat) : FV := unpackF f8 (x / 256 ^ k % 256)
     StandsS s i o slot c → exec i s = .next (wrote c (floats c o .f32 fun ln =>
       let a := srcA c i o .bytes4 ln
       let b := srcB c i o .bytes4 ln
       dotFV fF32 r sa [(part a 0, part b 0), (part a 1, part b 1), (part a 2, part b 2), (part a 3, part b 3)]
         (unpackF fF32 (oldD c i o 32 ln))) s)) ∧
    (let i : Instr := .fsplit3 o
     Stands s i o c → ∃ x : Nat → Word × Word × Flags, exec i s = .next (wrote c (fun fr => eachLane c.act fr fun ln fr =>
         orFlags (dst64 fr o ln (pairOf (x ln).1 (x ln).2.1)) ln (x ln).2.2) s) ∧
       ∀ ln, x ln = fsplit3F (srcA c i o (.flt fF32) ln))

/-- R111: FSPLIT3 of a finite value with no non-zero bit below 2^−133 gives three BF16 terms whose exact sum is the value, the
upper half of the second word 0, and raises no flag; an infinity stays in the first term; a NaN gives the canonical NaN
there, with NV when it is signalling. -/
def Obligations.SplitIsExact : Prop :=
  ∀ (x : Nat),
    let p := fsplit3F x
    let term (w : Word) (k : Nat) : FV := unpackF fBf16 (w.toNat / 2 ^ k % 65536)
    p.2.1.toNat < 65536 ∧
    (∀ n m e, unpackF fF32 x = .fin n m e → (-133 ≤ e ∨ m % 2 ^ (-133 - e).toNat = 0) →
      (term p.1 0).scaled (-150) + (term p.1 16).scaled (-150) + (term p.2.1 0).scaled (-150) = (FV.fin n m e).scaled (-150) ∧
      p.2.2 = 0) ∧
    (∀ n, unpackF fF32 x = .inf n → p = (BitVec.ofNat 32 (infBits fBf16 n), 0, 0)) ∧
    (∀ k, unpackF fF32 x = .nan k → p = (0x7FC0, 0, if k then flNV else 0))

/-- R102, R106, R107, R108: a ready FRCP, FRSQ, FSQRT, FEXP2, FLOG2, FSIN, FCOS, FRND or FCVT writes its function of A in each
active lane and nothing else; a .f16 or .bf16 function is the .f32 one under RNE, rounded to the type; FCVT takes its
destination format and rounding from the word or from its slot. -/
def Obligations.FloatFunctions : Prop :=
  ∀ (s : State) (c : Ctx) (o : Wd) (r : Rnd) (t : FTy) (slot : BitVec 3) (sat fs : Bool),
    let f := ftyFmt t
    let sa : Bool := sat || (slotOf c slot).getLsbD 14
    let fn (i : Instr) (g : Rnd → Bool → Nat → Nat × Flags) : Prop :=
      StandsS s i o slot c → ∃ x : Nat → Nat × Flags, exec i s = .next (wrote c (floats c o t x) s) ∧
        (t = .f32 → ∀ ln, x ln = g r sa (fA c i o t ln)) ∧
        (t ≠ .f32 → ∀ ln, (x ln).1 =
          (cvtFF fF32 f r sa (g .rne false (cvtFF f fF32 .rne false (fA c i o t ln)).1).1).1)
    fn (.frcp r t slot sat o) (recipF fF32) ∧
    fn (.frsq r t slot sat o) rsq32 ∧
    fn (.fsqrt r t slot sat o) (sqrtF fF32) ∧
    fn (.fexp2 r t slot sat o) exp232 ∧
    fn (.flog2 r t slot sat o) log232 ∧
    fn (.fsin r t slot sat o) (fun r _ x => sin32 r x) ∧
    fn (.fcos r t slot sat o) (fun r _ x => cos32 r x) ∧
    (let i : Instr := .frnd r t o
     Stands s i o c → exec i s = .next (wrote c (floats c o t fun ln => rndF f r (fA c i o t ln)) s)) ∧
    (let i : Instr := .fcvt fs r slot sat o
     let d := slotOf c slot
     let dc : Nat := if fs then d.toNat % 32 else o.b.immVal.toNat % 32
     let rr : Rnd := if fs then Rnd.ofCode (d.extractLsb' 12 2) else r
     ∀ src dst, numOf (o.b.immVal.toNat / 32 % 32) = some src → numOf dc = some dst →
       Ready s i o .prog (if fs then fcvtSlot slot else floatSlot slot) (fcvtFields i fs slot c) c →
         exec i s = .next (wrote c (fun fr => eachLane c.act fr fun ln fr =>
           let x := convert src dst rr sa (srcA c i o (numTy src) ln)
           orFlags (dstInt fr o dst.signed dst.width ln x.1) ln x.2) s))

/-- R106, R107: the special values of the unary functions on .f32 patterns: a NaN gives the canonical NaN, with NV when it is
signalling; FRCP and FRSQ of ±0 give ±∞ with DZ, and FLOG2 of ±0 −∞ with DZ; a negative root or logarithm gives NaN with
NV, and so do FSIN and FCOS of ±∞; the other infinities and zeros as R106 lists; FEXP2 of an integer is the power of two,
and FLOG2 of a power of two the integer; FRND keeps ±0 and ±∞.
R106: FRCP and FSQRT are correctly rounded. Of a finite non-zero A = ±m × 2^e whose result ±M × 2^E does not overflow, the
result under RNE lies within half a unit of its spacing of the exact value, and under RZ it is the exact value cut off. -/
def Obligations.SpecialValues : Prop :=
  (∀ (r : Rnd) (sat n : Bool) (x : Nat) (m : Nat) (e : Int),
    let u := unpackF fF32 x
    let inf (n : Bool) : Nat := if n then 0xFF800000 else 0x7F800000
    let zero (n : Bool) : Nat := if n then 0x80000000 else 0
    let bad : Nat × Flags := (0x7FC00000, flNV)
    (∀ k g, u = .nan k → g ∈ [recipF fF32 r sat, rsq32 r sat, sqrtF fF32 r sat, exp232 r sat, log232 r sat, sin32 r, cos32 r,
      rndF fF32 r] → g x = (0x7FC00000, if k then flNV else 0)) ∧
    (u = .fin n 0 e → recipF fF32 r sat x = (inf n, flDZ) ∧ rsq32 r sat x = (inf n, flDZ) ∧ log232 r sat x = (inf true, flDZ) ∧
      sqrtF fF32 r sat x = (zero n, 0) ∧ sin32 r x = (zero n, 0) ∧ cos32 r x = (0x3F800000, 0) ∧
      exp232 r sat x = (0x3F800000, 0) ∧ rndF fF32 r x = (zero n, 0)) ∧
    (u = .inf n → recipF fF32 r sat x = (zero n, 0) ∧ sin32 r x = bad ∧ cos32 r x = bad ∧ rndF fF32 r x = (inf n, 0) ∧
      exp232 r sat x = (if n then 0 else inf false, 0) ∧
      rsq32 r sat x = (if n then bad else (0, 0)) ∧ sqrtF fF32 r sat x = (if n then bad else (inf false, 0)) ∧
      log232 r sat x = (if n then bad else (inf false, 0))) ∧
    (u = .fin true m e → m ≠ 0 → rsq32 r sat x = bad ∧ sqrtF fF32 r sat x = bad ∧ log232 r sat x = bad) ∧
    (∀ k : Int, u = .fin (decide (k < 0)) m e → (m : Int) * 2 ^ e.toNat = k.natAbs * 2 ^ (-e).toNat → -200 ≤ k → k < 128 →
      exp232 r sat x = roundF fF32 r sat false 1 k) ∧
    (∀ j : Nat, u = .fin false (2 ^ j) e → e + j ≠ 0 →
      log232 r sat x = roundF fF32 r sat (decide (e + j < 0)) (e + j).natAbs 0)) ∧
  (∀ (sat n k : Bool) (x m M : Nat) (e E : Int), unpackF fF32 x = .fin n m e → m ≠ 0 →
    (unpackF fF32 (recipF fF32 .rne sat x).1 = .fin k M E → (recipF fF32 .rne sat x).2 &&& (flOF ||| flSA) = 0 →
      k = n ∧ E + e ≤ 0 ∧ 2 * ((M * m : Int) - 2 ^ (-(E + e)).toNat).natAbs ≤ m) ∧
    (unpackF fF32 (recipF fF32 .rz sat x).1 = .fin k M E → (recipF fF32 .rz sat x).2 &&& (flOF ||| flSA) = 0 →
      k = n ∧ E + e ≤ 0 ∧ M * m ≤ 2 ^ (-(E + e)).toNat ∧ 2 ^ (-(E + e)).toNat < (M + 1) * m) ∧
    (n = false → unpackF fF32 (sqrtF fF32 .rne sat x).1 = .fin k M E →
      k = false ∧ (2 * M - 1) ^ 2 * 2 ^ (2 * E - e - 2).toNat ≤ m * 2 ^ (e + 2 - 2 * E).toNat ∧
        m * 2 ^ (e + 2 - 2 * E).toNat ≤ (2 * M + 1) ^ 2 * 2 ^ (2 * E - e - 2).toNat) ∧
    (n = false → unpackF fF32 (sqrtF fF32 .rz sat x).1 = .fin k M E →
      k = false ∧ M ^ 2 * 2 ^ (2 * E - e).toNat ≤ m * 2 ^ (e - 2 * E).toNat ∧
        m * 2 ^ (e - 2 * E).toNat < (M + 1) ^ 2 * 2 ^ (2 * E - e).toNat))

/-- R30, R31, R38, R108: conversions. A float to an integer type: NaN gives 0 with NV, a value or infinity outside the type's
range gives the nearer bound with NV, any other value is rounded, with NX when that changes it. An integer to a float is
rounded once. An integer to an integer keeps its value modulo 2^w, or is clamped with SA under saturation. A float within
one format is the operand, a NaN canonical. Infinities into E4M3 and E5M2 follow R38's table. -/
def Obligations.Conversions : Prop :=
  ∀ (f g : Fmt) (r : Rnd) (sat sg sg' : Bool) (w w' x : Nat),
    f ∈ [fF32, fF16, fBf16, fE4m3, fE5m2] → g ∈ [fF32, fF16, fBf16, fE4m3, fE5m2] → 0 < w → 0 < w' →
    let u := unpackF f x
    (∀ k, u = .nan k → cvtFI f sg w r x = (0, flNV) ∧ cvtFF f g r sat x = (nanBits g, if k then flNV else 0)) ∧
    (∀ n, u = .inf n → readInt sg w (cvtFI f sg w r x).1 = (if n then minOf sg w else maxOf sg w) ∧
      (cvtFI f sg w r x).2 = flNV) ∧
    (∀ n m e, u = .fin n m e →
      let k := roundAt r n m e 0
      let v : Int := if n then -(m : Int) else m
      let lo := minOf sg w
      let hi := maxOf sg w
      let y := cvtFI f sg w r x
      (v * 2 ^ e.toNat < lo * 2 ^ (-e).toNat → readInt sg w y.1 = lo ∧ y.2 = flNV) ∧
      (hi * 2 ^ (-e).toNat < v * 2 ^ e.toNat → readInt sg w y.1 = hi ∧ y.2 = flNV) ∧
      (lo * 2 ^ (-e).toNat ≤ v * 2 ^ e.toNat → v * 2 ^ e.toNat ≤ hi * 2 ^ (-e).toNat →
        readInt sg w y.1 = (if n then -(k.1 : Int) else k.1) ∧ y.2 = if k.2 then flNX else 0)) ∧
    (let v := readInt sg w x
     cvtIF sg w g r sat x = if v = 0 then (0, 0) else roundF g r sat (decide (v < 0)) v.natAbs 0) ∧
    (let v := readInt sg w x
     let y := cvtII sg w sg' w' sat x
     (sat = false ∨ (minOf sg' w' ≤ v ∧ v ≤ maxOf sg' w') → y.1 = (BitVec.ofInt w' v).toNat ∧ y.2 = 0) ∧
     (sat = true → v < minOf sg' w' → readInt sg' w' y.1 = minOf sg' w' ∧ y.2 = flSA) ∧
     (sat = true → maxOf sg' w' < v → readInt sg' w' y.1 = maxOf sg' w' ∧ y.2 = flSA)) ∧
    (u.isNan = false → cvtFF f f r sat x = (x % 2 ^ f.width, 0)) ∧
    (∀ n, u = .inf n → f ≠ fE4m3 →
      cvtFF f fE4m3 r sat x = (if sat then (signBit fE4m3 n + 0x7E, flNV ||| flSA) else (0x7F, flNV)) ∧
      (f ≠ fE5m2 → cvtFF f fE5m2 r sat x = (if sat then (signBit fE5m2 n + 0x7B, flSA) else (signBit fE5m2 n + 0x7C, 0)))) ∧
    (∀ n m e, f ≠ g → u = .fin n m e → cvtFF f g r sat x = roundF g r sat n m e)

/-! ### The register space and the special registers -/

/-- R83, R84, R86, R87: VIEW sets the bounds of the swarm, or raises the register-view trap for bounds above 512 rows; LDIX and
STIX reach the row that each lane names, or raise it with field 1 when a lane names none of the view; REGFREE makes the
rows read 0 in the active lanes and ends their liveness once no lane that has not exited still holds them; RDSR delivers a
special register, and WRSR writes $xlgw, $clwin, $fflags, $trapc or $trapa and nothing else. -/
def Obligations.RegisterSpace : Prop :=
  ∀ (s : State) (c : Ctx) (o : Wd),
    let t := c.f.team
    let k := c.f.swarm
    let viewTrap (field : Nat) : State := settleFaults (finish c (undoTrap c (advance s c.f) 0x06 c.f.pc field)) t k
    (let i : Instr := .view o
     let v := o.a.immVal.toNat
     let n := o.b.immVal.toNat
     Stands s i o c →
       (v + 64 * n ≤ 512 → n ≤ 8 → exec i s = .next (wrote c (fun fr => { fr with vcnt := v, tcnt := n }) s)) ∧
       (512 < v + 64 * n ∨ 8 < n → exec i s = .next (viewTrap 3))) ∧
    (let i : Instr := .ldix o
     let row (ln : Nat) : Nat := (srcA c i o (.int false 32) ln + srcB c i o (.int false 32) ln) % 2 ^ 32
     Stands s i o c →
       ((∀ ln ∈ lanesOf c.act, row ln < c.sw.frame.vcnt) →
         exec i s = .next (wrote c (fun fr => eachLane c.act fr fun ln fr => dst32 fr o 4 ln (reg c.sw.frame ln (row ln))) s)) ∧
       ((∃ ln ∈ lanesOf c.act, c.sw.frame.vcnt ≤ row ln) → exec i s = .next (viewTrap 1))) ∧
    (let i : Instr := .stix o
     let row (ln : Nat) : Nat := (srcA c i o (.int false 32) ln + srcB c i o (.int false 32) ln) % 2 ^ 32
     Stands s i o c →
       ((∀ ln ∈ lanesOf c.act, row ln < c.sw.frame.vcnt) →
         exec i s = .next (wrote c (fun fr => eachLane c.act fr fun ln fr => setReg fr ln (row ln) (op32 c.sw.frame ln o.d)) s)) ∧
       ((∃ ln ∈ lanesOf c.act, c.sw.frame.vcnt ≤ row ln) → exec i s = .next (viewTrap 1))) ∧
    (let i : Instr := .regfree o
     Stands s i o c → ∃ g : Frame → Frame, exec i s = .next (wrote c g s) ∧ ∀ fr,
       { g fr with regs := fr.regs, live := fr.live, freed := fr.freed } = fr ∧
       ∀ ln r, ln < 32 → r < 512 → (lane fr ln).exited = false →
         reg (g fr) ln r = if c.act.getLsbD ln ∧ r ∈ rowsOf i.fields.2.1 o.a then 0 else reg fr ln r) ∧
    (let i : Instr := .rdsr o
     let n := o.a.immVal.toNat
     Stands s i o c →
       ((n = 0x10 ∨ n = 0x1F) → exec i s = .next (wrote c (fun fr => eachLane c.act fr fun ln fr =>
         dst64 fr o ln (readSpecial s c ln n)) s)) ∧
       (n ≠ 0x10 → n ≠ 0x1F → exec i s = .next (wrote c (fun fr => eachLane c.act fr fun ln fr =>
         dst32 fr o 4 ln (loW (readSpecial s c ln n))) s))) ∧
    (let i : Instr := .wrsr o
     let n := o.d.immVal.toNat
     let first := (lowest c.act).getD 0
     let word (ln : Nat) : Word := BitVec.ofNat 32 (srcA c i o (.pat 32) ln)
     let put (f : Swarm → Swarm) : State := finish c (updSwarm (advance s c.f) t k f)
     (Stands s i o c →
       (n = 0x18 → exec i s = .next (wrote c (fun fr => { fr with xlgw := xlgwOf (word first).toNat }) s)) ∧
       (n = 0x19 → exec i s = .next (finish c (updTeam (advance s c.f) t fun tm => { tm with clwin := word first }))) ∧
       (n = 0x1C → exec i s = .next (wrote c (fun fr => eachLane c.act fr fun ln fr => updLane fr ln fun l =>
         { l with fflags := (word ln).setWidth 6 }) s))) ∧
     (Ready s i o .two none i.fields c →
       (n = 0x1E → exec i s = .next (put fun sw => { sw with trapc := word first })) ∧
       (n = 0x1F → exec i s = .next (put fun sw => { sw with trapa := BitVec.ofNat 64 (srcA c i o (.pat 64) first) }))))

/-- R6, R71, R81, R87: what each special register reads, and the width that $xlgw takes: 2 for a value below 2, 32 at or above
32, else the largest power of two not above it. -/
def Obligations.SpecialRegisters : Prop :=
  ∀ (s : State) (c : Ctx) (ln : Nat), ln < 32 → c.tm.core < 1536 → c.sw.num < 32 → c.sw.frame.xlgw ≤ 32 →
    c.sw.frame.vcnt ≤ 512 → c.sw.frame.tcnt ≤ 8 → c.tm.acnt ≤ 8 →
    let l := lane c.sw.frame ln
    let rd (n : Nat) : Nat := (readSpecial s c ln n).toNat
    rd 0x00 = ln ∧ rd 0x01 = (if c.sw.kind = .team then c.sw.num else 32) ∧ rd 0x02 = c.tm.lin.toNat ∧ rd 0x03 = c.tm.teamn.toNat ∧
    rd 0x04 = c.tm.gx.toNat ∧ rd 0x05 = c.tm.gy.toNat ∧ rd 0x06 = c.tm.gz.toNat ∧ rd 0x07 = c.tm.core ∧
    rd 0x08 = c.tm.core / 16 ∧ rd 0x09 = c.tm.core / 96 ∧ rd 0x0A = c.tm.core / 192 ∧ rd 0x0B = c.tm.core / 768 ∧
    rd 0x0C = s.pkgid.toNat ∧ rd 0x0D = c.tm.depth.toNat ∧ rd 0x10 = s.pulse.toNat ∧ rd 0x11 = (progFrame c.sw).prog.toNat ∧
    rd 0x12 = l.bx.toNat ∧ rd 0x13 = l.by_.toNat ∧ rd 0x14 = l.bseq.toNat ∧ rd 0x15 = l.btag.toNat ∧ rd 0x16 = l.bn.toNat ∧
    rd 0x18 = c.sw.frame.xlgw ∧ rd 0x19 = c.tm.clwin.toNat ∧ rd 0x1A = c.tm.coldbase.toNat ∧
    rd 0x1B = c.sw.frame.vcnt + 2 ^ 10 * c.sw.frame.tcnt + 2 ^ 14 * (if c.sw.kind = .team then c.tm.acnt else 0) ∧
    rd 0x1C = l.fflags.toNat ∧ rd 0x1E = c.sw.trapc.toNat ∧ rd 0x1F = c.sw.trapa.toNat ∧
    (∀ x, x < 2 → xlgwOf x = 2) ∧ (∀ x, 32 ≤ x → xlgwOf x = 32) ∧
    (∀ x, 2 ≤ x → x < 32 → xlgwOf x ≤ x ∧ x < 2 * xlgwOf x ∧ xlgwOf x ∈ [2, 4, 8, 16])

/-! ### Cross-lane words -/

/-- R90, R112 to R116: a ready SHFL, VOTE, MATCH, REDX, SCANX or SCANX.ex writes what the lanes of its group give, in each active
lane and nothing else; a word of several rows performs the row that $prog names, and stands until its rows are done. -/
def Obligations.CrossLane : Prop :=
  ∀ (s : State) (c : Ctx) (o : Wd) (m : ShflMode) (vt : VoteOp) (wide : Bool) (op : RedOp),
    let fr0 := c.sw.frame
    let g := fr0.xlgw
    (let i : Instr := .shfl m o
     let src (ln : Nat) : Int :=
       let p := ln % g
       let b := srcB c i o (.int false 32) ln
       match m with
       | .at => b
       | .back => p - b
       | .fwd => p + b
       | .mix => (p ^^^ b : Nat)
       | .rot => ((p + b) % g : Nat)
     Stands s i o c → exec i s = .next (wrote c (results c o false 32 fun ln =>
       (if 0 ≤ src ln ∧ src ln < g then
         (let j := g * (ln / g) + (src ln).toNat
          if (lane fr0 j).exited then 0 else (op32 fr0 j o.a).toNat)
        else 0, 0)) s)) ∧
    (let i : Instr := .vote vt o
     let n := o.a.immVal.toNat
     let p (j : Nat) : Bool := predOf (lane fr0 j) (n % 8) != decide (8 ≤ n)
     Stands s i o c → ∃ (b : Nat → Bool) (x : Nat → Nat),
       (vt = .every ∨ vt = .some ∨ vt = .alike → exec i s = .next (wrote c (predicates c o fun ln => (b ln, 0)) s)) ∧
       (vt = .mask ∨ vt = .count → exec i s = .next (wrote c (results c o false 32 fun ln => (x ln, 0)) s)) ∧
       ∀ ln, (vt = .every → (b ln = true ↔ ∀ j ∈ peers c ln, p j = true)) ∧
         (vt = .some → (b ln = true ↔ ∃ j ∈ peers c ln, p j = true)) ∧
         (vt = .alike → (b ln = true ↔ ∀ j ∈ peers c ln, ∀ k ∈ peers c ln, p j = p k)) ∧
         (vt = .mask → ∀ j, (x ln).testBit j = decide (j ∈ peers c ln ∧ p j = true)) ∧
         (vt = .count → x ln = ((peers c ln).filter p).length)) ∧
    (let i : Instr := .matchL wide o
     let a (ln : Nat) : Nat := srcA c i o (.pat (widthOf wide)) ln
     Stands s i o c → ∃ x : Nat → Nat, exec i s = .next (wrote c (results c o false 32 fun ln => (x ln, 0)) s) ∧
       ∀ ln j, (x ln).testBit j = decide (j ∈ peers c ln ∧ a j = a ln)) ∧
    (let i : Instr := .redx op o
     Stands s i o c → redCount o.b ≤ 1 → exec i s = .next (wrote c (floats c o .f32 fun ln =>
       foldOp op ((peers c ln).map fun k => srcA c i o (redTy op) k)) s)) ∧
    (let i : Instr := .scanx op o
     Stands s i o c → redCount o.b ≤ 1 → ∃ x : Nat → Nat × Flags, exec i s = .next (wrote c (floats c o .f32 x) s) ∧
       ∀ ln ∈ lanesOf c.act,
         (x ln).1 = (foldOp op (((peers c ln).filter (· ≤ ln)).map fun k => srcA c i o (redTy op) k)).1 ∧
         (x ln).2 = (foldOp op ((peers c ln).map fun k => srcA c i o (redTy op) k)).2) ∧
    (let i : Instr := .scanxEx op o
     Stands s i o c → redCount o.b ≤ 1 → ∃ x : Nat → Nat × Flags, exec i s = .next (wrote c (floats c o .f32 x) s) ∧
       ∀ ln ∈ lanesOf c.act,
         (x ln).1 = (foldOp op (((peers c ln).filter (· < ln)).map fun k => srcA c i o (redTy op) k)).1 ∧
         (x ln).2 = (foldOp op ((peers c ln).dropLast.map fun k => srcA c i o (redTy op) k)).2)

/-- R14, R116: with more than one row, a ready REDX or SCANX performs the row that $prog names, then either is complete, with
$prog 0, or stands at the word with $prog one higher.
R115: the operation of a reduction on two words, its identity, and the fold of a group's values in ascending order. -/
def Obligations.CrossLaneRows : Prop :=
  (∀ (s : State) (c : Ctx) (o : Wd) (op : RedOp) (ex : Bool),
    let j := c.sw.frame.prog.toNat
    let n := redCount o.b
    let d := opIdx o.d
    let ends (fr : Frame) : Prop := fr.prog.toNat = (if j + 1 = n then 0 else j + 1) ∧
      ∀ ln ∈ lanesOf c.f.mask, (lane fr ln).pc = if j + 1 = n then c.f.pc + 12 else c.f.pc
    1 < n → n ≤ 64 → j < n → d + n ≤ 512 →
    (let i : Instr := .redx op o
     Stands s i o c → ∃ t fr, exec i s = .next t ∧ { t with teams := s.teams } = s ∧ frameAt t c.f.team c.f.swarm = some fr ∧
       ends fr ∧ ∀ ln ∈ lanesOf c.act, reg fr ln d = BitVec.ofNat 32 (redRow c i o op j ln).1 ∧
         ∀ k, k < 512 → k ≠ d → reg fr ln k = reg c.sw.frame ln k) ∧
    (let i : Instr := if ex then .scanxEx op o else .scanx op o
     Stands s i o c → ∃ t fr, exec i s = .next t ∧ { t with teams := s.teams } = s ∧ frameAt t c.f.team c.f.swarm = some fr ∧
       ends fr ∧ ∀ ln ∈ lanesOf c.act, reg fr ln (d + j) = BitVec.ofNat 32 (scanRow c i o op ex j ln).1 ∧
         ∀ k, k < 512 → k ≠ d + j → reg fr ln k = reg c.sw.frame ln k)) ∧
  ((∀ op y, foldOp op [] = (redIdent op, 0) ∧ foldOp op [y] = (y, 0)) ∧
  (∀ op ys x, ys ≠ [] → foldOp op (ys ++ [x]) =
    ((redOpF op (foldOp op ys).1 x).1, (foldOp op ys).2 ||| (redOpF op (foldOp op ys).1 x).2)) ∧
  (∀ x y : Word,
    let run (op : RedOp) : Word := BitVec.ofNat 32 (redOpF op x.toNat y.toNat).1
    run .addS = x + y ∧ run .addN = x + y ∧ run .and = x &&& y ∧ run .or = x ||| y ∧ run .xor = x ^^^ y ∧
    (run .minS).toInt = min x.toInt y.toInt ∧ (run .maxS).toInt = max x.toInt y.toInt ∧
    (run .minN).toNat = min x.toNat y.toNat ∧ (run .maxN).toNat = max x.toNat y.toNat ∧
    redOpF .addF x.toNat y.toNat = addFV fF32 .rne false (unpackF fF32 x.toNat) (unpackF fF32 y.toNat) ∧
    redOpF .minF x.toNat y.toNat = minmaxF fF32 false x.toNat y.toNat ∧
    redOpF .maxF x.toNat y.toNat = minmaxF fF32 true x.toNat y.toNat) ∧
  (∀ op (x : Word), op = .addS ∨ op = .addN ∨ op = .minS ∨ op = .minN ∨ op = .maxS ∨ op = .maxN ∨ op = .and ∨ op = .or ∨ op = .xor →
    (redOpF op (redIdent op) x.toNat).1 = x.toNat))

/-! ### Control -/

/-- R126, R127: a ready BRA, BRX, CALL, RET or LOOP sends each active lane to its target: X + 4 × off, the pair plus the offset,
or the pair; CALL writes X + 12 into its pair, and LOOP counts its register down and falls through when it is 0 before or
after. -/
def Obligations.Transfers : Prop :=
  ∀ (s : State) (c : Ctx) (o : Wd),
    let fr0 := c.sw.frame
    let near : DWord := c.f.pc + 4 * (o.b.immVal.signExtend 64)
    let aligned (tgt : Nat → DWord) : Prop := ∀ ln ∈ lanesOf c.act, (tgt ln).toNat % 4 = 0
    let go (tgt : Nat → DWord) (fr : Frame) : Frame :=
      eachLane c.act fr fun ln fr => updLane fr ln fun l => { l with pc := tgt ln }
    c.f.pc.toNat % 4 = 0 →
    (let i : Instr := .bra o
     Stands s i o c → exec i s = .next (wrote c (go fun _ => near) s)) ∧
    (let i : Instr := .brx o
     let tgt (ln : Nat) : DWord := opPair fr0 ln o.a + o.b.immVal.signExtend 64
     Stands s i o c → aligned tgt → exec i s = .next (wrote c (go tgt) s)) ∧
    (let i : Instr := .call o
     let link (fr : Frame) : Frame := eachLane c.act fr fun ln fr => dst64 fr o ln (c.f.pc + 12)
     Stands s i o c →
       (∀ k, o.b = .imm k → exec i s = .next (wrote c (fun fr => go (fun _ => near) (link fr)) s)) ∧
       ((∀ k, o.b ≠ .imm k) → aligned (opPair fr0 · o.b) →
         exec i s = .next (wrote c (fun fr => go (opPair fr0 · o.b) (link fr)) s))) ∧
    (let i : Instr := .ret o
     Stands s i o c → aligned (opPair fr0 · o.a) → exec i s = .next (wrote c (go (opPair fr0 · o.a)) s)) ∧
    (let i : Instr := .loop o
     let n (ln : Nat) : Word := reg fr0 ln (opIdx o.d)
     Stands s i o c → exec i s = .next (wrote c (fun fr => go (fun ln => if n ln = 0 ∨ n ln = 1 then c.f.pc + 12 else near)
       (eachLane c.act fr fun ln fr => if n ln = 0 then fr else dst32 fr o 4 ln (n ln - 1))) s))

/-- R128, R131: BMARK adds the active lanes to its mark; NOP changes nothing, and YIELD nothing but which diverged subgroup comes
next; a BSYNC that does not leave every lane
waiting makes its marked lanes wait at it, and releases them, past their words, once every marked lane waits. -/
def Obligations.Reconvergence : Prop :=
  ∀ (s : State) (c : Ctx) (o : Wd),
    let n := o.a.immVal.toNat
    (let i : Instr := .bmark o
     Stands s i o c → exec i s = .next (wrote c (fun fr => { fr with marks := fr.marks.set n (fr.marks.get n ||| c.act) }) s)) ∧
    (let i : Instr := .nop o
     Stands s i o c → exec i s = .next (wrote c id s)) ∧
    (let i : Instr := .yield o
     Stands s i o c → exec i s = .next (wrote c (fun fr => if c.sw.frame.bcast = c.f.pc then fr
       else { fr with lastSub := (lowest c.f.mask).getD 0 }) s)) ∧
    (let i : Instr := .bsync o
     let re : Option Nat := match o.b with
       | .imm x => some (x.toNat % 8)
       | _ => none
     Stands s i o c → ∃ g : Frame → Frame,
       (allWait (g (moved c.f c.sw.frame)) = false → exec i s = .next (wrote c g s)) ∧
       ∀ fr, fr.lanes.length = 32 →
         let waits (ln : Nat) : Prop := c.act.getLsbD ln = true ∧ (fr.marks.get n).getLsbD ln = true
         let held (ln : Nat) : Prop := waits ln ∨ ∃ r, (lane fr ln).bsync = some (n, r)
         let full : Prop := (∃ ln, ln < 32 ∧ (fr.marks.get n).getLsbD ln = true ∧ (lane fr ln).exited = false) ∧
           ∀ ln, ln < 32 → (fr.marks.get n).getLsbD ln = true → (lane fr ln).exited = false → held ln
         (∀ ln, ln < 32 → ¬ waits ln → (lane fr ln).bsync = none → lane (g fr) ln = lane fr ln) ∧
         (¬ full → (g fr).marks = fr.marks ∧
           ∀ ln, ln < 32 → waits ln → lane (g fr) ln = { lane fr ln with bsync := some (n, re), pc := c.f.pc }) ∧
         (full → ∀ ln, ln < 32 → waits ln → (lane fr ln).exited = false →
           lane (g fr) ln = { lane fr ln with bsync := none, pc := c.f.pc + 12 } ∧
           ∀ k, k < 8 → ((g fr).marks.get k).getLsbD ln = (decide (re = some k) || (decide (k ≠ n) && (fr.marks.get k).getLsbD ln))))

/-- R132, R133: a ready IPREF, IPIN or IUNPIN changes no swarm but for its lanes' addresses and, for IPIN, the status in D: 0
when every line of the range translates and the pins stay within the limit, and then every line is pinned; else 2, a line
does not translate, or 1, the pins would exceed the limit, and then nothing is pinned. IPREF.l1i fetches the lines anew,
as memory and the core's own dirty bytes give them. -/
def Obligations.InstructionLines : Prop :=
  ∀ (s : State) (c : Ctx) (o : Wd) (lv : Lvl3),
    let vs := pinRange c o
    let ls := vs.filterMap (fetchLine (advance s c.f) c)
    let t := c.f.team
    let k := c.f.swarm
    let a := (opPair c.sw.frame ((lowest c.act).getD 0) o.a).toNat / 16 * 16
    let n := o.b.immVal.toNat
    (∀ v, v ∈ vs ↔ 0 < n ∧ a / 128 ≤ v ∧ v ≤ (a + 48 * n - 1) / 128) ∧
    (let i : Instr := .ipref lv o
     Stands s i o c → ∃ u, exec i s = .next u ∧ { u with teams := s.teams, m := s.m } = s ∧
       { u.m with icache := s.m.icache } = s.m ∧ swarmAt u t k = swarmAt (wrote c id s) t k ∧
       (lv ≠ .l1 → u.m = s.m) ∧
       (lv = .l1 → ∀ line ∈ ls, ∃ bs, u.m.icache.find? (fun x => x.1 == c.tm.core && x.2.1 == line) =
           some (c.tm.core, line, bs) ∧ ∀ j, j < 128 → bs.get j = match l1Find s.m c.tm.core line with
             | some x => if x.dirty.getLsbD j then x.bytes.get j else s.m.ram.get (128 * line + j)
             | none => s.m.ram.get (128 * line + j))) ∧
    (let i : Instr := .ipin lv o
     let strays : Prop := ls.length ≠ vs.length
     let above : Prop := pinLimit s lv c.tm.part c.tm.core <
       ((pinnedLines (advance s c.f) lv c.tm.part c.tm.core ++ ls).eraseDups).length
     Stands s i o c → ∃ (u : State) (status : Word), exec i s = .next u ∧ { u with teams := s.teams, m := s.m } = s ∧
       (status = 0 ↔ ¬ strays ∧ ¬ above) ∧ (status = 2 → strays) ∧ (status = 1 → above) ∧ status.toNat < 3 ∧
       { u.m with pins := s.m.pins, icache := s.m.icache } = s.m ∧ (lv ≠ .l1 → u.m.icache = s.m.icache) ∧
       (status ≠ 0 → u.m = s.m) ∧
       swarmAt u t k = swarmAt (wrote c (fun fr => eachLane c.act fr fun ln fr => dst32 fr o 4 ln status) s) t k ∧
       (status = 0 → ∀ line ∈ ls, (∃ p ∈ u.m.pins, p.level = lv ∧ p.team = t ∧ p.core = c.tm.core ∧ p.line = line) ∧
         (lv = .l1 → ∃ x ∈ u.m.icache, x.1 = c.tm.core ∧ x.2.1 = line))) ∧
    (let i : Instr := .iunpin lv o
     Stands s i o c → ∃ u, exec i s = .next u ∧ { u with teams := s.teams, m := s.m } = s ∧
       { u.m with pins := s.m.pins } = s.m ∧ swarmAt u t k = swarmAt (wrote c id s) t k ∧
       ∀ p ∈ s.m.pins, (p.line ∉ ls ∨ p.team ≠ t ∨ p.level ≠ lv) → p ∈ u.m.pins ∨ p.count = 0)

/-! ### Memory -/

/-- R136, R137, R139, R140, R146: the checks of a lane's address, lowest code first: 0x10 for a value that breaks its space's form,
0x11 for one that is not a multiple of the size, 0x12 for an offset beyond the scratchpad, the constant window or the
carve; an offset within a resident team's own scratchpad, or within the carve, is found there.
R146 to R150, R177, R179, R191, R321: a ready LD, ST, LDV, STV, ATOM, RED or SYNCWI whose active lanes all pass their checks
takes its place in the operand log and raises its counter; no register or latch changes until its accesses are performed,
and no memory but what an atomic beyond the L1 first writes back from it (R176). -/
def Obligations.AccessIssue : Prop :=
  (∀ (s : State) (tm : Team) (lv : Level) (sp : Space) (need : AccNeed) (n : Nat) (rd wr : Bool) (at_ : Option (AO × Bool))
    (skip : Option Nat) (a : DWord), n ∈ [1, 2, 4, 8, 16, 32] →
    let ask : Ask := ⟨sp, need, n, rd, wr, at_⟩
    let found := (locate s tm lv ask skip a).2
    let x := a.toNat
    let limit := match sp with
      | .g => 2 ^ 57
      | .s => 2 ^ 23
      | .c => 2 ^ 22
      | .l3 => 2 ^ 31
    (limit ≤ x → found = .error (0x10, 0)) ∧
    (x < limit → x % n ≠ 0 → found = .error (0x11, 0)) ∧
    (x < limit → x % n = 0 →
      (sp = .s → x < 2 ^ 19 → found = if x < tm.spadSz then .ok (.spad tm.id x, false) else .error (0x12, 0)) ∧
      (sp = .s → 2 ^ 19 ≤ x → tm.gang = none → found = .error (0x12, 0)) ∧
      (sp = .c → tm.csize ≤ x → found = .error (0x12, 0)) ∧
      (sp = .l3 → ∀ sl, findSlice s tm.part tm.slice = some sl →
        found = if x % 2 ^ 28 < (sl.carve.get (x / 2 ^ 28)).toNat * 2 ^ 20 then
          .ok (.l3 ((8 * tm.part + tm.slice) * 8 + x / 2 ^ 28) (x % 2 ^ 28), false) else .error (0x12, 0)))) ∧
  (∀ (s : State) (c : Ctx) (o : Wd) (z : Sz) (sp : Space) (sx : Bool) (n : VecN) (f : AForm) (ao : AO) (q : MemQ),
    let go (i : Instr) (k : AccKind) (q : MemQ) : Prop :=
      Stands s i o c → memWait (some q) c s = false → failures (accessChecks s i o k c).2 = [] →
        ∃ t, exec i s = .next t ∧ Logged s i o k q c t
    go (.ld z sp sx q o) (.load z.bytes) q ∧
    go (.st z sp q o) (.store z.bytes) q ∧
    go (.ldv n sp q o) (.load (4 * n.count)) q ∧
    go (.stv n sp q o) (.store (4 * n.count)) q ∧
    go (.atom f ao q o) (.atomic (if f = .g64 then 8 else 4)) q ∧
    go (.red f ao q o) (.reduce (if f = .g64 then 8 else 4)) q ∧
    go (.syncwi o) .sync ⟨.none, .rlx, .core, false⟩)

/-- R142 to R144, R148 to R150: a lane's store that may be performed writes its bytes and no other byte: in the named
scratchpad or carve, in memory for a COH line and for an SWC line beyond .core, and in the core's L1 for the other lines,
where memory keeps its bytes; what else memory gains are dirty bytes that leave the core's L1, for a release or to make
room. -/
def Obligations.StorePerformed : Prop :=
  ∀ (s : State) (t : TeamId) (n num ln k : Nat) (tm : Team) (sw : Swarm) (e : LogEntry) (r : LaneRec) (p : Place),
    Due s t n num ln tm sw e r → accKind e.ins = some (.store k) → r.place = some p → Reached s tm.core e p →
    (∀ a m, p = .pa a m → a % 128 + k ≤ 128) →
    let bs := (wordBytes r.data).take k
    let put (old : Nat → Byte) (a x : Nat) : Byte := if a ≤ x ∧ x < a + bs.length then nth 0 bs (x - a) else old x
    let q := entryQ e
    ∃ u, exec (.accessCompletion t n num ln) s = .next u ∧
      (∀ v off vm, p = .spad v off → findTeam s v = some vm → vm.image = none → (vm.imageAt = none ∨ v = t) →
        Flushed s tm.core u.m.ram.get ∧ u.m.l3 = s.m.l3 ∧
        ∀ w wm, findTeam s w = some wm → ∃ wm', findTeam u w = some wm' ∧
          ∀ x, wm'.spad.get x = if w = v then put vm.spad.get off x else wm.spad.get x) ∧
      (∀ v off, p = .l3 v off → Flushed s tm.core u.m.ram.get ∧ ∀ x, u.m.l3.get x = put s.m.l3.get (2 ^ 28 * v + off) x) ∧
      (∀ a m, p = .pa a m → u.m.l3 = s.m.l3 ∧
        ((m = .coh ∨ (m = .swc ∧ q.scope ≠ .core)) → ∃ old, Flushed s tm.core old ∧ ∀ x, u.m.ram.get x = put old a x) ∧
        ((m = .prv ∨ (m = .swc ∧ q.scope = .core)) → (∀ x ∈ s.m.l1, x.core = tm.core → x.line = a / 128 → x.mode = m) → Flushed s tm.core u.m.ram.get ∧
          ∃ y, l1Find u.m tm.core (a / 128) = some y ∧ (∀ x, x < bs.length →
            y.bytes.get (a % 128 + x) = nth 0 bs x ∧ y.dirty.getLsbD (a % 128 + x) = true)))

/-- R142, R148, R149, R150: a lane's relaxed load that may be performed brings the bytes of its place into its destination
registers, from the core's own copy where its L1 holds the line, else from its die's L2 or memory, and where a swarm's
spill region lies there, from the registers themselves (R77, by assumption 99); it changes no byte of memory but by what
leaves the core's L1 to make room.
R149, R150, R177: what arrives in the registers of a lane: a load's bytes, lowest first, extended by zeros or by its sign, or
unwidened into raw bytes; the registers of a vector in order; an atomic's old value. -/
def Obligations.LoadPerformed : Prop :=
  (∀ (s : State) (t : TeamId) (n num ln k : Nat) (tm : Team) (sw : Swarm) (e : LogEntry) (r : LaneRec) (p : Place),
    Due s t n num ln tm sw e r → accKind e.ins = some (.load k) → r.place = some p → Reached s tm.core e p →
    (entryQ e).ord = .rlx → (∀ a m, p = .pa a m → a % 128 + k ≤ 128) → (lane sw.frame ln).exited = false →
    ∃ u fr bs, exec (.accessCompletion t n num ln) s = .next u ∧ Flushed s tm.core u.m.ram.get ∧ u.m.l3 = s.m.l3 ∧
      frameAt u t n = some fr ∧ bs.length = k ∧
      (∀ v off vm, p = .spad v off → findTeam s v = some vm → vm.image = none → bs = tabBytes vm.spad off k) ∧
      (∀ v off, p = .l3 v off → bs = tabBytes s.m.l3 (2 ^ 28 * v + off) k) ∧
      (∀ a m, p = .pa a m → bs = spillView s a (match l1Find s.m tm.core (a / 128), l2Find s.m (dieOf tm.core) (a / 128) with
        | some y, _ => tabBytes y.bytes (a % 128) k
        | none, some y => tabBytes y.bytes (a % 128) k
        | none, none => tabBytes s.m.ram a k)) ∧
      fr.regs = (writeLoaded sw.frame e.ins ln bs).regs ∧ fr.live = (writeLoaded sw.frame e.ins ln bs).live ∧
      (asleep fr).lanes = (asleep sw.frame).lanes ∧
      ((e.todo ||| e.away) &&& ~~~(bit32 ln) = 0 → e.faulted = 0 → findEntry fr num = none)) ∧
  (∀ (fr : Frame) (o : Wd) (z : Sz) (sp : Space) (sx : Bool) (v : VecN) (f : AForm) (ao : AO) (q : MemQ) (ln d m : Nat) (bs : List Byte)
    (b : BitVec 12) (w : BitVec 4), ln < 32 → o.d = .main .v b w → d = b.toNat → m < 512 →
    let val : Nat := bytesVal bs
    (z ≠ .s64 → d < 512 → reg (writeLoaded fr (.ld z sp sx q o) ln bs) ln m =
      if m = d then (if sx then (BitVec.ofNat (8 * z.bytes) val).signExtend 32 else (BitVec.ofNat (8 * z.bytes) val).setWidth 32)
      else reg fr ln m) ∧
    (d + 1 < 512 → reg (writeLoaded fr (.ld .s64 sp sx q o) ln bs) ln m =
      if m = d then BitVec.ofNat 32 val else if m = d + 1 then BitVec.ofNat 32 (val / 2 ^ 32) else reg fr ln m) ∧
    (d + v.count ≤ 512 → reg (writeLoaded fr (.ldv v sp q o) ln bs) ln m =
      if d ≤ m ∧ m < d + v.count then BitVec.ofNat 32 (bytesVal ((bs.drop (4 * (m - d))).take 4)) else reg fr ln m) ∧
    (d < 512 → f ≠ .g64 → reg (writeLoaded fr (.atom f ao q o) ln bs) ln m =
      if m = d then BitVec.ofNat 32 val else reg fr ln m) ∧
    (d + 1 < 512 → reg (writeLoaded fr (.atom .g64 ao q o) ln bs) ln m =
      if m = d then BitVec.ofNat 32 val else if m = d + 1 then BitVec.ofNat 32 (val / 2 ^ 32) else reg fr ln m) ∧
    (d < 512 → reg (writeLoaded fr (.syncwi o) ln bs) ln m = if m = d then BitVec.ofNat 32 (val / 2 ^ 64) else reg fr ln m))

/-- R177: the update of an atomic on a word of 4 or 8 bytes. -/
def Obligations.AtomicUpdates : Prop :=
  ∀ (w : Nat) (old d c : BitVec w), w = 32 ∨ w = 64 →
    let new (ao : AO) : BitVec w := BitVec.ofNat w (atomicNew ao w old.toNat d.toNat c.toNat).1
    new .add = old + d ∧ new .and = old &&& d ∧ new .or = old ||| d ∧ new .xor = old ^^^ d ∧ new .exch = d ∧
    (new .minS).toInt = min old.toInt d.toInt ∧ (new .maxS).toInt = max old.toInt d.toInt ∧
    (new .minN).toNat = min old.toNat d.toNat ∧ (new .maxN).toNat = max old.toNat d.toNat ∧
    new .cas = (if old = c then d else old) ∧
    (∀ k, w = 8 * k → (updateOf .cas k (d.setWidth 64) (c.setWidth 64) (valBytes k old.toNat)).1 =
      if old = c then some (valBytes k d.toNat) else none) ∧
    (w = 32 → atomicNew .addF32 w old.toNat d.toNat c.toNat =
      addFV fF32 .rne false (unpackF fF32 old.toNat) (unpackF fF32 d.toNat))

/-- R151, R152, R156, R157: a ready PREF changes no register and no byte that a load finds, but by the dirty bytes that leave the
core's L1; a ready CCTL, once its counter is below 63, writes the dirty bytes of the lines named back or drops them, in the
core's L1 and at .die and wider in its die's L2, and changes no byte of memory outside those lines; WPSET arms its
watchpoint on the range around the lowest active lane's address with its status cleared; WPCLR disarms it and delivers the
status. -/
def Obligations.HintsAndWatchpoints : Prop :=
  ∀ (s : State) (c : Ctx) (o : Wd) (lv : Lvl3) (op : CctlOp) (r w : Bool) (q : MemQ),
    let t := c.f.team
    let k := c.f.swarm
    let core := c.tm.core
    let named (l : Nat) : Prop := ∃ ln ∈ lanesOf c.act, ∃ m, lineOf (advance s c.f) c o ln = some (l, m)
    let past (u : State) : Prop := (frameAt u t k).map asleep = (frameAt (wrote c id s) t k).map asleep
    (let i : Instr := .pref lv q o
     Stands s i o c → ∃ u, exec i s = .next u ∧ past u ∧ { u with teams := s.teams, m := s.m, link := s.link } = s ∧
       u.m.l3 = s.m.l3 ∧ Flushed s core u.m.ram.get ∧ (lv ≠ .l1 → u.m.ram = s.m.ram ∧ u.teams = (wrote c id s).teams)) ∧
    (let i : Instr := .cctl op q o
     Stands s i o c →
       (cntOf c.sw.frame q.cls = 63 → exec i s = .next (waited c s)) ∧
       (cntOf c.sw.frame q.cls ≠ 63 → ∃ u, exec i s = .next u ∧ past u ∧
         { u with teams := s.teams, m := s.m, link := s.link } = s ∧ u.m.l3 = s.m.l3 ∧
         (∀ a, ¬ named (a / 128) → u.m.ram.get a = s.m.ram.get a) ∧
         (∀ x ∈ u.m.l1, x.core = core → named x.line → op = .wb ∧ x.dirty = 0) ∧
         (∀ x ∈ u.m.l2, scopeGe q.scope .die = true → x.die = dieOf core → named x.line → op = .wb ∧ x.dirty = 0) ∧
         (op ≠ .inv → Flushed s core u.m.ram.get ∧ ∀ l x j, named l → l1Find s.m core l = some x → j < 128 →
           x.dirty.getLsbD j = true → u.m.ram.get (128 * l + j) = x.bytes.get j) ∧
         (op = .inv → scopeGe q.scope .die = false → (∀ ln ∈ lanesOf c.act, ∀ l, lineOf (advance s c.f) c o ln ≠ some (l, .coh)) →
           u.m.ram = s.m.ram))) ∧
    (let i : Instr := .wpset r w q o
     let b := o.b.immVal.toNat
     let size := 2 ^ (b % 64)
     Stands s i o c → ∃ u v x, exec i s = .next u ∧ { u with teams := s.teams } = s ∧ findTeam u t = some v ∧
       frameAt u t k = frameAt (wrote c id s) t k ∧ v.watches = upd (fun _ => x) c.tm.watches (b / 64) ∧
       x.armed = true ∧ x.r = r ∧ x.w = w ∧ x.scope = q.scope ∧ x.size = size ∧
       x.base = (opPair c.sw.frame ((lowest c.act).getD 0) o.a).toNat / size * size ∧
       x.status.toNat = 2 * w.toNat + r.toNat) ∧
    (let i : Instr := .wpclr q o
     let n := o.b.immVal.toNat
     Stands s i o c → ∃ u v fr, exec i s = .next u ∧ { u with teams := s.teams } = s ∧ findTeam u t = some v ∧
       frameAt u t k = some fr ∧ v.watches = upd (fun y => { y with armed := false }) c.tm.watches n ∧
       (∀ x, c.tm.watches[n]? = some x → opIdx o.d < 512 → ∀ ln ∈ lanesOf c.act, reg fr ln (opIdx o.d) = x.status) ∧
       ∀ ln, ln < 32 → (lane fr ln).l0 = (lane c.sw.frame ln).l0 ∧ (lane fr ln).l1 = (lane c.sw.frame ln).l1)

/-- R163, R168, R171, R172, R174: a ready FENCE completes at issue; for each lane it stands in the swarm's frame while an earlier
access of the lane that it orders is not performed, and for the lanes that have none it takes effect at once. FENCE.SC and
FENCE.LY keep the swarm at the word while an access that they cover is not performed, and, FENCE.LY, while a remap is under
way for a bank that its lines reach, FENCE.SC at .fab and .sys while a Snp is out; else FENCE.LY has written its lines
through and is complete, and FENCE.SC is at .core or once its pulse tick has come, or waits for the tick. -/
def Obligations.Fences : Prop :=
  ∀ (s : State) (c : Ctx) (o : Wd) (q : MemQ),
    let t := c.f.team
    let k := c.f.swarm
    let fr0 := c.sw.frame
    let busy : Prop := ∃ e ∈ fr0.log, c.act &&& (e.todo ||| e.away) ≠ 0
    let stands (u : State) : Prop := ∃ fr, frameAt u t k = some fr ∧ fr.macroAt = some (c.f.pc, c.f.mask) ∧
      (∀ ln ∈ lanesOf c.f.mask, (lane fr ln).pc = c.f.pc) ∧ fr.log = fr0.log
    let past (u : State) : Prop := ∃ fr, frameAt u t k = some fr ∧ fr.macroAt = none ∧ fr.log = fr0.log ∧
      ∀ ln ∈ lanesOf c.f.mask, (lane fr ln).pc = c.f.pc + 12
    let acquired (u : State) : Prop := ∀ x ∈ u.m.invq, x.core = c.tm.core → scopeGe q.scope x.wide = false
    let released (u : State) : Prop := q.scope ≠ .core → ∀ x ∈ u.m.l1, x.core = c.tm.core → x.mode = .swc → x.dirty = 0
    (let i : Instr := .fence q o
     let opens (loads : Bool) (ln : Nat) : Prop := ∃ e ∈ fr0.log, e.seq < fr0.seq ∧ undone e ln = true ∧
       (loads = true → ∃ a, accKind e.ins = some a ∧ a.loads = true)
     Stands s i o c → ∃ u fr, exec i s = .next u ∧ frameAt u t k = some fr ∧ Flushed s c.tm.core u.m.ram.get ∧
       (∀ ln ∈ lanesOf c.f.mask, (lane fr ln).pc = c.f.pc + 12) ∧ fr.log = fr0.log ∧ fr.seq = fr0.seq + 1 ∧
       (q.ord ≠ .rel → ∀ ln ∈ lanesOf c.act, opens true ln → ∃ f ∈ fr.fences, f.seq = fr0.seq ∧ f.acq.getLsbD ln = true) ∧
       (q.ord ≠ .acq → ∀ ln ∈ lanesOf c.act, opens false ln → ∃ f ∈ fr.fences, f.seq = fr0.seq ∧ f.rel.getLsbD ln = true) ∧
       (∀ f ∈ fr.fences, f.seq = fr0.seq → (∀ g ∈ fr0.fences, g.seq ≠ fr0.seq) → f.scope = q.scope ∧
         (∀ ln, f.acq.getLsbD ln = true → q.ord ≠ .rel ∧ c.act.getLsbD ln = true ∧ opens true ln) ∧
         (∀ ln, f.rel.getLsbD ln = true → q.ord ≠ .acq ∧ c.act.getLsbD ln = true ∧
           (opens false ln ∨ scopeGe q.scope .fab = true))) ∧
       (q.ord ≠ .rel → (∃ ln ∈ lanesOf c.act, ¬ opens true ln) → acquired u) ∧
       (q.ord ≠ .acq → (∃ ln ∈ lanesOf c.act, ¬ opens false ln) → released u)) ∧
    (let i : Instr := .fenceSc q o
     let snps : Prop := scopeGe q.scope .fab = true ∧ snpWaits s = true
     let ticked : Prop := ∃ ln ∈ lanesOf c.act, ∃ sc n, (lane fr0 ln).park = some (.fenceSc sc n)
     Stands s i o c →
       (busy ∨ snps → ∃ u, exec i s = .next u ∧ stands u ∧ u.m = s.m) ∧
       (¬ busy → ¬ snps → (q.scope = .core ∨ ticked) →
         ∃ u, exec i s = .next u ∧ past u ∧ acquired u ∧ released u ∧ Flushed s c.tm.core u.m.ram.get) ∧
       (¬ busy → ¬ snps → q.scope ≠ .core → ¬ ticked →
         ∃ u fr, exec i s = .next u ∧ stands u ∧ released u ∧ frameAt u t k = some fr ∧
           ∀ ln ∈ lanesOf c.act, (lane fr ln).park = some (.fenceSc q.scope s.pulse.toNat))) ∧
    (let i : Instr := .fenceLy q o
     let open_ : Prop := stillOpen fr0 c.act (covered c.tm.core q.scope) = true
     let ls := layLines s c q.scope
     Stands s i o c →
       (open_ ∨ remapping s ls = true → ∃ u, exec i s = .next u ∧ stands u ∧ u.m = s.m) ∧
       (¬ open_ → remapping s ls = false → ∃ u, exec i s = .next u ∧ past u ∧ Flushed s c.tm.core u.m.ram.get ∧
         (∀ l ∈ ls, ∀ x, l1Find u.m c.tm.core l = some x → x.dirty = 0) ∧ (∀ x ∈ u.m.l2, x.line ∈ ls → x.dirty = 0) ∧
         (∀ x ∈ u.m.l3c, x.line ∈ ls → x.dirty = false) ∧ layLines u c q.scope = []))

/-- R163, R178: element by element, a ready ATOMV puts an atomic of each active lane on the next word and register into the
operand log, when the log has an entry and its counter room and every lane passes its check, and stands at the word with
$prog one higher until its last element. -/
def Obligations.BulkAtomics : Prop :=
  ∀ (s : State) (c : Ctx) (o : Wd) (ao : AO) (q : MemQ),
    let i : Instr := .atomv ao q o
    let fr := c.sw.frame
    let n := o.b.immVal.toNat / 2 ^ 12 + 1
    let k := fr.prog.toNat
    let addr (ln : Nat) : DWord := opPair fr ln o.a + (o.b.immVal.setWidth 12).signExtend 64 + BitVec.ofNat 64 (4 * k)
    let ask : Ask := ⟨.g, .rw, 4, true, true, some (ao, true)⟩
    Stands s i o c → k < n → logFull fr = false → (k = 0 → cntOf fr q.cls ≠ 63) →
    failures (checkLanes c.tm (execLevel c.tm c.sw) ask none (advance s c.f) ((lanesOf c.act).map fun ln => (ln, addr ln))).2 = [] →
      ∃ u fr' e, exec i s = .next u ∧ Flushed s c.tm.core u.m.ram.get ∧ frameAt u c.f.team c.f.swarm = some fr' ∧
        fr'.log = fr.log ++ [e] ∧ e.todo = c.act ∧ e.faulted = 0 ∧
        (∃ o', e.ins = .atom .g32 ao q o' ∧ o'.d = .main .v (BitVec.ofNat 12 (opIdx o.d + k)) 0) ∧
        (∀ ln ∈ lanesOf c.act, ∃ r, recOf e ln = some r ∧ r.va = addr ln) ∧
        fr'.prog.toNat = (if k + 1 = n then 0 else k + 1) ∧
        ∀ ln ∈ lanesOf c.f.mask, (lane fr' ln).pc = if k + 1 = n then c.f.pc + 12 else c.f.pc

/-- R180, R192: a ready WAITC or SYNCWT of one active lane that passes its check and that no older access holds back reads its
word: when its condition holds, the lane goes on with the word read in D, else it stays at the word, parked.
R154, R172, R180, R181: a monitor that fires readies its lane and is gone; a lane that waits without a monitor reads again; a
tick readies the FENCE.SC waits of its scope; bytes that arrive raise COUNT, and GEN at each TARGET. -/
def Obligations.Waits : Prop :=
  (∀ (s : State) (c : Ctx) (o : Wd) (cc : ICond) (uns : Bool) (q : MemQ) (ln : Nat),
    let fr := c.sw.frame
    let a := laneAddr fr o ln
    let d := opIdx o.d
    let done (u : State) (v : Word) : Prop := ∃ fr', frameAt u c.f.team c.f.swarm = some fr' ∧ (d < 512 → reg fr' ln d = v) ∧
      (lane fr' ln).pc = c.f.pc + 12 ∧ (lane fr' ln).park = none
    let held (u : State) (k : Park) : Prop := ∃ fr', frameAt u c.f.team c.f.swarm = some fr' ∧ fr'.regs = fr.regs ∧
      (lane fr' ln).pc = c.f.pc ∧ (lane fr' ln).park = some k ∧ (lane fr' ln).woken = false
    c.act = bit32 ln → ln < 32 → fr.log = [] → fr.fences = [] → waitcWait q c s = false → q.ord = .rlx →
    (let i : Instr := .waitc cc uns q o
     ∀ s2 pa m fw, locate (advance s c.f) c.tm (execLevel c.tm c.sw) ⟨.g, .read, 4, true, false, none⟩ none a =
         (s2, .ok (.pa pa m, fw)) → isRemote (.pa pa m) = false → heldLine s pa = none → movingAt s.m pa = false →
       rebuilding s.m (.pa pa m) = false → q.scope ≠ .core → Stands s i o c →
       ∃ u, exec i s = .next u ∧ Flushed s c.tm.core u.m.ram.get ∧
         (let v : Word := BitVec.ofNat 32 (ramVal u.m pa 4)
          let ok := condHolds cc (readInt (!uns) 32 v.toNat) (readInt (!uns) 32 (reg fr ln d).toNat)
          (ok = true → done u v) ∧ (ok = false → held u (.waitc (q.cls == .ld) none)))) ∧
    (let i : Instr := .syncwt q o
     ∀ s2 v off vm fw, locate (advance s c.f) c.tm (execLevel c.tm c.sw) ⟨.s, .read, 16, true, false, none⟩ none a =
         (s2, .ok (.spad v off, fw)) → findTeam s v = some vm → vm.image = none → Stands s i o c →
       let g : Word := BitVec.ofNat 32 (bytesVal (tabBytes vm.spad (off + 8) 4))
       ∃ u, exec i s = .next u ∧ u.m.ram = s.m.ram ∧ (g ≠ reg fr ln d → done u g) ∧
         (g = reg fr ln d → held u (.syncwt (q.cls == .ld) v off)))) ∧
  (∀ (s : State) (t : TeamId) (n ln off m pa : Nat) (tm : Team) (sw : Swarm), findTeam s t = some tm → swarmAt s t n = some sw →
    (∀ x ∈ s.m.mons, x.line = pa / 128 → x.team = t → x.swarm = n → x.lane < (waitFrame x.inH sw).lanes.length →
      (x.inH = true → sw.hidden.isSome = true) →
      ∃ u y, exec (.monitorFire pa) s = .next u ∧ swarmAt u t n = some y ∧ (lane (waitFrame x.inH y) x.lane).woken = true ∧
        (∀ z ∈ u.m.mons, z.line ≠ pa / 128) ∧ u.m.ram = s.m.ram) ∧
    (∀ a b, (lane (progFrame sw) ln).park = some (.waitc a b) → ln < (progFrame sw).lanes.length →
      (∀ x ∈ s.m.mons, ¬ (x.team = t ∧ x.swarm = n ∧ x.lane = ln ∧ x.inH = false)) →
      (∀ q ∈ s.link.reqs, q.who ≠ .wait t n ln false) →
      ∃ u y, exec (.monitorParkTimeout t n ln) s = .next u ∧ swarmAt u t n = some y ∧
        lane (progFrame y) ln = { lane (progFrame sw) ln with woken := true }) ∧
    (∀ sc l since, 0 < pulsePeriod sc → s.pulse.toNat % pulsePeriod sc = 0 → l ∈ (progFrame sw).lanes →
      l.park = some (.fenceSc sc since) → since / pulsePeriod sc < s.pulse.toNat / pulsePeriod sc →
      ∃ u y, exec (.pulseTick sc) s = .next u ∧ swarmAt u t n = some y ∧ { l with woken := true } ∈ (progFrame y).lanes) ∧
    (∀ a, s.arrivals.find? (fun a => a.owner == t && a.off == off && a.n == m) = some a → tm.image = none →
      ∃ u tm', exec (.syncArrival t off m) s = .next u ∧ findTeam u t = some tm' ∧ u.arrivals = s.arrivals.erase a ∧
        let w := bytesVal (tabBytes tm.spad off 16)
        let v := bytesVal (tabBytes tm'.spad off 16)
        let sum := min (w / 2 ^ 32 % 2 ^ 32 + m) (2 ^ 32 - 1)
        v % 2 ^ 32 = w % 2 ^ 32 ∧
        (w % 2 ^ 32 = 0 → v / 2 ^ 32 % 2 ^ 32 = sum ∧ v / 2 ^ 64 % 2 ^ 32 = w / 2 ^ 64 % 2 ^ 32) ∧
        (w % 2 ^ 32 ≠ 0 → v / 2 ^ 32 % 2 ^ 32 = sum % (w % 2 ^ 32) ∧
          v / 2 ^ 64 % 2 ^ 32 = (w / 2 ^ 64 + sum / (w % 2 ^ 32)) % 2 ^ 32) ∧
        (v.testBit 96 = true ↔ w.testBit 96 = true ∨ 2 ^ 32 ≤ w / 2 ^ 32 % 2 ^ 32 + m)))

/-! ### Barriers -/

/-- R184, R185, R188: the last live lanes of a swarm arrive at a team barrier by BAR or BARARV. When the arrivals then reach the
count of the word, or every live swarm for count 0, the generation advances, the count is cleared, and the lanes go on;
else the barrier holds one arrival more. BARARV delivers the generation as its token and never waits; BAR keeps its lanes
at the word when the barrier is not released and another swarm still runs.
R186, R188, R189, R190: BARWT lets the lanes whose token is not the barrier's generation go on; a count that differs from
the one that the first arrival fixed, or is above the team's swarms, raises trap 0x09 and arrives nowhere; GBAR of the
last live swarm of the last member releases the gang barrier, and its lanes go on; the GBAR of a team with no gang is
BAR of barrier 15. -/
def Obligations.Barriers : Prop :=
  (∀ (s : State) (c : Ctx) (o : Wd),
    let t := c.f.team
    let b := barNo o
    let n := o.b.immVal.toNat
    let w := c.tm.bars.get b
    let want := if n = 0 then (liveSwarms c.tm).length else n
    let full : Prop := want ≤ barArr w + 1
    let moves (u : State) : Prop := ∃ tm, findTeam u t = some tm ∧
      (full → tm.bars.get b = barWord (barGen w + 1) false 0 0) ∧
      (¬ full → tm.bars.get b = barWord (barGen w) true n (barArr w + 1)) ∧
      ∀ k, k ≠ b → tm.bars.get k = c.tm.bars.get k
    let at_ (u : State) (pc : DWord) : Prop := ∃ fr, frameAt u t c.f.swarm = some fr ∧ ∀ ln ∈ lanesOf c.act, (lane fr ln).pc = pc
    c.sw.kind = .team → c.sw.hidden = none → c.sw.frame.arrive = [] → c.act = liveLanes c.sw.frame → openAccess c s = false →
    (∀ ln ∈ lanesOf c.act, barTok c.sw.frame ln = none) →
    n ≤ c.tm.nsw → n < 64 → (barSet w = true → barExp w = n) → barArr w + 1 < 64 →
    (let i : Instr := .bar o
     Stands s i o c →
       (full → ∃ u, exec i s = .next u ∧ moves u ∧ at_ u (c.f.pc + 12)) ∧
       (¬ full → (∃ x ∈ liveSwarms c.tm, x.num ≠ c.f.swarm ∧ ∃ ln, ln < 32 ∧ (lane (progFrame x) ln).exited = false ∧
            (lane (progFrame x) ln).park = none) →
         ∃ u fr, exec i s = .next u ∧ moves u ∧ at_ u c.f.pc ∧ frameAt u t c.f.swarm = some fr ∧
           ∀ ln ∈ lanesOf c.act, (lane fr ln).park = some (.bar b (barGen w)))) ∧
    (let i : Instr := .bararv o
     Stands s i o c → ∃ u fr, exec i s = .next u ∧ moves u ∧ at_ u (c.f.pc + 12) ∧ frameAt u t c.f.swarm = some fr ∧
       (∀ k m, o.d = .main .v k m → k.toNat < 512 → ∀ ln ∈ lanesOf c.act, reg fr ln k.toNat = barGen w))) ∧
  (∀ (s : State) (c : Ctx) (o : Wd),
    let t := c.f.team
    let b := barNo o
    let w := c.tm.bars.get b
    let at_ (u : State) (pc : DWord) : Prop := ∃ fr, frameAt u t c.f.swarm = some fr ∧ ∀ ln ∈ lanesOf c.act, (lane fr ln).pc = pc
    c.sw.kind = .team → c.sw.hidden = none → c.act = liveLanes c.sw.frame →
    (let i : Instr := .barwt o
     Stands s i o c → (∀ ln ∈ lanesOf c.act, op32 c.sw.frame ln o.b ≠ barGen w) →
       ∃ u, exec i s = .next u ∧ at_ u (c.f.pc + 12) ∧ Flushed s c.tm.core u.m.ram.get) ∧
    (let i : Instr := .gbar o
     ∀ n k g, c.tm.gang = some (n, k) → findGang s n = some g → gangExp g ≤ barArr g.bar + 1 → barArr g.bar + 1 < 64 →
       (liveSwarms c.tm).length = 1 → c.sw ∈ liveSwarms c.tm → c.sw.frame.arrive = [] →
       openAccess c s = false → (∀ ln ∈ lanesOf c.act, barTok c.sw.frame ln = none) →
       Stands s i o c → ∃ u g', exec i s = .next u ∧ at_ u (c.f.pc + 12) ∧ findGang u n = some g' ∧
         g'.bar = barWord (barGen g.bar + 1) false 0 0) ∧
    (c.tm.gang = none → Stands s (.gbar o) o c → openAccess c s = false →
      exec (.gbar o) s = .next (settleFaults (finish c (barEff (barScope o) 15 0 c (advance s c.f))) t c.f.swarm)) ∧
    (let i : Instr := .bar o
     let n := o.b.immVal.toNat
     (barSet w = true ∧ barExp w ≠ n) ∨ c.tm.nsw < n → openAccess c s = false →
       (∀ ln ∈ lanesOf c.act, barTok c.sw.frame ln = none) → Stands s i o c →
       exec i s = .next (settleFaults (finish c (undoTrap c (advance s c.f) 0x09 c.f.pc)) t c.f.swarm)))

/-! ### Engines and timelines -/

/-- R203, R211, R214, R216: a ready CPY, CPY2D, GATH, SCAT or BREAD on a context that is not Closed, whose entry lies in the
package and is well formed, appends the operation that the entry describes under the number LAST + 1; an operation of no
elements is requested at once and the lanes go on. -/
def Obligations.IssueForms : Prop :=
  ∀ (s : State) (c : Ctx) (o : Wd) (z : ESz),
    let t := c.f.team
    let k := o.d.immVal.toNat
    let e := laneAddr c.sw.frame o ((lowest c.act).getD 0)
    let x := engOf c.tm k
    let go (i : Instr) (kind : Nat) (esz : Option Nat) : Prop :=
      ∀ s2 a m fw, locate (advance s c.f) c.tm (execLevel c.tm c.sw) (engAsk .g .rw 64) none e = (s2, .ok (.pa a m, fw)) →
      isAway s (.pa a m) = false → movingAt s.m a = false →
      badData s (.pa a m) 64 = false →
      let s3 := beforeAppend s2 c
      let ctl := (entryWords (engRead s3 (.pa a m) 64)).1
      let b := (entryWords (engRead s3 (.pa a m) 64)).2
      let ctl' : Word := match esz with
        | some z => BitVec.ofNat 32 (ctl.toNat - entSz ctl * 2 ^ 26 + z * 2 ^ 26)
        | none => ctl
      entKind ctl = kind → entryBad s3 c.tm ctl b = false → c.tm.engs.length = 8 → k < 8 → x.mode ≠ .closed →
      x.last + 1 < 2 ^ 64 - 1 → (∀ y ∈ x.ops, y.entry ≠ e) → c.sw.frame.prog = 0 → holdRead s c = false →
      holdSlots c k 1 = false → c.sw.kind = .team → Stands s i o c →
        ∃ u tm' op, exec i s = .next u ∧ findTeam u t = some tm' ∧ (engOf tm' k).last = x.last + 1 ∧ op ∈ (engOf tm' k).ops ∧
          op.n = x.last + 1 ∧ op.entry = e ∧ op.walked = false ∧ op.count = elemCount ctl' b ∧
          (elemCount ctl' b = 0 → op.stat = 2 ∧ ∃ fr, frameAt u t c.f.swarm = some fr ∧ fr.prog = 0 ∧
            fr.cCp = c.sw.frame.cCp + 1 ∧ ∀ ln ∈ lanesOf c.f.mask, (lane fr ln).pc = c.f.pc + 12)
    go (.cpy o) 1 none ∧ go (.cpy2d o) 2 none ∧ go (.gath z o) 3 (some (ESz.num z)) ∧ go (.scat z o) 4 (some (ESz.num z)) ∧
      go (.bread o) 5 none

/-- R215, R226 to R229: CHAPP appends the entries of its chain under consecutive numbers and delivers the last; WAITTL lets the
lanes whose value TL has reached go on and keeps the others at the word; RDTL delivers TL, LAST or the mode, 0 for a Closed
context; WAITCNT goes on once its counter is not above its number; CTXTL opens a Closed context where the core has one free,
closes an Opened one, resets, and answers 2 where the mode does not fit. -/
def Obligations.Timelines : Prop :=
  ∀ (s : State) (c : Ctx) (o : Wd) (q : MemQ) (cn : Cnt),
    let t := c.f.team
    let status (st : Nat) (fr : Frame) : Frame := eachLane c.act fr fun ln fr => dst32 fr o 4 ln (BitVec.ofNat 32 st)
    c.tm.engs.length = 8 →
    (let i : Instr := .chapp o
     let k := o.b.immVal.toNat
     let x := engOf c.tm k
     let h := opPair c.sw.frame ((lowest c.act).getD 0) o.a
     ∀ s2 es, chain c (execLevel c.tm c.sw) 64 (beforeAppend (advance s c.f) c) h = (s2, some (.ok es)) → k < 8 →
       x.mode ≠ .closed → holdRead s c = false → holdSlots c k es.length = false → es ≠ [] →
       x.last + es.length < 2 ^ 64 - 1 → Stands s i o c →
       ∃ u tm' fr, exec i s = .next u ∧ findTeam u t = some tm' ∧ frameAt u t c.f.swarm = some fr ∧
         (engOf tm' k).last = x.last + es.length ∧ (engOf tm' k).ops.map (fun y => y.n) =
           x.ops.map (fun y => y.n) ++ (List.range es.length).map (x.last + 1 + ·) ∧
         fr.cCp = c.sw.frame.cCp + 1 ∧
         ∀ ln ∈ lanesOf c.act, (lane fr ln).pc = c.f.pc + 12 ∧
           (lane fr ln).l0 = loW (BitVec.ofNat 64 (x.last + es.length)) ∧ (lane fr ln).l1 = hiW (BitVec.ofNat 64 (x.last + es.length))) ∧
    (let i : Instr := .waittl q o
     let k := o.d.immVal.toNat
     let n (ln : Nat) : Nat := match o.a with
       | .imm x => x.toNat
       | _ => (opPair c.sw.frame ln o.a).toNat
     Stands s i o c → (engOf c.tm k).mode ≠ .closed → c.sw.kind = .team →
       ∃ u fr, exec i s = .next u ∧ frameAt u t c.f.swarm = some fr ∧ ∀ ln ∈ lanesOf c.act,
         (n ln ≤ (engOf c.tm k).tl → (lane fr ln).pc = c.f.pc + 12 ∧ (lane fr ln).park = none) ∧
         ((engOf c.tm k).tl < n ln → (lane fr ln).pc = c.f.pc ∧ (lane fr ln).park = some (.waittl k (n ln)))) ∧
    (let i : Instr := .rdtl o
     let x := engOf c.tm o.a.immVal.toNat
     let v : Nat := if x.mode = .closed then 0 else if o.b.immVal = 0 then x.tl else if o.b.immVal = 1 then x.last
       else if x.mode = .opened then 1 else if x.mode = .busy then 2 else 3
     Stands s i o c → exec i s = .next (wrote c (fun fr => eachLane c.act fr fun ln fr => dst64 fr o ln (BitVec.ofNat 64 v)) s)) ∧
    (let i : Instr := .waitcnt cn o
     let now := match cn with
       | .ld => c.sw.frame.cLd + parkedLd c.sw.frame
       | .st => c.sw.frame.cSt
       | .cp => c.sw.frame.cCp
       | .tile => c.sw.frame.cTile
     Stands s i o c → (now ≤ o.a.immVal.toNat → exec i s = .next (wrote c id s)) ∧
       (o.a.immVal.toNat < now → exec i s = .next (waited c s))) ∧
    (let i : Instr := .ctxtlOpen o
     let k := o.a.immVal.toNat
     let x := engOf c.tm k
     Stands s i o c → c.sw.kind = .team → k < 8 →
       ∃ u tm' fr st, exec i s = .next u ∧ { u with teams := s.teams } = s ∧ findTeam u t = some tm' ∧
         swarmAt u t c.f.swarm = swarmAt (wrote c (status st) s) t c.f.swarm ∧ frameAt u t c.f.swarm = some fr ∧
         (x.mode = .closed → boundOn s c.tm.core < 64 → st = 0 ∧ engOf tm' k = openedCtx) ∧
         (x.mode = .closed → 64 ≤ boundOn s c.tm.core → st = 1 ∧ tm'.engs = c.tm.engs) ∧
         (x.mode = .halted → st = 0 ∧ engOf tm' k = { x with mode := if (pendingOps x).isEmpty then .opened else .busy }) ∧
         (x.mode = .opened ∨ x.mode = .busy → st = 2 ∧ tm'.engs = c.tm.engs)) ∧
    (let i : Instr := .ctxtlClose o
     let k := o.a.immVal.toNat
     let x := engOf c.tm k
     Stands s i o c → c.sw.kind = .team → k < 8 →
       (x.mode = .closed → exec i s = .next (wrote c (status 2) s)) ∧
       (x.mode = .opened → (∀ sw ∈ c.tm.swarms, ∀ l ∈ sw.frame.lanes ++ (progFrame sw).lanes,
           l.park ≠ some .closed ∧ ∀ n, l.park ≠ some (.waittl k n)) →
         ∃ u tm', exec i s = .next u ∧ { u with teams := s.teams } = s ∧ findTeam u t = some tm' ∧ engOf tm' k = closedCtx ∧
           swarmAt u t c.f.swarm = swarmAt (wrote c (status 0) s) t c.f.swarm)) ∧
    (let i : Instr := .ctxtlReset o
     let k := o.a.immVal.toNat
     let x := engOf c.tm k
     Stands s i o c → c.sw.kind = .team → k < 8 →
       (x.mode = .closed → exec i s = .next (wrote c (status 2) s)) ∧
       (x.mode = .opened → exec i s = .next (wrote c (status 0) s)) ∧
       (x.mode = .halted → x.ops = [] → (∀ y ∈ s.tasks, y.team ≠ t) → ∃ u tm', exec i s = .next u ∧ findTeam u t = some tm' ∧
         engOf tm' k = { x with tl := x.last, mode := .opened } ∧
         ∃ fr, frameAt u t c.f.swarm = some fr ∧ ∀ ln ∈ lanesOf c.act, (lane fr ln).pc = c.f.pc + 12))

/-! ### The matrix engine and the epilogue -/

/-- R237, R238, R239: one K step of a ready MMA or MMAZ that waits for nothing, whose panel is bound and whose rows of A can be
read: each element of the accumulator becomes the 32-term fused dot product of its row and column added to its old value,
or to 0 in the first step of MMAZ; the other accumulators keep theirs; after the last step the lanes go on, before it they
stand at the word with $prog one higher. MMA K STEP is one such step of the word in progress. -/
def Obligations.MatrixSteps : Prop :=
  ∀ (s : State) (c : Ctx) (o : Wd) (t : AType) (zero : Bool),
    let tid := c.f.team
    let acc := opIdx o.d
    let j := c.sw.frame.prog.toNat
    let ln := (lowest c.act).getD 0
    let n := (stepsUnit c.sw.frame ln o.b).1
    let un := (stepsUnit c.sw.frame ln o.b).2
    let step (i : Instr) (p f : Nat) (rows : List (List FV)) : Prop :=
      let cols := (panelCols f fun b => (c.tm.units.get (256 * p + b)).toNat).1
      ∃ u tm fr, exec i s = .next u ∧ findTeam u tid = some tm ∧ frameAt u tid c.f.swarm = some fr ∧
        (∀ m k, m < 128 → k < 64 → (tm.accs.get (8192 * acc + 64 * m + k)).toNat = (dotFV fF32 .rne false
          ((nth [] rows m).zip (nth [] cols k))
          (unpackF fF32 (if zero ∧ j = 0 then 0 else (c.tm.accs.get (8192 * acc + 64 * m + k)).toNat))).1 % 2 ^ 32) ∧
        (∀ k, k / 8192 ≠ acc → tm.accs.get k = c.tm.accs.get k) ∧ tm.units = c.tm.units ∧ tm.tags = c.tm.tags ∧
        fr.prog.toNat = (if j + 1 = n then 0 else j + 1) ∧
        (∀ l ∈ lanesOf c.f.mask, (lane fr l).pc = if j + 1 = n then c.f.pc + 12 else c.f.pc)
    let word (sp : Bool) : Instr := if zero then .mmaz t sp o else .mma t sp o
    c.sw.kind = .team → mmaWaits o c s = false → j < n →
    (∀ f p, panelAt c.tm un j = .ok (f, p) → opIdx o.a + ceilDiv n (aPerTile t) ≤ c.sw.frame.tcnt →
      Ready s (word false) o .prog none (mmaFields t false (word false) o) c →
      step (word false) p f (rowsTile c.sw.frame t (opIdx o.a) j)) ∧
    (∀ f p v off, panelAt c.tm un j = .ok (f, p) → stillOpen c.sw.frame 0xFFFFFFFF (fun _ _ => true) = false →
      let a0 := (opPair c.sw.frame ln o.a).toNat
      let size := 4096 * aSize t
      spadPanel s c.tm a0 ((a0 + j * size) % 2 ^ 64) size = .ok (v, off) →
      Ready s (word true) o .prog none (mmaFields t true (word true) o) c →
      step (word true) p f (rowsBytes t (spadRead s v off size))) ∧
    (∀ sp r m pc, c.tm.mmas.find? (fun r => r.swarm == c.f.swarm) = some r → r.ins = word sp →
      c.sw.frame.macroAt = some (pc, m) → c.tm.st ≠ .frozen → onCore c.tm = true → c.sw.stopped = false →
      findTeam s tid = some c.tm → findSwarm c.tm c.f.swarm = some c.sw →
      exec (.mmaKStep tid c.f.swarm) s = exec (word sp) { s with focus := some ⟨tid, c.f.swarm, m, pc⟩ })

/-- R236, R240 to R243, R259: a ready WBLD, ACCLD, ACCST, EPIL or ACCDR that waits for nothing. WBLD lays its panels into the
units, zero-filled, and tags them; ACCLD loads the accumulator from its image; ACCST writes the 32,832 bytes of the image;
EPIL binds its program; ACCDR starts a drain of the accumulator at row 0 and raises the tile counter. -/
def Obligations.MatrixWords : Prop :=
  ∀ (s : State) (c : Ctx) (o : Wd) (slot : BitVec 3) (sat : Bool) (q : MemQ),
    let tid := c.f.team
    let s0 := advance s c.f
    let ln := (lowest c.act).getD 0
    let acc := opIdx o.d
    let lv := execLevel c.tm c.sw
    let rd : SpanAsk := ⟨.read, true, false, none⟩
    let key := wordKey c.f.swarm
    let va := laneAddr c.sw.frame o ln
    let past (u : State) (tm : Team) : Prop := findTeam u tid = some tm ∧ ∃ fr, frameAt u tid c.f.swarm = some fr ∧
      ∀ l ∈ lanesOf c.f.mask, (lane fr l).pc = c.f.pc + 12
    c.sw.kind = .team → mmaBusy c.tm c.f.swarm (accUse o c) = false →
    (let i : Instr := .wbld slot o
     let f := slotFmt (slotOf c slot)
     let n := (stepsUnit c.sw.frame ln o.b).1
     let un := (stepsUnit c.sw.frame ln o.b).2
     let a := (opPair c.sw.frame ln o.a).toNat
     ∀ s1 bs, onceWaits (wbldUse slot o) c s = false → mmaBusy c.tm c.f.swarm (wbldUse slot o c) = false →
       un + n * panelUnits f ≤ 256 * c.tm.acnt → formBad a 64 = none →
       readSpan s0 c.tm lv rd key (some plainQ) a (n * panelBytes f) = .ok s1 bs →
       Ready s i o .prog (some (slot, fun f => panelUnits f != 0)) i.fields c →
       ∃ u tm, exec i s = .next u ∧ past u tm ∧ tm.accs = c.tm.accs ∧
         ∀ j b, j < n → b < 256 * panelUnits f →
           tm.tags.get (un + j * panelUnits f + b / 256) = tagWord f (b / 256) ∧
           tm.units.get (256 * (un + j * panelUnits f) + b) =
             if b < panelBytes f then nth 0 bs (j * panelBytes f + b) else 0) ∧
    (let i : Instr := .accld q o
     ∀ s1 bs, onceWaits (accUse o) c s = false → formBad va.toNat 64 = none → q.ord ≠ .acq →
       readSpan s0 c.tm lv rd key (some { q with cls := .none }) va.toNat 32832 = .ok s1 bs →
       bytesVal (bs.take 64) / 2 ^ 32 % 256 = 1 → bytesVal (bs.take 64) / 2 ^ 44 = 0 → Stands s i o c →
       ∃ u tm, exec i s = .next u ∧ past u tm ∧
         (∀ k, k < 8192 → tm.accs.get (8192 * acc + k) = nth 0 (bytesWords 8192 (bs.drop 64)) k) ∧
         (∀ k, k / 8192 ≠ acc → tm.accs.get k = c.tm.accs.get k)) ∧
    (let i : Instr := .accst q o
     ∀ s1 ps, onceWaits (accUse o) c s = false → formBad va.toNat 64 = none → q.ord ≠ .rel →
       locateSpan s0 c.tm lv ⟨.write, false, true, none⟩ va.toNat 32832 = (s1, .ok ps) →
       (∀ p ∈ ps, wayOf s1 c.tm true p.1 = .here) →
       (∀ r ∈ s.link.reqs, r.who ≠ .post tid (entryKey c.f.swarm (freeNum c.sw.frame))) → Stands s i o c →
       ∃ u tm img, exec i s = .next u ∧ past u tm ∧ tm.accs = c.tm.accs ∧
         u = settleFaults (finish c (postParts c.tm (entryKey c.f.swarm (freeNum c.sw.frame))
           (fun s p bs => writePlace s c.tm.id c.tm.core q p bs) s1 ps img)) tid c.f.swarm ∧
         img.length = 32832 ∧ bytesVal (img.take 64) = (progFrame c.sw).prog.toNat + 2 ^ 32 + acc * 2 ^ 40 ∧
         ∀ k, k < 8192 → nth 0 (bytesWords 8192 (img.drop 64)) k = c.tm.accs.get (8192 * acc + k)) ∧
    (let i : Instr := .epil o
     let n := o.b.immVal.toNat
     let a := (opPair c.sw.frame ln o.a).toNat
     ∀ s1 bs, onceWaits (accUse o) c s = false → formBad a 4 = none →
       readSpan s0 c.tm lv rd key (some plainQ) a (4 * n) = .ok s1 bs → progBad (bytesWords n bs) = none → Stands s i o c →
       ∃ u tm, exec i s = .next u ∧ past u tm ∧ bindOf tm acc = some (bytesWords n bs) ∧
         ∀ k, k ≠ acc → bindOf tm k = bindOf c.tm k) ∧
    (let i : Instr := .accdr slot sat o
     let pitch := match o.b with
       | .imm x => 16 * x.toNat
       | b => (op32 c.sw.frame ln b).toNat
     ∀ ws, bindOf c.tm acc = some ws → progSlotBad ws (slotOf c slot) = false → pitch % 4 = 0 → logFull c.sw.frame = false →
       c.sw.frame.cTile ≠ 15 → wordBusy c.tm c.f.swarm (accUse o c) = false →
       Ready s i o .prog (some (slot, outFmt)) i.fields c →
       ∃ u tm d fr, exec i s = .next u ∧ past u tm ∧ tm.accs = c.tm.accs ∧ u.drains = s.drains ++ [d] ∧
         frameAt u tid c.f.swarm = some fr ∧ fr.cTile = c.sw.frame.cTile + 1 ∧ (∃ e, findEntry fr d.entry = some e ∧ e.ins = i) ∧
         d.team = tid ∧ d.swarm = c.f.swarm ∧ d.acc = acc ∧ d.task = none ∧ d.base = opPair c.sw.frame ln o.a ∧
         d.pitch = pitch ∧ d.slot = slotOf c slot ∧ d.sat = (sat || slotSat (slotOf c slot)) ∧ d.prog = ws ∧ d.row = 0 ∧
         d.ip = none ∧ (∀ k, d.y.get k = 0 ∧ d.sreg.get k = 0) ∧ d.esc0 = 0x7F ∧ d.esc1 = 0x7F)

/-- R244 to R247: TTASK gives its records, once each is read and none is malformed, the next numbers of their contexts and puts
them before the cluster's scheduler; the oldest ready record starts on a core of the cluster that lends an accumulator; a
task whose work is over ends, and its number with it. -/
def Obligations.TileTasks : Prop :=
  ∀ (s : State) (c : Ctx) (o : Wd) (q : MemQ),
    let tid := c.f.team
    let lv := execLevel c.tm c.sw
    (let i : Instr := .ttask q o
     let n := o.b.immVal.toNat
     let a := (opPair c.sw.frame ((lowest c.act).getD 0) o.a).toNat
     ∀ s2 s3 rs, readRecs c lv n (advance s c.f) a = (s2, some rs) →
       let recs := rs.filterMap fun r => r.2
       (∀ r ∈ recs, (engOf c.tm (trCtx r)).mode ≠ .closed ∧ (engOf c.tm (trCtx r)).last + n < 2 ^ 64 - 1) →
       checkRecs c lv s2 [] rs = (s3, some none) → appendWaits c = false → ctxRoom c recs = true → taskRoom s3 c.tm n = true →
       c.sw.kind = .team → c.tm.engs.length = 8 → Stands s i o c →
       ∃ u tm ts fr, exec i s = .next u ∧ findTeam u tid = some tm ∧ u.tasks = s.tasks ++ ts ∧
         ts.map (fun x => x.trec) = recs ∧
         (∀ x ∈ ts, x.team = tid ∧ x.core = none ∧ x.ctx = trCtx x.trec ∧ x.clus = clusOf c.tm.core ∧ x.step = 0) ∧
         (∀ k, k < 8 → (engOf tm k).last = (engOf c.tm k).last + (recs.filter fun r => trCtx r == k).length ∧
           (ts.filter fun x => x.ctx == k).map (fun x => x.seq) =
             (List.range (recs.filter fun r => trCtx r == k).length).map ((engOf c.tm k).last + 1 + ·)) ∧
         frameAt u tid c.f.swarm = some fr ∧ ∀ l ∈ lanesOf c.f.mask, (lane fr l).pc = c.f.pc + 12) ∧
    (∀ x tm core, (tasksWaiting s x.clus).find? (taskReady s) = some x → findTeam s x.team = some tm →
       (s.tasks.find? fun y => y.id == x.id) = some x → clusOf core = x.clus → 0 < accsLent s core →
       isFrozen s (.core core) = false →
       ∃ u y, exec (.tileTaskStart x.id core) s = .next u ∧ (u.tasks.find? fun y => y.id == x.id) = some y ∧
         y = { x with core := some core } ∧ u.tasks.length = s.tasks.length) ∧
    (∀ x tm, (s.tasks.find? fun y => y.id == x.id) = some x → x.finished = true → findTeam s x.team = some tm →
       postsOut s x.team (taskKey x.id) = false →
       ∃ u, exec (.tileTaskEnd x.id) s = .next u ∧ ∀ y ∈ u.tasks, y.id ≠ x.id)

/-- R249, R251 to R256: the words of a program that touch no memory, each on the drain that is being run.
R40, R243, R250, R257, R258: e.ldb loads columns or a scalar from pair(P) + k, e.st writes the low bytes of a register's 64
columns to base + m × pitch + k, e.sts the two scales to pair(P) + 2m, once the core's copies of those lines are dropped;
e.next takes the snapshot and ends the setup part, e.stop ends the row, whose flags go into lane 0 of the issuing swarm; EPILOGUE ROW runs the setup part or a row of the next drain that may go on. -/
def Obligations.EpilogueWords : Prop :=
  (∀ (s : State) (k : Nat) (x : Drain) (d a b c : EReg) (dd aa : BitVec 3) (h : BitVec 16), epiDrain s = some (k, x) →
    let v (r : EReg) (n : Nat) : Nat := eSrc x r n
    let f (r : EReg) (n : Nat) : FV := unpackF fF32 (eSrc x r n)
    let col (n : Nat) : Nat := yOf x aa.toNat n
    let gt (p q : FV) : Bool := !p.isNan && !q.isNan && ltFV q p
    let nv (b : Bool) : Flags := if b then flNV else 0
    let puts (i : Instr) (d : EReg) (g : Nat → Nat × Flags) : Prop := EpiPuts i s s k x d g
    let big (ns : List Nat) (r : Nat × Flags) : Prop :=
      let us := ns.map fun n => unpackF fF32 (col n)
      r.2 = nv (us.any FV.isSnan) ∧ (us.any FV.isNan = true → r.1 = 0x7FC00000) ∧
      (us.any FV.isNan = false → (∃ n ∈ ns, r.1 = col n % 2 ^ 31) ∧ ∀ n ∈ ns, col n % 2 ^ 31 ≤ r.1)
    let e4 := decide (slotFmt x.slot = 0x11)
    (exec .eNop s = .next (ran s k x x 0)) ∧
    puts (.eMov d a) d (fun n => (v a n, 0)) ∧
    puts (.eMovl dd h) (.s dd) (fun _ => (h.toNat, 0)) ∧
    puts (.eMovh dd h) (.s dd) (fun _ => (h.toNat * 2 ^ 16 + sOf x dd.toNat % 2 ^ 16, 0)) ∧
    puts (.eAdd d a b) d (fun n => faddF fF32 .rne false false (v a n) (v b n)) ∧
    puts (.eSub d a b) d (fun n => faddF fF32 .rne false true (v a n) (v b n)) ∧
    puts (.eMul d a b) d (fun n => fmulF fF32 .rne false (v a n) (v b n)) ∧
    puts (.eFma d a b c) d (fun n => ffmaF fF32 .rne false (v a n) (v b n) (v c n)) ∧
    puts (.eMin d a b) d (fun n => minmaxF fF32 false (v a n) (v b n)) ∧
    puts (.eMax d a b) d (fun n => minmaxF fF32 true (v a n) (v b n)) ∧
    puts (.eRelu d a) d (fun n => if (f a n).isNan then (0x7FC00000, nv (f a n).isSnan)
      else if gt (f a n) (.fin false 0 0) then (v a n, 0) else (0, 0)) ∧
    puts (.eClamp d a b c) d (fun n =>
      let fl := nv ((f a n).isSnan || (f b n).isSnan || (f c n).isSnan)
      if (f a n).isNan then (0x7FC00000, fl)
      else if gt (f a n) (f c n) || gt (f b n) (f c n) then (v c n, fl)
      else if gt (f b n) (f a n) then (v b n, fl) else (v a n, fl)) ∧
    (∃ g : Nat → Nat × Flags, puts (.eGelu d a) d (fun n => g (v a n)) ∧ ∀ z,
      (∀ q, unpackF fF32 z = .nan q → g z = (0x7FC00000, nv q)) ∧
      (unpackF fF32 z = .inf false → g z = (0x7F800000, 0)) ∧ (unpackF fF32 z = .inf true → g z = (0x80000000, 0)) ∧
      (∀ m e, unpackF fF32 z = .fin false m e → ltFV (.fin false m e) (.fin false 8 0) = false → g z = (z, flNX)) ∧
      (∀ m e, unpackF fF32 z = .fin true m e → ltFV (.fin true 8 0) (.fin true m e) = false → g z = (0x80000000, flNX))) ∧
    (∃ r, big (List.range 64) r ∧ puts (.eAbsmaxRow dd aa) (.s dd) (fun _ => r)) ∧
    (∃ p q, big (List.range 32) p ∧ big ((List.range 32).map (· + 32)) q ∧
      puts (.eAbsmaxBlk dd aa) (.y dd) (fun n => if n < 32 then p else q)) ∧
    puts (.eSum dd aa) (.s dd) (fun _ => (List.range 63).foldl (fun st n =>
      let z := faddF fF32 .rne false false st.1 (col (n + 1))
      (z.1, st.2 ||| z.2)) (col 0, 0)) ∧
    puts (.eIdx d) d (fun n => match d with
      | .y _ => ((cvtIF false 32 fF32 .rne false n).1, 0)
      | .s _ => ((cvtIF false 32 fF32 .rne false (if x.inSetup then 0 else x.row)).1, 0)) ∧
    (let us := (List.range 64).map fun n => unpackF fF32 (col n)
     let p := blockScale e4 (us.take 32)
     let q := blockScale e4 (us.drop 32)
     exec (.eBscale aa) s = .next (ran s k x { x with esc0 := BitVec.ofNat 8 p.1, esc1 := BitVec.ofNat 8 q.1 } (p.2 ||| q.2))) ∧
    puts (.eQ8 dd aa) (.y dd) (fun n =>
      let e := (if n < 32 then x.esc0 else x.esc1).toNat
      match unpackF fF32 (col n) with
      | .nan q => (if e4 then 0x7F else 0x7E, nv q)
      | .inf m => if e = 0xFF then (if e4 then 0x7F else 0x7E, 0)
        else ((if m then 0x80 else 0) + (if e4 then 0x7E else 0x7B), flNV ||| flSA)
      | .fin m p z => if e = 0xFF then (if e4 then 0x7F else 0x7E, 0)
        else roundF (if e4 then fE4m3 else fE5m2) (slotRnd x.slot) true m p (z - (e - 127))) ∧
    (∀ t, numOf (slotFmt x.slot) = some t →
      puts (.eCvt dd aa) (.y dd) (fun n => convert (.flt fF32) t (slotRnd x.slot) x.sat (col n)))) ∧
  (∀ (s : State) (k : Nat) (x : Drain) (tm : Team) (d : BitVec 3) (p : BitVec 2) (h : BitVec 16), epiDrain s = some (k, x) →
    findTeam s x.team = some tm →
    let m := if x.inSetup then 0 else x.row
    let q := sOf x (2 * p.toNat) + 2 ^ 32 * sOf x (2 * p.toNat + 1)
    let rd (a n : Nat) : SpanRd := readSpan s tm x.lvl ⟨.read, false, false, none⟩ (drainKey x) none a n
    let writes (i : Instr) (a : Nat) (bs : List Byte) : Prop := ∀ s1 ps,
      locateSpan s tm x.lvl ⟨.write, false, false, none⟩ a bs.length = (s1, .ok ps) → (∀ z ∈ ps, wayOf s1 tm true z.1 = .here) →
      exec i s = .next (ran (postParts tm (drainKey x) (fun s z bs => engWrite s (.matrix tm.id tm.core) z bs)
        (dropCopies s1 tm x ps) ps bs) k x x 0)
    (∀ s1 bs, let a := (q + h.toNat) % 2 ^ 64
      formBad a 4 = none → rd a 256 = .ok s1 bs →
      EpiPuts (.eLdbColF32 d p h) s s1 k x (.y d) fun n => (bytesVal ((bs.drop (4 * n)).take 4), 0)) ∧
    (∀ s1 bs, let a := (q + h.toNat) % 2 ^ 64
      formBad a 2 = none → rd a 128 = .ok s1 bs →
      EpiPuts (.eLdbColBf16 d p h) s s1 k x (.y d) fun n => cvtFF fBf16 fF32 .rne false (bytesVal ((bs.drop (2 * n)).take 2))) ∧
    (∀ s1 bs, let a := (q + h.toNat + 4 * m) % 2 ^ 64
      formBad a 4 = none → rd a 4 = .ok s1 bs → EpiPuts (.eLdbRowF32 d p h) s s1 k x (.s d) fun _ => (bytesVal bs, 0)) ∧
    (let w := if slotFmt x.slot = 0 then 4 else if slotFmt x.slot ≤ 2 then 2 else 1
     let a := (x.base.toNat + m * x.pitch + h.toNat) % 2 ^ 64
     formBad a w = none → writes (.eSt d h) a ((List.range 64).flatMap fun n => valBytes w (yOf x d.toNat n))) ∧
    (let a := (q + 2 * m) % 2 ^ 64
     formBad a 1 = none → writes (.eSts p) a [x.esc0, x.esc1]) ∧
    (∃ u, exec .eNext s = .next u ∧ { u with drains := s.drains, epi := s.epi } = s ∧ u.epi = none ∧
      u.drains[k]? = some { x with ySnap := x.y, sSnap := x.sreg, inSetup := false, ip := none }) ∧
    (x.row < 127 → ∃ u, exec .eStop s = .next u ∧ { u with drains := s.drains, epi := s.epi, teams := s.teams, tasks := s.tasks } = s ∧
      u.epi = none ∧ u.drains[k]? = some { x with row := x.row + 1, ip := none, flags := 0 } ∧
      (x.task = none → u.tasks = s.tasks ∧ ∀ sw, swarmAt s x.team x.swarm = some sw →
        swarmAt u x.team x.swarm = some { sw with frame := orFlags sw.frame 0 x.flags })) ∧
    (x.row = 127 → x.task = none → postsOut s x.team (drainKey x) = false →
      ∃ u, exec .eStop s = .next u ∧ u.drains = s.drains.eraseIdx k ∧
        ∀ sw, swarmAt s x.team x.swarm = some sw → ∃ sw', swarmAt u x.team x.swarm = some sw' ∧
          sw'.frame.cTile = sw.frame.cTile - 1 ∧ ∀ e ∈ sw'.frame.log, e.num ≠ x.entry) ∧
    (∀ t, t.epi = none → nextDrain t 0 = none → exec .epilogueRow t = .next t) ∧
    (∀ t j y, t.epi = none → nextDrain t 0 = some j → t.drains[j]? = some y → y.ip = none → y.inSetup = false →
      (∀ w, y.prog[entryWord y.prog]? = some w → decodeEpi w = some .eStop) → entryWord y.prog < y.prog.length → y.row < 127 →
      ∃ u z, exec .epilogueRow t = .next u ∧ u.drains[j]? = some z ∧ z.row = y.row + 1 ∧ z.ip = none ∧
        (∀ n, n < 64 → yOf z 0 n = (accRow t y n).toNat) ∧
        (∀ r n, 1 ≤ r → r < 8 → n < 64 → yOf z r n = (y.ySnap.get (64 * r + n)).toNat)))

/-! ### Kernels -/

/-- R130, R288 to R292: EXIT ends the active lanes, and the swarm with its last one; LAUNCH answers 2, 1 or 0 with the id of the
grid that it puts into the launch queue; SPAWN commits the continuation of each active lane with its count; JOIN ends swarm 0
and keeps the record that the team's end signals; TICKET draws a unit of the grid, or raises a user counter; KSTAT gives
a grid's state, progress or children. -/
def Obligations.KernelWords : Prop :=
  ∀ (s : State) (c : Ctx) (o : Wd),
    let t := c.f.team
    let fr := c.sw.frame
    let s0 := advance s c.f
    let others : Prop := ∃ x ∈ liveSwarms c.tm, x.num ≠ c.f.swarm ∧ ∃ ln, ln < 32 ∧ (lane (progFrame x) ln).exited = false ∧
      (lane (progFrame x) ln).park = none
    let ended (u : State) : Prop := ∃ sw, swarmAt u t c.f.swarm = some sw ∧ sw.ended = true
    let pair (u : State) (lo hi : Word) : Prop := ∃ fr', frameAt u t c.f.swarm = some fr' ∧
      ∀ ln ∈ lanesOf c.act, (lane fr' ln).l0 = lo ∧ (lane fr' ln).l1 = hi
    let put (u : State) (v : Word) : Prop := ∃ fr', frameAt u t c.f.swarm = some fr' ∧
      ∀ ln ∈ lanesOf c.act, reg fr' ln (opIdx o.d) = v
    c.sw.kind = .team → c.sw.mode = .program → c.sw.hidden = none →
    (fr.arrive = [] → Stands s (.exit o) o c →
      ((∃ ln, ln < 32 ∧ c.act.getLsbD ln = false ∧ (lane fr ln).exited = false ∧ (lane fr ln).park = none) →
        ∃ u sw, exec (.exit o) s = .next u ∧ swarmAt u t c.f.swarm = some sw ∧ sw.ended = false ∧
          ∀ ln, ln < 32 → (lane sw.frame ln).exited = ((lane fr ln).exited || c.act.getLsbD ln)) ∧
      (c.act = liveLanes fr → others → ∃ u, exec (.exit o) s = .next u ∧ ended u)) ∧
    (∀ s2 bs, let a := (laneAddr fr o 0).toNat
      let r := bytesVal bs
      leader c = true → c.tm.depth ≠ 10 → stillOpen fr 0xFFFFFFFF (fun _ _ => true) = false → formBad a 32 = none →
      readSpan s0 c.tm (execLevel c.tm c.sw) ⟨.read, true, false, none⟩ (wordKey c.f.swarm) (some pkgQ) a 96 = .ok s2 bs →
      launchBad r = false → Stands s (.launch o) o c →
      ∃ u, exec (.launch o) s = .next u ∧
        (neverFits (parseLaunch r) = true → pair u 2 0 ∧ u.grids = s.grids) ∧
        (neverFits (parseLaunch r) = false → queueFree s c.tm.part c.tm.slice = false → pair u 1 0 ∧ u.grids = s.grids) ∧
        (neverFits (parseLaunch r) = false → queueFree s c.tm.part c.tm.slice = true →
          u.gridNo = s.gridNo + 1 ∧ u.grids.length = s.grids.length + 1 ∧
          ∃ g ∈ u.grids, pair u 0 g.gid ∧ g.id = s.gridNo ∧ g.launch = parseLaunch r ∧ g.st = .queued ∧ g.parent = some t.grid ∧
            g.part = c.tm.part ∧ g.slice = c.tm.slice ∧ g.depth = c.tm.depth.toNat + 1)) ∧
    (∀ s2, let ls := (lanesOf c.act).map fun ln => (ln, (laneAddr fr o ln).toNat, op32 fr ln o.d)
      logFull fr = false → teamOpen c.tm = false → c.tm.kspill ≠ 0 → (∀ k ∈ s.conts, k.num < s.contNo) →
      spawnDo s0 c.tm c.f.swarm (execLevel c.tm c.sw) ls = .done s2 → Stands s (.spawn o) o c →
      ∃ u ks, exec (.spawn o) s = .next u ∧ u.conts = s.conts ++ ks ∧
        ks.map (fun k => (k.va, k.join)) = ls.map (fun l => (BitVec.ofNat 64 l.2.1, l.2.2)) ∧
        ∀ k ∈ ks, k.st = (if k.join = 0 then .queued else .waiting) ∧ k.grid = t.grid ∧ k.by_ = t) ∧
    (let a := laneAddr fr o 0
     leader c = true → a ≠ 0 → a.toNat < 2 ^ 57 → a.toNat % 32 = 0 → fr.arrive = [] → others → Stands s (.join o) o c →
     ∃ u tm, exec (.join o) s = .next u ∧ ended u ∧ findTeam u t = some tm ∧ tm.joins = some a) ∧
    (∀ g, let k := o.a.immVal.toNat
      findGrid s t.grid = some g → opIdx o.d < 512 → Stands s (.ticket o) o c →
      (∀ x, k = 0 → g.launch.gsz = 0 → g.tickets.find? (fun y => y.die == dieOf c.tm.core) = some x → x.cur.toNat < x.hi →
        ∃ u g' tm, exec (.ticket o) s = .next u ∧ put u x.cur ∧ findGrid u t.grid = some g' ∧ g'.started = g.started + 1 ∧
          findTeam u t = some tm ∧ tm.drew = c.tm.drew + 1) ∧
      (k = 0 → g.launch.gsz = 0 → (∀ x ∈ g.tickets, x.hi ≤ x.cur.toNat) →
        ∃ u, exec (.ticket o) s = .next u ∧ put u 0xFFFFFFFF) ∧
      (k ≠ 0 → ∃ u g', exec (.ticket o) s = .next u ∧ put u (g.users.get k) ∧ findGrid u t.grid = some g' ∧
        (g'.users.get k).toNat =
          min ((g.users.get k).toNat + (op32 fr ((lowest c.act).getD 0) o.b).toNat) (2 ^ 32 - 1))) ∧
    (let id := (op32 fr ((lowest c.act).getD 0) o.a).toNat
     let w := o.b.immVal.toNat
     let v : DWord := match (if id = 0 then findGrid s t.grid else gridOf s c.tm.part (BitVec.ofNat 32 id)) with
       | none => 0xFFFFFFFFFFFFFFFF
       | some g =>
         if g.part ≠ c.tm.part ∨ g.slice ≠ c.tm.slice then 0xFFFFFFFFFFFFFFFF
         else if w = 0 then pairOf (BitVec.ofNat 32 (GridSt.code g.st)) g.gid
         else if w = 1 then pairOf (BitVec.ofNat 32 g.started) (BitVec.ofNat 32 g.ended)
         else pairOf (BitVec.ofNat 32 g.children) (BitVec.ofNat 32 g.conts)
     Stands s (.kstat o) o c →
       exec (.kstat o) s = .next (wrote c (fun fr => eachLane c.act fr fun ln fr => dst64 fr o ln v) s))

/-- R274 to R279, R281 to R283, R294, R295: grids leave the launch queue with the units of their dies' counters, age, are drawn
from by idle cores, start teams, place gangs and retire; continuations count down, are queued and start. -/
def Obligations.GridEvents : Prop :=
  ∀ (s : State) (p n core die prio : Nat) (g : Grid),
    let started (u : State) (ts : List Team) : Prop := u.teams.drop s.teams.length = ts ∧
      u.teams.map (fun x => x.id) = s.teams.map (fun x => x.id) ++ ts.map (fun x => x.id)
    (findGrid s g.id = some g →
      (let ds := ((List.range 16).map fun d => (d, sliceOnDie s g.part g.slice d)).filter fun d => d.2 != 0
       let units := g.launch.teams / (g.launch.gsz + 1)
       topGrid queuePrio (s.grids.filter fun g => g.st == .queued && g.part == p) = some g → ds ≠ [] →
       (∀ d ∈ ds, counterFree s p d.1 = true) → 0 < units → units < 2 ^ 32 →
       ∃ u g', exec (.gridDispatch p) s = .next u ∧ findGrid u g.id = some g' ∧ g'.st = .dispatching ∧
         g'.tickets.map (fun x => x.die) = ds.map (fun d => d.1) ∧ (g'.tickets.map fun x => x.hi - x.cur.toNat).sum = units) ∧
      (∃ u, exec (.launchQueueAge g.id) s = .next u ∧ findGrid u g.id =
        some { g with aged := g.aged || (g.st == .queued && decide (g.queuedAt + 1000000 ≤ s.pulse.toNat)) }) ∧
      (∀ x, topGrid (fun g => g.launch.prio) (s.grids.filter fun g => g.st == .dispatching && idleFor s core g) = some g →
        (∀ y ∈ s.grids, ∀ d ∈ y.drawn, d.2 ≠ core) → contWaits s core g.launch.prio = false →
        savedWaits s core g.launch.prio = false → g.launch.gsz = 0 →
        g.tickets.find? (fun y => y.die == dieOf core) = some x → x.cur.toNat < x.hi →
        ∃ u g', exec (.ticketDraw core) s = .next u ∧ findGrid u g.id = some g' ∧ g'.drawn = g.drawn ++ [(x.cur.toNat, core)]) ∧
      ((n, core) ∈ g.drawn → idleFor s core g = true →
        ∃ u g' tm, exec (.teamStart g.id n core) s = .next u ∧ started u [tm] ∧ findGrid u g.id = some g' ∧
          g'.started = g.started + 1 ∧ g'.drawn = g.drawn.erase (n, core) ∧ tm.id = ⟨g.id, n, none⟩ ∧ tm.core = core ∧
          tm.st = .running ∧ tm.swarms.length = g.launch.tsw ∧
          ∀ sw ∈ tm.swarms, sw.kind = .team ∧ sw.ended = false ∧
            asleep sw.frame = freshFrame (BitVec.ofNat 64 g.launch.entry) g.launch.vcnt g.launch.tcnt g.launch.xlgw) ∧
      (∀ k, s.gangs.find? (fun k => k.grid == g.id && k.unit == n) = some k → findGang s k.num = some k →
        (k.st = .drawn → (∀ u ∈ gangUnits k, pendingBefore s k k.lvl u = true ∨
            placeIn s g k.lvl u (fun c => heldByGang s c g.launch.prio) = none) →
          ∃ u, exec (.gangPlace g.id n) s = .next u ∧ findGang u k.num = some { k with st := .pending }) ∧
        (∀ cs, k.st = .pending → pendingBefore s k k.lvl k.place = false →
          placeIn s g k.lvl k.place (fun c => heldFrom s c k) = some cs →
          ∃ u ts k', exec (.gangPlace g.id n) s = .next u ∧ started u ts ∧ findGang u k.num = some k' ∧ k'.st = .running ∧
            k'.cores = cs ∧
            ts.map (fun x => (x.id.idx, x.core)) = cs.mapIdx fun m c => (n * (g.launch.gsz + 1) + m, c))) ∧
      ((g.st = .running ∨ g.st = .joining) → g.ended = g.launch.teams → g.children = 0 → g.conts = 0 →
        ∃ u g', exec (.gridRetire g.id) s = .next u ∧ findGrid u g.id = some g' ∧ g'.st = .retired ∧
          ∀ q y, g.parent = some q → q ≠ g.id → findGrid s q = some y →
            findGrid u q = some { y with children := y.children - 1 })) ∧
    (∀ d k, s.decs.find? (fun d => d.die == die) = some d →
      let pa := (ctlPa s d.part d.slice d.asn .prog .rw d.va.toNat).getD d.pa
      s.conts.find? (fun k => contPa s k == pa && k.st == .waiting) = some k → findCont s k.num = some k →
      (k.join ≠ 1 → ∃ u, exec (.continuationDecrement die) s = .next u ∧ u.decs = s.decs.erase d ∧
        findCont u k.num = some { k with join := k.join - 1 }) ∧
      (k.join = 1 → broodRoom s d.part k.die k.prio 1 = true →
        ∃ u, exec (.continuationDecrement die) s = .next u ∧ u.decs = s.decs.erase d ∧
          findCont u k.num = some { k with join := 0, st := .queued })) ∧
    (let mine (k : Cont) : Bool := k.st == .queued && k.die == die && coreOf s core (gridHome s k.grid).1 (gridHome s k.grid).2
     ∀ k, s.conts.find? (fun k => mine k && k.prio == prio) = some k → findGrid s k.grid = some g →
       (∀ x ∈ s.conts, mine x = true → x.prio ≤ prio) → nearerEmpty s core die g.part g.slice = true →
       isFrozen s (.core core) = false → heldByGang s core prio = false → savedWaits s core prio = false →
       canHost s core 1 1 0 0 = true → findCont s k.num = some k →
       ∃ u tm sw, exec (.continuationStart core die prio) s = .next u ∧ tm ∈ u.teams ∧ tm.core = core ∧ tm.swarms = [sw] ∧
         findCont u k.num = some { k with st := .running } ∧
         ∀ ln, ln < 32 → (lane sw.frame ln).pc = BitVec.ofNat 64 k.code ∧ reg sw.frame ln 0 = loW k.frame ∧
           reg sw.frame ln 1 = hiW k.frame)

/-! ### Traps and the context -/

/-- R66, R315 to R319: a trap of a swarm with no access under way, taken to the level that R319 gives: the swarm is in handler
mode with a fresh frame of 32 rows at TENT, or, for a program's TRAP under a PTENT that is not zero, at PTENT, its program's
state hidden and as it was, and $trapc and $trapa written; where the route has no entry the context is Faulted and its owner
has the fault record. Nothing else changes, but that the waits of a handler frame which the entry discards are dropped with
it.
R64, R65: a word of registers that fails a check traps at its address with the cause, the field and the $trapa of the
first check that fails, and changes nothing first. -/
def Obligations.TakingATrap : Prop :=
  (∀ (s : State) (t : TeamId) (n : Nat) (lanes : BitVec 32) (i : TrapInfo) (a : DWord) (frg : Option (DWord × Word × DWord × Nat))
    (tm : Team) (sw : Swarm), findTeam s t = some tm → findSwarm tm n = some sw → sw.kind = .team → sw.frame.log = [] →
    let u := takeTrap s t n lanes i a frg
    let w (l : Level) : Nat := (trapcWord i (execLevel tm sw) l).toNat
    let enters (l : Level) (pc : DWord) : Prop :=
      { u with teams := s.teams } = dropHandler s t n ∧ (∀ v k, (v, k) ≠ (t, n) → swarmAt u v k = swarmAt s v k) ∧
      swarmAt u t n = some { sw with
        mode := .handler l i.cause, frame := freshFrame pc 32 0 32, hidden := some (progFrame sw),
        trapc := trapcWord i (execLevel tm sw) l, trapa := a, frg := frg, off := false, stopped := false }
    let l := match sw.mode with
      | .program => routeOf i.cause i.stage tm.level
      | .handler h _ => levelMax (routeOf i.cause i.stage h) (levelAbove h)
    let faulted : Prop := { u with teams := s.teams, faults := s.faults } = s ∧
      u.faults = s.faults ++ [⟨t, l, trapcWord i (execLevel tm sw) l, a⟩] ∧ findTeam u t = some { tm with st := .faulted }
    let own : Prop := i.cause = 0x21 ∧ sw.mode = .program ∧
      recWord s tm.part tm.slice .two (handlerAddr s tm.part tm.slice .two) .ptent ≠ 0
    (own → (∀ pc, handlerEntry s tm .two .ptent = some pc → enters .prog pc) ∧
      (handlerEntry s tm .two .ptent = none → faulted)) ∧
    (¬ own → (∀ pc, handlerEntry s tm l .tent = some pc → enters l pc) ∧ (handlerEntry s tm l .tent = none → faulted)) ∧
    (∀ l, w l % 2 ^ 8 = i.cause % 2 ^ 8 ∧ w l / 2 ^ 8 % 4 = i.field % 4 ∧ (w l).testBit 10 = i.imp ∧
      (w l).testBit 11 = i.logix.isSome ∧ (∀ k, i.logix = some k → w l / 2 ^ 12 % 8 = k % 8) ∧ (w l).testBit 15 = i.frg ∧
      w l / 2 ^ 16 % 32 = i.lane % 32 ∧ w l / 2 ^ 21 % 8 = i.stage % 8 ∧
      w l / 2 ^ 24 % 4 = levelCode (execLevel tm sw) ∧ w l / 2 ^ 26 = levelCode l)) ∧
  (∀ (s : State) (c : Ctx) (o : Wd) (t : IntTy) (sat : Bool) (ft : FTy) (r : Rnd) (slot : BitVec 3),
    ctxOf s o = some c →
    let traps (i : Instr) (cause field : Nat) (ta : DWord) : Prop := exec i s =
      .next (takeTrap s c.f.team c.f.swarm c.f.mask { cause := cause, field := field, lane := (lowest c.f.mask).getD 0 } ta none)
    let bad (f : FS) (x : Opnd) : Bool := viewBad c.sw.frame.vcnt c.sw.frame.tcnt (acntOf c) f x
    let views (i : Instr) : Prop :=
      (bad i.fields.1 o.d = true → traps i 0x06 0 c.f.pc) ∧
      (bad i.fields.1 o.d = false → bad i.fields.2.1 o.a = true → traps i 0x06 1 c.f.pc) ∧
      (bad i.fields.1 o.d = false → bad i.fields.2.1 o.a = false → bad i.fields.2.2 o.b = true → traps i 0x06 2 c.f.pc)
    views (.iadd t sat o) ∧ views (.fadd r ft slot sat o) ∧ views (.mov sat o) ∧
    (let i : Instr := .fadd r ft slot sat o
     bad i.fields.1 o.d = false → bad i.fields.2.1 o.a = false → bad i.fields.2.2 o.b = false →
     (slotLegal (slotOf c slot) = false ∨ 4 < slotFmt (slotOf c slot)) →
       traps i 0x07 3 (BitVec.ofNat 64 slot.toNat)) ∧
    (levelLt (execLevel c.tm c.sw) .two = true → traps (.eret o) 0x05 3 c.f.pc ∧ traps (.oplogrd o) 0x05 3 c.f.pc ∧
      traps (.ctxsave o) 0x05 3 c.f.pc ∧ traps (.ctxload o) 0x05 3 c.f.pc) ∧
    (levelLt (execLevel c.tm c.sw) .one = true → traps (.bmaprd o) 0x05 3 c.f.pc ∧ traps (.vfctlEnable o) 0x05 3 c.f.pc) ∧
    (levelLt (execLevel c.tm c.sw) .fw = true → traps (.remapBank o) 0x05 3 c.f.pc ∧ traps (.remapPage o) 0x05 3 c.f.pc))

/-- R317, R322, R333, R336: TRAP takes its trap from past the word; TRET and ERET return to the program as it was hidden, without
the faulted entries of the drop mask, where the team is not in a barrier deadlock; ERET.off stops the swarm, and the last one frees the core; ERET.end ends it. -/
def Obligations.TrapsAndReturns : Prop :=
  ∀ (s : State) (c : Ctx) (o : Wd) (h : Frame),
    let t := c.f.team
    let n := c.f.swarm
    let back (drop : Nat) (u : State) : Prop := swarmAt u t n = some { c.sw with
      mode := .program, hidden := none, frg := none, off := false, stopped := false,
      frame := { h with log := h.log.filter fun e => e.faulted == 0 || !drop.testBit e.num } }
    c.sw.kind = .team → c.sw.frame.log = [] →
    (Stands s (.trap o) o c → ∃ x, exec (.trap o) s = .next (settleFaults (finish c x) t n) ∧
      x = takeTrap (advance s c.f) t n c.act { cause := 0x21, lane := (lowest c.act).getD 0 } (BitVec.ofNat 64 o.a.immVal.toNat) none) ∧
    (c.sw.hidden = some h → c.tm.st ≠ .frozen → onCore c.tm = true →
      (∀ k, c.sw.mode = .handler .prog k → barDeadlock c.tm = false → Stands s (.tret o) o c → (∀ e ∈ h.log, e.faulted = 0 ∧ e.again = false) →
        ∃ u, exec (.tret o) s = .next u ∧ back 0 u) ∧
      (∀ l k, c.sw.mode = .handler l k → (l = .two ∨ l = .one) → k ≠ 0x40 → k ≠ 0x41 → barDeadlock c.tm = false →
        Ready s (.eret o) o .two none (Instr.eret o).fields c →
        (∀ e ∈ h.log, (e.faulted = 0 ∨ o.a.immVal.toNat.testBit e.num = true) ∧ e.again = false) →
        ∃ u, exec (.eret o) s = .next u ∧ back o.a.immVal.toNat u) ∧
      (∀ l k, c.sw.mode = .handler l k → (l = .two ∨ l = .one) → h.arrive = [] →
        (∃ x ∈ liveSwarms c.tm, x.num ≠ n ∧ ∃ ln, ln < 32 ∧ (lane (progFrame x) ln).exited = false ∧
          (lane (progFrame x) ln).park = none) →
        Ready s (.eretEnd o) o .two none (Instr.eretEnd o).fields c →
        ∃ u sw, exec (.eretEnd o) s = .next u ∧ swarmAt u t n = some sw ∧ sw.ended = true ∧ sw.mode = .program) ∧
      (∀ l k, c.sw.mode = .handler l k → (l = .two ∨ l = .one) → (k = 0x40 ∨ k = 0x41) → leaves c.tm = true →
        Ready s (.eretOff o) o .two none (Instr.eretOff o).fields c →
        ((∃ x ∈ liveSwarms c.tm, x.num ≠ n ∧ x.off = false) →
          ∃ u sw, exec (.eretOff o) s = .next u ∧ swarmAt u t n = some sw ∧ sw.off = true ∧ sw.hidden = some h) ∧
        ((∀ x ∈ liveSwarms c.tm, x.num ≠ n → x.off = true) → ∃ u tm, exec (.eretOff o) s = .next u ∧ findTeam u t = some tm ∧
          (tm.st = .saved ∨ tm.st = .parked) ∧ tm.accs = [] ∧ tm.units = [] ∧ tm.tags = [] ∧ tm.spad = [] ∧ tm.bars = [] ∧
          tm.preempt = none ∧ (∀ x ∈ tm.swarms, x.mode = .program ∧ x.hidden = none) ∧
          (∀ p ∈ u.m.pins, p.level = .l1 → p.team ≠ t) ∧
          ∀ x ∈ u.m.l1, x.core = c.tm.core → x.mode ≠ .prv)))

/-- R323, R324, R329 to R332, R336: LIVE registers the record that it reads; OPLOGRD gives a lane the eight words of an entry;
PROGRD and PROGWR read and write $prog of a swarm; CTXSAVE writes the parts that m names with the header, CTXLOAD restores
a swarm's control area and rows, and both answer 2 for team parts while a swarm is in its program. -/
def Obligations.ContextWords : Prop :=
  ∀ (s : State) (c : Ctx) (o : Wd),
    let t := c.f.team
    let n := c.f.swarm
    let s0 := advance s c.f
    let lv := execLevel c.tm c.sw
    let m := o.b.immVal.toNat % 256
    let a := (opPair c.sw.frame ((lowest c.act).getD 0) o.a).toNat
    let st (u : State) (v : Word) : Prop := ∃ fr, frameAt u t n = some fr ∧
      ∀ k md, o.d = .main .v k md → ∀ ln ∈ lanesOf c.act, (lane fr ln).l0 = v
    c.sw.kind = .team →
    (let k := o.a.immVal.toNat
     let i : Instr := .live o
     ∀ s2, logFull c.sw.frame = false → liveDo s0 c.tm n k none = .done s2 → c.tm.st ≠ .preempting → Stands s i o c →
       ∃ u fr r, exec i s = .next u ∧ frameAt u t n = some fr ∧ fr.liveSet = some (parseLive r) ∧ liveBad c.tm.spadSz r = false ∧
         ∀ ln, ln < 32 → (lane fr ln).l0 = 0 ∧ (lane fr ln).l1 = 0 ∧ (lane fr ln).ofile = []) ∧
    (let i : Instr := .oplogrd o
     let e := o.a.immVal.toNat
     Ready s i o .two none i.fields c → opIdx o.d + 7 < 512 → ∃ u fr, exec i s = .next u ∧ frameAt u t n = some fr ∧
       (∀ x r ln, ln ∈ lanesOf c.act → e < 8 → findEntry (progFrame c.sw) e = some x → recOf x ln = some r →
         let w (j : Nat) : Word := reg fr ln (opIdx o.d + j)
         (w 0).getLsbD 31 = true ∧ (w 0).getLsbD 30 = decide (x.faulted ≠ 0) ∧ (w 0).toNat % 256 = x.cause.toNat ∧
         w 1 = x.faulted ∧ w 2 = loW x.addr ∧ w 3 = hiW x.addr ∧ w 4 = loW r.va ∧ w 5 = hiW r.va ∧
         w 6 = nth 0 r.data 0 ∧ w 7 = nth 0 r.data 1) ∧
       (∀ seq bq fa mg ln, ln ∈ lanesOf c.act → e = 8 → c.sw.frg = some (seq, bq, fa, mg) →
         let w (j : Nat) : Word := reg fr ln (opIdx o.d + j)
         w 0 = BitVec.ofNat 32 (mg * 2 ^ 16) ∧ w 2 = loW seq ∧ w 3 = hiW seq ∧ w 4 = bq ∧ w 6 = loW fa ∧ w 7 = hiW fa)) ∧
    (let p : Word := match namedSwarm c o with
      | some sw => (progFrame sw).prog
      | none => 0
     let i : Instr := .progrd o
     Stands s i o c → exec i s = .next (wrote c (fun fr => eachLane c.act fr fun ln fr => dst32 fr o 4 ln p) s)) ∧
    (let i : Instr := .progwr o
     ∀ x, namedSwarm c o = some x → (x.mode = .program → x.frame.macroAt = none) → Stands s i o c →
       ∃ u x', exec i s = .next u ∧ swarmAt u t x.num = some x' ∧
         (progFrame x').prog = op32 c.sw.frame ((lowest c.act).getD 0) o.b) ∧
    (∀ i ∈ [Instr.ctxsave o, Instr.ctxload o], Ready s i o .two none i.fields c → c.sw.mode ≠ .program → imageWaits c s = false →
       formBad a 4096 = none → m / 4 % 32 ≠ 0 → someProgram c.tm = true → ∃ u, exec i s = .next u ∧ st u 2 ∧ u.m.ram = s.m.ram) ∧
    (let i : Instr := .ctxsave o
     let p := swarmPatch c.tm c.sw m ++ [(0, headerBytes 0 c.tm m none)]
     ∀ s2 old s4 ps, Ready s i o .two none i.fields c → c.sw.mode ≠ .program → imageWaits c s = false → formBad a 4096 = none →
       m < 4 → (progFrame c.sw).log = [] → readSpan s0 c.tm lv ⟨.rw, false, false, none⟩ (wordKey n) (some pkgQ) a 64 = .ok s2 old →
       bytesVal (old.take 64) = 0 → locatePatch c.tm lv a s2 p = (s4, .ok ps) → (∀ x ∈ ps, wayOf s4 c.tm true x.1 = .here) →
       ∃ u, exec i s = .next u ∧ st u 0 ∧ u.m.ram =
         (postParts c.tm 0 (fun s q bs => writePlace s c.tm.id c.tm.core pkgQ q bs) s4 ps (p.flatMap fun x => x.2)).m.ram) ∧
    (let i : Instr := .ctxload o
     let base := ctlBase n
     ∀ s2 hd ctl s3 cs, Ready s i o .two none i.fields c → c.sw.mode ≠ .program → imageWaits c s = false → formBad a 4096 = none →
       m = 3 → c.sw.hidden.isSome = true → readRuns c.tm lv (wordKey n) a s0 [(0, 64), (base, 0xA00)] = .ok s2 [hd, ctl] →
       bytesVal (hd.take 64) % 256 = 1 →
       let bm : BitVec 512 := BitVec.ofNat 512 (bytesVal ((ctl.drop 0x360).take 64))
       let rows := (List.range 512).filter bm.getLsbD
       readRuns c.tm lv (wordKey n) a s2 (rows.map fun k => (rowsBase n + 128 * k, 128)) = .ok s3 cs →
       ∃ u x, exec i s = .next u ∧ st u 0 ∧ swarmAt u t n = some x ∧ (progFrame x).live = bm ∧
         (∀ j ln, j < rows.length → ln < 32 →
           reg (progFrame x) ln (nth 0 rows j) = nth 0 (bytesWords 32 (nth [] cs j)) ln) ∧
         ∀ ln, ln < 32 → (lane (progFrame x) ln).pc = BitVec.ofNat 64 (bytesVal ((ctl.drop (8 * ln)).take 8)) ∧
           (lane (progFrame x) ln).exited = (bytesVal ((ctl.drop 0x140).take 4)).testBit ln ∧
           (lane (progFrame x) ln).l0 = BitVec.ofNat 32 (bytesVal ((ctl.drop (0x400 + 40 * ln)).take 4)))

/-- R76, R315, R320, R325 to R328, R334: the events of a context: a request stops each swarm at its point and then enters PENT;
one of 2 ms is overdue; an imprecise trap is delivered to the lowest-numbered swarm in its program; a wait that has fired
makes a Parked context Saved; a core takes the saved context of the highest priority, which enters RENT; a Faulted
context retires; a row is spilled. -/
def Obligations.ContextEvents : Prop :=
  ∀ (s : State) (t : TeamId) (n core : Nat) (tm : Team) (sw : Swarm), findTeam s t = some tm → findSwarm tm n = some sw →
    (tm.st = .preempting → sw.kind = .team → sw.ended = false → sw.stopped = false →
      (pointOf s tm sw = none → exec (.preemptPointStop t n) s = .next s) ∧
      (∀ i, pointOf s tm sw = some i → (∃ x ∈ liveSwarms tm, x.num ≠ n ∧ x.stopped = false) →
        ∃ u, exec (.preemptPointStop t n) s = .next u ∧
          swarmAt u t n = some { sw with stopped := true, frame := joinLive i sw.frame })) ∧
    (∀ lv at_ r pc, tm.st = .preempting → tm.preempt = some (lv, at_, r) → sw.kind = .team → sw.ended = false → sw.stopped = true →
      (∀ x ∈ liveSwarms tm, x.stopped = true ∧ x.mode = .program) → teamDrained s tm = true →
      (∀ e ∈ tm.engs, ∀ o ∈ e.ops, o.ended = true) → entryAt s tm.part tm.slice lv r .pent = some pc →
      ∃ u, exec (.preemptPointStop t n) s = .next u ∧ ∀ x ∈ liveSwarms tm, ∃ y, swarmAt u t x.num = some y ∧
        y.mode = .handler lv 0x40 ∧ y.frame = freshFrame pc 32 0 32 ∧ y.hidden.isSome = true) ∧
    (∃ u, exec (.preemptOverdue t) s = .next u ∧ findTeam u t = some { tm with overdue := tm.overdue ||
      (match tm.st, tm.preempt with
        | .preempting, some (_, at_, _) => decide (at_ + 2000000 ≤ s.pulse.toNat)
        | _, _ => false) }) ∧
    (∀ p ps, tm.traps = p :: ps → (∀ x ∈ liveSwarms tm, p.sw ≠ some x.num) → (liveSwarms tm).find? (fun x => x.mode == .program) = some sw → sw.frame.log = [] →
      sw.kind = .team → teamRuns s tm = true → swarmRuns tm sw = true → p.wps = 0 →
      exec (.impreciseTrapDelivery t) s = .next (takeTrap (updTeam s t fun x => { x with traps := x.traps.drop 1 }) t n (liveLanes sw.frame)
        { cause := p.cause, imp := true, frg := p.frg, lane := (lowest (liveLanes sw.frame)).getD 0 } p.addr
        (some (p.rseq, p.bseq, p.addr, p.merges)))) ∧
    (tm.st = .parked → (∃ x ∈ liveSwarms tm, ∃ l ∈ x.frame.lanes, l.exited = false ∧ l.woken = true) →
      ∃ u, exec (.parkedWake t) s = .next u ∧ { u with teams := s.teams } = s ∧ findTeam u t = some { tm with st := .saved }) ∧
    (tm.st = .saved → canTake s core tm = true → nearestFor s core tm = true → sw.ended = false → sw.kind = .team →
      (∀ x ∈ s.teams, x.st = .saved → canTake s core x = true → x.prio < tm.prio ∨ x.prio = tm.prio ∧ tm.since ≤ x.since) →
      (∀ x ∈ s.m.l1, x.core = core → x.mode = .swc → x.dirty = 0) → ∀ pc, handlerEntry s tm tm.saver .rent = some pc →
      ∃ u tm' y, exec (.contextLoad t core) s = .next u ∧ findTeam u t = some tm' ∧ tm'.core = core ∧ tm'.st = .loading ∧
        findSwarm tm' n = some y ∧ y.mode = .handler tm.saver 0x41 ∧ y.frame = freshFrame pc 32 0 32 ∧ y.trapa = tm.token) ∧
    (tm.st = .faulted → ∃ u, exec (.faultedRetire t) s = .next u ∧ (∀ f ∈ u.faults, f.team ≠ t) ∧
      ∀ x ∈ u.teams, x.id = t → x.st = .retired ∧ ∀ y ∈ x.swarms, y.ended = true) ∧
    (∀ k rest s1 ps, spillList s core none = (tm, sw, k) :: rest →
      locateSpan s tm tm.level ⟨.write, false, false, none⟩ (tm.spill + 65536 * n + 128 * k) 128 = (s1, .ok ps) →
      (∀ p ∈ ps, wayOf s1 tm true p.1 = .here) →
      ∃ u y, exec (.registerSpill core) s = .next u ∧ swarmAt u t n = some y ∧
        (progFrame y).spilled = (progFrame sw).spilled ||| (1#512 <<< k) ∧ (progFrame y).regs = (progFrame sw).regs)

/-! ### Claim groups -/

/-- R300 to R311: GRPDECL binds the slot to the group of the record, or answers why not; GRPDROP frees it; CLAIM on an active group
proposes its write under a new id; OBJECT sends an objection before the deadline; CLWAIT parks until its claim is decided
and then delivers and removes the result; CLINBOX delivers the oldest unread entry, or zeros. -/
def Obligations.GroupWords : Prop :=
  ∀ (s : State) (c : Ctx) (o : Wd) (fab b8 : Bool),
    let t := c.f.team
    let n := c.f.swarm
    let fr := c.sw.frame
    let s0 := advance s c.f
    let lv := execLevel c.tm c.sw
    let i0 := (lowest c.act).getD 0
    let d := opIdx o.d
    let put (u : State) (k : Nat) (v : Word) : Prop := ∃ fr', frameAt u t n = some fr' ∧
      (k < 512 → ∀ ln ∈ lanesOf c.act, reg fr' ln k = v) ∧ ∀ ln ∈ lanesOf c.f.mask, (lane fr' ln).pc = c.f.pc + 12
    let slot (u : State) (g : Nat) (p : GrpSlot → Prop) : Prop := ∃ tm, findTeam u t = some tm ∧ p (slotAt tm g)
    c.sw.kind = .team → c.tm.grps.length = 4 →
    (let i : Instr := .grpdecl fab o
     let a := (opPair fr i0 o.a).toNat
     let m := (op32 fr i0 o.b).toNat / 4 % 64
     let g := (op32 fr i0 o.b).toNat % 4
     let rd : SpanAsk := ⟨.read, true, false, none⟩
     ∀ s2 bs s3 p k ps, stillOpen fr 0xFFFFFFFF (fun _ _ => true) = false → formBad a 64 = none →
       readSpan s0 c.tm lv rd (wordKey n) (some ⟨.none, .rlx, groupScope fab, false⟩) a 64 = .ok s2 bs →
       locateSpan s2 c.tm lv ⟨.read, false, false, none⟩ a 64 = (s3, .ok ((p, k) :: ps)) → Stands s i o c →
       let st := declStatus c.tm fab m g (placeAddr p) (findGroup s (placeAddr p)) (groupRec (findGroup s (placeAddr p)) (bytesVal bs))
       ∃ u, exec i s = .next u ∧ put u d (BitVec.ofNat 32 st) ∧
         ((slotAt c.tm g).grp.isSome = true → st = 1) ∧
         (st = 0 → slot u g fun x => x.grp = some (placeAddr p) ∧ x.member = m ∧ x.fab = fab ∧ x.serial = 1 ∧ x.table = [] ∧ x.claims = []) ∧
         (st ≠ 0 → slot u g fun x => x = slotAt c.tm g)) ∧
    (let i : Instr := .grpdrop o
     let g := o.a.immVal.toNat
     Stands s i o c → g < 4 → ∃ u, exec i s = .next u ∧
       ((slotAt c.tm g).grp = none → put u d 1) ∧ ((slotAt c.tm g).grp ≠ none → put u d 0 ∧ slot u g fun x => x = freeSlot)) ∧
    (let i : Instr := .claim b8 o
     let g := o.b.immVal.toNat
     let k := slotAt c.tm g
     let size := if b8 then 8 else 4
     ∀ a x s1 p f, k.grp = some a → findGroup s a = some x → x.st ≠ .forming → parkDropped c = false → k.claims.length < 16 →
       logFull fr = false → stillOpen fr 0xFFFFFFFF (fun _ _ => true) = false → g < 4 →
       locate s0 c.tm lv ⟨.g, .write, size, false, false, none⟩ none (opPair fr i0 o.a) = (s1, .ok (p, f)) →
       claimHome x.fab p = true → Stands s i o c →
       let id := k.member * 2 ^ 24 + k.serial
       ∃ u x' cl, exec i s = .next u ∧ put u (d + if b8 then 2 else 1) (BitVec.ofNat 32 id) ∧ findGroup u a = some x' ∧
         x'.claims = x.claims ++ [cl] ∧ cl.id = id ∧ cl.member = k.member ∧ cl.pa = placeAddr p ∧ cl.wide = b8 ∧
         cl.ts = s.pulse.toNat ∧ cl.arrived = false ∧ cl.value = (if b8 then regPair fr i0 d else (reg fr i0 d).setWidth 64) ∧
         slot u g fun y => y.claims = k.claims ++ [⟨id, none⟩] ∧
           y.serial = if k.serial + 1 = 2 ^ 24 then 1 else k.serial + 1) ∧
    (let i : Instr := .object o
     let k := slotAt c.tm o.b.immVal.toNat
     let id := op32 fr i0 o.a
     ∀ a x e, k.grp = some a → findGroup s a = some x → k.table.find? (fun e => e.id == id.toNat) = some e → Stands s i o c →
       (s.pulse.toNat < e.deadline.toNat → ∃ u, exec i s = .next u ∧
         findGroup u a = some { x with objs := x.objs ++ [(id.toNat, k.member, s.pulse.toNat)] }) ∧
       (e.deadline.toNat ≤ s.pulse.toNat →
         exec i s = .next (settleFaults (finish c (undoTrap c s0 0x1F (id.setWidth 64))) t n))) ∧
    (let i : Instr := .clwait o
     let g := o.b.immVal.toNat
     let k := slotAt c.tm g
     let id := (op32 fr i0 o.a).toNat
     k.grp ≠ none → parkDropped c = false → g < 4 → Stands s i o c →
       ((∀ r ∈ k.claims, r.id ≠ id) → ∃ u, exec i s = .next u ∧ put u d 3) ∧
       (∀ r v, k.claims.find? (fun r => r.id == id) = some r → r.res = some v → ∃ u, exec i s = .next u ∧ put u d v ∧
         slot u g fun y => y.claims = k.claims.filter fun r => r.id != id) ∧
       (∀ r, k.claims.find? (fun r => r.id == id) = some r → r.res = none → ∃ u fr', exec i s = .next u ∧
         frameAt u t n = some fr' ∧ ∀ ln ∈ lanesOf c.act, (lane fr' ln).pc = c.f.pc ∧ (lane fr' ln).park = some (.clwait g))) ∧
    (let i : Instr := .clinbox o
     let g := o.a.immVal.toNat
     let k := slotAt c.tm g
     let unread := k.table.filter fun e => !e.own && !e.read
     k.grp ≠ none → d + 7 < 512 → Stands s i o c →
       (unread = [] → ∃ u, exec i s = .next u ∧ ∀ j, j < 8 → put u (d + j) 0) ∧
       (∀ e es, unread = e :: es → ∃ u, exec i s = .next u ∧ put u d (BitVec.ofNat 32 e.id) ∧
         put u (d + 1) (BitVec.ofNat 32 (e.proposer + (if e.wide then 2 ^ 8 else 0) + es.length * 2 ^ 16)) ∧
         put u (d + 2) (loW e.target) ∧ put u (d + 3) (hiW e.target) ∧ put u (d + 4) (loW e.value) ∧ put u (d + 5) (hiW e.value) ∧
         put u (d + 6) (loW e.deadline) ∧ put u (d + 7) (hiW e.deadline)))

/-- R305 to R307: a proposal that arrives stands in every member's table, or objects for a member whose table is full; an
objection reaches the claim that it names; at T + WIN + b the earliest claim of a group is superseded by an earlier one that
collides with it, else objected, else committed with its value written, and its result is delivered. -/
def Obligations.ClaimDecisions : Prop :=
  ∀ (s : State) (a : Nat) (x : Group) (cl : Claim) (t : TeamId) (tm : Team) (g : Nat), findGroup s a = some x → x.addr = a →
    findTeam s t = some tm → g < 4 → tm.grps.length = 4 → (slotAt tm g).grp = some a → tm.id = t →
    (∀ u ∈ s.teams, u.id = t → u = tm) → (s.teams.filter fun u => u.id == t).length = 1 →
    (x.claims.find? (fun q => q.id == cl.id && !q.arrived) = some cl →
      ∃ u tm' x', exec (.claimProposalArrival a ⟨cl.id, none⟩) s = .next u ∧ findTeam u t = some tm' ∧ findGroup u a = some x' ∧
        (∀ q ∈ x'.claims, q.id = cl.id → q.arrived = true) ∧
        ((slotAt tm g).table.length < 64 → (slotAt tm' g).table = (slotAt tm g).table ++ [⟨cl.id, cl.member, cl.wide, cl.va, cl.value,
          BitVec.ofNat 64 (cl.ts + x.win), decide (cl.member = (slotAt tm g).member), false⟩]) ∧
        (64 ≤ (slotAt tm g).table.length → ∀ q ∈ x'.claims, q.id = cl.id → ∃ z, (z, 0x40) ∈ q.objs)) ∧
    (∀ id m st os, x.objs = (id, m, st) :: os → ∃ u x', exec (.objectionArrival ⟨a, none⟩) s = .next u ∧ findGroup u a = some x' ∧
      x'.objs = os ∧ x'.claims = x.claims.map fun q => if q.id = id then { q with objs := q.objs ++ [(st, m)] } else q) ∧
    (let size := if cl.wide then 8 else 4
     let beats (p q : Claim) : Prop := p.ts < q.ts ∨ p.ts = q.ts ∧ (p.member < q.member ∨
       p.member = q.member ∧ p.id % 2 ^ 24 < q.id % 2 ^ 24)
     let meets (q : Claim) : Prop := q.id ≠ cl.id ∧ (q.pa < cl.pa + size ∧ cl.pa < q.pa + if q.wide then 8 else 4) ∧
       q.ts < cl.ts + x.win ∧ cl.ts < q.ts + x.win ∧ beats q cl
     let decided (out cause : Nat) (p : State → Prop) : Prop := ∃ u tm', exec (.claimDecision a ⟨cl.id, none⟩) s = .next u ∧ p u ∧
       findTeam u t = some tm' ∧ (∀ e ∈ (slotAt tm' g).table, e.id ≠ cl.id) ∧
       ⟨cl.id, some (BitVec.ofNat 32 (out + cause * 2 ^ 8))⟩ ∈ (slotAt tm' g).claims
     x.claims.find? (fun q => q.id == cl.id) = some cl → (∀ q ∈ x.claims, q.arrived = true ∧ ¬ beats q cl) → x.objs = [] →
     cl.team = t → cl.slot = g → cl.member = (slotAt tm g).member → ⟨cl.id, none⟩ ∈ (slotAt tm g).claims →
     cl.ts + x.win + (if x.fab then 750 else 60) ≤ s.pulse.toNat → s.link.hostLines = [] → movingAt s.m cl.pa = false → foreignGroup a = false →
     (∀ p, x.past.filter (fun q => decide (meets q)) = [p] → decided 2 p.member fun _ => True) ∧
     (∀ m st, (∀ q ∈ x.past, ¬ meets q) → cl.revoked = false → cl.objs = [(st, m)] → st < cl.ts + x.win →
       decided 1 m fun u => ∀ k, (k < a ∨ a + 16 ≤ k) → u.m.ram.get k = s.m.ram.get k) ∧
     ((∀ q ∈ x.past, ¬ meets q) → cl.revoked = false → cl.objs = [] → isAway s (.pa cl.pa .coh) = false →
       heldLine s cl.pa = none → isAway s (.pa a .coh) = false → heldLine s a = none → (cl.pa + size ≤ a ∨ a + 16 ≤ cl.pa) →
       decided 0 0 fun u => ∀ k, k < size → (u.m.ram.get (cl.pa + k)).toNat = cl.value.toNat / 256 ^ k % 256))

/-! ### Pages and banks -/

/-- R353 to R362: PAGEMODE answers 1 where the page does not translate, 2 where it has the mode, else 0 with the leaf's mode
changed and no L1 copy left; TLBINV drops the translations of its context; PROBE delivers the leaf or the failure of its
walk; BMAPRD a word of the bank map; REMAP.bank starts a fold, or answers why not; REMAP.page within the package copies the
page and points the leaf at it. -/
def Obligations.PageWords : Prop :=
  ∀ (s : State) (c : Ctx) (o : Wd) (md : CohMode) (k : Stage) (all : Bool),
    let t := c.f.team
    let fr := c.sw.frame
    let i0 := (lowest c.act).getD 0
    let d := opIdx o.d
    let va := (opPair fr i0 o.a).toNat % 2 ^ 57
    let past (u : State) (p : Frame → Prop) : Prop := ∃ fr', frameAt u t c.f.swarm = some fr' ∧ p fr' ∧
      ∀ ln ∈ lanesOf c.f.mask, (lane fr' ln).pc = c.f.pc + 12
    let put (u : State) (j : Nat) (v : Word) : Prop := past u fun fr' => j < 512 → ∀ ln ∈ lanesOf c.act, reg fr' ln j = v
    laneOpen c s = false → fr.macroAt = none →
    (let i : Instr := .pagemode md o
     let r := rootsOf s c.tm.part c.tm.slice c.tm.asn
     Ready s i o .two none i.fields c →
       (leaf1 s.m r va = none → ∃ u, exec i s = .next u ∧ put u d 1 ∧ u.m.ram = s.m.ram) ∧
       (∀ x, leaf1 s.m r va = some x → modeOf x.ent = md → ∃ u, exec i s = .next u ∧ put u d 2 ∧ u.m.ram = s.m.ram) ∧
       (∀ x, leaf1 s.m r va = some x → modeOf x.ent ≠ md → (∀ q ∈ leafRuns s.m r x, movingAt s.m q.1 = false) →
         ∃ u, exec i s = .next u ∧ put u d 0 ∧ entMode (ramVal u.m x.at_ 8) = modeCode md ∧
           (∀ n, n < 58 → (ramVal u.m x.at_ 8).testBit n = x.ent.testBit n) ∧
           (∀ y ∈ u.m.l1, lineIn (leafRuns s.m r x) y.line = false) ∧
           ∀ y ∈ u.m.tlb, ¬ (y.part = c.tm.part ∧ y.slice = c.tm.slice ∧ y.level = .prog ∧ inRun (va, x.bits) y.va = true))) ∧
    (let i : Instr := .tlbinv all k o
     let x := pageCtx c k o.b.immVal.toNat
     let a : Option Nat := if all then none else some va
     ctxForeign s c k o.b.immVal.toNat = false → s.link.reqs = [] →
     (∀ tm ∈ s.teams, ∀ sw ∈ tm.swarms, sw.frame.log = []) → Ready s i o (stageLevel k) none i.fields c →
       ∃ u, exec i s = .next u ∧ past u (fun _ => True) ∧
         u.m.tlb = s.m.tlb.filter fun y => !(x.has y.part y.slice y.asn && tlbUses k a y)) ∧
    (let i : Instr := .probe k o
     let w := probeWalk s (pageCtx c k o.b.immVal.toNat) k va
     ctxForeign s c k o.b.immVal.toNat = false → d + 2 < 512 → Ready s i o (stageLevel k) none i.fields c →
       ∃ u x, exec i s = .next u ∧ put u (d + 2) (BitVec.ofNat 32 x) ∧
         (∀ out bits e at_ l, w = .leaf out bits e at_ l → put u d (loW (BitVec.ofNat 64 out)) ∧
           put u (d + 1) (hiW (BitVec.ofNat 64 out)) ∧ x % 8 = l % 8 ∧ x / 2 ^ 16 % 16 = e / 4 % 16 ∧
           x / 2 ^ 20 % 4 = entMode e ∧ x.testBit 22 = entFwd e ∧ x.testBit 23 = entMv e) ∧
         (∀ ca st, w = .fail ca st → put u d 0 ∧ put u (d + 1) 0 ∧ x / 2 ^ 8 % 256 = ca % 256 ∧ x / 2 ^ 4 % 4 = st % 4)) ∧
    (let i : Instr := .bmaprd o
     let w := o.b.immVal.toNat
     let st := stackOf s.m o.a.immVal.toNat
     Ready s i o .one none i.fields c → ∃ u x, exec i s = .next u ∧ put u d (loW (BitVec.ofNat 64 x)) ∧
       (d + 1 < 512 → put u (d + 1) (hiW (BitVec.ofNat 64 x))) ∧
       (w < 128 → ∀ j, j < 64 → x.testBit j = bankOn st (64 * w + j)) ∧
       (w = 128 → x % 2 ^ 32 = ((List.range 8192).filter (bankOn st)).length ∧ x / 2 ^ 48 = st.gen % 2 ^ 16)) ∧
    (let i : Instr := .remapBank o
     let a := o.a.immVal.toNat
     let n := match o.b with
       | .imm x => x.toNat
       | x => (op32 fr i0 x).toNat
     let st := stackOf s.m (a % 8)
     Ready s i o .fw none i.fields c →
       (st.fold ≠ none → ∃ u, exec i s = .next u ∧ put u d 1 ∧ u.m.stackSts = s.m.stackSts) ∧
       (a / 8 % 2 = 0 → st.fold = none → bankLive st n = false → ∃ u, exec i s = .next u ∧ put u d 3 ∧ u.m.stackSts = s.m.stackSts) ∧
       (a / 8 % 2 = 0 → st.fold = none → bankLive st n = true → st.retired.length ≠ 64 → ∃ u, exec i s = .next u ∧ put u d 0 ∧
         stackOf u.m (a % 8) = { st with fold := some ⟨n, false, a / 16 % 2 == 1, 0⟩ })) ∧
    (let i : Instr := .remapPage o
     let a := (opPair fr i0 o.a).toNat
     let nb := (opPair fr i0 o.b).toNat % 2 ^ 57
     (∀ x ∈ s.m.moving, x.leaf ≠ a) → Ready s i o .fw none i.fields c →
       (leaf3 s a = none → ∃ u, exec i s = .next u ∧ put u d 3 ∧ u.m.ram = s.m.ram) ∧
       (∀ e bits, leaf3 s a = some (e, bits) → newBaseBad s c.tm nb (entAddr e) bits = true →
         ∃ u, exec i s = .next u ∧ put u d 2 ∧ u.m.ram = s.m.ram) ∧
       (∀ e bits, leaf3 s a = some (e, bits) → newBaseBad s c.tm nb (entAddr e) bits = false → isRemote (.pa nb .coh) = false →
         (∀ y ∈ s.m.l1, y.dirty = 0) → (a + 8 ≤ nb ∨ nb + 2 ^ bits ≤ a) →
         ∃ u, exec i s = .next u ∧ put u d 0 ∧ entAddr (ramVal u.m a 8) = nb ∧
           ∀ j, j < 2 ^ bits → u.m.ram.get (nb + j) = s.m.ram.get (entAddr e + j)))

/-- R347, R348, R359 to R364: a walk that succeeds is held in the TLB; a fold moves a line at a time and retires its bank with the
last; the assay engine quiesces, patterns row by row and restores; a demand hold ends the beat and is counted; an idle
unit of Live banks sleeps; the units of a wake slot are awake when it ends. -/
def Obligations.BankEvents : Prop :=
  ∀ (s : State) (k core part slice asn : Nat) (va : DWord) (need : AccNeed),
    let st := stackOf s.m k
    let becomes (i : Instr) (x : StackSt) : Prop := ∃ u, exec i s = .next u ∧ stackOf u.m k = x ∧
      (∀ j, j ≠ k → stackOf u.m j = stackOf s.m j) ∧ { u with m := s.m, logs := s.logs, draws := s.draws } = s
    let w := walkAll s (clusOf core) part slice asn .prog need (va.toNat % 2 ^ 57)
    (∀ x, w = .ok x → ∀ y, x.ent = some y → ∃ u, exec (.tableWalk core part slice asn va need) s = .next u ∧ y ∈ u.m.tlb ∧
      { u with m := s.m } = s ∧ ∀ z ∈ s.m.tlb, z ∈ u.m.tlb) ∧
    (∀ ca, w = .error ca → exec (.tableWalk core part slice asn va need) s = .next s) ∧
    (k < 8 → s.m.stackSts.length ≤ 8 →
      (st.fold = none → exec (.foldLineMove k) s = .next s) ∧
      (∀ f, st.fold = some f → f.moved + 1 < foldLines st f →
        becomes (.foldLineMove k) { st with fold := some { f with moved := f.moved + 1 } }) ∧
      (∀ f, st.fold = some f → foldLines st f ≤ f.moved + 1 → f.unfold = false →
        becomes (.foldLineMove k) { st with retired := st.retired ++ [(f.bank, f.thermal)], gen := st.gen + 1, fold := none }) ∧
      (st.assay = 1 → becomes (.assayBeat k) { st with assay := 2 }) ∧
      (st.assay = 2 → st.row < 2 ^ 17 → becomes (.assayBeat k)
        { st with row := (st.row + 1) % 2 ^ 17, assay := if st.row + 1 = 2 ^ 17 then 3 else 2 }) ∧
      (st.assay ≠ 0 → becomes (.demandHold k) { st with assay := 0, holds := st.holds + 1 }) ∧
      (∀ pillar layer, pillar < 256 → layer < 8 → (∀ j, j < 4 → bankLive st (1024 * layer + 4 * pillar + j) = true) →
        becomes (.bankSleep k pillar layer) { st with asleep := st.asleep ++ [8 * pillar + layer] }) ∧
      (∀ n, demandUnits s k = [] → st.run = some n → ∃ u, exec (.wakeSlot k) s = .next u ∧
        (∀ x, x ∈ (stackOf u.m k).asleep ↔ x ∈ st.asleep ∧ ¬ (x < 2048 ∧ unitSlot x = n ∧ x ∈ st.waking)) ∧
        (n < 14 → (stackOf u.m k).run = some (n + 1))))

/-! ### The link -/

/-- R379 to R388: CHAINST writes its data to a target and raises its sync word; FRED sends its lanes' values to the slot of the
record's node; FREDWT sends a collect and parks, and takes the reply once it is there; VFCTL enables, drains and reads a
function of the issuer's partition. -/
def Obligations.LinkWords : Prop :=
  ∀ (s : State) (c : Ctx) (o : Wd) (q : MemQ) (op : FredOp),
    let t := c.f.team
    let n := c.f.swarm
    let fr := c.sw.frame
    let s0 := advance s c.f
    let lv := execLevel c.tm c.sw
    let i0 := (lowest c.act).getD 0
    let d := opIdx o.d
    let rd : SpanAsk := ⟨.read, true, false, none⟩
    let past (u : State) (p : Frame → Prop) : Prop := ∃ fr', frameAt u t n = some fr' ∧ p fr' ∧
      ∀ ln ∈ lanesOf c.f.mask, (lane fr' ln).pc = c.f.pc + 12
    let put (u : State) (j : Nat) (v : Word) : Prop := past u fun fr' => j < 512 → ∀ ln ∈ lanesOf c.act, reg fr' ln j = v
    let node (a : Nat) (r : FredRec) (f : Fn) (s1 : State) (bs : List Byte) : Prop :=
      formBad a 64 = none ∧ readSpan s0 c.tm lv rd (wordKey n) (some pkgQ) a 64 = .ok s1 bs ∧
      parseFred s1 c.tm.part (bytesVal bs) = some r ∧ sliceFn s1 c.tm.part c.tm.slice (r.node / 18) = some f ∧
      s1.boot.ready.getLsbD (216 + r.node) = true ∧ f.st ≠ .draining ∧ canSend s1 c.tm.part f (some r.node) = true
    (let i : Instr := .chainst q o
     let list := (opPair fr i0 o.a).toNat
     let size := (o.b.immVal.toNat % 256 + 1) * 16
     ∀ s2 bs s3 dst sync pa s4 data, swarmOpen q c s = false → list < 2 ^ 57 → list % 64 = 0 → o.b.immVal.toNat / 2 ^ 15 % 8 = 0 →
       readSpan s0 c.tm lv rd (wordKey n) (some plainQ) list 16 = .ok s2 bs →
       chainFirstBad s2 c.tm size (chainEntries 1 bs) 0 = none → chainTargets c.tm lv size list s2 (chainEntries 1 bs) 0 = (s3, .ok [(dst, sync, pa)]) →
       readSpan s3 c.tm lv rd (wordKey n) (some plainQ) (opPair fr i0 o.d).toNat size = .ok s4 data →
       isRemote (.pa pa .coh) = false → movingAt s.m pa = false → s.link.hostLines = [] → (∀ x ∈ s.link.chains, x.num < s.link.reqNo) →
       s4.link.reqNo = s.link.reqNo → Stands s i o c →
       ∃ u, exec i s = .next u ∧ past u (fun fr' => fr'.log.length = fr.log.length) ∧
         (∀ j, j < data.length → u.m.ram.get (pa + j) = nth 0 data j) ∧ u.link.chains = s.link.chains ∧
         (sync = 0 → u.arrivals = s.arrivals) ∧
         (∀ v off, sync ≠ 0 → syncPlace s c.tm sync.toNat = some (v, off) → u.arrivals = s.arrivals ++ [⟨v, off, data.length, none⟩])) ∧
    (let i : Instr := .fred op q o
     ∀ r f s1 bs, node (laneAddr fr o i0).toNat r f s1 bs → memWait (some q) c s = false → q.ord = .rlx → Stands s i o c →
       ∃ u m x, exec i s = .next u ∧ past u (fun fr' => ∃ e, e ∈ fr'.log ∧ e.ins = i ∧ e.away = bit32 i0 ∧ e.num = m) ∧
         x ∈ u.link.reqs ∧ x.n = s1.link.reqNo ∧ x.who = .lane t n m i0 ∧ x.port = some r.node ∧
         ∃ vals, x.op = .fred r.slot ⟨r.me, r.round, op, r.n, r.tmo, c.act, vals, 0⟩ ∧
           ∀ ln ∈ lanesOf c.act, nth 0 vals ln = op32 fr ln o.d) ∧
    (let i : Instr := .fredwt q o
     (∀ r f s1 bs, node (laneAddr fr o i0).toNat r f s1 bs → (∀ ln ∈ lanesOf c.act, (lane fr ln).park = none) →
       cntOf fr q.cls ≠ 63 → Stands s i o c →
       ∃ u x fr', exec i s = .next u ∧ x ∈ u.link.reqs ∧ x.op = .collect r.slot r.round r.me r.tmo ∧ x.who = .collect t n c.act c.sw.hidden.isSome ∧
         frameAt u t n = some fr' ∧
         ∀ ln ∈ lanesOf c.act, (lane fr' ln).pc = c.f.pc ∧ (lane fr' ln).park = some (.fredwt (q.cls == .ld) none)) ∧
     (∀ (v st em : Nat → Word) (l : Bool), (∀ ln ∈ lanesOf c.act, (lane fr ln).park = some (.fredwt l (some (0, v ln, st ln, em ln)))) →
       d + 2 < 512 → Stands s i o c → ∃ u, exec i s = .next u ∧ past u fun fr' => ∀ ln ∈ lanesOf c.act,
         reg fr' ln d = v ln ∧ reg fr' ln (d + 1) = st ln ∧ reg fr' ln (d + 2) = em ln)) ∧
    (∀ vd hd, o.d = .main .v vd hd →
     let f := fnOf s o
     let k := o.b.immVal.toNat % 8
     (let i : Instr := .vfctlEnable o
      Ready s i o .one none i.fields c → ∃ u st, exec i s = .next u ∧ put u d (BitVec.ofNat 32 st) ∧
        (fnMine s c f (some k) = false → st = 3) ∧
        (fnMine s c f (some k) = true → f.st ≠ .disabled → f.st ≠ .torn → st = 2) ∧
        (fnMine s c f (some k) = true → (f.st = .disabled ∨ f.st = .torn) → o.b.immVal.getLsbD 3 = false →
          (freeAllow s f.die < 256 → st = 1) ∧ (256 ≤ freeAllow s f.die → st = 0)) ∧
        (st = 0 → getFn u f.die f.num =
          { f with st := .enabled, slice := k, inbound := o.b.immVal.getLsbD 3, late := 0, kept := [] }) ∧
        (st ≠ 0 → u.link = s.link)) ∧
     (let i : Instr := .vfctlDrain o
      Ready s i o .one none i.fields c → (∀ x ∈ s.link.reqs, x.die ≠ f.die ∨ x.fnum ≠ f.num) →
        ∃ u st, exec i s = .next u ∧ put u d (BitVec.ofNat 32 st) ∧ (fnMine s c f none = false → st = 3) ∧
        (fnMine s c f none = true → f.st = .enabled ∨ f.st = .frozen → st = 0 ∧
          getFn u f.die f.num = { f with st := .draining, kept := [], since := s.pulse.toNat }) ∧
        (fnMine s c f none = true → f.st ≠ .enabled → f.st ≠ .frozen → st = 2 ∧ u.link = s.link)) ∧
     (let i : Instr := .vfctlStatus o
      Ready s i o .one none i.fields c → ∃ u, exec i s = .next u ∧ u.link = s.link ∧
        (fnMine s c f none = false → put u d 3) ∧
        (fnMine s c f none = true → put u d (BitVec.ofNat 32 (fnCode f.st + f.slice % 8 * 2 ^ 4 + (if f.inbound then 2 ^ 7 else 0) +
          c.tm.part % 16 * 2 ^ 8 + min 65535 f.late * 2 ^ 16)))))

/-- R366 to R380, R386, R390: what the host and the fabric send and answer. Answers go to whoever waits, with their cause where
they fail; inbound writes are ordered and performed, reads are answered after them, AtomicOps are refused; functions drain
and are torn down; snoops invalidate; flits are replayed and acknowledged, and carry MXFP8 blocks in 33 bytes each; the time base
is corrected upwards. -/
def Obligations.LinkEvents : Prop :=
  ∀ (s : State) (n die fn port pkg rp p line : Nat) (addr : DWord) (bs : List Byte) (ro : Bool),
    let link (u : State) : Prop := { u with link := s.link } = s
    let f := getFn s die fn
    (∀ q t k pa m, findReq s n = some q → q.who = .fetch t k pa m → q.op = .read m → bs.length = m →
      let got (i : Instr) (ca : Nat) (x : List Byte) : Prop := ∃ u, exec i s = .next u ∧ link u ∧
        u.link.bufs = s.link.bufs ++ [⟨t, k, pa, m, ca, x⟩] ∧ ∀ y ∈ u.link.reqs, y.n ≠ n
      (q.port = none → got (.hostCompletion n (.ok bs)) 0 bs ∧ got (.hostCompletion n .hostError) 0x3B [] ∧
        got (.hostCompletion n .poisoned) 0x3E [] ∧
        (q.at_.toNat + 10000000 ≤ s.pulse.toNat → got (.completionTimeout n) 0x3C [])) ∧
      (∀ m, q.port = some m → (∀ x ∈ (findPort s m).tx, x.2 ≠ q.n) → got (.remoteReply n (.ok bs)) 0 bs ∧
        got (.remoteReply n .refused) 0x35 [] ∧ got (.remoteReply n .aborted) 0x38 [] ∧ got (.remoteReply n .notAdmitted) 0x39 [] ∧
        got (.remoteReply n .poisoned) 0x3E [] ∧ (q.at_.toNat + 2000000 ≤ s.pulse.toNat → got (.remoteTimeout n) 0x37 []))) ∧
    (∀ q slot x, findReq s n = some q → q.op = .fred slot x → q.port = some port → (∀ y ∈ (findPort s port).tx, y.2 ≠ q.n) →
      (∀ t w m ln, q.who = .lane t w m ln → swarmAt s t w = none) → (∃ t w m ln, q.who = .lane t w m ln) →
      ∃ u, exec (.fredAnswer n [] s.pulse.toNat) s = .next u ∧
        nodeSlot u port slot = contribute (nodeSlot s port slot) { x with at_ := s.pulse.toNat }) ∧
    (∀ l, die < 2 → 0 < fn → fn ≤ 128 → 0 < bs.length → bs.length ≤ maxPayload s die fn → f.st = .enabled →
      inLines s die fn .write (spanParts (bs.length / 128 + 2) addr.toNat bs.length) = some l →
      ∃ u w, exec (.inboundWrite die fn addr bs ro false) s = .next u ∧ link u ∧ u.link.inw = s.link.inw ++ [w] ∧ w.die = die ∧
        w.num = s.link.inNo ∧ w.ro = ro ∧ (∀ x ∈ w.pieces, x.acked = false ∧ (x.released.isSome = ro) ∧
          x.lines = (chunkBytes l bs).filter fun y => routeOfPa y.1 == x.route)) ∧
    (die < 2 → fn ≤ 128 → 0 < bs.length → bs.length ≤ maxPayload s die fn → ∃ u, exec (.inboundWrite die fn addr bs ro true) s = .next u ∧
      u.m = s.m ∧ u.link = s.link ∧ ∃ y ∈ u.logs, y.owner = .fw ∧ y.log = 1 ∧ y.ev = .poison die fn) ∧
    (∀ l, die < 2 → 0 < fn → fn ≤ 128 → 0 < n → n ≤ 4096 → f.st = .enabled →
      inLines s die fn .read (spanParts (n / 128 + 2) addr.toNat n) = some l → (∀ x ∈ s.link.inw, x.die ≠ die) →
      (∀ x ∈ l, movingAt s.m x.1 = false) →
      ∃ u, exec (.inboundRead die fn addr n) s = .next u ∧ link u ∧
        u.link.hostOut = s.link.hostOut ++ [⟨die, fn, 0, l.flatMap fun x => tabBytes s.m.ram x.1 x.2⟩]) ∧
    (∃ u, exec (.inboundAtomicop die fn) s = .next u ∧ link u ∧ u.link.hostOut = s.link.hostOut ++ [⟨die, fn, 1, []⟩]) ∧
    (∀ w x k, findPiece s die n port = some (w, x) → x.released = some k → x.lines = [] → x.acked = false → snpWaits s = false →
      earlierOn s die port k (fun q => !q.acked) = false → w.pieces.length = 1 →
      (∀ y ∈ s.link.inw, y.die = die → y.num = n → y = w) →
      ∃ u, exec (.pieceAck die n port) s = .next u ∧ link u ∧ ∀ y ∈ u.link.inw, ¬ (y.die = die ∧ y.num = n)) ∧
    (0 < fn → (f.st = .enabled ∨ f.st = .frozen) → (∀ q ∈ s.link.reqs, q.die ≠ die ∨ q.fnum ≠ fn) →
      ∃ u, exec (.functionLevelReset die fn) s = .next u ∧
        getFn u die fn = { f with st := .draining, kept := [], since := s.pulse.toNat }) ∧
    (f.st = .draining → (f.kept = [] ∨ f.since + 4000000 ≤ s.pulse.toNat) →
      ∃ u, exec (.drainTimeout die fn) s = .next u ∧ link u ∧
        getFn u die fn = { f with st := .torn, kept := [], dropped := f.dropped ++ f.kept }) ∧
    (∀ off v, die < 2 → fn ≤ 128 → off < 4096 → ∃ u, exec (.configurationWrite die fn off v) s = .next u ∧ link u ∧
      (getFn u die fn).cfg.get (off / 4) = v ∧ ∀ j, j ≠ off / 4 → (getFn u die fn).cfg.get j = f.cfg.get j) ∧
    (line ∈ s.link.hostLines → line ∉ s.link.bis →
      ∃ u, exec (.biSnp line) s = .next u ∧ link u ∧ u.link.bis = s.link.bis ++ [line]) ∧
    (line ∈ s.link.bis → bs.length = 128 → ∃ u v, exec (.biSnpAnswer line .clean) s = .next u ∧ link u ∧
      u.link.hostLines = s.link.hostLines.erase line ∧ exec (.biSnpAnswer line (.dirty bs)) s = .next v ∧
      v.link.hostLines = s.link.hostLines.erase line ∧ tabBytes v.m.ram (128 * line) 128 = bs) ∧
    (∀ x, s.link.cxl.find? (fun y => y.line == line) = some x → ∃ u v, exec (.cxlCacheSnoop line true) s = .next u ∧
      (∀ y ∈ u.link.cxl, y.line ≠ line) ∧ exec (.cxlCacheSnoop line false) s = .next v ∧
      v.link.cxl = { x with dirty := false } :: s.link.cxl.filter (fun y => y.line != line) ∧
      (x.dirty = true → ∃ a ∈ v.link.hostOut, a.data = tabBytes x.bytes 0 128)) ∧
    (∀ g y, port < 36 → inboundFn s p (portDie port) = some g → g.st = .enabled → 0 < n → addr.toNat % 4096 + n ≤ 4096 →
      (admits s p pkg rp = false → ∃ u, exec (.fabricRequest port pkg rp p addr (.read n)) s = .next u ∧ link u ∧
        u.link.fabOut = s.link.fabOut ++ [⟨pkg, s.link.reqNo, 0x39, []⟩]) ∧
      (admits s p pkg rp = true → walkAll s 0 p g.slice 0 .one .read (addr.toNat % 2 ^ 40) = .ok y → y.fwd = false →
        isRemote (.pa y.pa y.mode) = false → movingAt s.m y.pa = false →
        ∃ u, exec (.fabricRequest port pkg rp p addr (.read n)) s = .next u ∧ link u ∧
          u.link.fabOut = s.link.fabOut ++ [⟨pkg, s.link.reqNo, 0, tabBytes s.m.ram y.pa n⟩])) ∧
    (∃ u, exec (.snp line) s = .next u ∧ u.m.ram = s.m.ram ∧ (∀ x ∈ u.m.mons, x.line ≠ line) ∧
      ∀ x ∈ s.m.l1, x.line = line → x.mode = .coh → ∃ e ∈ u.m.invq, e.core = x.core ∧ e.line = line) ∧
    ((findPort s port).num = port → ((findPort s port).replay ≠ [] → ∃ u, exec (.flitCrcFail port) s = .next u ∧ link u ∧
        findPort u port = { findPort s port with sent := (findPort s port).sent + (findPort s port).replay.length }) ∧
      (∀ x r, (findPort s port).replay = x :: r → (findPort s port).tx = [] → ∃ u, exec (.flitAcknowledge port) s = .next u ∧
        link u ∧ findPort u port = { findPort s port with replay := r })) ∧
    (∀ d : Int, 0 < d → d ≤ 32 → s.boot.ready.getLsbD 257 = true → ∃ u, exec (.pulseCorrection d) s = .next u ∧
      u.pulse = s.pulse + BitVec.ofInt 64 d) ∧
    (∀ d : Int, d ≤ 0 → exec (.pulseCorrection d) s = .next s) ∧
    (∀ bl : List MxBlock, bl.length ≤ 7 → (∀ b ∈ bl, b.els.length = 32) →
      let flit := flitOf bl
      flit.length = 240 ∧ (∀ j, 231 ≤ j → nth 0 flit j = 0) ∧
      ∀ k b, bl[k]? = some b → nth 0 flit (33 * k) = b.scale ∧ (∀ i, i < 32 → nth 0 flit (33 * k + 1 + i) = nth 0 b.els i) ∧
        flitBlock flit k = b)

/-! ### Partitions and management -/

/-- R402 to R405: a command ends with RESULT, STATUS and HEAD written and its vector sent; a queue that the table does not name
for it answers 0x80, a slice without the right 0x81.
R368, R380, R385, R400, R404, R412: what firmware's own commands do. -/
def Obligations.FirmwareCommands : Prop :=
  (∀ (s : State) (c : Cmd) (q : MgmtQ) (p k : Nat), getQueue s c.q = some q → q.cur = none →
    let ends (i : Instr) (st : Nat) : Prop := exec i s = .next (endCmd s c (recVec s c q) st 0)
    (c.q = .fw → ∀ i ∈ [Instr.slice c, .unslice c, .root c, .hnd c, .grant c, .run c, .preempt c, .freeze c, .admits c, .log c],
      ends i 0x80) ∧
    (c.q = .part p → ∀ i ∈ [Instr.part c, .unpart c, .vfassign c, .hdm c, .frgrant c, .fwupd c], ends i 0x80) ∧
    (c.q = .slice p k → ∀ i ∈ [Instr.slice c, .unslice c, .setq c, .grant c, .carve c, .admits c, .part c, .unpart c, .vfassign c,
      .hdm c, .frgrant c, .fwupd c], ends i 0x80) ∧
    (∀ y, c.q = .slice p k → findSlice s p k = some y →
      (y.rP = false → ends (.preempt c) 0x81) ∧ (y.rF = false → ends (.freeze c) 0x81 ∧ ends (.thaw c) 0x81) ∧
      (y.rL = false → ends (.log c) 0x81)) ∧
    (c.q = .fw → q.base % 128 = 0 → q.base + 16448 ≤ 2 ^ 40 → ∀ vec st res,
      let u := endCmd s c vec st res
      let r := recAddr q c.e
      u.fwq = some q ∧ ramVal u.m (r + 4) 1 = st % 2 ^ 8 ∧ ramVal u.m (r + 8) 8 = res % 2 ^ 64 ∧
      ramVal u.m (q.base + 4) 4 = (c.e + 1) % 2 ^ 32 ∧
      (∀ a, ¬ (a = r + 4 ∨ r + 8 ≤ a ∧ a < r + 16 ∨ q.base + 4 ≤ a ∧ a < q.base + 8) → u.m.ram.get a = s.m.ram.get a) ∧
      (vec = 0xFF → u.msis = s.msis) ∧
      (vec ≠ 0xFF → fnOpen s (q.func / 256 % 2) (q.func % 256) = true → u.msis = s.msis ++ [⟨q.func, vec⟩]))) ∧
  (∀ (s : State) (c : Cmd) (q : MgmtQ), c.q = .fw → s.fwq = some q → q.cur = none →
    let a := c.a0.toNat
    let b := c.a1.toNat
    let n := c.a2.toNat
    let ends (i : Instr) (st : Nat) (f : State → Prop) : Prop := ∃ u, exec i s = .next (endCmd u c (recVec s c q) st 0) ∧ f u
    (let m := b + n * 2 ^ 64
     a < 16 → 0 < m → m < 2 ^ 96 → c.a3.toNat % 4096 = 0 → c.a3.toNat < 2 ^ 57 → c.a4.toNat % 2 ^ 30 = 0 → c.a4.toNat < 2 ^ 57 →
      (∀ j, j < 96 → m.testBit j = true → clusReady s j = true) →
      ((∃ x ∈ s.parts, x.num = a) → ends (.part c) 1 fun u => u = s) ∧
      ((∀ x ∈ s.parts, x.num ≠ a) →
        ((∃ x ∈ s.parts, ∃ j, j < 96 ∧ m.testBit j = true ∧ x.clus.getLsbD j = true) → ends (.part c) 2 fun u => u = s) ∧
        ((∀ x ∈ s.parts, ∀ j, j < 96 → m.testBit j = true → x.clus.getLsbD j = false) →
          ends (.part c) 0 fun u => ∃ x, findPart u a = some x ∧ x.clus = BitVec.ofNat 96 m ∧ x.root3 = c.a3.toNat ∧
            x.brood = c.a4.toNat ∧ x.slices = [] ∧ ∀ e, x.grants.get e = 0))) ∧
    (∀ x, findPart s a = some x →
      ((∀ f ∈ s.link.fns, f.part = some a → f.st = .disabled ∨ f.st = .torn) → ends (.unpart c) 0 fun u =>
        findPart u a = none ∧ (∀ f ∈ u.link.fns, f.part ≠ some a) ∧ u.link.hdm ≠ some a ∧ ∀ y ∈ u.m.tlb, y.part ≠ a) ∧
      (ends (.hdm c) 0 fun u => u.link.hdm = some a) ∧
      (b < 36 → n < 2 ^ 32 → ends (.frgrant c) 0 fun u => fredGrant u a b = (n / 2 ^ 16, n % 2 ^ 16))) ∧
    (∀ x, findPart s b = some x → a < 512 → 0 < a % 256 → a % 256 ≤ 128 → isReady s (.lrx (a / 256)) = true →
      let f := getFn s (a / 256) (a % 256)
      (f.st = .disabled ∨ f.st = .torn → ends (.vfassign c) 0 fun u => getFn u (a / 256) (a % 256) = { f with part := some b }) ∧
      (f.st ≠ .disabled → f.st ≠ .torn → ends (.vfassign c) 2 fun u => u = s)) ∧
    (∀ bs, 384 < b → b ≤ 2 ^ 24 → mgmtRead s c.q .fw a b = some bs →
      (imageOk bs = false → ends (.fwupd c) 1 fun u => u = s) ∧
      (imageOk bs = true → ends (.fwupd c) 0 (fun u => u.boot.flash = bs) ∨ ends (.fwupd c) 1 fun u => u.boot.flash = [])))

/-- R286, R399 to R409: what each command of a partition's and of a slice's queue does when its arguments are in order, with the
status and the result with which it ends. -/
def Obligations.PartitionCommands : Prop :=
  ∀ (s : State) (c : Cmd) (q : MgmtQ) (p : Nat) (x : Part), c.q = .part p → getQueue s c.q = some q → findPart s p = some x →
    let v := recVec s c q
    let a := c.a0.toNat
    let b := c.a1.toNat
    let n := c.a2.toNat
    let ends (i : Instr) (st res : Nat) (f : State → Prop) : Prop := ∃ u, exec i s = .next (endCmd u c v st res) ∧ f u
    let quiet : Prop := s.link.reqs = [] ∧ ∀ tm ∈ s.teams, ∀ sw ∈ tm.swarms, sw.frame.log = []
    let idle (k : Nat) : Prop := ∀ f ∈ s.link.fns, f.part = some p → f.slice = k → f.st = .disabled ∨ f.st = .torn
    (q.cur = none →
      (let own := maskClus x.clus
       let m := b + n * 2 ^ 64
       a < 8 → 0 < m → m < 2 ^ own.length → (∀ j, j < own.length → m.testBit j = true → clusReady s (nth 0 own j) = true) →
        ((∃ y ∈ x.slices, y.num = a) → ends (.slice c) 1 0 fun u => u = s) ∧
        ((∀ y ∈ x.slices, y.num ≠ a) → (∀ y ∈ x.slices, ∀ j, j < own.length → m.testBit j = true → y.clus.getLsbD (nth 0 own j) = false) →
          ends (.slice c) 0 0 fun u => { u with parts := s.parts } = s ∧ ∃ y, findSlice u p a = some y ∧
            (∀ j, j < own.length → y.clus.getLsbD (nth 0 own j) = m.testBit j) ∧ y.clus &&& ~~~x.clus = 0 ∧
            y.rP = false ∧ y.rF = false ∧ y.rL = false)) ∧
      (∀ y, findSlice s p a = some y →
        (idle a → ends (.unslice c) 0 0 fun u => findSlice u p a = none ∧ (∀ tm ∈ u.teams, ¬ (tm.part = p ∧ tm.slice = a)) ∧
          ∀ g ∈ u.grids, g.part = p → g.slice = a → g.st = .aborted ∨ g.st = .retired) ∧
        (let func := n % 512
         let evec := n / 2 ^ 16 % 256
         b % 65536 = 0 → n = func + evec * 2 ^ 16 → func % 256 ≤ 128 → mgmtSpan s (.slice p a) .one .rw b 16448 ≠ none →
          isReady s (.lrx (func / 256)) = true → (∀ z, y.queue = some z → z.cur = none) →
          ends (.setq c) 0 0 fun u => getQueue u (.slice p a) = some ⟨b, func, evec, false, none⟩) ∧
        (quiet → b % 4096 = 0 → b < 2 ^ 57 →
          ends (.root c) 0 0 fun u => findSlice u p a = some { y with root2 := b } ∧
            ∀ e ∈ u.m.tlb, ¬ (e.part = p ∧ e.slice = a ∧ (e.level = .prog ∨ e.level = .two))) ∧
        (b < 8 → n < 2 → ends (.grant c) 0 0 fun u => findSlice u p a = some { y with
            rP := if b.testBit 0 then n == 0 else y.rP, rF := if b.testBit 1 then n == 0 else y.rF,
            rL := if b.testBit 2 then n == 0 else y.rL } ∧
          (n = 1 → b.testBit 1 = true → ∀ f ∈ u.freezes, ¬ (f.owner = .two ∧ f.part = p ∧ f.slice = a))) ∧
        (b < 8 → isReady s (.stk b) = true →
          let size (t : Tab 32) : Nat := (t.get b).toNat
          let others := ((x.slices.filter fun z => z.num != a).map fun z => size z.carve).sum
          (192 < n ∨ size x.carve < n + others → ends (.carve c) 1 0 fun u => u = s) ∧
          (n ≤ 192 → n + others ≤ size x.carve →
            ends (.carve c) 0 0 fun u => findSlice u p a = some { y with carve := y.carve.set b (BitVec.ofNat 32 n) } ∧
              u.m.ram = s.m.ram))) ∧
      (∀ bs, a ≠ 0 → a % 64 = 0 → mgmtRead s c.q .one a 64 = some bs →
        (hndBad (bytesVal bs) = true → ends (.hnd c) 0x82 0 fun u => u = s) ∧
        (hndBad (bytesVal bs) = false → ends (.hnd c) 0 0 fun u => findPart u p = some { x with hnd := a })) ∧
      (∀ bs y, findSlice s p c.a4.toNat = some y → a % 32 = 0 → n = 0 → b < 256 → c.a3.toNat < 256 → mgmtRead s c.q .one a 96 = some bs →
        (launchBad (bytesVal bs) = true → ends (.run c) 0 3 fun u => u = s) ∧
        (launchBad (bytesVal bs) = false → neverFits (parseLaunch (bytesVal bs)) = true → ends (.run c) 0 2 fun u => u = s) ∧
        (launchBad (bytesVal bs) = false → neverFits (parseLaunch (bytesVal bs)) = false →
          (queueFree s p c.a4.toNat = false → ends (.run c) 0 1 fun u => u = s) ∧
          (queueFree s p c.a4.toNat = true → ends (.run c) 0 ((freshId s p).toNat * 2 ^ 32) fun u => ∃ g ∈ u.grids, g.id = s.gridNo ∧ g.gid = freshId s p ∧
            g.part = p ∧ g.slice = c.a4.toNat ∧ g.asn = b ∧ g.depth = 0 ∧ g.launch = parseLaunch (bytesVal bs) ∧ g.st = .queued ∧
            g.vec = c.a3.toNat))) ∧
      (∀ tm, namedTeam s c = some tm → findTeam s tm.id = some tm →
        (tm.st = .saved ∨ tm.st = .parked ∨ tm.st = .retired → ends (.preempt c) 2 0 fun u => u = s) ∧
        (tm.st = .faulted → ends (.preempt c) 1 0 fun u => u = s) ∧
        (tm.st = .running ∨ tm.st = .resident →
          (canPreempt s tm.part tm.slice .one = false → ends (.preempt c) 1 0 fun u => u = s) ∧
          (canPreempt s tm.part tm.slice .one = true → tm.preempt = none → ∃ u, exec (.preempt c) s = .next u ∧
            getQueue u c.q = some { q with cur := some (.preempt c, v) } ∧
            findTeam u tm.id = some { tm with
              st := .preempting, preempt := some (.one, s.pulse.toNat, handlerAddr s tm.part tm.slice .one), overdue := false,
              entered := false }))) ∧
      (∀ m, masterOf s c = .ok m → freezable s m = true →
        (isFrozen s m = false → ends (.freeze c) 0 0 (fun u => isFrozen u m = true ∧
          (∀ j, m = .core j → ∀ tm ∈ u.teams, tm.core = j → onCore tm = true → tm.st = .frozen) ∧
          (∀ d j, m = .fn d j → (getFn u d j).st ≠ .enabled)) ∧ ends (.thaw c) 1 0 fun u => u = s) ∧
        (isFrozen s m = true → ∃ f, f.master = m ∧ f ∈ s.freezes ∧ ends (.freeze c) 1 0 (fun u => isFrozen u m = true) ∧
          (f.owner = .fw → ends (.thaw c) 2 0 fun u => u = s) ∧
          (f.owner ≠ .fw → (∀ j, m ≠ .core j) → ends (.thaw c) 0 0 fun u => isFrozen u m = false ∧
            ∀ d j, m = .fn d j → (getFn u d j).st ≠ .frozen))) ∧
      (a < 64 → b < 2 ^ 17 →
        ends (.admits c) 0 0 fun u => findPart u p = some { x with grants := x.grants.set a (BitVec.ofNat 32 b) }) ∧
      (let mine (y : LogLine) : Bool := y.owner == .part p && y.log == a
       let j := min (s.logs.filter mine).length n
       a < 3 → mgmtSpan s c.q .one .write b (64 * j) ≠ none →
        ends (.log c) 0 j fun u => u.logs.filter mine = (s.logs.filter mine).drop j)) ∧
    (∀ tm w, q.cur = some (.preempt c, w) → namedTeam s c = some tm →
      (tm.st = .saved ∨ tm.st = .parked → exec (.preempt c) s = .next (endCmd s c w 0 0)) ∧
      (tm.st = .preempting → tm.overdue = true → exec (.preempt c) s = .next (endCmd s c w 3 0)))

/-! ### Engines, monitors and ticks -/

/-- R203, R209 to R213, R217 to R223: an engine starts a walked entry with what CHAPP checked; an element is moved and counted,
and the last one makes the operation fully requested; a fault strikes the entry, which requests no further element, and the
context halts when it ends; an operation of which nothing is left ends and TL passes it; bursts fill windows of 32; the window
that closed first starts a forager with a lane for each burst, and the last forager's end the final handler with lane 0. That
an entry keeps what CHAPP checked is the model's reading of R209 (assumption 100). -/
def Obligations.EngineEvents : Prop :=
  ∀ (s : State) (t : TeamId) (c n j : Nat) (tm : Team) (o : EngOp), findTeam s t = some tm → findOp (engOf tm c) n = some o →
    let e := engOf tm c
    let op (i : Instr) (p : Team → EngOp → Prop) : Prop := ∃ u x y, exec i s = .next u ∧ findTeam u t = some x ∧
      findOp (engOf x c) n = some y ∧ p x y
    let struck (ca : Nat) : Prop := op (.engineWalkEntry t c) fun x y =>
      y.stat = 2 ∧ y.halt = true ∧ (o.fcode = 0 → y.fcode = ca) ∧ (engOf x c).mode = .busy ∧ walkNext (engOf x c) = none
    let count1 (y : EngOp) (ca : Nat) : Prop := y = { o with
      flight := o.flight.erase j, arrived := o.arrived + 1, fcode := if o.fcode = 0 then ca else o.fcode }
    (engRuns s tm = true → e.mode = .busy → walkNext e = some o → startWaits e c o = false →
      (o.started = false →
        (∀ s1 ca st, locate s tm o.lvl (engAsk .g .read 64) none o.entry = (s1, .error (ca, st)) → struck ca) ∧
        ∀ s1 p f s2 bs, locate s tm o.lvl (engAsk .g .read 64) none o.entry = (s1, .ok (p, f)) →
          fetch s1 tm (walkKey c) none p 64 = (s2, .ok bs) → op (.engineWalkEntry t c) fun x y =>
            y = { o with started := true } ∧ (engOf x c).cursor = o.entry ∧ (engOf x c).cdone = 0) ∧
      (o.started = true → entKind o.ctl ≠ 5 →
        (∀ s1 ca st a, elemOf s tm o.lvl c o o.reqd = (s1, .error (some (ca, st, a))) → struck ca) ∧
        ∀ s1 src dst len s2, elemOf s tm o.lvl c o o.reqd = (s1, .ok (src, dst, len)) →
          let checked := checkParts tm o.lvl (entSsp o.ctl) (entDsp o.ctl) s1 (cutParts src dst 4 len)
          (∀ ca st a, checked = (s2, .error (ca, st, a)) → struck ca) ∧
          ∀ p q, checked = (s2, .ok [(p, q, len)]) → waitsLower s2 tm c n [(q, len)] = false →
            wayOf s2 tm false p = .here → wayOf s2 tm true q = .here →
            (badData s2 p len = true → struck 0x18) ∧
            (badData s2 p len = false →
              op (.engineWalkEntry t c) (fun x y => (engOf x c).cdone = o.reqd + 1 ∧
                y = { o with reqd := o.reqd + 1, stat := if o.reqd + 1 = o.count then 2 else o.stat }) ∧
              ∀ a m, q = .pa a m → heldLine s2 a = none → o.reqd + 1 ≠ o.count → ∃ u, exec (.engineWalkEntry t c) s = .next u ∧
                let bs := engRead s2 p len
                ∀ k, k < bs.length → u.m.ram.get (a + k) = nth 0 bs k))) ∧
    (opReady s tm c o = true → ∃ u x, exec (.operationEnd t c n) s = .next u ∧ findTeam u t = some x ∧
      (∀ sw ∈ x.swarms, sw.kind ≠ .forager c n ∧ sw.kind ≠ .final c n) ∧
      (∀ y, findOp (engOf x c) n = some y → y.stat = if o.fcode = 0 then 3 else 4) ∧
      (e.ops.head? = some o → e.tl < (engOf x c).tl) ∧
      (o.halt = true → (engOf x c).mode = .halted ∧ ∃ p ∈ x.traps, p.cause = 0x17 ∨ 0 < p.merges)) ∧
    (j ∈ o.flight → ∀ s1,
      (burstBytes s tm c o j = (s1, .wait) → exec (.burstArrival t c n j false) s = .next s1) ∧
      (∀ bad ca, burstBytes s tm c o j = (s1, .fault ca) → op (.burstArrival t c n j bad) fun _ y => count1 y ca) ∧
      ∀ bs, burstBytes s tm c o j = (s1, .ok bs) →
        op (.burstArrival t c n j true) (fun _ y => count1 y 0x18) ∧
        op (.burstArrival t c n j false) fun _ y => y.flight = o.flight.erase j ∧ y.arrived = o.arrived + 1 ∧
          (o.window.length < 31 → y.window = o.window ++ [(j, bs)] ∧ y.winOpen = true ∧ y.closedW = o.closedW) ∧
          (o.window.length = 31 → y.window = [] ∧ y.winOpen = false ∧
            ∃ no, y.closedW = o.closedW ++ [(no, o.window ++ [(j, bs)])])) ∧
    (o.winOpen = true → op (.gatherWindowClose t c n) fun _ y =>
      y = { o with window := [], winOpen := false, closedW := o.closedW ++ [(s.winNo, o.window)] }) ∧
    (∀ no w r, o.closedW = (no, w) :: r → w.length ≤ 32 → onCore tm = true → firstClosed s tm.core no = true →
      slotFree s tm.core (body o.body 1 / 2 ^ 54) = true →
      op (.foragerStart t c n) fun x y => y.closedW = r ∧ ∃ sw ∈ x.swarms, sw.kind = .forager c n ∧ sw.mode = .program ∧
        (∀ k, k < w.length → let l := lane sw.frame k
          l.exited = false ∧ l.pc = nth 0 o.body 3 ∧ l.bseq = BitVec.ofNat 32 (nth (0, []) w k).1 ∧ l.btag = BitVec.ofNat 32 n) ∧
        ∀ k, w.length ≤ k → k < 32 → (lane sw.frame k).exited = true) ∧
    (finalReady tm c o = true → onCore tm = true → slotFree s tm.core (body o.body 1 / 2 ^ 44 % 1024) = true →
      op (.finalHandlerStart t c n) fun x y => y.finalOn = true ∧ ∃ sw ∈ x.swarms, sw.kind = .final c n ∧ sw.mode = .program ∧
        (lane sw.frame 0).exited = false ∧ (lane sw.frame 0).pc = nth 0 o.body 4 ∧
        (lane sw.frame 0).bseq = BitVec.ofNat 32 o.count ∧ ∀ k, 0 < k → k < 32 → (lane sw.frame k).exited = true)

/-! ### Coherence and bring-up -/

/-- R166 to R170, R197 to R199: GetM goes out for a write that is to be performed and needs it, and stops at the level of a
sole owner; its Data makes the requester the owner in its L1 and in every directory on its path, with no other owner left;
GetS brings the line clean and leaves no other core its exclusive owner; an invalidation enters the queue of the core that
holds the older copy; a request is complete when it has its data and, for GetM, every Ack; the drain applies what is queued;
directory errors and failed dies are rebuilt from the answers and logged. -/
def Obligations.CoherenceEvents : Prop :=
  ∀ (s : State) (core line unit region : Nat) (lv : DirLevel),
    let held (u : State) : Prop := u.m.ram = s.m.ram ∧ u.m.l1 = s.m.l1
    let room : Prop := (s.m.l1.filter fun y => y.core == core).length < 2048
    (core < 1536 → dirHome s.m line = true →
      (accessWaits s core line true = true → needM s.m core line = true →
        ∃ u q, exec (.getM core line) s = .next u ∧ held u ∧ findMiss u.m core line = some q ∧
          q.excl = true ∧ q.fwd = false ∧ q.data = false ∧ q.fresh = [] ∧
          (soleOwner s.m core line = none → q.acks = []) ∧
          (∀ k, soleOwner s.m core line = some k → (∀ y ∈ s.m.misses, y.line ≠ line) →
            ∀ l ∈ dirLevels, l ∈ q.acks ↔ DirLevel.rank (sepCores core k) < DirLevel.rank l)) ∧
      (accessWaits s core line false = true → findMiss s.m core line = none → l1Find s.m core line = none →
        ∃ u, exec (.getS core line) s = .next u ∧ held u ∧
          findMiss u.m core line = some ⟨core, line, false, [], false, false, [], []⟩)) ∧
    (needM s.m core line = false → exec (.getM core line) s = .next s) ∧
    (∀ x q, l1Find s.m core line = some x → liveCopy s.m x = true → q ∈ s.m.misses → q.excl = true → q.line = line → q.core ≠ core →
      core ∉ q.fresh → sepCores q.core core ∉ q.acks →
      ∃ u w y, exec (.inv core line) s = .next u ∧ u.m.ram = s.m.ram ∧ u.m.invq = s.m.invq ++ [⟨core, line, w, s.pulse.toNat⟩] ∧
        y ∈ s.m.misses ∧ y.line = line ∧ w = DirLevel.scope (sepCores y.core core) ∧
        u.m.l1 = s.m.l1.map fun x => if x.core = core ∧ x.line = line then { x with st := .s } else x) ∧
    (∀ q, findMiss s.m core line = some q →
      (q.excl = true → lv ∈ dirLevels → lv ∉ q.acks →
        ∃ u, exec (.ack core line lv) s = .next u ∧ u.m.ram = s.m.ram ∧
          (∀ y, findMiss u.m core line = some y → y.acks = q.acks ++ [lv]) ∧
          (q.data = true → (∀ k ∈ dirLevels, k ≠ lv → k ∈ q.acks) → findMiss u.m core line = none) ∧
          (∀ x ∈ s.m.l1, x.line = line → x.mode = .coh → x.core ≠ core → sepCores core x.core = lv → x.core ∉ q.fresh →
            ∃ z ∈ u.m.invq, z.core = x.core ∧ z.line = line) ∧
          ∀ y ∈ u.m.l2, y.line = line → y.mode = .coh → dieOf core ≠ y.die → sepDie core y.die = lv → q.newIn y.die = true) ∧
      (∀ k, q.fwd = false → q.data = false → otherOwner s.m core line = some k →
        ∃ u, exec (.fwd core line) s = .next u ∧ held u ∧ findMiss u.m core line = some { q with fwd := true }) ∧
      (q.data = false → fwdDue s q = false → room →
        (q.excl = true → ∃ u, exec (.data core line) s = .next u ∧ u.m.ram = s.m.ram ∧
          l1Find u.m core line = some ⟨core, line, .coh, lineBytes s.m line, 0, .m, noTeam⟩ ∧
          (∀ x ∈ u.m.l1, x.line = line → x.core ≠ core → x.mode = .coh → x.st = .s) ∧
          (dirHome s.m line = true → (∀ d ∈ s.m.dirs, d.st ≠ .mv) → ∀ l ∈ dirLevels,
            ∃ d, findDir u.m l (dirUnit l core line) (dirRegion l line) = some d ∧ d.owner = some (dirBranch l core) ∧
              (d.st = .m ∨ d.st = .o))) ∧
        (q.excl = false → l1Find s.m core line = none → ∃ u x, exec (.data core line) s = .next u ∧ u.m.ram = s.m.ram ∧
          l1Find u.m core line = some x ∧ x.mode = .coh ∧ x.dirty = 0 ∧
          (l2Find s.m (dieOf core) line = none → x.bytes = lineBytes s.m line ∧
            ∀ y ∈ u.m.l1, y.line = line → y.core ≠ core → y.mode = .coh → y.st ≠ .m ∧ y.st ≠ .e) ∧
          (∀ y, l2Find s.m (dieOf core) line = some y → x.bytes = y.bytes) ∧
          ∀ z ∈ u.m.misses, z.core = core → z.line = line → z.excl = true))) ∧
    (∀ q, s.m.invq.find? (fun q => q.core == core) = some q → ∃ u, exec (.invDrain core) s = .next u ∧ u.m.ram = s.m.ram ∧
      (∀ z, z ∈ u.m.invq ↔ z ∈ s.m.invq ∧ ¬ (z.core = core ∧ z.line = q.line)) ∧
      ∀ x, x ∈ u.m.l1 ↔ x ∈ s.m.l1 ∧ ¬ (x.core = core ∧ x.line = q.line ∧ x.mode = .coh)) ∧
    (∀ owners sharers, let ans := probeAnswers s.m lv unit region owners sharers
      let d := entFrom lv unit region ans.1 ans.2
      (ans.1.length ≤ 1 → (∀ d ∈ s.m.dirs, d.st ≠ .mv) →
        ∃ u, exec (.directoryError lv unit region owners sharers) s = .next u ∧ held u ∧
          findDir u.m lv unit region = (if d.st = .i then none else some d) ∧
          (∀ z ∈ u.m.rebuild, ¬ (z.1 = lv ∧ z.2.1 = unit ∧ z.2.2.1 = region)) ∧
          ∃ y ∈ u.logs, y.owner = .fw ∧ y.log = 1 ∧ y.ev = .dirError d.addr) ∧
      (2 ≤ ans.1.length → (∀ tm ∈ s.teams, ∀ sw ∈ tm.swarms, sw.frame.log = []) →
        ∃ u, exec (.directoryError lv unit region owners sharers) s = .next u ∧ held u ∧
          ∃ y ∈ u.logs, y.owner = .fw ∧ y.log = 1 ∧ y.ev = .machineCheck d.addr)) ∧
    (unit < 16 → ∃ u, exec (.dieFailure unit) s = .next u ∧
      ((∀ x ∈ s.m.l2, x.die = unit → x.dirty = 0) → u.m.ram = s.m.ram) ∧ (∀ x ∈ u.m.l1, dieOf x.core ≠ unit) ∧
      (∀ d ∈ u.m.dirs, ¬ (d.level = .die ∧ d.unit = unit)) ∧
      (∀ d ∈ s.m.dirs, d.level = .stk → d.unit = unit / 2 → (d.owner = some unit ∨ unit ∈ d.sharers) →
        ∃ z ∈ u.m.rebuild, z.1 = .stk ∧ z.2.1 = unit / 2 ∧ z.2.2.1 = d.region) ∧
      ∃ y ∈ u.logs, y.owner = .fw ∧ y.log = 1 ∧ y.ev = .rebuild unit)

/-- R401, R410 to R413: a unit that passes its test is ready, one that fails is not and faults the contexts that hold it; a start
boots the verified image of flash; the recovery window reads an image in reads as large as the host lets function 0 send,
verifies it and writes flash. Which of its two refusals an image gets is the model's reading of R413 (assumption 111). -/
def Obligations.BringUp : Prop :=
  ∀ (s : State) (x : UnitId) (cxl : Bool) (bs : List Byte) (status k off : Nat) (v : DWord),
    let b := s.boot
    let boot (i : Instr) (p : State → Prop) : Prop := ∃ u, exec i s = .next u ∧ p u
    (unitOk x = true →
      (isReady s x = false →
        boot (.unitReady x cxl) fun u => (isReady u x = if x = .fw then imageOk b.flash else true) ∧
          (∀ y, unitOk y = true → y ≠ x → isReady u y = isReady s y) ∧ (x = .pulse → u.pulse = 0) ∧
          (x = .fw → imageOk b.flash = true → u.fwq = some fwQueueOf) ∧
          ∀ g, x = .lnk g → (cxl = true → g ∈ u.link.cxlDies) ∧ (cxl = false → u.link.cxlDies = s.link.cxlDies)) ∧
      (isReady s x = true →
        boot (.unitFailure x) fun u => isReady u x = false ∧ ((∀ y ∈ s.m.l2, y.dirty = 0) → u.m.ram = s.m.ram) ∧
          (∀ tm ∈ s.teams, onCore tm = true → unitHas x tm.core = true → ∀ y ∈ u.teams, y.id = tm.id → y.st = .faulted) ∧
          ((∀ tm ∈ s.teams, onCore tm = true → unitHas x tm.core = false) →
            ∃ y ∈ u.logs, y.owner = .fw ∧ y.log = 1 ∧ y.ev = .unitFailure x))) ∧
    (let anew (ram : Tab 8) (u : State) : Prop := u.m.ram = ram ∧ u.teams = [] ∧ u.parts = [] ∧ u.grids = [] ∧ u.pulse = 0 ∧
        u.boot.flash = b.flash ∧ isReady u .fw = imageOk b.flash ∧ ∀ y, unitOk y = true → y ≠ .fw → isReady u y = false
     boot .powerOn (anew []) ∧ boot .conventionalReset (anew s.m.ram)) ∧
    (isReady s .fw = false →
      (b.state = 0 ∨ 4 ≤ b.state →
        (b.len.toNat < 385 ∨ 2 ^ 24 < b.len.toNat → boot .go fun u => u.boot.state = 5 ∧ u.boot.code = 1 ∧ u.link = s.link) ∧
        (385 ≤ b.len.toNat → b.len.toNat ≤ 2 ^ 24 → boot .go fun u => u.boot.state = 1 ∧ u.boot.done = 0 ∧
          ∃ q ∈ u.link.reqs, q.who = .boot ∧ q.addr = b.addr.toNat ∧ q.op = .read (min (maxReadReq s 0 0) b.len.toNat))) ∧
      (b.state = 1 ∨ b.state = 2 → boot .abort fun u => u.boot.state = 0 ∧ ∀ q ∈ u.link.reqs, q.who ≠ .boot) ∧
      (∀ q, s.link.reqs.find? (fun q => q.who == .boot) = some q → q.op = .read bs.length → b.state = 1 →
        (status ≠ 0 → boot (.recoveryReadCompletion bs status) fun u => u.boot.state = 6 ∧ u.boot.code = BitVec.ofNat 32 status) ∧
        (let done := b.done + BitVec.ofNat 32 bs.length
         boot (.recoveryReadCompletion bs 0) fun u => u.boot.done = done ∧ u.boot.buf = b.buf ++ bs ∧
          (b.len.toNat ≤ done.toNat → u.boot.state = 2) ∧
          (done.toNat < b.len.toNat → u.boot.state = 1 ∧ ∃ r ∈ u.link.reqs, r.who = .boot ∧
            r.addr = b.addr.toNat + done.toNat ∧ r.op = .read (min (maxReadReq s 0 0) (b.len.toNat - done.toNat))))) ∧
      (b.state = 2 → boot .recoveryVerifyDone fun u => match verdict b.buf with
        | .ok => u.boot.state = 3
        | .length => u.boot.state = 5 ∧ u.boot.code = 1
        | .digest => u.boot.state = 5 ∧ u.boot.code = 2
        | .sign => u.boot.state = 5 ∧ u.boot.code = 3) ∧
      (b.state = 3 → boot (.flashWriteDone none) (fun u => u.boot.state = 4 ∧ u.boot.flash = b.buf) ∧
        boot (.flashWriteDone (some k)) fun u => u.boot.state = 7 ∧ u.boot.code = BitVec.ofNat 32 k) ∧
      boot (.registerWrite 0x1008 v) (fun u => u = { s with boot := { b with addr := v } }) ∧
      boot (.registerWrite 0x1010 v) (fun u => u = { s with boot := { b with len := loW v } }) ∧
      (v.getLsbD 0 = true → v.getLsbD 1 = false → exec (.registerWrite 0x1000 v) s = exec .go s) ∧
      (v.getLsbD 0 = false → v.getLsbD 1 = true → exec (.registerWrite 0x1000 v) s = exec .abort s)) ∧
    (∀ q, isReady s .fw = true → s.fwq = some q → q.base % 128 = 0 → q.base + 16448 ≤ 2 ^ 40 → off % 8 = 0 → off < 16448 →
      boot (.registerWrite (0x10000 + off) v) fun u => ramVal u.m (q.base + off) 8 = v.toNat ∧
        ∀ a, a < q.base + off ∨ q.base + off + 8 ≤ a → u.m.ram.get a = s.m.ram.get a)

/-! ### Words, steps and the whole machine -/

/-- R410, R413: reset leaves no unit ready, $pulse at 0 and the recovery window idle; the memory is in canonical form with nothing
listed, and no context stands in Retired (R315). That nothing is scheduled and that no partition, grid or team stands is
the model's reading of a machine without a running image. -/
def Obligations.ResetState : Prop :=
  let s := State.reset
  s.boot.ready = 0 ∧ s.pulse = 0 ∧ s.boot.state = 0 ∧ s.boot.code = 0 ∧ s.boot.done = 0 ∧ s.boot.len = 0 ∧ s.boot.addr = 0 ∧
    Memory.wf s.m = true ∧ (∀ a, s.m.ram.get a = 0) ∧ NoRetired s ∧ s.teams = [] ∧ s.parts = [] ∧ s.grids = [] ∧ s.turns = []

/-- R58: in a word that decodes, the destination level, bits [11:10], agrees with the level of D, bits [79:78]. With a register
destination, a latch requires 10, the operand file 01, and main registers 00, or 11 for the v and raw-byte views only; an
instruction without a register destination requires 00. -/
def Obligations.DestinationLevels : Prop :=
  ∀ (w : BitVec 96) (i : Instr) (o : Wd), decodeWord w = .ok i → i.wd? = some o →
    let level := w.extractLsb' 78 2
    let view := w.extractLsb' 76 2
    let dst := w.extractLsb' 10 2
    (i.fields.1.dst = true → (level = 0 → dst = 2) ∧ (level = 1 → dst = 1) ∧
      (level = 2 → dst = 0 ∨ dst = 3 ∧ (view = 0 ∨ view = 3)) ∧ (level = 3 → dst = 0)) ∧
    (i.fields.1.dst = false → dst = 0)

/-- R48 to R62, R249, R252: words written out from the tables decode to the instructions that they stand for, one or more of each
family; an unassigned opcode, an unassigned extension and a bit that must be 0 are refused under their causes. -/
def Obligations.WordsFromTheTables : Prop :=
  let wd (d a b : Opnd) : Wd := ⟨false, 0, d, a, b, 0, false, 0, 0⟩
  let v (n : BitVec 12) : Opnd := .main .v n 0
  -- OPC EXT GUARD D A B HINT NIB, in hexadecimal digits 2 1 1 5 5 5 4 1
  decodeWord 0x050_0_80060_80040_C0FFF_0000_1 = .ok (.imad .s32 true (wd (v 6) (v 4) (.imm 0xFFF))) ∧
  decodeWord 0x000_B_80060_80040_80050_0000_0 =
    .ok (.iadd .s32 false { wd (v 6) (v 4) (v 5) with inv := true, pred := 3 }) ∧
  decodeWord 0x140_0_80060_DEAD0_BEEF0_0000_0 = .ok (.movi 0xDEADBEEF (wd (v 6) .zero .zero)) ∧
  decodeWord 0x190_0_80060_C0010_00000_0000_0 = .ok (.rdsr (wd (v 6) (.imm 0x10) .zero)) ∧
  decodeWord 0x235_0_80060_80041_80050_0000_B = .ok (.ffma .rz .f16 5 true (wd (v 6) (.main .v 4 1) (v 5))) ∧
  decodeWord 0x0F4_0_C0003_80040_80050_0000_0 = .ok (.icmp false .lt false (wd (.imm 3) (v 4) (v 5))) ∧
  decodeWord 0x402_0_80060_80040_C0003_0000_0 = .ok (.shfl .fwd (wd (v 6) (v 4) (.imm 3))) ∧
  decodeWord 0x500_0_00000_00000_C0018_0000_0 = .ok (.bra (wd .zero .zero (.imm 0x18))) ∧
  decodeWord 0x616_0_80060_80040_C0010_0014_A =
    .ok (.ld .s16 .s true ⟨.ld, .acq, .pkg, false⟩ (wd (v 6) (v 4) (.imm 0x10))) ∧
  decodeWord 0x813_0_A0020_80040_80080_0000_0 = .ok (.mma .e4m3 true (wd (.main .a 2 0) (v 4) (v 8))) ∧
  decodeWord 0x900_0_C0002_80040_C0000_0000_0 = .ok (.cpy (wd (.imm 2) (v 4) (.imm 0))) ∧
  decodeWord 0xA00_0_00000_C0005_C0008_0000_0 = .ok (.bar (wd .zero (.imm 5) (.imm 8))) ∧
  decodeWord 0xA90_0_80060_C0000_00000_0000_0 = .ok (.ticket (wd (v 6) (.imm 0) .zero)) ∧
  decodeWord 0xAC1_0_80060_80040_C0002_0000_0 = .ok (.claim true (wd (v 6) (v 4) (.imm 2))) ∧
  decodeWord 0xB30_0_80060_80040_C0007_0000_0 = .ok (.ctxsave (wd (v 6) (v 4) (.imm 7))) ∧
  decodeWord 0xC12_0_00000_80040_C0300_0000_0 = .ok (.tlbinv false .s2 (wd .zero (v 4) (.imm 0x300))) ∧
  decodeWord 0xC62_0_80060_80040_C0000_0028_C =
    .ok (.fred .amax ⟨.st, .rel, .fab, false⟩ (wd (v 6) (v 4) (.imm 0))) ∧
  decodeEpi 0x1C4AC000 = some (.eFma (.y 1) (.y 2) (.s 3) (.y 0)) ∧
  decodeEpi 0x4EB20010 = some (.eLdbRowF32 2 2 0x10) ∧
  decodeWord 0x1B0_0_00000_00000_00000_0000_0 = .bad 1 3 ∧
  decodeWord 0x004_0_80060_80040_80050_0000_0 = .bad 2 3 ∧
  decodeWord 0x000_0_80060_80040_80050_0001_0 = .bad 3 3 ∧
  decodeEpi 0x60000000 = none

/-- R48, R62, R252: the decoder reads every operand of every well-formed word as the encoder wrote it. -/
def Obligations.DecodingInvertsEncoding : Prop :=
  (∀ i : Instr, i.wf = true → i.wd? ≠ none → ∃ w, encode i = some w ∧ decodeWord w = .ok i) ∧
  (∀ (i : Instr) (w : BitVec 32), i.wf = true → encodeEpi i = some w → decodeEpi w = some i)

/-- R48, R57, R64, R76, R123, R125, R401: one step of a swarm's turn executes the instruction that the twelve bytes at the pc of
the group that issues decode to, for the lanes of that group, of which none waits for a row that the word names, once the
core has rows for it; those bytes are the bytes of memory where they are not in the instruction cache and the core holds none
of them dirty. A turn of an event, of a queue and of the epilogue processor executes the event, the record at HEAD and the
word of the drain. What follows from the instruction is settled in the same step. -/
def Obligations.StepRunsDecoded : Prop :=
  ∀ (s : State) (rest : List Turn), let s0 : State := { s with turns := rest }
    (∀ t n split tm sw x s1 bs i u, s.turns = (if split then .split t n else .issue t n) :: rest → findTeam s t = some tm →
      findSwarm tm n = some sw → teamRuns s tm = true → swarmRuns tm sw = true → firstFault sw.frame = none →
      (sw.mode = .program → nextAgain sw.frame = none) → (dueTrap tm).any (fun d => d.1 == n) = false →
      closedLanes sw.frame = 0 → spilledRows sw = [] → chooseGroup s0 tm sw split = some x →
      fetchWord (updFrame s0 t n (noteChoice x)) tm (execLevel tm sw) x.1.pc = .word s1 bs → decodeBytes bs = .ok i →
      exec i { makeRoom s1 tm.core t n (newRows sw.frame i) with focus := some ⟨t, n, x.1.mask, x.1.pc⟩ } = .next u →
      step s = .next (settle u)) ∧
    (∀ tm sw split x i k, chooseGroup s tm sw split = some x → peekWord s tm (execLevel tm sw) x.1.pc = some i →
      x.1.mask.getLsbD k = true → (lane sw.frame k).pc = x.1.pc ∧ laneReady sw.frame k = true ∧
        interlocked sw.frame (bit32 k) i = false) ∧
    (∀ tm lv pc x, s.m.icache = [] → (∀ y ∈ s.m.l1, y.core = tm.core → y.dirty = 0) →
      pc.toNat % 4 = 0 → pc.toNat < 2 ^ 57 → pc.toNat % 65536 ≤ 65536 - 12 →
      translate s (clusOf tm.core) tm.part tm.slice tm.asn lv .fetch pc.toNat = .ok x → isRemote (.pa x.pa x.mode) = false →
      ∃ s1, fetchWord s tm lv pc = .word s1 (tabBytes s.m.ram x.pa 12)) ∧
    (∀ i u, s.turns = .event i :: rest → i.isEvent = true → exec i s0 = .next u → step s = .next (settle u)) ∧
    (∀ q i s1 u, s.turns = .mgmt q :: rest → mgmtNext s0 q = (s1, some i) → exec i s1 = .next u → step s = .next (settle u)) ∧
    (∀ d w i u, s.turns = .epi :: rest → epiDrain s0 = some d → epiWord s0 = some w → decodeEpi w = some i → exec i s0 = .next u →
      step s = .next (settle u))

/-- R315: no step leaves a team in Retired, which has no storage. -/
def Obligations.NoRetiredKept : Prop :=
  ∀ s t : State, NoRetired s → step s = .next t → NoRetired t
end

