-- ==== Sys2Proof/Laws/Exec.lean ====
section
/-!
SUPPORT. The arm of the dispatcher for each instruction, true by rfl.
-/
namespace Sys2Proof.Machine

theorem exec_iadd (t : IntTy) (sat : Bool) (o : Wd) (s : State) : exec (.iadd t sat o) s = execIadd t sat o s := rfl
theorem exec_isub (t : IntTy) (sat : Bool) (o : Wd) (s : State) : exec (.isub t sat o) s = execIsub t sat o s := rfl
theorem exec_iaddc (t : IntTy) (sat : Bool) (o : Wd) (s : State) : exec (.iaddc t sat o) s = execIaddc t sat o s := rfl
theorem exec_imul (t : IntTy) (sat : Bool) (o : Wd) (s : State) : exec (.imul t sat o) s = execImul t sat o s := rfl
theorem exec_imulhi (t : IntTy) (o : Wd) (s : State) : exec (.imulhi t o) s = execImulhi t o s := rfl
theorem exec_imad (t : IntTy) (sat : Bool) (o : Wd) (s : State) : exec (.imad t sat o) s = execImad t sat o s := rfl
theorem exec_imin (t : IntTy) (o : Wd) (s : State) : exec (.imin t o) s = execImin t o s := rfl
theorem exec_imax (t : IntTy) (o : Wd) (s : State) : exec (.imax t o) s = execImax t o s := rfl
theorem exec_iabs (wide : Bool) (sat : Bool) (o : Wd) (s : State) : exec (.iabs wide sat o) s = execIabs wide sat o s := rfl
theorem exec_shl (wide : Bool) (o : Wd) (s : State) : exec (.shl wide o) s = execShl wide o s := rfl
theorem exec_shr (wide : Bool) (o : Wd) (s : State) : exec (.shr wide o) s = execShr wide o s := rfl
theorem exec_sar (wide : Bool) (o : Wd) (s : State) : exec (.sar wide o) s = execSar wide o s := rfl
theorem exec_rot (wide : Bool) (o : Wd) (s : State) : exec (.rot wide o) s = execRot wide o s := rfl
theorem exec_and (wide : Bool) (o : Wd) (s : State) : exec (.and wide o) s = execAnd wide o s := rfl
theorem exec_or (wide : Bool) (o : Wd) (s : State) : exec (.or wide o) s = execOr wide o s := rfl
theorem exec_xor (wide : Bool) (o : Wd) (s : State) : exec (.xor wide o) s = execXor wide o s := rfl
theorem exec_not (wide : Bool) (o : Wd) (s : State) : exec (.not wide o) s = execNot wide o s := rfl
theorem exec_lop3 (tt : BitVec 8) (o : Wd) (s : State) : exec (.lop3 tt o) s = execLop3 tt o s := rfl
theorem exec_bfx (signed : Bool) (o : Wd) (s : State) : exec (.bfx signed o) s = execBfx signed o s := rfl
theorem exec_bfi (o : Wd) (s : State) : exec (.bfi o) s = execBfi o s := rfl
theorem exec_popc (wide : Bool) (o : Wd) (s : State) : exec (.popc wide o) s = execPopc wide o s := rfl
theorem exec_clz (wide : Bool) (o : Wd) (s : State) : exec (.clz wide o) s = execClz wide o s := rfl
theorem exec_brev (wide : Bool) (o : Wd) (s : State) : exec (.brev wide o) s = execBrev wide o s := rfl
theorem exec_icmp (wide : Bool) (c : ICond) (uns : Bool) (o : Wd) (s : State) : exec (.icmp wide c uns o) s = execIcmp wide c uns o s := rfl
theorem exec_sel (np : Bool) (p : BitVec 3) (o : Wd) (s : State) : exec (.sel np p o) s = execSel np p o s := rfl
theorem exec_lea (sh : BitVec 4) (o : Wd) (s : State) : exec (.lea sh o) s = execLea sh o s := rfl
theorem exec_mov (wide : Bool) (o : Wd) (s : State) : exec (.mov wide o) s = execMov wide o s := rfl
theorem exec_movi (c : BitVec 32) (o : Wd) (s : State) : exec (.movi c o) s = execMovi c o s := rfl
theorem exec_view (o : Wd) (s : State) : exec (.view o) s = execView o s := rfl
theorem exec_ldix (o : Wd) (s : State) : exec (.ldix o) s = execLdix o s := rfl
theorem exec_stix (o : Wd) (s : State) : exec (.stix o) s = execStix o s := rfl
theorem exec_regfree (o : Wd) (s : State) : exec (.regfree o) s = execRegfree o s := rfl
theorem exec_rdsr (o : Wd) (s : State) : exec (.rdsr o) s = execRdsr o s := rfl
theorem exec_wrsr (o : Wd) (s : State) : exec (.wrsr o) s = execWrsr o s := rfl
theorem exec_fadd (r : Rnd) (t : FTy) (slot : BitVec 3) (sat : Bool) (o : Wd) (s : State) : exec (.fadd r t slot sat o) s = execFadd r t slot sat o s := rfl
theorem exec_fsub (r : Rnd) (t : FTy) (slot : BitVec 3) (sat : Bool) (o : Wd) (s : State) : exec (.fsub r t slot sat o) s = execFsub r t slot sat o s := rfl
theorem exec_fmul (r : Rnd) (t : FTy) (slot : BitVec 3) (sat : Bool) (o : Wd) (s : State) : exec (.fmul r t slot sat o) s = execFmul r t slot sat o s := rfl
theorem exec_ffma (r : Rnd) (t : FTy) (slot : BitVec 3) (sat : Bool) (o : Wd) (s : State) : exec (.ffma r t slot sat o) s = execFfma r t slot sat o s := rfl
theorem exec_ffmaL (r : Rnd) (t : FTy) (slot : BitVec 3) (sat : Bool) (o : Wd) (s : State) : exec (.ffmaL r t slot sat o) s = execFfmaL r t slot sat o s := rfl
theorem exec_fmin (t : FTy) (o : Wd) (s : State) : exec (.fmin t o) s = execFmin t o s := rfl
theorem exec_fmax (t : FTy) (o : Wd) (s : State) : exec (.fmax t o) s = execFmax t o s := rfl
theorem exec_fcmp (t : FTy) (c : FCond) (o : Wd) (s : State) : exec (.fcmp t c o) s = execFcmp t c o s := rfl
theorem exec_frcp (r : Rnd) (t : FTy) (slot : BitVec 3) (sat : Bool) (o : Wd) (s : State) : exec (.frcp r t slot sat o) s = execFrcp r t slot sat o s := rfl
theorem exec_frsq (r : Rnd) (t : FTy) (slot : BitVec 3) (sat : Bool) (o : Wd) (s : State) : exec (.frsq r t slot sat o) s = execFrsq r t slot sat o s := rfl
theorem exec_fsqrt (r : Rnd) (t : FTy) (slot : BitVec 3) (sat : Bool) (o : Wd) (s : State) : exec (.fsqrt r t slot sat o) s = execFsqrt r t slot sat o s := rfl
theorem exec_fexp2 (r : Rnd) (t : FTy) (slot : BitVec 3) (sat : Bool) (o : Wd) (s : State) : exec (.fexp2 r t slot sat o) s = execFexp2 r t slot sat o s := rfl
theorem exec_flog2 (r : Rnd) (t : FTy) (slot : BitVec 3) (sat : Bool) (o : Wd) (s : State) : exec (.flog2 r t slot sat o) s = execFlog2 r t slot sat o s := rfl
theorem exec_fsin (r : Rnd) (t : FTy) (slot : BitVec 3) (sat : Bool) (o : Wd) (s : State) : exec (.fsin r t slot sat o) s = execFsin r t slot sat o s := rfl
theorem exec_fcos (r : Rnd) (t : FTy) (slot : BitVec 3) (sat : Bool) (o : Wd) (s : State) : exec (.fcos r t slot sat o) s = execFcos r t slot sat o s := rfl
theorem exec_frnd (r : Rnd) (t : FTy) (o : Wd) (s : State) : exec (.frnd r t o) s = execFrnd r t o s := rfl
theorem exec_fcvt (fromSlot : Bool) (r : Rnd) (slot : BitVec 3) (sat : Bool) (o : Wd) (s : State) : exec (.fcvt fromSlot r slot sat o) s = execFcvt fromSlot r slot sat o s := rfl
theorem exec_hfma2 (r : Rnd) (pr : BitVec 2) (slot : BitVec 3) (sat : Bool) (o : Wd) (s : State) : exec (.hfma2 r pr slot sat o) s = execHfma2 r pr slot sat o s := rfl
theorem exec_fdot4 (r : Rnd) (e5 : Bool) (slot : BitVec 3) (sat : Bool) (o : Wd) (s : State) : exec (.fdot4 r e5 slot sat o) s = execFdot4 r e5 slot sat o s := rfl
theorem exec_fsplit3 (o : Wd) (s : State) : exec (.fsplit3 o) s = execFsplit3 o s := rfl
theorem exec_shfl (m : ShflMode) (o : Wd) (s : State) : exec (.shfl m o) s = execShfl m o s := rfl
theorem exec_vote (v : VoteOp) (o : Wd) (s : State) : exec (.vote v o) s = execVote v o s := rfl
theorem exec_matchL (wide : Bool) (o : Wd) (s : State) : exec (.matchL wide o) s = execMatchL wide o s := rfl
theorem exec_redx (op : RedOp) (o : Wd) (s : State) : exec (.redx op o) s = execRedx op o s := rfl
theorem exec_scanx (op : RedOp) (o : Wd) (s : State) : exec (.scanx op o) s = execScanx op o s := rfl
theorem exec_scanxEx (op : RedOp) (o : Wd) (s : State) : exec (.scanxEx op o) s = execScanxEx op o s := rfl
theorem exec_pset (o : Wd) (s : State) : exec (.pset o) s = execPset o s := rfl
theorem exec_plop (tt : BitVec 8) (o : Wd) (s : State) : exec (.plop tt o) s = execPlop tt o s := rfl
theorem exec_pmovGet (o : Wd) (s : State) : exec (.pmovGet o) s = execPmovGet o s := rfl
theorem exec_pmovSet (o : Wd) (s : State) : exec (.pmovSet o) s = execPmovSet o s := rfl
theorem exec_bra (o : Wd) (s : State) : exec (.bra o) s = execBra o s := rfl
theorem exec_brx (o : Wd) (s : State) : exec (.brx o) s = execBrx o s := rfl
theorem exec_call (o : Wd) (s : State) : exec (.call o) s = execCall o s := rfl
theorem exec_ret (o : Wd) (s : State) : exec (.ret o) s = execRet o s := rfl
theorem exec_loop (o : Wd) (s : State) : exec (.loop o) s = execLoop o s := rfl
theorem exec_bmark (o : Wd) (s : State) : exec (.bmark o) s = execBmark o s := rfl
theorem exec_bsync (o : Wd) (s : State) : exec (.bsync o) s = execBsync o s := rfl
theorem exec_exit (o : Wd) (s : State) : exec (.exit o) s = execExit o s := rfl
theorem exec_yield (o : Wd) (s : State) : exec (.yield o) s = execYield o s := rfl
theorem exec_nop (o : Wd) (s : State) : exec (.nop o) s = execNop o s := rfl
theorem exec_ipref (l : Lvl3) (o : Wd) (s : State) : exec (.ipref l o) s = execIpref l o s := rfl
theorem exec_ipin (l : Lvl3) (o : Wd) (s : State) : exec (.ipin l o) s = execIpin l o s := rfl
theorem exec_iunpin (l : Lvl3) (o : Wd) (s : State) : exec (.iunpin l o) s = execIunpin l o s := rfl
theorem exec_ld (z : Sz) (sp : Space) (sx : Bool) (q : MemQ) (o : Wd) (s : State) : exec (.ld z sp sx q o) s = execLd z sp sx q o s := rfl
theorem exec_st (z : Sz) (sp : Space) (q : MemQ) (o : Wd) (s : State) : exec (.st z sp q o) s = execSt z sp q o s := rfl
theorem exec_ldv (n : VecN) (sp : Space) (q : MemQ) (o : Wd) (s : State) : exec (.ldv n sp q o) s = execLdv n sp q o s := rfl
theorem exec_stv (n : VecN) (sp : Space) (q : MemQ) (o : Wd) (s : State) : exec (.stv n sp q o) s = execStv n sp q o s := rfl
theorem exec_pref (l : Lvl3) (q : MemQ) (o : Wd) (s : State) : exec (.pref l q o) s = execPref l q o s := rfl
theorem exec_cctl (op : CctlOp) (q : MemQ) (o : Wd) (s : State) : exec (.cctl op q o) s = execCctl op q o s := rfl
theorem exec_wpset (r : Bool) (w : Bool) (q : MemQ) (o : Wd) (s : State) : exec (.wpset r w q o) s = execWpset r w q o s := rfl
theorem exec_wpclr (q : MemQ) (o : Wd) (s : State) : exec (.wpclr q o) s = execWpclr q o s := rfl
theorem exec_fence (q : MemQ) (o : Wd) (s : State) : exec (.fence q o) s = execFence q o s := rfl
theorem exec_fenceSc (q : MemQ) (o : Wd) (s : State) : exec (.fenceSc q o) s = execFenceSc q o s := rfl
theorem exec_fenceLy (q : MemQ) (o : Wd) (s : State) : exec (.fenceLy q o) s = execFenceLy q o s := rfl
theorem exec_atom (f : AForm) (ao : AO) (q : MemQ) (o : Wd) (s : State) : exec (.atom f ao q o) s = execAtom f ao q o s := rfl
theorem exec_atomv (ao : AO) (q : MemQ) (o : Wd) (s : State) : exec (.atomv ao q o) s = execAtomv ao q o s := rfl
theorem exec_red (f : AForm) (ao : AO) (q : MemQ) (o : Wd) (s : State) : exec (.red f ao q o) s = execRed f ao q o s := rfl
theorem exec_waitc (c : ICond) (uns : Bool) (q : MemQ) (o : Wd) (s : State) : exec (.waitc c uns q o) s = execWaitc c uns q o s := rfl
theorem exec_mmaz (t : AType) (spad : Bool) (o : Wd) (s : State) : exec (.mmaz t spad o) s = execMmaz t spad o s := rfl
theorem exec_mma (t : AType) (spad : Bool) (o : Wd) (s : State) : exec (.mma t spad o) s = execMma t spad o s := rfl
theorem exec_wbld (slot : BitVec 3) (o : Wd) (s : State) : exec (.wbld slot o) s = execWbld slot o s := rfl
theorem exec_accld (q : MemQ) (o : Wd) (s : State) : exec (.accld q o) s = execAccld q o s := rfl
theorem exec_accst (q : MemQ) (o : Wd) (s : State) : exec (.accst q o) s = execAccst q o s := rfl
theorem exec_accdr (slot : BitVec 3) (sat : Bool) (o : Wd) (s : State) : exec (.accdr slot sat o) s = execAccdr slot sat o s := rfl
theorem exec_epil (o : Wd) (s : State) : exec (.epil o) s = execEpil o s := rfl
theorem exec_ttask (q : MemQ) (o : Wd) (s : State) : exec (.ttask q o) s = execTtask q o s := rfl
theorem exec_cpy (o : Wd) (s : State) : exec (.cpy o) s = execCpy o s := rfl
theorem exec_cpy2d (o : Wd) (s : State) : exec (.cpy2d o) s = execCpy2d o s := rfl
theorem exec_gath (z : ESz) (o : Wd) (s : State) : exec (.gath z o) s = execGath z o s := rfl
theorem exec_scat (z : ESz) (o : Wd) (s : State) : exec (.scat z o) s = execScat z o s := rfl
theorem exec_bread (o : Wd) (s : State) : exec (.bread o) s = execBread o s := rfl
theorem exec_chapp (o : Wd) (s : State) : exec (.chapp o) s = execChapp o s := rfl
theorem exec_waittl (q : MemQ) (o : Wd) (s : State) : exec (.waittl q o) s = execWaittl q o s := rfl
theorem exec_rdtl (o : Wd) (s : State) : exec (.rdtl o) s = execRdtl o s := rfl
theorem exec_waitcnt (c : Cnt) (o : Wd) (s : State) : exec (.waitcnt c o) s = execWaitcnt c o s := rfl
theorem exec_ctxtlOpen (o : Wd) (s : State) : exec (.ctxtlOpen o) s = execCtxtlOpen o s := rfl
theorem exec_ctxtlClose (o : Wd) (s : State) : exec (.ctxtlClose o) s = execCtxtlClose o s := rfl
theorem exec_ctxtlReset (o : Wd) (s : State) : exec (.ctxtlReset o) s = execCtxtlReset o s := rfl
theorem exec_bar (o : Wd) (s : State) : exec (.bar o) s = execBar o s := rfl
theorem exec_bararv (o : Wd) (s : State) : exec (.bararv o) s = execBararv o s := rfl
theorem exec_barwt (o : Wd) (s : State) : exec (.barwt o) s = execBarwt o s := rfl
theorem exec_gbar (o : Wd) (s : State) : exec (.gbar o) s = execGbar o s := rfl
theorem exec_syncwi (o : Wd) (s : State) : exec (.syncwi o) s = execSyncwi o s := rfl
theorem exec_syncwt (q : MemQ) (o : Wd) (s : State) : exec (.syncwt q o) s = execSyncwt q o s := rfl
theorem exec_launch (o : Wd) (s : State) : exec (.launch o) s = execLaunch o s := rfl
theorem exec_spawn (o : Wd) (s : State) : exec (.spawn o) s = execSpawn o s := rfl
theorem exec_join (o : Wd) (s : State) : exec (.join o) s = execJoin o s := rfl
theorem exec_ticket (o : Wd) (s : State) : exec (.ticket o) s = execTicket o s := rfl
theorem exec_kstat (o : Wd) (s : State) : exec (.kstat o) s = execKstat o s := rfl
theorem exec_grpdecl (fab : Bool) (o : Wd) (s : State) : exec (.grpdecl fab o) s = execGrpdecl fab o s := rfl
theorem exec_grpdrop (o : Wd) (s : State) : exec (.grpdrop o) s = execGrpdrop o s := rfl
theorem exec_claim (b8 : Bool) (o : Wd) (s : State) : exec (.claim b8 o) s = execClaim b8 o s := rfl
theorem exec_object (o : Wd) (s : State) : exec (.object o) s = execObject o s := rfl
theorem exec_clwait (o : Wd) (s : State) : exec (.clwait o) s = execClwait o s := rfl
theorem exec_clinbox (o : Wd) (s : State) : exec (.clinbox o) s = execClinbox o s := rfl
theorem exec_live (o : Wd) (s : State) : exec (.live o) s = execLive o s := rfl
theorem exec_trap (o : Wd) (s : State) : exec (.trap o) s = execTrap o s := rfl
theorem exec_tret (o : Wd) (s : State) : exec (.tret o) s = execTret o s := rfl
theorem exec_ctxsave (o : Wd) (s : State) : exec (.ctxsave o) s = execCtxsave o s := rfl
theorem exec_ctxload (o : Wd) (s : State) : exec (.ctxload o) s = execCtxload o s := rfl
theorem exec_oplogrd (o : Wd) (s : State) : exec (.oplogrd o) s = execOplogrd o s := rfl
theorem exec_progrd (o : Wd) (s : State) : exec (.progrd o) s = execProgrd o s := rfl
theorem exec_progwr (o : Wd) (s : State) : exec (.progwr o) s = execProgwr o s := rfl
theorem exec_eret (o : Wd) (s : State) : exec (.eret o) s = execEret o s := rfl
theorem exec_eretOff (o : Wd) (s : State) : exec (.eretOff o) s = execEretOff o s := rfl
theorem exec_eretEnd (o : Wd) (s : State) : exec (.eretEnd o) s = execEretEnd o s := rfl
theorem exec_pagemode (m : CohMode) (o : Wd) (s : State) : exec (.pagemode m o) s = execPagemode m o s := rfl
theorem exec_tlbinv (all : Bool) (k : Stage) (o : Wd) (s : State) : exec (.tlbinv all k o) s = execTlbinv all k o s := rfl
theorem exec_probe (k : Stage) (o : Wd) (s : State) : exec (.probe k o) s = execProbe k o s := rfl
theorem exec_bmaprd (o : Wd) (s : State) : exec (.bmaprd o) s = execBmaprd o s := rfl
theorem exec_remapPage (o : Wd) (s : State) : exec (.remapPage o) s = execRemapPage o s := rfl
theorem exec_remapBank (o : Wd) (s : State) : exec (.remapBank o) s = execRemapBank o s := rfl
theorem exec_chainst (q : MemQ) (o : Wd) (s : State) : exec (.chainst q o) s = execChainst q o s := rfl
theorem exec_fred (op : FredOp) (q : MemQ) (o : Wd) (s : State) : exec (.fred op q o) s = execFred op q o s := rfl
theorem exec_fredwt (q : MemQ) (o : Wd) (s : State) : exec (.fredwt q o) s = execFredwt q o s := rfl
theorem exec_vfctlEnable (o : Wd) (s : State) : exec (.vfctlEnable o) s = execVfctlEnable o s := rfl
theorem exec_vfctlDrain (o : Wd) (s : State) : exec (.vfctlDrain o) s = execVfctlDrain o s := rfl
theorem exec_vfctlStatus (o : Wd) (s : State) : exec (.vfctlStatus o) s = execVfctlStatus o s := rfl
theorem exec_eNop (s : State) : exec (.eNop) s = execENop s := rfl
theorem exec_eMov (d : EReg) (a : EReg) (s : State) : exec (.eMov d a) s = execEMov d a s := rfl
theorem exec_eMovl (d : BitVec 3) (k : BitVec 16) (s : State) : exec (.eMovl d k) s = execEMovl d k s := rfl
theorem exec_eMovh (d : BitVec 3) (k : BitVec 16) (s : State) : exec (.eMovh d k) s = execEMovh d k s := rfl
theorem exec_eAdd (d : EReg) (a : EReg) (b : EReg) (s : State) : exec (.eAdd d a b) s = execEAdd d a b s := rfl
theorem exec_eSub (d : EReg) (a : EReg) (b : EReg) (s : State) : exec (.eSub d a b) s = execESub d a b s := rfl
theorem exec_eMul (d : EReg) (a : EReg) (b : EReg) (s : State) : exec (.eMul d a b) s = execEMul d a b s := rfl
theorem exec_eFma (d : EReg) (a : EReg) (b : EReg) (c : EReg) (s : State) : exec (.eFma d a b c) s = execEFma d a b c s := rfl
theorem exec_eMin (d : EReg) (a : EReg) (b : EReg) (s : State) : exec (.eMin d a b) s = execEMin d a b s := rfl
theorem exec_eMax (d : EReg) (a : EReg) (b : EReg) (s : State) : exec (.eMax d a b) s = execEMax d a b s := rfl
theorem exec_eRelu (d : EReg) (a : EReg) (s : State) : exec (.eRelu d a) s = execERelu d a s := rfl
theorem exec_eGelu (d : EReg) (a : EReg) (s : State) : exec (.eGelu d a) s = execEGelu d a s := rfl
theorem exec_eClamp (d : EReg) (a : EReg) (b : EReg) (c : EReg) (s : State) : exec (.eClamp d a b c) s = execEClamp d a b c s := rfl
theorem exec_eAbsmaxRow (d : BitVec 3) (a : BitVec 3) (s : State) : exec (.eAbsmaxRow d a) s = execEAbsmaxRow d a s := rfl
theorem exec_eAbsmaxBlk (d : BitVec 3) (a : BitVec 3) (s : State) : exec (.eAbsmaxBlk d a) s = execEAbsmaxBlk d a s := rfl
theorem exec_eSum (d : BitVec 3) (a : BitVec 3) (s : State) : exec (.eSum d a) s = execESum d a s := rfl
theorem exec_eIdx (d : EReg) (s : State) : exec (.eIdx d) s = execEIdx d s := rfl
theorem exec_eBscale (a : BitVec 3) (s : State) : exec (.eBscale a) s = execEBscale a s := rfl
theorem exec_eQ8 (d : BitVec 3) (a : BitVec 3) (s : State) : exec (.eQ8 d a) s = execEQ8 d a s := rfl
theorem exec_eCvt (d : BitVec 3) (a : BitVec 3) (s : State) : exec (.eCvt d a) s = execECvt d a s := rfl
theorem exec_eLdbColF32 (d : BitVec 3) (p : BitVec 2) (k : BitVec 16) (s : State) : exec (.eLdbColF32 d p k) s = execELdbColF32 d p k s := rfl
theorem exec_eLdbColBf16 (d : BitVec 3) (p : BitVec 2) (k : BitVec 16) (s : State) : exec (.eLdbColBf16 d p k) s = execELdbColBf16 d p k s := rfl
theorem exec_eLdbRowF32 (d : BitVec 3) (p : BitVec 2) (k : BitVec 16) (s : State) : exec (.eLdbRowF32 d p k) s = execELdbRowF32 d p k s := rfl
theorem exec_eSt (a : BitVec 3) (k : BitVec 16) (s : State) : exec (.eSt a k) s = execESt a k s := rfl
theorem exec_eSts (p : BitVec 2) (s : State) : exec (.eSts p) s = execESts p s := rfl
theorem exec_eNext (s : State) : exec (.eNext) s = execENext s := rfl
theorem exec_eStop (s : State) : exec (.eStop) s = execEStop s := rfl
theorem exec_slice (c : Cmd) (s : State) : exec (.slice c) s = execSlice c s := rfl
theorem exec_unslice (c : Cmd) (s : State) : exec (.unslice c) s = execUnslice c s := rfl
theorem exec_setq (c : Cmd) (s : State) : exec (.setq c) s = execSetq c s := rfl
theorem exec_root (c : Cmd) (s : State) : exec (.root c) s = execRoot c s := rfl
theorem exec_hnd (c : Cmd) (s : State) : exec (.hnd c) s = execHnd c s := rfl
theorem exec_grant (c : Cmd) (s : State) : exec (.grant c) s = execGrant c s := rfl
theorem exec_run (c : Cmd) (s : State) : exec (.run c) s = execRun c s := rfl
theorem exec_preempt (c : Cmd) (s : State) : exec (.preempt c) s = execPreempt c s := rfl
theorem exec_freeze (c : Cmd) (s : State) : exec (.freeze c) s = execFreeze c s := rfl
theorem exec_thaw (c : Cmd) (s : State) : exec (.thaw c) s = execThaw c s := rfl
theorem exec_carve (c : Cmd) (s : State) : exec (.carve c) s = execCarve c s := rfl
theorem exec_admits (c : Cmd) (s : State) : exec (.admits c) s = execAdmits c s := rfl
theorem exec_log (c : Cmd) (s : State) : exec (.log c) s = execLog c s := rfl
theorem exec_part (c : Cmd) (s : State) : exec (.part c) s = execPart c s := rfl
theorem exec_unpart (c : Cmd) (s : State) : exec (.unpart c) s = execUnpart c s := rfl
theorem exec_vfassign (c : Cmd) (s : State) : exec (.vfassign c) s = execVfassign c s := rfl
theorem exec_hdm (c : Cmd) (s : State) : exec (.hdm c) s = execHdm c s := rfl
theorem exec_frgrant (c : Cmd) (s : State) : exec (.frgrant c) s = execFrgrant c s := rfl
theorem exec_fwupd (c : Cmd) (s : State) : exec (.fwupd c) s = execFwupd c s := rfl
theorem exec_accessCompletion (tm : TeamId) (sw : Nat) (n : Nat) (lane : Nat) (s : State) : exec (.accessCompletion tm sw n lane) s = execAccessCompletion tm sw n lane s := rfl
theorem exec_monitorFire (pa : Nat) (s : State) : exec (.monitorFire pa) s = execMonitorFire pa s := rfl
theorem exec_monitorParkTimeout (tm : TeamId) (sw : Nat) (lane : Nat) (s : State) : exec (.monitorParkTimeout tm sw lane) s = execMonitorParkTimeout tm sw lane s := rfl
theorem exec_pulseTick (s1 : Scope) (s : State) : exec (.pulseTick s1) s = execPulseTick s1 s := rfl
theorem exec_mmaKStep (tm : TeamId) (sw : Nat) (s : State) : exec (.mmaKStep tm sw) s = execMmaKStep tm sw s := rfl
theorem exec_tileTaskStart (n : Nat) (core : Nat) (s : State) : exec (.tileTaskStart n core) s = execTileTaskStart n core s := rfl
theorem exec_tileTaskEnd (n : Nat) (s : State) : exec (.tileTaskEnd n) s = execTileTaskEnd n s := rfl
theorem exec_epilogueRow (s : State) : exec (.epilogueRow) s = execEpilogueRow s := rfl
theorem exec_engineWalkEntry (tm : TeamId) (c : Nat) (s : State) : exec (.engineWalkEntry tm c) s = execEngineWalkEntry tm c s := rfl
theorem exec_operationEnd (tm : TeamId) (c : Nat) (n : Nat) (s : State) : exec (.operationEnd tm c n) s = execOperationEnd tm c n s := rfl
theorem exec_burstArrival (tm : TeamId) (c : Nat) (n : Nat) (j : Nat) (bad : Bool) (s : State) : exec (.burstArrival tm c n j bad) s = execBurstArrival tm c n j bad s := rfl
theorem exec_gatherWindowClose (tm : TeamId) (c : Nat) (n : Nat) (s : State) : exec (.gatherWindowClose tm c n) s = execGatherWindowClose tm c n s := rfl
theorem exec_foragerStart (tm : TeamId) (c : Nat) (n : Nat) (s : State) : exec (.foragerStart tm c n) s = execForagerStart tm c n s := rfl
theorem exec_finalHandlerStart (tm : TeamId) (c : Nat) (n : Nat) (s : State) : exec (.finalHandlerStart tm c n) s = execFinalHandlerStart tm c n s := rfl
theorem exec_syncArrival (tm : TeamId) (off : Nat) (n : Nat) (s : State) : exec (.syncArrival tm off n) s = execSyncArrival tm off n s := rfl
theorem exec_gridDispatch (p : Nat) (s : State) : exec (.gridDispatch p) s = execGridDispatch p s := rfl
theorem exec_launchQueueAge (g : Nat) (s : State) : exec (.launchQueueAge g) s = execLaunchQueueAge g s := rfl
theorem exec_ticketDraw (core : Nat) (s : State) : exec (.ticketDraw core) s = execTicketDraw core s := rfl
theorem exec_teamStart (g : Nat) (unit : Nat) (core : Nat) (s : State) : exec (.teamStart g unit core) s = execTeamStart g unit core s := rfl
theorem exec_gangPlace (g : Nat) (unit : Nat) (s : State) : exec (.gangPlace g unit) s = execGangPlace g unit s := rfl
theorem exec_gridRetire (g : Nat) (s : State) : exec (.gridRetire g) s = execGridRetire g s := rfl
theorem exec_continuationDecrement (die : Nat) (s : State) : exec (.continuationDecrement die) s = execContinuationDecrement die s := rfl
theorem exec_continuationStart (core : Nat) (die : Nat) (prio : Nat) (s : State) : exec (.continuationStart core die prio) s = execContinuationStart core die prio s := rfl
theorem exec_claimProposalArrival (grp : Nat) (id : OnPlane PlaneMsg) (s : State) : exec (.claimProposalArrival grp id) s = execClaimProposalArrival grp id s := rfl
theorem exec_objectionArrival (grp : OnPlane (Nat × Nat × Nat)) (s : State) : exec (.objectionArrival grp) s = execObjectionArrival grp s := rfl
theorem exec_claimDecision (grp : Nat) (id : OnPlane (Nat × Nat)) (s : State) : exec (.claimDecision grp id) s = execClaimDecision grp id s := rfl
theorem exec_impreciseTrapDelivery (tm : TeamId) (s : State) : exec (.impreciseTrapDelivery tm) s = execImpreciseTrapDelivery tm s := rfl
theorem exec_preemptPointStop (tm : TeamId) (sw : Nat) (s : State) : exec (.preemptPointStop tm sw) s = execPreemptPointStop tm sw s := rfl
theorem exec_preemptOverdue (tm : TeamId) (s : State) : exec (.preemptOverdue tm) s = execPreemptOverdue tm s := rfl
theorem exec_parkedWake (tm : TeamId) (s : State) : exec (.parkedWake tm) s = execParkedWake tm s := rfl
theorem exec_contextLoad (tm : TeamId) (core : Nat) (s : State) : exec (.contextLoad tm core) s = execContextLoad tm core s := rfl
theorem exec_faultedRetire (tm : TeamId) (s : State) : exec (.faultedRetire tm) s = execFaultedRetire tm s := rfl
theorem exec_registerSpill (core : Nat) (s : State) : exec (.registerSpill core) s = execRegisterSpill core s := rfl
theorem exec_tableWalk (core : Nat) (part : Nat) (slice : Nat) (asn : Nat) (va : DWord) (need : AccNeed) (s : State) : exec (.tableWalk core part slice asn va need) s = execTableWalk core part slice asn va need s := rfl
theorem exec_foldLineMove (stack : Nat) (s : State) : exec (.foldLineMove stack) s = execFoldLineMove stack s := rfl
theorem exec_assayBeat (stack : Nat) (s : State) : exec (.assayBeat stack) s = execAssayBeat stack s := rfl
theorem exec_demandHold (stack : Nat) (s : State) : exec (.demandHold stack) s = execDemandHold stack s := rfl
theorem exec_bankSleep (stack : Nat) (pillar : Nat) (layer : Nat) (s : State) : exec (.bankSleep stack pillar layer) s = execBankSleep stack pillar layer s := rfl
theorem exec_wakeSlot (stack : Nat) (s : State) : exec (.wakeSlot stack) s = execWakeSlot stack s := rfl
theorem exec_getM (core : Nat) (line : Nat) (s : State) : exec (.getM core line) s = execGetM core line s := rfl
theorem exec_getS (core : Nat) (line : Nat) (s : State) : exec (.getS core line) s = execGetS core line s := rfl
theorem exec_inv (core : Nat) (line : Nat) (s : State) : exec (.inv core line) s = execInv core line s := rfl
theorem exec_ack (core : Nat) (line : Nat) (l : DirLevel) (s : State) : exec (.ack core line l) s = execAck core line l s := rfl
theorem exec_fwd (core : Nat) (line : Nat) (s : State) : exec (.fwd core line) s = execFwd core line s := rfl
theorem exec_data (core : Nat) (line : Nat) (s : State) : exec (.data core line) s = execData core line s := rfl
theorem exec_invDrain (core : Nat) (s : State) : exec (.invDrain core) s = execInvDrain core s := rfl
theorem exec_directoryError (l : DirLevel) (unit : Nat) (region : Nat) (owners : List Nat) (sharers : List Nat) (s : State) : exec (.directoryError l unit region owners sharers) s = execDirectoryError l unit region owners sharers s := rfl
theorem exec_dieFailure (d : Nat) (s : State) : exec (.dieFailure d) s = execDieFailure d s := rfl
theorem exec_inboundWrite (die : Nat) (fn1 : Nat) (addr : DWord) (bytes : List Byte) (ro : Bool) (poison : Bool) (s : State) : exec (.inboundWrite die fn1 addr bytes ro poison) s = execInboundWrite die fn1 addr bytes ro poison s := rfl
theorem exec_inboundRead (die : Nat) (fn1 : Nat) (addr : DWord) (n : Nat) (s : State) : exec (.inboundRead die fn1 addr n) s = execInboundRead die fn1 addr n s := rfl
theorem exec_inboundAtomicop (die : Nat) (fn1 : Nat) (s : State) : exec (.inboundAtomicop die fn1) s = execInboundAtomicop die fn1 s := rfl
theorem exec_pieceAck (die : Nat) (w : Nat) (route : Nat) (s : State) : exec (.pieceAck die w route) s = execPieceAck die w route s := rfl
theorem exec_functionLevelReset (die : Nat) (fn1 : Nat) (s : State) : exec (.functionLevelReset die fn1) s = execFunctionLevelReset die fn1 s := rfl
theorem exec_drainTimeout (die : Nat) (fn1 : Nat) (s : State) : exec (.drainTimeout die fn1) s = execDrainTimeout die fn1 s := rfl
theorem exec_hostCompletion (n : Nat) (r : Reply) (s : State) : exec (.hostCompletion n r) s = execHostCompletion n r s := rfl
theorem exec_completionTimeout (n : Nat) (s : State) : exec (.completionTimeout n) s = execCompletionTimeout n s := rfl
theorem exec_biSnp (line : Nat) (s : State) : exec (.biSnp line) s = execBiSnp line s := rfl
theorem exec_biSnpAnswer (line : Nat) (r : BiAnswer) (s : State) : exec (.biSnpAnswer line r) s = execBiSnpAnswer line r s := rfl
theorem exec_cxlCacheSnoop (line : Nat) (invalidate : Bool) (s : State) : exec (.cxlCacheSnoop line invalidate) s = execCxlCacheSnoop line invalidate s := rfl
theorem exec_fabricRequest (port : Nat) (pkg : Nat) (rpart : Nat) (p : Nat) (addr : DWord) (op : FabOp) (s : State) : exec (.fabricRequest port pkg rpart p addr op) s = execFabricRequest port pkg rpart p addr op s := rfl
theorem exec_remoteReply (n : Nat) (r : Reply) (s : State) : exec (.remoteReply n r) s = execRemoteReply n r s := rfl
theorem exec_remoteTimeout (n : Nat) (s : State) : exec (.remoteTimeout n) s = execRemoteTimeout n s := rfl
theorem exec_snp (line : Nat) (s : State) : exec (.snp line) s = execSnp line s := rfl
theorem exec_flitCrcFail (port : Nat) (s : State) : exec (.flitCrcFail port) s = execFlitCrcFail port s := rfl
theorem exec_flitAcknowledge (port : Nat) (s : State) : exec (.flitAcknowledge port) s = execFlitAcknowledge port s := rfl
theorem exec_pulseCorrection (d : Int) (s : State) : exec (.pulseCorrection d) s = execPulseCorrection d s := rfl
theorem exec_fredAnswer (n : Nat) (others : List FredIn) (now : Nat) (s : State) : exec (.fredAnswer n others now) s = execFredAnswer n others now s := rfl
theorem exec_configurationWrite (die : Nat) (fn1 : Nat) (off : Nat) (val : Word) (s : State) : exec (.configurationWrite die fn1 off val) s = execConfigurationWrite die fn1 off val s := rfl
theorem exec_unitFailure (u : UnitId) (s : State) : exec (.unitFailure u) s = execUnitFailure u s := rfl
theorem exec_unitReady (u : UnitId) (cxl : Bool) (s : State) : exec (.unitReady u cxl) s = execUnitReady u cxl s := rfl
theorem exec_powerOn (s : State) : exec (.powerOn) s = execPowerOn s := rfl
theorem exec_conventionalReset (s : State) : exec (.conventionalReset) s = execConventionalReset s := rfl
theorem exec_go (s : State) : exec (.go) s = execGo s := rfl
theorem exec_abort (s : State) : exec (.abort) s = execAbort s := rfl
theorem exec_recoveryReadCompletion (bytes : List Byte) (status : Nat) (s : State) : exec (.recoveryReadCompletion bytes status) s = execRecoveryReadCompletion bytes status s := rfl
theorem exec_recoveryVerifyDone (s : State) : exec (.recoveryVerifyDone) s = execRecoveryVerifyDone s := rfl
theorem exec_flashWriteDone (block : Option Nat) (s : State) : exec (.flashWriteDone block) s = execFlashWriteDone block s := rfl
theorem exec_registerWrite (off : Nat) (val : DWord) (s : State) : exec (.registerWrite off val) s = execRegisterWrite off val s := rfl

end Sys2Proof.Machine
end

