-- ==== Sys2Proof/Laws/State.lean ====
section
/-!
SUPPORT. One lemma per field and update, true by rfl: what an update of a named part of the state leaves alone.
-/
namespace Sys2Proof.Machine

@[simp] theorem updTeam_turns (s : State) (t : TeamId) (f : Team → Team) : (updTeam s t f).turns = s.turns := rfl
@[simp] theorem updTeam_focus (s : State) (t : TeamId) (f : Team → Team) : (updTeam s t f).focus = s.focus := rfl
@[simp] theorem updTeam_pulse (s : State) (t : TeamId) (f : Team → Team) : (updTeam s t f).pulse = s.pulse := rfl
@[simp] theorem updTeam_draws (s : State) (t : TeamId) (f : Team → Team) : (updTeam s t f).draws = s.draws := rfl
@[simp] theorem updTeam_pkgid (s : State) (t : TeamId) (f : Team → Team) : (updTeam s t f).pkgid = s.pkgid := rfl
@[simp] theorem updTeam_m (s : State) (t : TeamId) (f : Team → Team) : (updTeam s t f).m = s.m := rfl
@[simp] theorem updTeam_arrivals (s : State) (t : TeamId) (f : Team → Team) : (updTeam s t f).arrivals = s.arrivals := rfl
@[simp] theorem updTeam_winNo (s : State) (t : TeamId) (f : Team → Team) : (updTeam s t f).winNo = s.winNo := rfl
@[simp] theorem updTeam_drains (s : State) (t : TeamId) (f : Team → Team) : (updTeam s t f).drains = s.drains := rfl
@[simp] theorem updTeam_epi (s : State) (t : TeamId) (f : Team → Team) : (updTeam s t f).epi = s.epi := rfl
@[simp] theorem updTeam_tasks (s : State) (t : TeamId) (f : Team → Team) : (updTeam s t f).tasks = s.tasks := rfl
@[simp] theorem updTeam_taskNo (s : State) (t : TeamId) (f : Team → Team) : (updTeam s t f).taskNo = s.taskNo := rfl
@[simp] theorem updTeam_parts (s : State) (t : TeamId) (f : Team → Team) : (updTeam s t f).parts = s.parts := rfl
@[simp] theorem updTeam_fwq (s : State) (t : TeamId) (f : Team → Team) : (updTeam s t f).fwq = s.fwq := rfl
@[simp] theorem updTeam_freezes (s : State) (t : TeamId) (f : Team → Team) : (updTeam s t f).freezes = s.freezes := rfl
@[simp] theorem updTeam_logs (s : State) (t : TeamId) (f : Team → Team) : (updTeam s t f).logs = s.logs := rfl
@[simp] theorem updTeam_faults (s : State) (t : TeamId) (f : Team → Team) : (updTeam s t f).faults = s.faults := rfl
@[simp] theorem updTeam_msis (s : State) (t : TeamId) (f : Team → Team) : (updTeam s t f).msis = s.msis := rfl
@[simp] theorem updTeam_forwarded (s : State) (t : TeamId) (f : Team → Team) : (updTeam s t f).forwarded = s.forwarded := rfl
@[simp] theorem updTeam_grids (s : State) (t : TeamId) (f : Team → Team) : (updTeam s t f).grids = s.grids := rfl
@[simp] theorem updTeam_gridNo (s : State) (t : TeamId) (f : Team → Team) : (updTeam s t f).gridNo = s.gridNo := rfl
@[simp] theorem updTeam_gangs (s : State) (t : TeamId) (f : Team → Team) : (updTeam s t f).gangs = s.gangs := rfl
@[simp] theorem updTeam_gangNo (s : State) (t : TeamId) (f : Team → Team) : (updTeam s t f).gangNo = s.gangNo := rfl
@[simp] theorem updTeam_conts (s : State) (t : TeamId) (f : Team → Team) : (updTeam s t f).conts = s.conts := rfl
@[simp] theorem updTeam_contNo (s : State) (t : TeamId) (f : Team → Team) : (updTeam s t f).contNo = s.contNo := rfl
@[simp] theorem updTeam_decs (s : State) (t : TeamId) (f : Team → Team) : (updTeam s t f).decs = s.decs := rfl
@[simp] theorem updTeam_groups (s : State) (t : TeamId) (f : Team → Team) : (updTeam s t f).groups = s.groups := rfl
@[simp] theorem updTeam_link (s : State) (t : TeamId) (f : Team → Team) : (updTeam s t f).link = s.link := rfl
@[simp] theorem updTeam_boot (s : State) (t : TeamId) (f : Team → Team) : (updTeam s t f).boot = s.boot := rfl

@[simp] theorem updSwarm_turns (s : State) (t : TeamId) (n : Nat) (f : Swarm → Swarm) : (updSwarm s t n f).turns = s.turns := rfl
@[simp] theorem updSwarm_focus (s : State) (t : TeamId) (n : Nat) (f : Swarm → Swarm) : (updSwarm s t n f).focus = s.focus := rfl
@[simp] theorem updSwarm_pulse (s : State) (t : TeamId) (n : Nat) (f : Swarm → Swarm) : (updSwarm s t n f).pulse = s.pulse := rfl
@[simp] theorem updSwarm_draws (s : State) (t : TeamId) (n : Nat) (f : Swarm → Swarm) : (updSwarm s t n f).draws = s.draws := rfl
@[simp] theorem updSwarm_pkgid (s : State) (t : TeamId) (n : Nat) (f : Swarm → Swarm) : (updSwarm s t n f).pkgid = s.pkgid := rfl
@[simp] theorem updSwarm_m (s : State) (t : TeamId) (n : Nat) (f : Swarm → Swarm) : (updSwarm s t n f).m = s.m := rfl
@[simp] theorem updSwarm_arrivals (s : State) (t : TeamId) (n : Nat) (f : Swarm → Swarm) : (updSwarm s t n f).arrivals = s.arrivals := rfl
@[simp] theorem updSwarm_winNo (s : State) (t : TeamId) (n : Nat) (f : Swarm → Swarm) : (updSwarm s t n f).winNo = s.winNo := rfl
@[simp] theorem updSwarm_drains (s : State) (t : TeamId) (n : Nat) (f : Swarm → Swarm) : (updSwarm s t n f).drains = s.drains := rfl
@[simp] theorem updSwarm_epi (s : State) (t : TeamId) (n : Nat) (f : Swarm → Swarm) : (updSwarm s t n f).epi = s.epi := rfl
@[simp] theorem updSwarm_tasks (s : State) (t : TeamId) (n : Nat) (f : Swarm → Swarm) : (updSwarm s t n f).tasks = s.tasks := rfl
@[simp] theorem updSwarm_taskNo (s : State) (t : TeamId) (n : Nat) (f : Swarm → Swarm) : (updSwarm s t n f).taskNo = s.taskNo := rfl
@[simp] theorem updSwarm_parts (s : State) (t : TeamId) (n : Nat) (f : Swarm → Swarm) : (updSwarm s t n f).parts = s.parts := rfl
@[simp] theorem updSwarm_fwq (s : State) (t : TeamId) (n : Nat) (f : Swarm → Swarm) : (updSwarm s t n f).fwq = s.fwq := rfl
@[simp] theorem updSwarm_freezes (s : State) (t : TeamId) (n : Nat) (f : Swarm → Swarm) : (updSwarm s t n f).freezes = s.freezes := rfl
@[simp] theorem updSwarm_logs (s : State) (t : TeamId) (n : Nat) (f : Swarm → Swarm) : (updSwarm s t n f).logs = s.logs := rfl
@[simp] theorem updSwarm_faults (s : State) (t : TeamId) (n : Nat) (f : Swarm → Swarm) : (updSwarm s t n f).faults = s.faults := rfl
@[simp] theorem updSwarm_msis (s : State) (t : TeamId) (n : Nat) (f : Swarm → Swarm) : (updSwarm s t n f).msis = s.msis := rfl
@[simp] theorem updSwarm_forwarded (s : State) (t : TeamId) (n : Nat) (f : Swarm → Swarm) : (updSwarm s t n f).forwarded = s.forwarded := rfl
@[simp] theorem updSwarm_grids (s : State) (t : TeamId) (n : Nat) (f : Swarm → Swarm) : (updSwarm s t n f).grids = s.grids := rfl
@[simp] theorem updSwarm_gridNo (s : State) (t : TeamId) (n : Nat) (f : Swarm → Swarm) : (updSwarm s t n f).gridNo = s.gridNo := rfl
@[simp] theorem updSwarm_gangs (s : State) (t : TeamId) (n : Nat) (f : Swarm → Swarm) : (updSwarm s t n f).gangs = s.gangs := rfl
@[simp] theorem updSwarm_gangNo (s : State) (t : TeamId) (n : Nat) (f : Swarm → Swarm) : (updSwarm s t n f).gangNo = s.gangNo := rfl
@[simp] theorem updSwarm_conts (s : State) (t : TeamId) (n : Nat) (f : Swarm → Swarm) : (updSwarm s t n f).conts = s.conts := rfl
@[simp] theorem updSwarm_contNo (s : State) (t : TeamId) (n : Nat) (f : Swarm → Swarm) : (updSwarm s t n f).contNo = s.contNo := rfl
@[simp] theorem updSwarm_decs (s : State) (t : TeamId) (n : Nat) (f : Swarm → Swarm) : (updSwarm s t n f).decs = s.decs := rfl
@[simp] theorem updSwarm_groups (s : State) (t : TeamId) (n : Nat) (f : Swarm → Swarm) : (updSwarm s t n f).groups = s.groups := rfl
@[simp] theorem updSwarm_link (s : State) (t : TeamId) (n : Nat) (f : Swarm → Swarm) : (updSwarm s t n f).link = s.link := rfl
@[simp] theorem updSwarm_boot (s : State) (t : TeamId) (n : Nat) (f : Swarm → Swarm) : (updSwarm s t n f).boot = s.boot := rfl

@[simp] theorem updFrame_turns (s : State) (t : TeamId) (n : Nat) (f : Frame → Frame) : (updFrame s t n f).turns = s.turns := rfl
@[simp] theorem updFrame_focus (s : State) (t : TeamId) (n : Nat) (f : Frame → Frame) : (updFrame s t n f).focus = s.focus := rfl
@[simp] theorem updFrame_pulse (s : State) (t : TeamId) (n : Nat) (f : Frame → Frame) : (updFrame s t n f).pulse = s.pulse := rfl
@[simp] theorem updFrame_draws (s : State) (t : TeamId) (n : Nat) (f : Frame → Frame) : (updFrame s t n f).draws = s.draws := rfl
@[simp] theorem updFrame_pkgid (s : State) (t : TeamId) (n : Nat) (f : Frame → Frame) : (updFrame s t n f).pkgid = s.pkgid := rfl
@[simp] theorem updFrame_m (s : State) (t : TeamId) (n : Nat) (f : Frame → Frame) : (updFrame s t n f).m = s.m := rfl
@[simp] theorem updFrame_arrivals (s : State) (t : TeamId) (n : Nat) (f : Frame → Frame) : (updFrame s t n f).arrivals = s.arrivals := rfl
@[simp] theorem updFrame_winNo (s : State) (t : TeamId) (n : Nat) (f : Frame → Frame) : (updFrame s t n f).winNo = s.winNo := rfl
@[simp] theorem updFrame_drains (s : State) (t : TeamId) (n : Nat) (f : Frame → Frame) : (updFrame s t n f).drains = s.drains := rfl
@[simp] theorem updFrame_epi (s : State) (t : TeamId) (n : Nat) (f : Frame → Frame) : (updFrame s t n f).epi = s.epi := rfl
@[simp] theorem updFrame_tasks (s : State) (t : TeamId) (n : Nat) (f : Frame → Frame) : (updFrame s t n f).tasks = s.tasks := rfl
@[simp] theorem updFrame_taskNo (s : State) (t : TeamId) (n : Nat) (f : Frame → Frame) : (updFrame s t n f).taskNo = s.taskNo := rfl
@[simp] theorem updFrame_parts (s : State) (t : TeamId) (n : Nat) (f : Frame → Frame) : (updFrame s t n f).parts = s.parts := rfl
@[simp] theorem updFrame_fwq (s : State) (t : TeamId) (n : Nat) (f : Frame → Frame) : (updFrame s t n f).fwq = s.fwq := rfl
@[simp] theorem updFrame_freezes (s : State) (t : TeamId) (n : Nat) (f : Frame → Frame) : (updFrame s t n f).freezes = s.freezes := rfl
@[simp] theorem updFrame_logs (s : State) (t : TeamId) (n : Nat) (f : Frame → Frame) : (updFrame s t n f).logs = s.logs := rfl
@[simp] theorem updFrame_faults (s : State) (t : TeamId) (n : Nat) (f : Frame → Frame) : (updFrame s t n f).faults = s.faults := rfl
@[simp] theorem updFrame_msis (s : State) (t : TeamId) (n : Nat) (f : Frame → Frame) : (updFrame s t n f).msis = s.msis := rfl
@[simp] theorem updFrame_forwarded (s : State) (t : TeamId) (n : Nat) (f : Frame → Frame) : (updFrame s t n f).forwarded = s.forwarded := rfl
@[simp] theorem updFrame_grids (s : State) (t : TeamId) (n : Nat) (f : Frame → Frame) : (updFrame s t n f).grids = s.grids := rfl
@[simp] theorem updFrame_gridNo (s : State) (t : TeamId) (n : Nat) (f : Frame → Frame) : (updFrame s t n f).gridNo = s.gridNo := rfl
@[simp] theorem updFrame_gangs (s : State) (t : TeamId) (n : Nat) (f : Frame → Frame) : (updFrame s t n f).gangs = s.gangs := rfl
@[simp] theorem updFrame_gangNo (s : State) (t : TeamId) (n : Nat) (f : Frame → Frame) : (updFrame s t n f).gangNo = s.gangNo := rfl
@[simp] theorem updFrame_conts (s : State) (t : TeamId) (n : Nat) (f : Frame → Frame) : (updFrame s t n f).conts = s.conts := rfl
@[simp] theorem updFrame_contNo (s : State) (t : TeamId) (n : Nat) (f : Frame → Frame) : (updFrame s t n f).contNo = s.contNo := rfl
@[simp] theorem updFrame_decs (s : State) (t : TeamId) (n : Nat) (f : Frame → Frame) : (updFrame s t n f).decs = s.decs := rfl
@[simp] theorem updFrame_groups (s : State) (t : TeamId) (n : Nat) (f : Frame → Frame) : (updFrame s t n f).groups = s.groups := rfl
@[simp] theorem updFrame_link (s : State) (t : TeamId) (n : Nat) (f : Frame → Frame) : (updFrame s t n f).link = s.link := rfl
@[simp] theorem updFrame_boot (s : State) (t : TeamId) (n : Nat) (f : Frame → Frame) : (updFrame s t n f).boot = s.boot := rfl

@[simp] theorem updEng_turns (s : State) (t : TeamId) (c : Nat) (f : EngCtx → EngCtx) : (updEng s t c f).turns = s.turns := rfl
@[simp] theorem updEng_focus (s : State) (t : TeamId) (c : Nat) (f : EngCtx → EngCtx) : (updEng s t c f).focus = s.focus := rfl
@[simp] theorem updEng_pulse (s : State) (t : TeamId) (c : Nat) (f : EngCtx → EngCtx) : (updEng s t c f).pulse = s.pulse := rfl
@[simp] theorem updEng_draws (s : State) (t : TeamId) (c : Nat) (f : EngCtx → EngCtx) : (updEng s t c f).draws = s.draws := rfl
@[simp] theorem updEng_pkgid (s : State) (t : TeamId) (c : Nat) (f : EngCtx → EngCtx) : (updEng s t c f).pkgid = s.pkgid := rfl
@[simp] theorem updEng_m (s : State) (t : TeamId) (c : Nat) (f : EngCtx → EngCtx) : (updEng s t c f).m = s.m := rfl
@[simp] theorem updEng_arrivals (s : State) (t : TeamId) (c : Nat) (f : EngCtx → EngCtx) : (updEng s t c f).arrivals = s.arrivals := rfl
@[simp] theorem updEng_winNo (s : State) (t : TeamId) (c : Nat) (f : EngCtx → EngCtx) : (updEng s t c f).winNo = s.winNo := rfl
@[simp] theorem updEng_drains (s : State) (t : TeamId) (c : Nat) (f : EngCtx → EngCtx) : (updEng s t c f).drains = s.drains := rfl
@[simp] theorem updEng_epi (s : State) (t : TeamId) (c : Nat) (f : EngCtx → EngCtx) : (updEng s t c f).epi = s.epi := rfl
@[simp] theorem updEng_tasks (s : State) (t : TeamId) (c : Nat) (f : EngCtx → EngCtx) : (updEng s t c f).tasks = s.tasks := rfl
@[simp] theorem updEng_taskNo (s : State) (t : TeamId) (c : Nat) (f : EngCtx → EngCtx) : (updEng s t c f).taskNo = s.taskNo := rfl
@[simp] theorem updEng_parts (s : State) (t : TeamId) (c : Nat) (f : EngCtx → EngCtx) : (updEng s t c f).parts = s.parts := rfl
@[simp] theorem updEng_fwq (s : State) (t : TeamId) (c : Nat) (f : EngCtx → EngCtx) : (updEng s t c f).fwq = s.fwq := rfl
@[simp] theorem updEng_freezes (s : State) (t : TeamId) (c : Nat) (f : EngCtx → EngCtx) : (updEng s t c f).freezes = s.freezes := rfl
@[simp] theorem updEng_logs (s : State) (t : TeamId) (c : Nat) (f : EngCtx → EngCtx) : (updEng s t c f).logs = s.logs := rfl
@[simp] theorem updEng_faults (s : State) (t : TeamId) (c : Nat) (f : EngCtx → EngCtx) : (updEng s t c f).faults = s.faults := rfl
@[simp] theorem updEng_msis (s : State) (t : TeamId) (c : Nat) (f : EngCtx → EngCtx) : (updEng s t c f).msis = s.msis := rfl
@[simp] theorem updEng_forwarded (s : State) (t : TeamId) (c : Nat) (f : EngCtx → EngCtx) : (updEng s t c f).forwarded = s.forwarded := rfl
@[simp] theorem updEng_grids (s : State) (t : TeamId) (c : Nat) (f : EngCtx → EngCtx) : (updEng s t c f).grids = s.grids := rfl
@[simp] theorem updEng_gridNo (s : State) (t : TeamId) (c : Nat) (f : EngCtx → EngCtx) : (updEng s t c f).gridNo = s.gridNo := rfl
@[simp] theorem updEng_gangs (s : State) (t : TeamId) (c : Nat) (f : EngCtx → EngCtx) : (updEng s t c f).gangs = s.gangs := rfl
@[simp] theorem updEng_gangNo (s : State) (t : TeamId) (c : Nat) (f : EngCtx → EngCtx) : (updEng s t c f).gangNo = s.gangNo := rfl
@[simp] theorem updEng_conts (s : State) (t : TeamId) (c : Nat) (f : EngCtx → EngCtx) : (updEng s t c f).conts = s.conts := rfl
@[simp] theorem updEng_contNo (s : State) (t : TeamId) (c : Nat) (f : EngCtx → EngCtx) : (updEng s t c f).contNo = s.contNo := rfl
@[simp] theorem updEng_decs (s : State) (t : TeamId) (c : Nat) (f : EngCtx → EngCtx) : (updEng s t c f).decs = s.decs := rfl
@[simp] theorem updEng_groups (s : State) (t : TeamId) (c : Nat) (f : EngCtx → EngCtx) : (updEng s t c f).groups = s.groups := rfl
@[simp] theorem updEng_link (s : State) (t : TeamId) (c : Nat) (f : EngCtx → EngCtx) : (updEng s t c f).link = s.link := rfl
@[simp] theorem updEng_boot (s : State) (t : TeamId) (c : Nat) (f : EngCtx → EngCtx) : (updEng s t c f).boot = s.boot := rfl

@[simp] theorem updGrid_turns (s : State) (g : Nat) (f : Grid → Grid) : (updGrid s g f).turns = s.turns := rfl
@[simp] theorem updGrid_focus (s : State) (g : Nat) (f : Grid → Grid) : (updGrid s g f).focus = s.focus := rfl
@[simp] theorem updGrid_pulse (s : State) (g : Nat) (f : Grid → Grid) : (updGrid s g f).pulse = s.pulse := rfl
@[simp] theorem updGrid_draws (s : State) (g : Nat) (f : Grid → Grid) : (updGrid s g f).draws = s.draws := rfl
@[simp] theorem updGrid_pkgid (s : State) (g : Nat) (f : Grid → Grid) : (updGrid s g f).pkgid = s.pkgid := rfl
@[simp] theorem updGrid_teams (s : State) (g : Nat) (f : Grid → Grid) : (updGrid s g f).teams = s.teams := rfl
@[simp] theorem updGrid_m (s : State) (g : Nat) (f : Grid → Grid) : (updGrid s g f).m = s.m := rfl
@[simp] theorem updGrid_arrivals (s : State) (g : Nat) (f : Grid → Grid) : (updGrid s g f).arrivals = s.arrivals := rfl
@[simp] theorem updGrid_winNo (s : State) (g : Nat) (f : Grid → Grid) : (updGrid s g f).winNo = s.winNo := rfl
@[simp] theorem updGrid_drains (s : State) (g : Nat) (f : Grid → Grid) : (updGrid s g f).drains = s.drains := rfl
@[simp] theorem updGrid_epi (s : State) (g : Nat) (f : Grid → Grid) : (updGrid s g f).epi = s.epi := rfl
@[simp] theorem updGrid_tasks (s : State) (g : Nat) (f : Grid → Grid) : (updGrid s g f).tasks = s.tasks := rfl
@[simp] theorem updGrid_taskNo (s : State) (g : Nat) (f : Grid → Grid) : (updGrid s g f).taskNo = s.taskNo := rfl
@[simp] theorem updGrid_parts (s : State) (g : Nat) (f : Grid → Grid) : (updGrid s g f).parts = s.parts := rfl
@[simp] theorem updGrid_fwq (s : State) (g : Nat) (f : Grid → Grid) : (updGrid s g f).fwq = s.fwq := rfl
@[simp] theorem updGrid_freezes (s : State) (g : Nat) (f : Grid → Grid) : (updGrid s g f).freezes = s.freezes := rfl
@[simp] theorem updGrid_logs (s : State) (g : Nat) (f : Grid → Grid) : (updGrid s g f).logs = s.logs := rfl
@[simp] theorem updGrid_faults (s : State) (g : Nat) (f : Grid → Grid) : (updGrid s g f).faults = s.faults := rfl
@[simp] theorem updGrid_msis (s : State) (g : Nat) (f : Grid → Grid) : (updGrid s g f).msis = s.msis := rfl
@[simp] theorem updGrid_forwarded (s : State) (g : Nat) (f : Grid → Grid) : (updGrid s g f).forwarded = s.forwarded := rfl
@[simp] theorem updGrid_gridNo (s : State) (g : Nat) (f : Grid → Grid) : (updGrid s g f).gridNo = s.gridNo := rfl
@[simp] theorem updGrid_gangs (s : State) (g : Nat) (f : Grid → Grid) : (updGrid s g f).gangs = s.gangs := rfl
@[simp] theorem updGrid_gangNo (s : State) (g : Nat) (f : Grid → Grid) : (updGrid s g f).gangNo = s.gangNo := rfl
@[simp] theorem updGrid_conts (s : State) (g : Nat) (f : Grid → Grid) : (updGrid s g f).conts = s.conts := rfl
@[simp] theorem updGrid_contNo (s : State) (g : Nat) (f : Grid → Grid) : (updGrid s g f).contNo = s.contNo := rfl
@[simp] theorem updGrid_decs (s : State) (g : Nat) (f : Grid → Grid) : (updGrid s g f).decs = s.decs := rfl
@[simp] theorem updGrid_groups (s : State) (g : Nat) (f : Grid → Grid) : (updGrid s g f).groups = s.groups := rfl
@[simp] theorem updGrid_link (s : State) (g : Nat) (f : Grid → Grid) : (updGrid s g f).link = s.link := rfl
@[simp] theorem updGrid_boot (s : State) (g : Nat) (f : Grid → Grid) : (updGrid s g f).boot = s.boot := rfl

@[simp] theorem updGang_turns (s : State) (n : Nat) (f : Gang → Gang) : (updGang s n f).turns = s.turns := rfl
@[simp] theorem updGang_focus (s : State) (n : Nat) (f : Gang → Gang) : (updGang s n f).focus = s.focus := rfl
@[simp] theorem updGang_pulse (s : State) (n : Nat) (f : Gang → Gang) : (updGang s n f).pulse = s.pulse := rfl
@[simp] theorem updGang_draws (s : State) (n : Nat) (f : Gang → Gang) : (updGang s n f).draws = s.draws := rfl
@[simp] theorem updGang_pkgid (s : State) (n : Nat) (f : Gang → Gang) : (updGang s n f).pkgid = s.pkgid := rfl
@[simp] theorem updGang_teams (s : State) (n : Nat) (f : Gang → Gang) : (updGang s n f).teams = s.teams := rfl
@[simp] theorem updGang_m (s : State) (n : Nat) (f : Gang → Gang) : (updGang s n f).m = s.m := rfl
@[simp] theorem updGang_arrivals (s : State) (n : Nat) (f : Gang → Gang) : (updGang s n f).arrivals = s.arrivals := rfl
@[simp] theorem updGang_winNo (s : State) (n : Nat) (f : Gang → Gang) : (updGang s n f).winNo = s.winNo := rfl
@[simp] theorem updGang_drains (s : State) (n : Nat) (f : Gang → Gang) : (updGang s n f).drains = s.drains := rfl
@[simp] theorem updGang_epi (s : State) (n : Nat) (f : Gang → Gang) : (updGang s n f).epi = s.epi := rfl
@[simp] theorem updGang_tasks (s : State) (n : Nat) (f : Gang → Gang) : (updGang s n f).tasks = s.tasks := rfl
@[simp] theorem updGang_taskNo (s : State) (n : Nat) (f : Gang → Gang) : (updGang s n f).taskNo = s.taskNo := rfl
@[simp] theorem updGang_parts (s : State) (n : Nat) (f : Gang → Gang) : (updGang s n f).parts = s.parts := rfl
@[simp] theorem updGang_fwq (s : State) (n : Nat) (f : Gang → Gang) : (updGang s n f).fwq = s.fwq := rfl
@[simp] theorem updGang_freezes (s : State) (n : Nat) (f : Gang → Gang) : (updGang s n f).freezes = s.freezes := rfl
@[simp] theorem updGang_logs (s : State) (n : Nat) (f : Gang → Gang) : (updGang s n f).logs = s.logs := rfl
@[simp] theorem updGang_faults (s : State) (n : Nat) (f : Gang → Gang) : (updGang s n f).faults = s.faults := rfl
@[simp] theorem updGang_msis (s : State) (n : Nat) (f : Gang → Gang) : (updGang s n f).msis = s.msis := rfl
@[simp] theorem updGang_forwarded (s : State) (n : Nat) (f : Gang → Gang) : (updGang s n f).forwarded = s.forwarded := rfl
@[simp] theorem updGang_grids (s : State) (n : Nat) (f : Gang → Gang) : (updGang s n f).grids = s.grids := rfl
@[simp] theorem updGang_gridNo (s : State) (n : Nat) (f : Gang → Gang) : (updGang s n f).gridNo = s.gridNo := rfl
@[simp] theorem updGang_gangNo (s : State) (n : Nat) (f : Gang → Gang) : (updGang s n f).gangNo = s.gangNo := rfl
@[simp] theorem updGang_conts (s : State) (n : Nat) (f : Gang → Gang) : (updGang s n f).conts = s.conts := rfl
@[simp] theorem updGang_contNo (s : State) (n : Nat) (f : Gang → Gang) : (updGang s n f).contNo = s.contNo := rfl
@[simp] theorem updGang_decs (s : State) (n : Nat) (f : Gang → Gang) : (updGang s n f).decs = s.decs := rfl
@[simp] theorem updGang_groups (s : State) (n : Nat) (f : Gang → Gang) : (updGang s n f).groups = s.groups := rfl
@[simp] theorem updGang_link (s : State) (n : Nat) (f : Gang → Gang) : (updGang s n f).link = s.link := rfl
@[simp] theorem updGang_boot (s : State) (n : Nat) (f : Gang → Gang) : (updGang s n f).boot = s.boot := rfl

@[simp] theorem updCont_turns (s : State) (n : Nat) (f : Cont → Cont) : (updCont s n f).turns = s.turns := rfl
@[simp] theorem updCont_focus (s : State) (n : Nat) (f : Cont → Cont) : (updCont s n f).focus = s.focus := rfl
@[simp] theorem updCont_pulse (s : State) (n : Nat) (f : Cont → Cont) : (updCont s n f).pulse = s.pulse := rfl
@[simp] theorem updCont_draws (s : State) (n : Nat) (f : Cont → Cont) : (updCont s n f).draws = s.draws := rfl
@[simp] theorem updCont_pkgid (s : State) (n : Nat) (f : Cont → Cont) : (updCont s n f).pkgid = s.pkgid := rfl
@[simp] theorem updCont_teams (s : State) (n : Nat) (f : Cont → Cont) : (updCont s n f).teams = s.teams := rfl
@[simp] theorem updCont_m (s : State) (n : Nat) (f : Cont → Cont) : (updCont s n f).m = s.m := rfl
@[simp] theorem updCont_arrivals (s : State) (n : Nat) (f : Cont → Cont) : (updCont s n f).arrivals = s.arrivals := rfl
@[simp] theorem updCont_winNo (s : State) (n : Nat) (f : Cont → Cont) : (updCont s n f).winNo = s.winNo := rfl
@[simp] theorem updCont_drains (s : State) (n : Nat) (f : Cont → Cont) : (updCont s n f).drains = s.drains := rfl
@[simp] theorem updCont_epi (s : State) (n : Nat) (f : Cont → Cont) : (updCont s n f).epi = s.epi := rfl
@[simp] theorem updCont_tasks (s : State) (n : Nat) (f : Cont → Cont) : (updCont s n f).tasks = s.tasks := rfl
@[simp] theorem updCont_taskNo (s : State) (n : Nat) (f : Cont → Cont) : (updCont s n f).taskNo = s.taskNo := rfl
@[simp] theorem updCont_parts (s : State) (n : Nat) (f : Cont → Cont) : (updCont s n f).parts = s.parts := rfl
@[simp] theorem updCont_fwq (s : State) (n : Nat) (f : Cont → Cont) : (updCont s n f).fwq = s.fwq := rfl
@[simp] theorem updCont_freezes (s : State) (n : Nat) (f : Cont → Cont) : (updCont s n f).freezes = s.freezes := rfl
@[simp] theorem updCont_logs (s : State) (n : Nat) (f : Cont → Cont) : (updCont s n f).logs = s.logs := rfl
@[simp] theorem updCont_faults (s : State) (n : Nat) (f : Cont → Cont) : (updCont s n f).faults = s.faults := rfl
@[simp] theorem updCont_msis (s : State) (n : Nat) (f : Cont → Cont) : (updCont s n f).msis = s.msis := rfl
@[simp] theorem updCont_forwarded (s : State) (n : Nat) (f : Cont → Cont) : (updCont s n f).forwarded = s.forwarded := rfl
@[simp] theorem updCont_grids (s : State) (n : Nat) (f : Cont → Cont) : (updCont s n f).grids = s.grids := rfl
@[simp] theorem updCont_gridNo (s : State) (n : Nat) (f : Cont → Cont) : (updCont s n f).gridNo = s.gridNo := rfl
@[simp] theorem updCont_gangs (s : State) (n : Nat) (f : Cont → Cont) : (updCont s n f).gangs = s.gangs := rfl
@[simp] theorem updCont_gangNo (s : State) (n : Nat) (f : Cont → Cont) : (updCont s n f).gangNo = s.gangNo := rfl
@[simp] theorem updCont_contNo (s : State) (n : Nat) (f : Cont → Cont) : (updCont s n f).contNo = s.contNo := rfl
@[simp] theorem updCont_decs (s : State) (n : Nat) (f : Cont → Cont) : (updCont s n f).decs = s.decs := rfl
@[simp] theorem updCont_groups (s : State) (n : Nat) (f : Cont → Cont) : (updCont s n f).groups = s.groups := rfl
@[simp] theorem updCont_link (s : State) (n : Nat) (f : Cont → Cont) : (updCont s n f).link = s.link := rfl
@[simp] theorem updCont_boot (s : State) (n : Nat) (f : Cont → Cont) : (updCont s n f).boot = s.boot := rfl

@[simp] theorem updGroup_turns (s : State) (a : Nat) (f : Group → Group) : (updGroup s a f).turns = s.turns := rfl
@[simp] theorem updGroup_focus (s : State) (a : Nat) (f : Group → Group) : (updGroup s a f).focus = s.focus := rfl
@[simp] theorem updGroup_pulse (s : State) (a : Nat) (f : Group → Group) : (updGroup s a f).pulse = s.pulse := rfl
@[simp] theorem updGroup_draws (s : State) (a : Nat) (f : Group → Group) : (updGroup s a f).draws = s.draws := rfl
@[simp] theorem updGroup_pkgid (s : State) (a : Nat) (f : Group → Group) : (updGroup s a f).pkgid = s.pkgid := rfl
@[simp] theorem updGroup_teams (s : State) (a : Nat) (f : Group → Group) : (updGroup s a f).teams = s.teams := rfl
@[simp] theorem updGroup_m (s : State) (a : Nat) (f : Group → Group) : (updGroup s a f).m = s.m := rfl
@[simp] theorem updGroup_arrivals (s : State) (a : Nat) (f : Group → Group) : (updGroup s a f).arrivals = s.arrivals := rfl
@[simp] theorem updGroup_winNo (s : State) (a : Nat) (f : Group → Group) : (updGroup s a f).winNo = s.winNo := rfl
@[simp] theorem updGroup_drains (s : State) (a : Nat) (f : Group → Group) : (updGroup s a f).drains = s.drains := rfl
@[simp] theorem updGroup_epi (s : State) (a : Nat) (f : Group → Group) : (updGroup s a f).epi = s.epi := rfl
@[simp] theorem updGroup_tasks (s : State) (a : Nat) (f : Group → Group) : (updGroup s a f).tasks = s.tasks := rfl
@[simp] theorem updGroup_taskNo (s : State) (a : Nat) (f : Group → Group) : (updGroup s a f).taskNo = s.taskNo := rfl
@[simp] theorem updGroup_parts (s : State) (a : Nat) (f : Group → Group) : (updGroup s a f).parts = s.parts := rfl
@[simp] theorem updGroup_fwq (s : State) (a : Nat) (f : Group → Group) : (updGroup s a f).fwq = s.fwq := rfl
@[simp] theorem updGroup_freezes (s : State) (a : Nat) (f : Group → Group) : (updGroup s a f).freezes = s.freezes := rfl
@[simp] theorem updGroup_logs (s : State) (a : Nat) (f : Group → Group) : (updGroup s a f).logs = s.logs := rfl
@[simp] theorem updGroup_faults (s : State) (a : Nat) (f : Group → Group) : (updGroup s a f).faults = s.faults := rfl
@[simp] theorem updGroup_msis (s : State) (a : Nat) (f : Group → Group) : (updGroup s a f).msis = s.msis := rfl
@[simp] theorem updGroup_forwarded (s : State) (a : Nat) (f : Group → Group) : (updGroup s a f).forwarded = s.forwarded := rfl
@[simp] theorem updGroup_grids (s : State) (a : Nat) (f : Group → Group) : (updGroup s a f).grids = s.grids := rfl
@[simp] theorem updGroup_gridNo (s : State) (a : Nat) (f : Group → Group) : (updGroup s a f).gridNo = s.gridNo := rfl
@[simp] theorem updGroup_gangs (s : State) (a : Nat) (f : Group → Group) : (updGroup s a f).gangs = s.gangs := rfl
@[simp] theorem updGroup_gangNo (s : State) (a : Nat) (f : Group → Group) : (updGroup s a f).gangNo = s.gangNo := rfl
@[simp] theorem updGroup_conts (s : State) (a : Nat) (f : Group → Group) : (updGroup s a f).conts = s.conts := rfl
@[simp] theorem updGroup_contNo (s : State) (a : Nat) (f : Group → Group) : (updGroup s a f).contNo = s.contNo := rfl
@[simp] theorem updGroup_decs (s : State) (a : Nat) (f : Group → Group) : (updGroup s a f).decs = s.decs := rfl
@[simp] theorem updGroup_link (s : State) (a : Nat) (f : Group → Group) : (updGroup s a f).link = s.link := rfl
@[simp] theorem updGroup_boot (s : State) (a : Nat) (f : Group → Group) : (updGroup s a f).boot = s.boot := rfl

@[simp] theorem updTask_turns (s : State) (n : Nat) (f : TileTask → TileTask) : (updTask s n f).turns = s.turns := rfl
@[simp] theorem updTask_focus (s : State) (n : Nat) (f : TileTask → TileTask) : (updTask s n f).focus = s.focus := rfl
@[simp] theorem updTask_pulse (s : State) (n : Nat) (f : TileTask → TileTask) : (updTask s n f).pulse = s.pulse := rfl
@[simp] theorem updTask_draws (s : State) (n : Nat) (f : TileTask → TileTask) : (updTask s n f).draws = s.draws := rfl
@[simp] theorem updTask_pkgid (s : State) (n : Nat) (f : TileTask → TileTask) : (updTask s n f).pkgid = s.pkgid := rfl
@[simp] theorem updTask_teams (s : State) (n : Nat) (f : TileTask → TileTask) : (updTask s n f).teams = s.teams := rfl
@[simp] theorem updTask_m (s : State) (n : Nat) (f : TileTask → TileTask) : (updTask s n f).m = s.m := rfl
@[simp] theorem updTask_arrivals (s : State) (n : Nat) (f : TileTask → TileTask) : (updTask s n f).arrivals = s.arrivals := rfl
@[simp] theorem updTask_winNo (s : State) (n : Nat) (f : TileTask → TileTask) : (updTask s n f).winNo = s.winNo := rfl
@[simp] theorem updTask_drains (s : State) (n : Nat) (f : TileTask → TileTask) : (updTask s n f).drains = s.drains := rfl
@[simp] theorem updTask_epi (s : State) (n : Nat) (f : TileTask → TileTask) : (updTask s n f).epi = s.epi := rfl
@[simp] theorem updTask_taskNo (s : State) (n : Nat) (f : TileTask → TileTask) : (updTask s n f).taskNo = s.taskNo := rfl
@[simp] theorem updTask_parts (s : State) (n : Nat) (f : TileTask → TileTask) : (updTask s n f).parts = s.parts := rfl
@[simp] theorem updTask_fwq (s : State) (n : Nat) (f : TileTask → TileTask) : (updTask s n f).fwq = s.fwq := rfl
@[simp] theorem updTask_freezes (s : State) (n : Nat) (f : TileTask → TileTask) : (updTask s n f).freezes = s.freezes := rfl
@[simp] theorem updTask_logs (s : State) (n : Nat) (f : TileTask → TileTask) : (updTask s n f).logs = s.logs := rfl
@[simp] theorem updTask_faults (s : State) (n : Nat) (f : TileTask → TileTask) : (updTask s n f).faults = s.faults := rfl
@[simp] theorem updTask_msis (s : State) (n : Nat) (f : TileTask → TileTask) : (updTask s n f).msis = s.msis := rfl
@[simp] theorem updTask_forwarded (s : State) (n : Nat) (f : TileTask → TileTask) : (updTask s n f).forwarded = s.forwarded := rfl
@[simp] theorem updTask_grids (s : State) (n : Nat) (f : TileTask → TileTask) : (updTask s n f).grids = s.grids := rfl
@[simp] theorem updTask_gridNo (s : State) (n : Nat) (f : TileTask → TileTask) : (updTask s n f).gridNo = s.gridNo := rfl
@[simp] theorem updTask_gangs (s : State) (n : Nat) (f : TileTask → TileTask) : (updTask s n f).gangs = s.gangs := rfl
@[simp] theorem updTask_gangNo (s : State) (n : Nat) (f : TileTask → TileTask) : (updTask s n f).gangNo = s.gangNo := rfl
@[simp] theorem updTask_conts (s : State) (n : Nat) (f : TileTask → TileTask) : (updTask s n f).conts = s.conts := rfl
@[simp] theorem updTask_contNo (s : State) (n : Nat) (f : TileTask → TileTask) : (updTask s n f).contNo = s.contNo := rfl
@[simp] theorem updTask_decs (s : State) (n : Nat) (f : TileTask → TileTask) : (updTask s n f).decs = s.decs := rfl
@[simp] theorem updTask_groups (s : State) (n : Nat) (f : TileTask → TileTask) : (updTask s n f).groups = s.groups := rfl
@[simp] theorem updTask_link (s : State) (n : Nat) (f : TileTask → TileTask) : (updTask s n f).link = s.link := rfl
@[simp] theorem updTask_boot (s : State) (n : Nat) (f : TileTask → TileTask) : (updTask s n f).boot = s.boot := rfl

@[simp] theorem updPart_turns (s : State) (p : Nat) (f : Part → Part) : (updPart s p f).turns = s.turns := rfl
@[simp] theorem updPart_focus (s : State) (p : Nat) (f : Part → Part) : (updPart s p f).focus = s.focus := rfl
@[simp] theorem updPart_pulse (s : State) (p : Nat) (f : Part → Part) : (updPart s p f).pulse = s.pulse := rfl
@[simp] theorem updPart_draws (s : State) (p : Nat) (f : Part → Part) : (updPart s p f).draws = s.draws := rfl
@[simp] theorem updPart_pkgid (s : State) (p : Nat) (f : Part → Part) : (updPart s p f).pkgid = s.pkgid := rfl
@[simp] theorem updPart_teams (s : State) (p : Nat) (f : Part → Part) : (updPart s p f).teams = s.teams := rfl
@[simp] theorem updPart_m (s : State) (p : Nat) (f : Part → Part) : (updPart s p f).m = s.m := rfl
@[simp] theorem updPart_arrivals (s : State) (p : Nat) (f : Part → Part) : (updPart s p f).arrivals = s.arrivals := rfl
@[simp] theorem updPart_winNo (s : State) (p : Nat) (f : Part → Part) : (updPart s p f).winNo = s.winNo := rfl
@[simp] theorem updPart_drains (s : State) (p : Nat) (f : Part → Part) : (updPart s p f).drains = s.drains := rfl
@[simp] theorem updPart_epi (s : State) (p : Nat) (f : Part → Part) : (updPart s p f).epi = s.epi := rfl
@[simp] theorem updPart_tasks (s : State) (p : Nat) (f : Part → Part) : (updPart s p f).tasks = s.tasks := rfl
@[simp] theorem updPart_taskNo (s : State) (p : Nat) (f : Part → Part) : (updPart s p f).taskNo = s.taskNo := rfl
@[simp] theorem updPart_fwq (s : State) (p : Nat) (f : Part → Part) : (updPart s p f).fwq = s.fwq := rfl
@[simp] theorem updPart_freezes (s : State) (p : Nat) (f : Part → Part) : (updPart s p f).freezes = s.freezes := rfl
@[simp] theorem updPart_logs (s : State) (p : Nat) (f : Part → Part) : (updPart s p f).logs = s.logs := rfl
@[simp] theorem updPart_faults (s : State) (p : Nat) (f : Part → Part) : (updPart s p f).faults = s.faults := rfl
@[simp] theorem updPart_msis (s : State) (p : Nat) (f : Part → Part) : (updPart s p f).msis = s.msis := rfl
@[simp] theorem updPart_forwarded (s : State) (p : Nat) (f : Part → Part) : (updPart s p f).forwarded = s.forwarded := rfl
@[simp] theorem updPart_grids (s : State) (p : Nat) (f : Part → Part) : (updPart s p f).grids = s.grids := rfl
@[simp] theorem updPart_gridNo (s : State) (p : Nat) (f : Part → Part) : (updPart s p f).gridNo = s.gridNo := rfl
@[simp] theorem updPart_gangs (s : State) (p : Nat) (f : Part → Part) : (updPart s p f).gangs = s.gangs := rfl
@[simp] theorem updPart_gangNo (s : State) (p : Nat) (f : Part → Part) : (updPart s p f).gangNo = s.gangNo := rfl
@[simp] theorem updPart_conts (s : State) (p : Nat) (f : Part → Part) : (updPart s p f).conts = s.conts := rfl
@[simp] theorem updPart_contNo (s : State) (p : Nat) (f : Part → Part) : (updPart s p f).contNo = s.contNo := rfl
@[simp] theorem updPart_decs (s : State) (p : Nat) (f : Part → Part) : (updPart s p f).decs = s.decs := rfl
@[simp] theorem updPart_groups (s : State) (p : Nat) (f : Part → Part) : (updPart s p f).groups = s.groups := rfl
@[simp] theorem updPart_link (s : State) (p : Nat) (f : Part → Part) : (updPart s p f).link = s.link := rfl
@[simp] theorem updPart_boot (s : State) (p : Nat) (f : Part → Part) : (updPart s p f).boot = s.boot := rfl

@[simp] theorem updSlice_turns (s : State) (p k : Nat) (f : Slice → Slice) : (updSlice s p k f).turns = s.turns := rfl
@[simp] theorem updSlice_focus (s : State) (p k : Nat) (f : Slice → Slice) : (updSlice s p k f).focus = s.focus := rfl
@[simp] theorem updSlice_pulse (s : State) (p k : Nat) (f : Slice → Slice) : (updSlice s p k f).pulse = s.pulse := rfl
@[simp] theorem updSlice_draws (s : State) (p k : Nat) (f : Slice → Slice) : (updSlice s p k f).draws = s.draws := rfl
@[simp] theorem updSlice_pkgid (s : State) (p k : Nat) (f : Slice → Slice) : (updSlice s p k f).pkgid = s.pkgid := rfl
@[simp] theorem updSlice_teams (s : State) (p k : Nat) (f : Slice → Slice) : (updSlice s p k f).teams = s.teams := rfl
@[simp] theorem updSlice_m (s : State) (p k : Nat) (f : Slice → Slice) : (updSlice s p k f).m = s.m := rfl
@[simp] theorem updSlice_arrivals (s : State) (p k : Nat) (f : Slice → Slice) : (updSlice s p k f).arrivals = s.arrivals := rfl
@[simp] theorem updSlice_winNo (s : State) (p k : Nat) (f : Slice → Slice) : (updSlice s p k f).winNo = s.winNo := rfl
@[simp] theorem updSlice_drains (s : State) (p k : Nat) (f : Slice → Slice) : (updSlice s p k f).drains = s.drains := rfl
@[simp] theorem updSlice_epi (s : State) (p k : Nat) (f : Slice → Slice) : (updSlice s p k f).epi = s.epi := rfl
@[simp] theorem updSlice_tasks (s : State) (p k : Nat) (f : Slice → Slice) : (updSlice s p k f).tasks = s.tasks := rfl
@[simp] theorem updSlice_taskNo (s : State) (p k : Nat) (f : Slice → Slice) : (updSlice s p k f).taskNo = s.taskNo := rfl
@[simp] theorem updSlice_fwq (s : State) (p k : Nat) (f : Slice → Slice) : (updSlice s p k f).fwq = s.fwq := rfl
@[simp] theorem updSlice_freezes (s : State) (p k : Nat) (f : Slice → Slice) : (updSlice s p k f).freezes = s.freezes := rfl
@[simp] theorem updSlice_logs (s : State) (p k : Nat) (f : Slice → Slice) : (updSlice s p k f).logs = s.logs := rfl
@[simp] theorem updSlice_faults (s : State) (p k : Nat) (f : Slice → Slice) : (updSlice s p k f).faults = s.faults := rfl
@[simp] theorem updSlice_msis (s : State) (p k : Nat) (f : Slice → Slice) : (updSlice s p k f).msis = s.msis := rfl
@[simp] theorem updSlice_forwarded (s : State) (p k : Nat) (f : Slice → Slice) : (updSlice s p k f).forwarded = s.forwarded := rfl
@[simp] theorem updSlice_grids (s : State) (p k : Nat) (f : Slice → Slice) : (updSlice s p k f).grids = s.grids := rfl
@[simp] theorem updSlice_gridNo (s : State) (p k : Nat) (f : Slice → Slice) : (updSlice s p k f).gridNo = s.gridNo := rfl
@[simp] theorem updSlice_gangs (s : State) (p k : Nat) (f : Slice → Slice) : (updSlice s p k f).gangs = s.gangs := rfl
@[simp] theorem updSlice_gangNo (s : State) (p k : Nat) (f : Slice → Slice) : (updSlice s p k f).gangNo = s.gangNo := rfl
@[simp] theorem updSlice_conts (s : State) (p k : Nat) (f : Slice → Slice) : (updSlice s p k f).conts = s.conts := rfl
@[simp] theorem updSlice_contNo (s : State) (p k : Nat) (f : Slice → Slice) : (updSlice s p k f).contNo = s.contNo := rfl
@[simp] theorem updSlice_decs (s : State) (p k : Nat) (f : Slice → Slice) : (updSlice s p k f).decs = s.decs := rfl
@[simp] theorem updSlice_groups (s : State) (p k : Nat) (f : Slice → Slice) : (updSlice s p k f).groups = s.groups := rfl
@[simp] theorem updSlice_link (s : State) (p k : Nat) (f : Slice → Slice) : (updSlice s p k f).link = s.link := rfl
@[simp] theorem updSlice_boot (s : State) (p k : Nat) (f : Slice → Slice) : (updSlice s p k f).boot = s.boot := rfl

@[simp] theorem putDrain_turns (s : State) (k : Nat) (d : Drain) : (putDrain s k d).turns = s.turns := rfl
@[simp] theorem putDrain_focus (s : State) (k : Nat) (d : Drain) : (putDrain s k d).focus = s.focus := rfl
@[simp] theorem putDrain_pulse (s : State) (k : Nat) (d : Drain) : (putDrain s k d).pulse = s.pulse := rfl
@[simp] theorem putDrain_draws (s : State) (k : Nat) (d : Drain) : (putDrain s k d).draws = s.draws := rfl
@[simp] theorem putDrain_pkgid (s : State) (k : Nat) (d : Drain) : (putDrain s k d).pkgid = s.pkgid := rfl
@[simp] theorem putDrain_teams (s : State) (k : Nat) (d : Drain) : (putDrain s k d).teams = s.teams := rfl
@[simp] theorem putDrain_m (s : State) (k : Nat) (d : Drain) : (putDrain s k d).m = s.m := rfl
@[simp] theorem putDrain_arrivals (s : State) (k : Nat) (d : Drain) : (putDrain s k d).arrivals = s.arrivals := rfl
@[simp] theorem putDrain_winNo (s : State) (k : Nat) (d : Drain) : (putDrain s k d).winNo = s.winNo := rfl
@[simp] theorem putDrain_epi (s : State) (k : Nat) (d : Drain) : (putDrain s k d).epi = s.epi := rfl
@[simp] theorem putDrain_tasks (s : State) (k : Nat) (d : Drain) : (putDrain s k d).tasks = s.tasks := rfl
@[simp] theorem putDrain_taskNo (s : State) (k : Nat) (d : Drain) : (putDrain s k d).taskNo = s.taskNo := rfl
@[simp] theorem putDrain_parts (s : State) (k : Nat) (d : Drain) : (putDrain s k d).parts = s.parts := rfl
@[simp] theorem putDrain_fwq (s : State) (k : Nat) (d : Drain) : (putDrain s k d).fwq = s.fwq := rfl
@[simp] theorem putDrain_freezes (s : State) (k : Nat) (d : Drain) : (putDrain s k d).freezes = s.freezes := rfl
@[simp] theorem putDrain_logs (s : State) (k : Nat) (d : Drain) : (putDrain s k d).logs = s.logs := rfl
@[simp] theorem putDrain_faults (s : State) (k : Nat) (d : Drain) : (putDrain s k d).faults = s.faults := rfl
@[simp] theorem putDrain_msis (s : State) (k : Nat) (d : Drain) : (putDrain s k d).msis = s.msis := rfl
@[simp] theorem putDrain_forwarded (s : State) (k : Nat) (d : Drain) : (putDrain s k d).forwarded = s.forwarded := rfl
@[simp] theorem putDrain_grids (s : State) (k : Nat) (d : Drain) : (putDrain s k d).grids = s.grids := rfl
@[simp] theorem putDrain_gridNo (s : State) (k : Nat) (d : Drain) : (putDrain s k d).gridNo = s.gridNo := rfl
@[simp] theorem putDrain_gangs (s : State) (k : Nat) (d : Drain) : (putDrain s k d).gangs = s.gangs := rfl
@[simp] theorem putDrain_gangNo (s : State) (k : Nat) (d : Drain) : (putDrain s k d).gangNo = s.gangNo := rfl
@[simp] theorem putDrain_conts (s : State) (k : Nat) (d : Drain) : (putDrain s k d).conts = s.conts := rfl
@[simp] theorem putDrain_contNo (s : State) (k : Nat) (d : Drain) : (putDrain s k d).contNo = s.contNo := rfl
@[simp] theorem putDrain_decs (s : State) (k : Nat) (d : Drain) : (putDrain s k d).decs = s.decs := rfl
@[simp] theorem putDrain_groups (s : State) (k : Nat) (d : Drain) : (putDrain s k d).groups = s.groups := rfl
@[simp] theorem putDrain_link (s : State) (k : Nat) (d : Drain) : (putDrain s k d).link = s.link := rfl
@[simp] theorem putDrain_boot (s : State) (k : Nat) (d : Drain) : (putDrain s k d).boot = s.boot := rfl

@[simp] theorem updBoot_turns (s : State) (f : Boot → Boot) : (updBoot s f).turns = s.turns := rfl
@[simp] theorem updBoot_focus (s : State) (f : Boot → Boot) : (updBoot s f).focus = s.focus := rfl
@[simp] theorem updBoot_pulse (s : State) (f : Boot → Boot) : (updBoot s f).pulse = s.pulse := rfl
@[simp] theorem updBoot_draws (s : State) (f : Boot → Boot) : (updBoot s f).draws = s.draws := rfl
@[simp] theorem updBoot_pkgid (s : State) (f : Boot → Boot) : (updBoot s f).pkgid = s.pkgid := rfl
@[simp] theorem updBoot_teams (s : State) (f : Boot → Boot) : (updBoot s f).teams = s.teams := rfl
@[simp] theorem updBoot_m (s : State) (f : Boot → Boot) : (updBoot s f).m = s.m := rfl
@[simp] theorem updBoot_arrivals (s : State) (f : Boot → Boot) : (updBoot s f).arrivals = s.arrivals := rfl
@[simp] theorem updBoot_winNo (s : State) (f : Boot → Boot) : (updBoot s f).winNo = s.winNo := rfl
@[simp] theorem updBoot_drains (s : State) (f : Boot → Boot) : (updBoot s f).drains = s.drains := rfl
@[simp] theorem updBoot_epi (s : State) (f : Boot → Boot) : (updBoot s f).epi = s.epi := rfl
@[simp] theorem updBoot_tasks (s : State) (f : Boot → Boot) : (updBoot s f).tasks = s.tasks := rfl
@[simp] theorem updBoot_taskNo (s : State) (f : Boot → Boot) : (updBoot s f).taskNo = s.taskNo := rfl
@[simp] theorem updBoot_parts (s : State) (f : Boot → Boot) : (updBoot s f).parts = s.parts := rfl
@[simp] theorem updBoot_fwq (s : State) (f : Boot → Boot) : (updBoot s f).fwq = s.fwq := rfl
@[simp] theorem updBoot_freezes (s : State) (f : Boot → Boot) : (updBoot s f).freezes = s.freezes := rfl
@[simp] theorem updBoot_logs (s : State) (f : Boot → Boot) : (updBoot s f).logs = s.logs := rfl
@[simp] theorem updBoot_faults (s : State) (f : Boot → Boot) : (updBoot s f).faults = s.faults := rfl
@[simp] theorem updBoot_msis (s : State) (f : Boot → Boot) : (updBoot s f).msis = s.msis := rfl
@[simp] theorem updBoot_forwarded (s : State) (f : Boot → Boot) : (updBoot s f).forwarded = s.forwarded := rfl
@[simp] theorem updBoot_grids (s : State) (f : Boot → Boot) : (updBoot s f).grids = s.grids := rfl
@[simp] theorem updBoot_gridNo (s : State) (f : Boot → Boot) : (updBoot s f).gridNo = s.gridNo := rfl
@[simp] theorem updBoot_gangs (s : State) (f : Boot → Boot) : (updBoot s f).gangs = s.gangs := rfl
@[simp] theorem updBoot_gangNo (s : State) (f : Boot → Boot) : (updBoot s f).gangNo = s.gangNo := rfl
@[simp] theorem updBoot_conts (s : State) (f : Boot → Boot) : (updBoot s f).conts = s.conts := rfl
@[simp] theorem updBoot_contNo (s : State) (f : Boot → Boot) : (updBoot s f).contNo = s.contNo := rfl
@[simp] theorem updBoot_decs (s : State) (f : Boot → Boot) : (updBoot s f).decs = s.decs := rfl
@[simp] theorem updBoot_groups (s : State) (f : Boot → Boot) : (updBoot s f).groups = s.groups := rfl
@[simp] theorem updBoot_link (s : State) (f : Boot → Boot) : (updBoot s f).link = s.link := rfl

@[simp] theorem updFn_turns (s : State) (die num : Nat) (g : Fn → Fn) : (updFn s die num g).turns = s.turns := rfl
@[simp] theorem updFn_focus (s : State) (die num : Nat) (g : Fn → Fn) : (updFn s die num g).focus = s.focus := rfl
@[simp] theorem updFn_pulse (s : State) (die num : Nat) (g : Fn → Fn) : (updFn s die num g).pulse = s.pulse := rfl
@[simp] theorem updFn_draws (s : State) (die num : Nat) (g : Fn → Fn) : (updFn s die num g).draws = s.draws := rfl
@[simp] theorem updFn_pkgid (s : State) (die num : Nat) (g : Fn → Fn) : (updFn s die num g).pkgid = s.pkgid := rfl
@[simp] theorem updFn_teams (s : State) (die num : Nat) (g : Fn → Fn) : (updFn s die num g).teams = s.teams := rfl
@[simp] theorem updFn_m (s : State) (die num : Nat) (g : Fn → Fn) : (updFn s die num g).m = s.m := rfl
@[simp] theorem updFn_arrivals (s : State) (die num : Nat) (g : Fn → Fn) : (updFn s die num g).arrivals = s.arrivals := rfl
@[simp] theorem updFn_winNo (s : State) (die num : Nat) (g : Fn → Fn) : (updFn s die num g).winNo = s.winNo := rfl
@[simp] theorem updFn_drains (s : State) (die num : Nat) (g : Fn → Fn) : (updFn s die num g).drains = s.drains := rfl
@[simp] theorem updFn_epi (s : State) (die num : Nat) (g : Fn → Fn) : (updFn s die num g).epi = s.epi := rfl
@[simp] theorem updFn_tasks (s : State) (die num : Nat) (g : Fn → Fn) : (updFn s die num g).tasks = s.tasks := rfl
@[simp] theorem updFn_taskNo (s : State) (die num : Nat) (g : Fn → Fn) : (updFn s die num g).taskNo = s.taskNo := rfl
@[simp] theorem updFn_parts (s : State) (die num : Nat) (g : Fn → Fn) : (updFn s die num g).parts = s.parts := rfl
@[simp] theorem updFn_fwq (s : State) (die num : Nat) (g : Fn → Fn) : (updFn s die num g).fwq = s.fwq := rfl
@[simp] theorem updFn_freezes (s : State) (die num : Nat) (g : Fn → Fn) : (updFn s die num g).freezes = s.freezes := rfl
@[simp] theorem updFn_logs (s : State) (die num : Nat) (g : Fn → Fn) : (updFn s die num g).logs = s.logs := rfl
@[simp] theorem updFn_faults (s : State) (die num : Nat) (g : Fn → Fn) : (updFn s die num g).faults = s.faults := rfl
@[simp] theorem updFn_msis (s : State) (die num : Nat) (g : Fn → Fn) : (updFn s die num g).msis = s.msis := rfl
@[simp] theorem updFn_forwarded (s : State) (die num : Nat) (g : Fn → Fn) : (updFn s die num g).forwarded = s.forwarded := rfl
@[simp] theorem updFn_grids (s : State) (die num : Nat) (g : Fn → Fn) : (updFn s die num g).grids = s.grids := rfl
@[simp] theorem updFn_gridNo (s : State) (die num : Nat) (g : Fn → Fn) : (updFn s die num g).gridNo = s.gridNo := rfl
@[simp] theorem updFn_gangs (s : State) (die num : Nat) (g : Fn → Fn) : (updFn s die num g).gangs = s.gangs := rfl
@[simp] theorem updFn_gangNo (s : State) (die num : Nat) (g : Fn → Fn) : (updFn s die num g).gangNo = s.gangNo := rfl
@[simp] theorem updFn_conts (s : State) (die num : Nat) (g : Fn → Fn) : (updFn s die num g).conts = s.conts := rfl
@[simp] theorem updFn_contNo (s : State) (die num : Nat) (g : Fn → Fn) : (updFn s die num g).contNo = s.contNo := rfl
@[simp] theorem updFn_decs (s : State) (die num : Nat) (g : Fn → Fn) : (updFn s die num g).decs = s.decs := rfl
@[simp] theorem updFn_groups (s : State) (die num : Nat) (g : Fn → Fn) : (updFn s die num g).groups = s.groups := rfl
@[simp] theorem updFn_boot (s : State) (die num : Nat) (g : Fn → Fn) : (updFn s die num g).boot = s.boot := rfl

@[simp] theorem updStack_turns (s : State) (k : Nat) (f : StackSt → StackSt) : (updStack s k f).turns = s.turns := rfl
@[simp] theorem updStack_focus (s : State) (k : Nat) (f : StackSt → StackSt) : (updStack s k f).focus = s.focus := rfl
@[simp] theorem updStack_pulse (s : State) (k : Nat) (f : StackSt → StackSt) : (updStack s k f).pulse = s.pulse := rfl
@[simp] theorem updStack_draws (s : State) (k : Nat) (f : StackSt → StackSt) : (updStack s k f).draws = s.draws := rfl
@[simp] theorem updStack_pkgid (s : State) (k : Nat) (f : StackSt → StackSt) : (updStack s k f).pkgid = s.pkgid := rfl
@[simp] theorem updStack_teams (s : State) (k : Nat) (f : StackSt → StackSt) : (updStack s k f).teams = s.teams := rfl
@[simp] theorem updStack_arrivals (s : State) (k : Nat) (f : StackSt → StackSt) : (updStack s k f).arrivals = s.arrivals := rfl
@[simp] theorem updStack_winNo (s : State) (k : Nat) (f : StackSt → StackSt) : (updStack s k f).winNo = s.winNo := rfl
@[simp] theorem updStack_drains (s : State) (k : Nat) (f : StackSt → StackSt) : (updStack s k f).drains = s.drains := rfl
@[simp] theorem updStack_epi (s : State) (k : Nat) (f : StackSt → StackSt) : (updStack s k f).epi = s.epi := rfl
@[simp] theorem updStack_tasks (s : State) (k : Nat) (f : StackSt → StackSt) : (updStack s k f).tasks = s.tasks := rfl
@[simp] theorem updStack_taskNo (s : State) (k : Nat) (f : StackSt → StackSt) : (updStack s k f).taskNo = s.taskNo := rfl
@[simp] theorem updStack_parts (s : State) (k : Nat) (f : StackSt → StackSt) : (updStack s k f).parts = s.parts := rfl
@[simp] theorem updStack_fwq (s : State) (k : Nat) (f : StackSt → StackSt) : (updStack s k f).fwq = s.fwq := rfl
@[simp] theorem updStack_freezes (s : State) (k : Nat) (f : StackSt → StackSt) : (updStack s k f).freezes = s.freezes := rfl
@[simp] theorem updStack_logs (s : State) (k : Nat) (f : StackSt → StackSt) : (updStack s k f).logs = s.logs := rfl
@[simp] theorem updStack_faults (s : State) (k : Nat) (f : StackSt → StackSt) : (updStack s k f).faults = s.faults := rfl
@[simp] theorem updStack_msis (s : State) (k : Nat) (f : StackSt → StackSt) : (updStack s k f).msis = s.msis := rfl
@[simp] theorem updStack_forwarded (s : State) (k : Nat) (f : StackSt → StackSt) : (updStack s k f).forwarded = s.forwarded := rfl
@[simp] theorem updStack_grids (s : State) (k : Nat) (f : StackSt → StackSt) : (updStack s k f).grids = s.grids := rfl
@[simp] theorem updStack_gridNo (s : State) (k : Nat) (f : StackSt → StackSt) : (updStack s k f).gridNo = s.gridNo := rfl
@[simp] theorem updStack_gangs (s : State) (k : Nat) (f : StackSt → StackSt) : (updStack s k f).gangs = s.gangs := rfl
@[simp] theorem updStack_gangNo (s : State) (k : Nat) (f : StackSt → StackSt) : (updStack s k f).gangNo = s.gangNo := rfl
@[simp] theorem updStack_conts (s : State) (k : Nat) (f : StackSt → StackSt) : (updStack s k f).conts = s.conts := rfl
@[simp] theorem updStack_contNo (s : State) (k : Nat) (f : StackSt → StackSt) : (updStack s k f).contNo = s.contNo := rfl
@[simp] theorem updStack_decs (s : State) (k : Nat) (f : StackSt → StackSt) : (updStack s k f).decs = s.decs := rfl
@[simp] theorem updStack_groups (s : State) (k : Nat) (f : StackSt → StackSt) : (updStack s k f).groups = s.groups := rfl
@[simp] theorem updStack_link (s : State) (k : Nat) (f : StackSt → StackSt) : (updStack s k f).link = s.link := rfl
@[simp] theorem updStack_boot (s : State) (k : Nat) (f : StackSt → StackSt) : (updStack s k f).boot = s.boot := rfl

@[simp] theorem advance_turns (s : State) (f : Focus) : (advance s f).turns = s.turns := rfl
@[simp] theorem advance_focus (s : State) (f : Focus) : (advance s f).focus = s.focus := rfl
@[simp] theorem advance_pulse (s : State) (f : Focus) : (advance s f).pulse = s.pulse := rfl
@[simp] theorem advance_draws (s : State) (f : Focus) : (advance s f).draws = s.draws := rfl
@[simp] theorem advance_pkgid (s : State) (f : Focus) : (advance s f).pkgid = s.pkgid := rfl
@[simp] theorem advance_m (s : State) (f : Focus) : (advance s f).m = s.m := rfl
@[simp] theorem advance_arrivals (s : State) (f : Focus) : (advance s f).arrivals = s.arrivals := rfl
@[simp] theorem advance_winNo (s : State) (f : Focus) : (advance s f).winNo = s.winNo := rfl
@[simp] theorem advance_drains (s : State) (f : Focus) : (advance s f).drains = s.drains := rfl
@[simp] theorem advance_epi (s : State) (f : Focus) : (advance s f).epi = s.epi := rfl
@[simp] theorem advance_tasks (s : State) (f : Focus) : (advance s f).tasks = s.tasks := rfl
@[simp] theorem advance_taskNo (s : State) (f : Focus) : (advance s f).taskNo = s.taskNo := rfl
@[simp] theorem advance_parts (s : State) (f : Focus) : (advance s f).parts = s.parts := rfl
@[simp] theorem advance_fwq (s : State) (f : Focus) : (advance s f).fwq = s.fwq := rfl
@[simp] theorem advance_freezes (s : State) (f : Focus) : (advance s f).freezes = s.freezes := rfl
@[simp] theorem advance_logs (s : State) (f : Focus) : (advance s f).logs = s.logs := rfl
@[simp] theorem advance_faults (s : State) (f : Focus) : (advance s f).faults = s.faults := rfl
@[simp] theorem advance_msis (s : State) (f : Focus) : (advance s f).msis = s.msis := rfl
@[simp] theorem advance_forwarded (s : State) (f : Focus) : (advance s f).forwarded = s.forwarded := rfl
@[simp] theorem advance_grids (s : State) (f : Focus) : (advance s f).grids = s.grids := rfl
@[simp] theorem advance_gridNo (s : State) (f : Focus) : (advance s f).gridNo = s.gridNo := rfl
@[simp] theorem advance_gangs (s : State) (f : Focus) : (advance s f).gangs = s.gangs := rfl
@[simp] theorem advance_gangNo (s : State) (f : Focus) : (advance s f).gangNo = s.gangNo := rfl
@[simp] theorem advance_conts (s : State) (f : Focus) : (advance s f).conts = s.conts := rfl
@[simp] theorem advance_contNo (s : State) (f : Focus) : (advance s f).contNo = s.contNo := rfl
@[simp] theorem advance_decs (s : State) (f : Focus) : (advance s f).decs = s.decs := rfl
@[simp] theorem advance_groups (s : State) (f : Focus) : (advance s f).groups = s.groups := rfl
@[simp] theorem advance_link (s : State) (f : Focus) : (advance s f).link = s.link := rfl
@[simp] theorem advance_boot (s : State) (f : Focus) : (advance s f).boot = s.boot := rfl

theorem progFrame_none {sw : Swarm} (h : sw.hidden = none) : progFrame sw = sw.frame := by simp [progFrame, h]

@[simp] theorem updLane_regs (fr : Frame) (i : Nat) (g : Lane → Lane) : (updLane fr i g).regs = fr.regs := rfl
@[simp] theorem updLane_live (fr : Frame) (i : Nat) (g : Lane → Lane) : (updLane fr i g).live = fr.live := rfl
@[simp] theorem updLane_freed (fr : Frame) (i : Nat) (g : Lane → Lane) : (updLane fr i g).freed = fr.freed := rfl
@[simp] theorem updLane_spilled (fr : Frame) (i : Nat) (g : Lane → Lane) : (updLane fr i g).spilled = fr.spilled := rfl
@[simp] theorem updLane_vcnt (fr : Frame) (i : Nat) (g : Lane → Lane) : (updLane fr i g).vcnt = fr.vcnt := rfl
@[simp] theorem updLane_tcnt (fr : Frame) (i : Nat) (g : Lane → Lane) : (updLane fr i g).tcnt = fr.tcnt := rfl
@[simp] theorem updLane_xlgw (fr : Frame) (i : Nat) (g : Lane → Lane) : (updLane fr i g).xlgw = fr.xlgw := rfl
@[simp] theorem updLane_prog (fr : Frame) (i : Nat) (g : Lane → Lane) : (updLane fr i g).prog = fr.prog := rfl
@[simp] theorem updLane_marks (fr : Frame) (i : Nat) (g : Lane → Lane) : (updLane fr i g).marks = fr.marks := rfl
@[simp] theorem updLane_bcast (fr : Frame) (i : Nat) (g : Lane → Lane) : (updLane fr i g).bcast = fr.bcast := rfl
@[simp] theorem updLane_lastSub (fr : Frame) (i : Nat) (g : Lane → Lane) : (updLane fr i g).lastSub = fr.lastSub := rfl
@[simp] theorem updLane_tried (fr : Frame) (i : Nat) (g : Lane → Lane) : (updLane fr i g).tried = fr.tried := rfl
@[simp] theorem updLane_cLd (fr : Frame) (i : Nat) (g : Lane → Lane) : (updLane fr i g).cLd = fr.cLd := rfl
@[simp] theorem updLane_cSt (fr : Frame) (i : Nat) (g : Lane → Lane) : (updLane fr i g).cSt = fr.cSt := rfl
@[simp] theorem updLane_cCp (fr : Frame) (i : Nat) (g : Lane → Lane) : (updLane fr i g).cCp = fr.cCp := rfl
@[simp] theorem updLane_cTile (fr : Frame) (i : Nat) (g : Lane → Lane) : (updLane fr i g).cTile = fr.cTile := rfl
@[simp] theorem updLane_log (fr : Frame) (i : Nat) (g : Lane → Lane) : (updLane fr i g).log = fr.log := rfl
@[simp] theorem updLane_fences (fr : Frame) (i : Nat) (g : Lane → Lane) : (updLane fr i g).fences = fr.fences := rfl
@[simp] theorem updLane_seq (fr : Frame) (i : Nat) (g : Lane → Lane) : (updLane fr i g).seq = fr.seq := rfl
@[simp] theorem updLane_liveSet (fr : Frame) (i : Nat) (g : Lane → Lane) : (updLane fr i g).liveSet = fr.liveSet := rfl
@[simp] theorem updLane_macroAt (fr : Frame) (i : Nat) (g : Lane → Lane) : (updLane fr i g).macroAt = fr.macroAt := rfl
@[simp] theorem updLane_arrive (fr : Frame) (i : Nat) (g : Lane → Lane) : (updLane fr i g).arrive = fr.arrive := rfl

@[simp] theorem setReg_lanes (fr : Frame) (i n : Nat) (w : Word) : (setReg fr i n w).lanes = fr.lanes := rfl
@[simp] theorem setReg_spilled (fr : Frame) (i n : Nat) (w : Word) : (setReg fr i n w).spilled = fr.spilled := rfl
@[simp] theorem setReg_vcnt (fr : Frame) (i n : Nat) (w : Word) : (setReg fr i n w).vcnt = fr.vcnt := rfl
@[simp] theorem setReg_tcnt (fr : Frame) (i n : Nat) (w : Word) : (setReg fr i n w).tcnt = fr.tcnt := rfl
@[simp] theorem setReg_xlgw (fr : Frame) (i n : Nat) (w : Word) : (setReg fr i n w).xlgw = fr.xlgw := rfl
@[simp] theorem setReg_prog (fr : Frame) (i n : Nat) (w : Word) : (setReg fr i n w).prog = fr.prog := rfl
@[simp] theorem setReg_marks (fr : Frame) (i n : Nat) (w : Word) : (setReg fr i n w).marks = fr.marks := rfl
@[simp] theorem setReg_bcast (fr : Frame) (i n : Nat) (w : Word) : (setReg fr i n w).bcast = fr.bcast := rfl
@[simp] theorem setReg_lastSub (fr : Frame) (i n : Nat) (w : Word) : (setReg fr i n w).lastSub = fr.lastSub := rfl
@[simp] theorem setReg_tried (fr : Frame) (i n : Nat) (w : Word) : (setReg fr i n w).tried = fr.tried := rfl
@[simp] theorem setReg_cLd (fr : Frame) (i n : Nat) (w : Word) : (setReg fr i n w).cLd = fr.cLd := rfl
@[simp] theorem setReg_cSt (fr : Frame) (i n : Nat) (w : Word) : (setReg fr i n w).cSt = fr.cSt := rfl
@[simp] theorem setReg_cCp (fr : Frame) (i n : Nat) (w : Word) : (setReg fr i n w).cCp = fr.cCp := rfl
@[simp] theorem setReg_cTile (fr : Frame) (i n : Nat) (w : Word) : (setReg fr i n w).cTile = fr.cTile := rfl
@[simp] theorem setReg_log (fr : Frame) (i n : Nat) (w : Word) : (setReg fr i n w).log = fr.log := rfl
@[simp] theorem setReg_fences (fr : Frame) (i n : Nat) (w : Word) : (setReg fr i n w).fences = fr.fences := rfl
@[simp] theorem setReg_seq (fr : Frame) (i n : Nat) (w : Word) : (setReg fr i n w).seq = fr.seq := rfl
@[simp] theorem setReg_liveSet (fr : Frame) (i n : Nat) (w : Word) : (setReg fr i n w).liveSet = fr.liveSet := rfl
@[simp] theorem setReg_macroAt (fr : Frame) (i n : Nat) (w : Word) : (setReg fr i n w).macroAt = fr.macroAt := rfl
@[simp] theorem setReg_arrive (fr : Frame) (i n : Nat) (w : Word) : (setReg fr i n w).arrive = fr.arrive := rfl

@[simp] theorem orFlags_regs (fr : Frame) (i : Nat) (fl : Flags) : (orFlags fr i fl).regs = fr.regs := rfl
@[simp] theorem orFlags_live (fr : Frame) (i : Nat) (fl : Flags) : (orFlags fr i fl).live = fr.live := rfl
@[simp] theorem orFlags_freed (fr : Frame) (i : Nat) (fl : Flags) : (orFlags fr i fl).freed = fr.freed := rfl
@[simp] theorem orFlags_spilled (fr : Frame) (i : Nat) (fl : Flags) : (orFlags fr i fl).spilled = fr.spilled := rfl
@[simp] theorem orFlags_vcnt (fr : Frame) (i : Nat) (fl : Flags) : (orFlags fr i fl).vcnt = fr.vcnt := rfl
@[simp] theorem orFlags_tcnt (fr : Frame) (i : Nat) (fl : Flags) : (orFlags fr i fl).tcnt = fr.tcnt := rfl
@[simp] theorem orFlags_xlgw (fr : Frame) (i : Nat) (fl : Flags) : (orFlags fr i fl).xlgw = fr.xlgw := rfl
@[simp] theorem orFlags_prog (fr : Frame) (i : Nat) (fl : Flags) : (orFlags fr i fl).prog = fr.prog := rfl
@[simp] theorem orFlags_marks (fr : Frame) (i : Nat) (fl : Flags) : (orFlags fr i fl).marks = fr.marks := rfl
@[simp] theorem orFlags_bcast (fr : Frame) (i : Nat) (fl : Flags) : (orFlags fr i fl).bcast = fr.bcast := rfl
@[simp] theorem orFlags_lastSub (fr : Frame) (i : Nat) (fl : Flags) : (orFlags fr i fl).lastSub = fr.lastSub := rfl
@[simp] theorem orFlags_tried (fr : Frame) (i : Nat) (fl : Flags) : (orFlags fr i fl).tried = fr.tried := rfl
@[simp] theorem orFlags_cLd (fr : Frame) (i : Nat) (fl : Flags) : (orFlags fr i fl).cLd = fr.cLd := rfl
@[simp] theorem orFlags_cSt (fr : Frame) (i : Nat) (fl : Flags) : (orFlags fr i fl).cSt = fr.cSt := rfl
@[simp] theorem orFlags_cCp (fr : Frame) (i : Nat) (fl : Flags) : (orFlags fr i fl).cCp = fr.cCp := rfl
@[simp] theorem orFlags_cTile (fr : Frame) (i : Nat) (fl : Flags) : (orFlags fr i fl).cTile = fr.cTile := rfl
@[simp] theorem orFlags_log (fr : Frame) (i : Nat) (fl : Flags) : (orFlags fr i fl).log = fr.log := rfl
@[simp] theorem orFlags_fences (fr : Frame) (i : Nat) (fl : Flags) : (orFlags fr i fl).fences = fr.fences := rfl
@[simp] theorem orFlags_seq (fr : Frame) (i : Nat) (fl : Flags) : (orFlags fr i fl).seq = fr.seq := rfl
@[simp] theorem orFlags_liveSet (fr : Frame) (i : Nat) (fl : Flags) : (orFlags fr i fl).liveSet = fr.liveSet := rfl
@[simp] theorem orFlags_macroAt (fr : Frame) (i : Nat) (fl : Flags) : (orFlags fr i fl).macroAt = fr.macroAt := rfl
@[simp] theorem orFlags_arrive (fr : Frame) (i : Nat) (fl : Flags) : (orFlags fr i fl).arrive = fr.arrive := rfl

end Sys2Proof.Machine
end

