-- ==== Sys2Proof/Laws/Ops.lean ====
section
/-!
SUPPORT. What the shared operations can do: swarms found after an update, the frame that a word leaves, and the one outcome
of a word that stands ready.
-/
namespace Sys2Proof.Machine

/-! ### Teams and swarms by name -/

theorem findTeam_id {s : State} {t : TeamId} {tm : Team} (h : findTeam s t = some tm) : tm.id = t := by
  unfold findTeam at h
  simpa using List.find?_some h

theorem findSwarm_num {tm : Team} {n : Nat} {sw : Swarm} (h : findSwarm tm n = some sw) : sw.num = n := by
  unfold findSwarm at h
  simpa using List.find?_some h

/-- A team after an update of a team. -/
theorem findTeam_updTeam {s : State} {t u : TeamId} {f : Team → Team} (hf : ∀ x, (f x).id = x.id) :
    findTeam (updTeam s t f) u = (findTeam s u).map fun x => if u = t then f x else x := by
  unfold findTeam updTeam
  simp only
  rw [List.find?_map]
  have : ((fun x : Team => x.id == u) ∘ fun x => if x.id == t then f x else x) = fun x : Team => x.id == u := by
    funext x
    simp only [Function.comp]
    split <;> simp [hf]
  rw [this]
  cases h : List.find? (fun x : Team => x.id == u) s.teams with
  | none => rfl
  | some x =>
    have hx : x.id = u := by simpa using List.find?_some h
    simp only [Option.map_some, hx, beq_iff_eq]

/-- A swarm after an update of a swarm of its team. -/
theorem findSwarm_updSwarmIn {tm : Team} {n k : Nat} {f : Swarm → Swarm} (hf : ∀ x, (f x).num = x.num) :
    findSwarm (updSwarmIn tm n f) k = (findSwarm tm k).map fun x => if k = n then f x else x := by
  unfold findSwarm updSwarmIn
  simp only
  rw [List.find?_map]
  have : ((fun x : Swarm => x.num == k) ∘ fun x => if x.num == n then f x else x) = fun x : Swarm => x.num == k := by
    funext x
    simp only [Function.comp]
    split <;> simp [hf]
  rw [this]
  cases h : List.find? (fun x : Swarm => x.num == k) tm.swarms with
  | none => rfl
  | some x =>
    have hx : x.num = k := by simpa using List.find?_some h
    simp only [Option.map_some, hx, beq_iff_eq]

theorem updSwarmIn_id (tm : Team) (n : Nat) (f : Swarm → Swarm) : (updSwarmIn tm n f).id = tm.id := rfl

/-- A swarm of the machine after an update of a swarm. -/
theorem swarmAt_updSwarm {s : State} {t u : TeamId} {n k : Nat} {f : Swarm → Swarm} (hf : ∀ x, (f x).num = x.num) :
    swarmAt (updSwarm s t n f) u k = (swarmAt s u k).map fun x => if u = t ∧ k = n then f x else x := by
  unfold swarmAt updSwarm
  rw [findTeam_updTeam (f := fun tm => updSwarmIn tm n f) (fun _ => rfl)]
  cases findTeam s u with
  | none => rfl
  | some tm =>
    simp only [Option.map_some, Option.bind_some]
    split
    · next h =>
      subst h
      rw [findSwarm_updSwarmIn hf]
      simp
    · next h => simp [h]

theorem swarmAt_updFrame {s : State} {t u : TeamId} {n k : Nat} {f : Frame → Frame} :
    swarmAt (updFrame s t n f) u k =
      (swarmAt s u k).map fun x => if u = t ∧ k = n then { x with frame := f x.frame } else x :=
  swarmAt_updSwarm fun _ => rfl

/-! ### The context of a word -/

theorem ctxOf_some {s : State} {o : Wd} {c : Ctx} (h : ctxOf s o = some c) :
    s.focus = some c.f ∧ findTeam s c.f.team = some c.tm ∧ findSwarm c.tm c.f.swarm = some c.sw ∧
      c.act = guardMask c.sw.frame o c.f.mask := by
  unfold ctxOf at h
  split at h
  · cases h
  · split at h
    · cases h
    · split at h
      · cases h
      · cases h
        refine ⟨by assumption, by assumption, by assumption, rfl⟩

theorem ctxOf_swarm {s : State} {o : Wd} {c : Ctx} (h : ctxOf s o = some c) :
    swarmAt s c.f.team c.f.swarm = some c.sw := by
  obtain ⟨-, h2, h3, -⟩ := ctxOf_some h
  simp [swarmAt, h2, h3]

/-! ### The operand log after a word -/

/-- A swarm with no fault in its operand log takes no trap. -/
theorem settleFaults_clean {s : State} {t : TeamId} {n : Nat} {sw : Swarm} (h : swarmAt s t n = some sw)
    (he : sw.ended = false) (hf : firstFault sw.frame = none) : settleFaults s t n = s := by
  unfold settleFaults
  unfold swarmAt at h
  split
  · rfl
  · next tm htm =>
    rw [htm] at h
    simp only [Option.bind_some] at h
    rw [h]
    simp only [he, hf]
    split <;> simp

/-- Choosing the broadcast group again leaves alone all but the broadcast address. -/
theorem regroup_frame (own : Bool) (m : BitVec 32) (fr : Frame) :
    regroup own m fr = { fr with bcast := (regroup own m fr).bcast } := by
  have h : ∀ x : Frame, rejoin x = { x with bcast := (rejoin x).bcast } := by
    intro x
    unfold rejoin
    repeat' split
    all_goals rfl
  unfold regroup
  split
  · rw [h]
  · rw [h]

theorem regroup_log (own : Bool) (m : BitVec 32) (fr : Frame) : (regroup own m fr).log = fr.log := by
  rw [regroup_frame]

theorem firstFault_congr {fr fr' : Frame} (h : fr'.log = fr.log) : firstFault fr' = firstFault fr := by
  unfold firstFault; rw [h]

theorem advance_eq (s : State) (f : Focus) : advance s f = updFrame s f.team f.swarm (moved f) := rfl

/-- What `finish` makes of the swarm. -/
def finished (c : Ctx) (sw : Swarm) : Swarm :=
  let move := regroup (ownWord c) (lanesAt c.sw.frame c.f.pc)
  if sw.mode = c.sw.mode then { sw with frame := move sw.frame }
  else if c.sw.mode = .program then { sw with hidden := sw.hidden.map move }
  else sw

theorem finish_eq (c : Ctx) (s : State) : finish c s = updSwarm s c.f.team c.f.swarm (finished c) := rfl

theorem finished_num (c : Ctx) (sw : Swarm) : (finished c sw).num = sw.num := by
  unfold finished; simp only; repeat' split
  all_goals rfl
theorem finished_ended (c : Ctx) (sw : Swarm) : (finished c sw).ended = sw.ended := by
  unfold finished; simp only; repeat' split
  all_goals rfl
theorem finished_log (c : Ctx) (sw : Swarm) : (finished c sw).frame.log = sw.frame.log := by
  unfold finished
  simp only
  repeat' split
  · exact regroup_log _ _ _
  all_goals rfl

theorem finish_swarm {c : Ctx} {s : State} {sw : Swarm} (h : swarmAt s c.f.team c.f.swarm = some sw) :
    swarmAt (finish c s) c.f.team c.f.swarm = some (finished c sw) := by
  rw [finish_eq, swarmAt_updSwarm (finished_num c), h]
  simp

theorem advance_swarm {s : State} {o : Wd} {c : Ctx} (h : ctxOf s o = some c) :
    swarmAt (advance s c.f) c.f.team c.f.swarm = some { c.sw with frame := moved c.f c.sw.frame } := by
  rw [advance_eq, swarmAt_updFrame, ctxOf_swarm h]
  simp

/-! ### A word that stands ready -/

/-- The one outcome of a ready word that has nothing to wait for: its effect, then the choice of the next group, then the trap
of a fault that its effect left in the operand log. -/
theorem runWait_ready {w : Ctx → State → Bool} {i : Instr} {o : Wd} {lv : Level} {sl : Ctx → SlotNeed}
    {fs : Ctx → FS × FS × FS} {eff : Ctx → State → State} {s : State} {c : Ctx} (h : Ready s i o lv (sl c) (fs c) c)
    (hw : w c s = false) :
    runWait w i o lv sl fs eff s = .next (settleFaults (finish c (eff c (advance s c.f))) c.f.team c.f.swarm) := by
  unfold runWait
  rw [h.ctx]
  simp only [h.pass, hw]
  rw [if_neg h.act]
  simp

theorem runWord_ready {i : Instr} {o : Wd} {lv : Level} {sl : Ctx → SlotNeed} {fs : Ctx → FS × FS × FS}
    {eff : Ctx → State → State} {s : State} {c : Ctx} (h : Ready s i o lv (sl c) (fs c) c) :
    runWord i o lv sl fs eff s = .next (settleFaults (finish c (eff c (advance s c.f))) c.f.team c.f.swarm) :=
  runWait_ready h rfl

/-- A ready word whose effect leaves a swarm that has no fault in its log and has not ended. -/
theorem settle_after {s s1 : State} {c : Ctx} {sw : Swarm} (hs : s1 = s) (h : swarmAt s c.f.team c.f.swarm = some sw)
    (he : sw.ended = false) (hf : firstFault sw.frame = none) :
    settleFaults (finish c s1) c.f.team c.f.swarm = finish c s := by
  subst hs
  refine settleFaults_clean (finish_swarm h) ?_ ?_
  · rw [finished_ended]; exact he
  · rw [firstFault_congr (finished_log c sw)]; exact hf

/-- A ready word of registers: what it leaves. -/
theorem runFrame_ready {i : Instr} {o : Wd} {sl : SlotNeed} {g : Ctx → Frame → Frame} {s : State} {c : Ctx}
    (h : Ready s i o .prog sl i.fields c) (hg : ∀ fr, (g c fr).log = fr.log) :
    runFrame i o sl g s = .next (wrote c (g c) s) := by
  unfold runFrame
  rw [runWord_ready (sl := fun _ => sl) (fs := fun _ => i.fields) h]
  unfold wrote
  congr 1
  refine settle_after rfl (sw := { c.sw with frame := g c (moved c.f c.sw.frame) }) ?_ h.live ?_
  · rw [swarmAt_updFrame, advance_swarm h.ctx]
    simp
  · rw [firstFault_congr (hg _)]
    exact h.clean

/-- The swarm that a word of registers leaves. -/
theorem wrote_swarm {c : Ctx} {g : Frame → Frame} {s : State} {o : Wd} (h : ctxOf s o = some c) :
    swarmAt (wrote c g s) c.f.team c.f.swarm = some (finished c { c.sw with frame := g (moved c.f c.sw.frame) }) := by
  unfold wrote
  refine finish_swarm ?_
  rw [swarmAt_updFrame, advance_swarm h]
  simp

/-- A word whose lanes' guards are all false changes nothing but their addresses (R50). -/
theorem runWait_guarded {w : Ctx → State → Bool} {i : Instr} {o : Wd} {lv : Level} {sl : Ctx → SlotNeed}
    {fs : Ctx → FS × FS × FS} {eff : Ctx → State → State} {s : State} {c : Ctx} (h : ctxOf s o = some c)
    (hc : checks c i (fs c) o lv (sl c) = none) (ha : c.act = 0) :
    runWait w i o lv sl fs eff s = .next (finish c (advance s c.f)) := by
  unfold runWait
  rw [h]
  simp [hc, ha]

/-- A word of a swarm always answers a next state when its swarm is there. -/
theorem runWait_total {w : Ctx → State → Bool} {i : Instr} {o : Wd} {lv : Level} {sl : Ctx → SlotNeed}
    {fs : Ctx → FS × FS × FS} {eff : Ctx → State → State} {s : State} {c : Ctx} (h : ctxOf s o = some c) :
    ∃ t, runWait w i o lv sl fs eff s = .next t := by
  unfold runWait
  rw [h]
  simp only
  split
  · exact ⟨_, rfl⟩
  · split
    · exact ⟨_, rfl⟩
    · split <;> exact ⟨_, rfl⟩

end Sys2Proof.Machine
end

