-- ==== Sys2Proof/Laws/Tab.lean ====
section
/-!
SUPPORT. Laws of the sparse table: a read after a write, and the canonical form that every table operation keeps.
-/
namespace Sys2Proof.Tab

theorem above_trans {w m n : Nat} {t : Tab w} (h : m ≤ n) (ha : above n t = true) : above m t = true := by
  induction t with
  | nil => rfl
  | cons x t ih =>
    obtain ⟨k, v⟩ := x
    simp only [above, Bool.and_eq_true, decide_eq_true_eq] at ha ⊢
    exact ⟨by omega, ih ha.2⟩

/-- A key at or below a bound under which no key lies reads 0. -/
theorem get_above {w m n : Nat} {t : Tab w} (h : m ≤ n) (ha : above n t = true) : t.get m = 0 := by
  induction t with
  | nil => rfl
  | cons x t ih =>
    obtain ⟨k, v⟩ := x
    simp only [above, Bool.and_eq_true, decide_eq_true_eq] at ha
    simp only [get]
    rw [if_neg (by omega)]
    exact ih ha.2

theorem get_keep {w : Nat} (p : Nat → Bool) (t : Tab w) (m : Nat) : (keep p t).get m = if p m then t.get m else 0 := by
  induction t with
  | nil => simp [keep, get]
  | cons y t ih =>
    obtain ⟨k, v⟩ := y
    rw [keep, List.filter_cons]
    by_cases hk : k = m
    · subst hk
      by_cases hp : p k = true
      · simp [hp, get]
      · simp only [hp, get]
        simpa [keep, hp] using ih
    · by_cases hp : p k = true
      · simp only [hp, get, if_neg hk, if_true]
        exact ih
      · simp only [hp, get, if_neg hk]
        simpa [keep, hp] using ih

theorem get_put {w : Nat} (t : Tab w) (n m : Nat) (x : BitVec w) : (t.put n x).get m = if m = n then x else t.get m := by
  induction t with
  | nil =>
    by_cases hm : m = n
    · simp [put, get, hm]
    · simp [put, get, hm, Ne.symm hm]
  | cons y t ih =>
    obtain ⟨k, v⟩ := y
    simp only [put]
    split
    · by_cases hm : m = n
      · simp [get, hm]
      · simp [get, hm, Ne.symm hm]
    · split
      · next he =>
        subst he
        by_cases hm : m = n
        · simp [get, hm]
        · simp [get, hm, Ne.symm hm]
      · next hne =>
        simp only [get]
        rw [ih]
        by_cases hk : k = m
        · subst hk; simp [Ne.symm hne]
        · simp [hk]

/-- A read after a write. -/
theorem get_set {w : Nat} (t : Tab w) (n m : Nat) (x : BitVec w) : (t.set n x).get m = if m = n then x else t.get m := by
  unfold set
  split
  · next hx => rw [get_keep, hx]; by_cases hm : m = n <;> simp [hm]
  · exact get_put t n m x

theorem above_keep {w b : Nat} {t : Tab w} (p : Nat → Bool) (h : above b t = true) : above b (keep p t) = true := by
  induction t with
  | nil => rfl
  | cons y t ih =>
    obtain ⟨k, v⟩ := y
    simp only [above, Bool.and_eq_true] at h
    rw [keep, List.filter_cons]
    split
    · simp only [above, Bool.and_eq_true]; exact ⟨h.1, ih h.2⟩
    · exact ih h.2

/-- Taking entries out keeps the canonical form. -/
theorem wf_keep {w : Nat} {t : Tab w} (p : Nat → Bool) (h : wf t = true) : wf (keep p t) = true := by
  induction t with
  | nil => rfl
  | cons y t ih =>
    obtain ⟨k, v⟩ := y
    simp only [wf, Bool.and_eq_true] at h
    rw [keep, List.filter_cons]
    split
    · simp only [wf, Bool.and_eq_true]; exact ⟨⟨above_keep p h.1.1, h.1.2⟩, ih h.2⟩
    · exact ih h.2

theorem above_put {w b n : Nat} {t : Tab w} {x : BitVec w} (ha : above b t = true) (hb : b < n) :
    above b (t.put n x) = true := by
  induction t with
  | nil => simp [put, above, hb]
  | cons y t ih =>
    obtain ⟨k, v⟩ := y
    simp only [above, Bool.and_eq_true, decide_eq_true_eq] at ha
    simp only [put]
    repeat' split
    all_goals simp_all [above]

theorem wf_put {w : Nat} {t : Tab w} (h : wf t = true) (n : Nat) {x : BitVec w} (hx : x ≠ 0) : wf (t.put n x) = true := by
  induction t with
  | nil => simpa [put, wf, above] using hx
  | cons y t ih =>
    obtain ⟨k, v⟩ := y
    simp only [wf, Bool.and_eq_true] at h
    simp only [put]
    split
    · next hlt =>
      have := above_trans (Nat.le_of_lt hlt) h.1.1
      simp_all [wf, above]
    · split
      · next he => subst he; simp_all [wf]
      · next hne =>
        have := above_put (x := x) h.1.1 (show k < n by omega)
        simp_all [wf]

/-- A write keeps the canonical form. -/
theorem wf_set {w : Nat} {t : Tab w} (h : wf t = true) (n : Nat) (x : BitVec w) : wf (t.set n x) = true := by
  unfold set
  split
  · exact wf_keep _ h
  · next hx => exact wf_put h n hx

end Sys2Proof.Tab
end

