-- ==== Sys2Proof/Laws/Frame.lean ====
section
/-!
SUPPORT. Laws of a frame: a lane after an update of a lane, a register after a write of a register, and an effect that is
applied in each lane of a mask.
-/
namespace Sys2Proof.Machine

/-! ### Lists by index and masks -/

theorem nth_upd {α : Type} (d : α) (f : α → α) (l : List α) (i j : Nat) :
    nth d (upd f l i) j = if j = i ∧ i < l.length then f (nth d l i) else nth d l j := by
  induction l generalizing i j with
  | nil => simp [upd, nth]
  | cons x l ih =>
    cases i with
    | zero => cases j <;> simp [upd, nth]
    | succ i =>
      cases j with
      | zero => simp [upd, nth]
      | succ j => simp only [upd, nth, ih, List.length_cons]; simp

theorem upd_length {α : Type} (f : α → α) (l : List α) (i : Nat) : (upd f l i).length = l.length := by
  induction l generalizing i with
  | nil => rfl
  | cons x l ih => cases i <;> simp [upd, ih]

theorem nth_map_range {α : Type} (d : α) (f : Nat → α) (n i : Nat) :
    nth d ((List.range n).map f) i = if i < n then f i else d := by
  have key : ∀ (l : List α) i, nth d l i = l.getD i d := by
    intro l
    induction l with
    | nil => intro i; simp [nth]
    | cons x l ih => intro i; cases i <;> simp [nth, ih]
  rw [key]
  by_cases h : i < n
  · simp [h]
  · simp [h]

theorem lanesOf_nodup (m : BitVec 32) : (lanesOf m).Nodup := List.nodup_range.filter _

theorem mem_lanesOf (m : BitVec 32) (j : Nat) : j ∈ lanesOf m ↔ m.getLsbD j = true := by
  unfold lanesOf lanes32
  simp only [List.mem_filter, List.mem_range]
  constructor
  · exact fun h => h.2
  · intro h
    exact ⟨BitVec.lt_of_getLsbD h, h⟩

theorem lanesOf_lt {m : BitVec 32} {j : Nat} (h : j ∈ lanesOf m) : j < 32 := BitVec.lt_of_getLsbD ((mem_lanesOf m j).1 h)

/-- A view of a frame that only the effect in lane `j` changes, over an effect in each lane of a mask. -/
theorem eachLane_view {X : Type} (V : Frame → X) (I : Frame → Prop) (j : Nat) (k : X → X) (act : BitVec 32)
    (g : Nat → Frame → Frame) (hI : ∀ i fr, I fr → I (g i fr)) (hne : ∀ i fr, i ≠ j → V (g i fr) = V fr)
    (heq : ∀ fr, I fr → V (g j fr) = k (V fr)) (fr : Frame) (h0 : I fr) :
    V (eachLane act fr g) = if act.getLsbD j then k (V fr) else V fr := by
  unfold eachLane
  have key : ∀ (l : List Nat) (fr : Frame), l.Nodup → I fr →
      V (l.foldl (fun f i => g i f) fr) = if j ∈ l then k (V fr) else V fr := by
    intro l
    induction l with
    | nil => intro fr _ _; simp
    | cons i l ih =>
      intro fr hn h
      rw [List.nodup_cons] at hn
      rw [List.foldl_cons, ih _ hn.2 (hI i fr h)]
      by_cases hij : i = j
      · subst hij
        rw [if_neg hn.1, if_pos (by simp), heq fr h]
      · rw [hne i fr hij]
        simp [Ne.symm hij]
  rw [key _ _ (lanesOf_nodup act) h0]
  simp [mem_lanesOf]

/-- An effect in each lane keeps what each of its steps keeps. -/
theorem eachLane_keeps (I : Frame → Prop) (act : BitVec 32) (g : Nat → Frame → Frame) (hI : ∀ i fr, I fr → I (g i fr))
    (fr : Frame) (h : I fr) : I (eachLane act fr g) := by
  unfold eachLane
  generalize lanesOf act = l
  induction l generalizing fr with
  | nil => exact h
  | cons i l ih => exact ih _ (hI i fr h)

/-! ### Lanes -/

theorem lane_updLane (fr : Frame) (i j : Nat) (f : Lane → Lane) :
    lane (updLane fr i f) j = if j = i ∧ i < fr.lanes.length then f (lane fr i) else lane fr j := nth_upd _ _ _ _ _

theorem lane_updLane_ne {fr : Frame} {i j : Nat} {f : Lane → Lane} (h : j ≠ i) : lane (updLane fr i f) j = lane fr j := by
  rw [lane_updLane, if_neg (by simp [h])]

theorem lane_updLane_eq {fr : Frame} {i : Nat} {f : Lane → Lane} (h : i < fr.lanes.length) :
    lane (updLane fr i f) i = f (lane fr i) := by
  rw [lane_updLane, if_pos ⟨rfl, h⟩]

theorem updLane_lanes_length (fr : Frame) (i : Nat) (f : Lane → Lane) : (updLane fr i f).lanes.length = fr.lanes.length :=
  upd_length _ _ _

theorem moved_lane (f : Focus) (fr : Frame) (i : Nat) (h : i < 32) :
    lane (moved f fr) i = if f.mask.getLsbD i then { lane fr i with pc := f.pc + 12, park := none, woken := false, age := 0 }
      else { lane fr i with age := (lane fr i).age + 1 } := by
  unfold moved
  rw [show lane { fr with tried := 0, lanes := _ } i = nth deadLane _ i from rfl, nth_map_range, if_pos h]

theorem moved_length (f : Focus) (fr : Frame) : (moved f fr).lanes.length = 32 := by simp [moved]

/-! ### Registers -/

/-- A lane reads what a register was last written, and every other register as before (R75, R86). -/
theorem reg_setReg (fr : Frame) (i j n m : Nat) (w : Word) (hi : i < 32) (hj : j < 32) (hn : n < 512) :
    reg (setReg fr i n w) j m = if j = i ∧ m = n then w else reg fr j m := by
  have hbit : (1#512 <<< n).getLsbD m = decide (m = n) := by
    simp only [BitVec.getLsbD_shiftLeft, BitVec.getLsbD_one]
    by_cases h : m = n
    · subst h; simp [hn]
    · simp only [h, decide_false, Bool.and_eq_false_iff]
      by_cases h2 : m < n
      · simp [h2]
      · right; simp; omega
  unfold reg rowLive rawReg setReg
  simp only [BitVec.getLsbD_or, hbit, Tab.get_set]
  have hkey : (32 * m + j = 32 * n + i) ↔ (j = i ∧ m = n) := by omega
  by_cases hm : m = n
  · subst hm
    by_cases hl : fr.live.getLsbD m = true
    · by_cases hji : j = i
      · subst hji
        simp [hl, bit32, hj]
      · have hb : (bit32 i).getLsbD j = false := by
          unfold bit32
          simp only [BitVec.getLsbD_shiftLeft, BitVec.getLsbD_one, Bool.and_eq_false_iff]
          by_cases h2 : j < i
          · simp [h2]
          · right; simp; omega
        have hb' : (bit32 i)[j] = false := hb
        simp [hl, hji, hj, hb']
    · have hl' : fr.live.getLsbD m = false := by simpa using hl
      by_cases hji : j = i
      · subst hji; simp [hl']
      · have : (32 * m + j) / 32 = m := by omega
        simp [hl', hji, clearRow, Tab.get_keep, this]
  · have hd : (32 * m + j) / 32 ≠ n := by omega
    simp only [hm, decide_false, Bool.or_false, hkey, and_false, if_false]
    by_cases hl : fr.live.getLsbD n = true
    · simp [hl]
    · simp [hl, clearRow, Tab.get_keep, hd]

theorem lane_setReg (fr : Frame) (i n j : Nat) (w : Word) : lane (setReg fr i n w) j = lane fr j := rfl
theorem reg_updLane (fr : Frame) (i j n : Nat) (f : Lane → Lane) : reg (updLane fr i f) j n = reg fr j n := rfl

theorem lane_setPair (fr : Frame) (i n j : Nat) (x : DWord) : lane (setPair fr i n x) j = lane fr j := rfl
theorem setRawBytes_lanes (fr : Frame) (i b sz x : Nat) : (setRawBytes fr i b sz x).lanes = fr.lanes := by
  unfold setRawBytes
  split <;> rfl

/-- The registers of a lane after a pair is written. -/
theorem reg_setPair (fr : Frame) (i j n m : Nat) (x : DWord) (hi : i < 32) (hj : j < 32) (hn : n + 1 < 512) :
    reg (setPair fr i n x) j m =
      if j = i ∧ m = n + 1 then hiW x else if j = i ∧ m = n then loW x else reg fr j m := by
  unfold setPair
  rw [reg_setReg _ _ _ _ _ _ hi hj hn, reg_setReg _ _ _ _ _ _ hi hj (by omega)]

/-- Words of registers leave the operand log alone. -/
theorem setRawBytes_log (fr : Frame) (i b sz x : Nat) : (setRawBytes fr i b sz x).log = fr.log := by
  unfold setRawBytes
  split <;> rfl
theorem dst32_log (fr : Frame) (o : Wd) (sz i : Nat) (v : Word) : (dst32 fr o sz i v).log = fr.log := by
  unfold dst32
  simp only [updLane_log]
  split
  · rfl
  · exact setRawBytes_log _ _ _ _ _
  · rfl
theorem dst64_log (fr : Frame) (o : Wd) (i : Nat) (x : DWord) : (dst64 fr o i x).log = fr.log := by
  unfold dst64
  simp only [updLane_log]
  split
  · rfl
  · exact setRawBytes_log _ _ _ _ _
  · rfl
theorem dstInt_log (fr : Frame) (o : Wd) (sg : Bool) (w i x : Nat) : (dstInt fr o sg w i x).log = fr.log := by
  unfold dstInt
  split
  · exact dst64_log _ _ _ _
  · exact dst32_log _ _ _ _ _
theorem dstPred_log (fr : Frame) (o : Wd) (i : Nat) (b : Bool) : (dstPred fr o i b).log = fr.log := rfl
theorem eachLane_log (act : BitVec 32) (fr : Frame) (g : Nat → Frame → Frame) (h : ∀ i fr, (g i fr).log = fr.log) :
    (eachLane act fr g).log = fr.log :=
  eachLane_keeps (fun x => x.log = fr.log) act g (fun i x hx => (h i x).trans hx) fr rfl

theorem dst32_length (fr : Frame) (o : Wd) (sz i : Nat) (v : Word) : (dst32 fr o sz i v).lanes.length = fr.lanes.length := by
  unfold dst32
  rw [updLane_lanes_length]
  split
  · rfl
  · rw [setRawBytes_lanes]
  · rfl
theorem dst64_length (fr : Frame) (o : Wd) (i : Nat) (x : DWord) : (dst64 fr o i x).lanes.length = fr.lanes.length := by
  unfold dst64
  rw [updLane_lanes_length]
  split
  · rfl
  · rw [setRawBytes_lanes]
  · rfl
theorem dstInt_length (fr : Frame) (o : Wd) (sg : Bool) (w i x : Nat) :
    (dstInt fr o sg w i x).lanes.length = fr.lanes.length := by
  unfold dstInt
  split
  · exact dst64_length _ _ _ _
  · exact dst32_length _ _ _ _ _

/-- The lane that takes a result of 32 bits: its latches and operand file (R58, R72). -/
theorem lane_dst32 (fr : Frame) (o : Wd) (sz i j : Nat) (v : Word) (h : i < fr.lanes.length) :
    lane (dst32 fr o sz i v) j = if j = i then opfile32 o v (latch32 o.d v (lane fr i)) else lane fr j := by
  unfold dst32
  rw [lane_updLane]
  have hl : ∀ fr1 : Frame, fr1.lanes = fr.lanes → (if j = i ∧ i < fr1.lanes.length then
      opfile32 o v (latch32 o.d v (lane fr1 i)) else lane fr1 j) =
      if j = i then opfile32 o v (latch32 o.d v (lane fr i)) else lane fr j := by
    intro fr1 hf
    unfold lane
    rw [hf]
    simp [h]
  apply hl
  split
  · rfl
  · exact setRawBytes_lanes _ _ _ _ _
  · rfl

/-- The lane that takes a pair: its latches (R72). -/
theorem lane_dst64 (fr : Frame) (o : Wd) (i j : Nat) (x : DWord) (h : i < fr.lanes.length) :
    lane (dst64 fr o i x) j = if j = i then { lane fr i with l0 := loW x, l1 := hiW x } else lane fr j := by
  unfold dst64
  rw [lane_updLane]
  have hl : ∀ fr1 : Frame, fr1.lanes = fr.lanes → (if j = i ∧ i < fr1.lanes.length then
      { lane fr1 i with l0 := loW x, l1 := hiW x } else lane fr1 j) =
      if j = i then { lane fr i with l0 := loW x, l1 := hiW x } else lane fr j := by
    intro fr1 hf
    unfold lane
    rw [hf]
    simp [h]
  apply hl
  split
  · rfl
  · exact setRawBytes_lanes _ _ _ _ _
  · rfl

/-- A ready word of an integer or pattern result. -/
theorem runInt_ready {i : Instr} {o : Wd} {sg : Bool} {w : Nat} {f : Ctx → Nat → Nat × Flags} {s : State} {c : Ctx}
    (h : Stands s i o c) : runInt i o sg w f s = .next (wrote c (results c o sg w (f c)) s) := by
  unfold runInt
  refine runFrame_ready h fun fr => eachLane_log _ _ _ fun ln fr => ?_
  exact dstInt_log _ _ _ _ _ _

/-- A ready word of a predicate result. -/
theorem runPred_ready {i : Instr} {o : Wd} {f : Ctx → Nat → Bool × Flags} {s : State} {c : Ctx}
    (h : Stands s i o c) : runPred i o f s = .next (wrote c (predicates c o (f c)) s) := by
  unfold runPred
  exact runFrame_ready h fun fr => eachLane_log _ _ _ fun ln fr => rfl

end Sys2Proof.Machine
end

