-- ==== Sys2Proof/Laws/Integer.lean ====
section
/-!
SUPPORT. The integer results said in bit vectors: shifts, rotations, logic, counts, bit fields, and the narrowing of an exact
result.
-/
namespace Sys2Proof.Machine

theorem modW_lt (w : Nat) (x : Int) : modW w x < 2 ^ w := by
  unfold modW
  have h : (0 : Int) < ((2 ^ w : Nat) : Int) := Int.natCast_pos.2 (Nat.two_pow_pos w)
  exact (Int.toNat_lt (Int.emod_nonneg x (Int.ne_of_gt h))).2 (Int.emod_lt_of_pos x h)

/-- The sign modifiers of an operand keep it within its width. -/
theorem applySign_lt (t : OpTy) (m : BitVec 4) (x : Nat) : applySign t m x < 2 ^ t.width := by
  have hp := Nat.two_pow_pos t.width
  have hm := Nat.mod_lt x hp
  have hor : ∀ k, k < 2 ^ t.width → x % 2 ^ t.width ||| k < 2 ^ t.width := fun k hk => Nat.or_lt_two_pow hm hk
  have hxor : ∀ k, k < 2 ^ t.width → x % 2 ^ t.width ^^^ k < 2 ^ t.width := fun k hk => Nat.xor_lt_two_pow hm hk
  unfold applySign
  cases t with
  | int sg w =>
    simp only [OpTy.width]
    split
    · exact modW_lt _ _
    · split
      · exact modW_lt _ _
      · split
        · exact modW_lt _ _
        · exact hm
  | pat w => exact hm
  | flt f =>
    have hk : OpTy.signMask (.flt f) < 2 ^ (OpTy.flt f).width := by
      simp only [OpTy.signMask, OpTy.width, Fmt.width]
      exact Nat.pow_lt_pow_right (by omega) (by omega)
    simp only
    split
    · exact hxor _ hk
    · split
      · exact Nat.lt_of_le_of_lt Nat.and_le_left hm
      · split
        · exact hor _ hk
        · exact hm
  | halves =>
    have hk : OpTy.signMask .halves < 2 ^ (OpTy.halves).width := by decide
    simp only
    split
    · exact hxor _ hk
    · split
      · exact Nat.lt_of_le_of_lt Nat.and_le_left hm
      · split
        · exact hor _ hk
        · exact hm
  | bytes4 =>
    have hk : OpTy.signMask .bytes4 < 2 ^ (OpTy.bytes4).width := by decide
    simp only
    split
    · exact hxor _ hk
    · split
      · exact Nat.lt_of_le_of_lt Nat.and_le_left hm
      · split
        · exact hor _ hk
        · exact hm

/-- An operand lies within its type's width. -/
theorem opVal_lt (fr : Frame) (f : FS) (t : OpTy) (act : BitVec 32) (i : Nat) (o : Opnd) :
    opVal fr f t act i o < 2 ^ t.width := by
  unfold opVal
  simp only
  split
  · exact applySign_lt _ _ _
  · split
    · exact Nat.two_pow_pos _
    · split
      · exact Nat.two_pow_pos _
      · exact Nat.mod_lt _ (Nat.two_pow_pos _)

theorem shlN_eq {w a : Nat} (h : a < 2 ^ w) (n : Nat) : shlN w a n = (BitVec.ofNat w a <<< n).toNat := by
  unfold shlN
  rw [BitVec.toNat_shiftLeft, BitVec.toNat_ofNat, Nat.mod_eq_of_lt h, Nat.shiftLeft_eq]
  split
  · rfl
  · next hn =>
    obtain ⟨k, rfl⟩ : ∃ k, n = w + k := ⟨n - w, by omega⟩
    rw [Nat.pow_add, ← Nat.mul_assoc, Nat.mul_right_comm, Nat.mul_mod_left]

theorem shrN_eq {w a : Nat} (h : a < 2 ^ w) (n : Nat) : shrN w a n = (BitVec.ofNat w a >>> n).toNat := by
  unfold shrN
  rw [BitVec.toNat_ushiftRight, BitVec.toNat_ofNat, Nat.mod_eq_of_lt h, Nat.shiftRight_eq_div_pow]
  split
  · rfl
  · next hn =>
    rw [Nat.div_eq_of_lt]
    exact Nat.lt_of_lt_of_le h (Nat.pow_le_pow_right (by omega) (by omega))

theorem sInt_eq {w : Nat} (h : 0 < w) (a : Nat) : sInt w a = (BitVec.ofNat w a).toInt := by
  unfold sInt
  rw [BitVec.toInt_eq_toNat_cond, BitVec.toNat_ofNat]
  have h2 : 2 ^ w = 2 * 2 ^ (w - 1) := by rw [← Nat.pow_succ', Nat.succ_eq_add_one, Nat.sub_add_cancel h]
  simp only
  by_cases hc : a % 2 ^ w < 2 ^ (w - 1)
  · rw [if_pos hc, if_pos (by omega)]
  · rw [if_neg hc, if_neg (by omega)]

theorem fdiv_two_pow (x : Int) (n : Nat) : Int.fdiv x ((2 ^ n : Nat) : Int) = x >>> n := by
  rw [Int.fdiv_eq_ediv_of_nonneg _ (Int.natCast_nonneg _), Int.shiftRight_eq_div_pow]

theorem sarN_eq {w : Nat} (h : 0 < w) (a n : Nat) : sarN w a n = ((BitVec.ofNat w a).sshiftRight n).toNat := by
  unfold sarN
  rw [sInt_eq h, fdiv_two_pow]
  have key : (BitVec.ofNat w a).toInt >>> min n w = (BitVec.ofNat w a).toInt >>> n := by
    by_cases hn : n ≤ w
    · rw [Nat.min_eq_left hn]
    · rw [Nat.min_eq_right (by omega)]
      have hlo := BitVec.le_two_mul_toInt (x := BitVec.ofNat w a)
      have hhi := BitVec.two_mul_toInt_lt (x := BitVec.ofNat w a)
      have hp : (2 ^ w : Nat) ≤ 2 ^ n := Nat.pow_le_pow_right (by omega) (by omega)
      have e : ((2 ^ w : Nat) : Int) = (2 : Int) ^ w := by simp
      rw [← e] at hlo hhi
      have hp0 := Nat.two_pow_pos w
      have hn0 := Nat.two_pow_pos n
      rw [Int.shiftRight_eq_div_pow, Int.shiftRight_eq_div_pow]
      generalize (BitVec.ofNat w a).toInt = x at *
      generalize (2 ^ w : Nat) = p at *
      generalize (2 ^ n : Nat) = q at *
      by_cases hx : 0 ≤ x
      · rw [Int.ediv_eq_zero_of_lt hx (by omega), Int.ediv_eq_zero_of_lt hx (by omega)]
      · have e1 : x / (p : Int) = -1 := by
          rw [Int.ediv_eq_iff_of_pos (by omega)]; omega
        have e2 : x / (q : Int) = -1 := by
          rw [Int.ediv_eq_iff_of_pos (by omega)]; omega
        rw [e1, e2]
  rw [key]
  rfl

theorem srcA_lt (c : Ctx) (i : Instr) (o : Wd) (t : OpTy) (ln : Nat) : srcA c i o t ln < 2 ^ t.width := opVal_lt _ _ _ _ _ _
theorem srcB_lt (c : Ctx) (i : Instr) (o : Wd) (t : OpTy) (ln : Nat) : srcB c i o t ln < 2 ^ t.width := opVal_lt _ _ _ _ _ _

/-- A ready word of an exact integer result. -/
theorem runArith_ready {i : Instr} {o : Wd} {t : IntTy} {sat : Bool} {f : Int → Int → Int → Int} {s : State} {c : Ctx}
    (h : Stands s i o c) : runArith i o t sat f s = .next (wrote c (results c o t.signed (IntTy.width t) fun ln =>
      narrow sat t.signed (IntTy.width t) (f (intA c i o t ln) (intB c i o t ln) (intD c i o t ln))) s) := by
  unfold runArith
  exact runInt_ready h

end Sys2Proof.Machine
end

