-- ==== Sys2Proof/Laws/Mem.lean ====
section
/-!
SUPPORT. What every operation over memory does to the contents of physical memory and of carved L3: the caches, directories
and monitors change neither, and every write keeps the canonical form (`Memory.wf`), which memory at reset has.
-/
namespace Sys2Proof.Machine

theorem Memory.reset_wf : Memory.wf State.reset.m = true := rfl

/-- Memory with the same contents. -/
def Memory.Same (m m' : MemSys) : Prop := m'.ram = m.ram ∧ m'.l3 = m.l3

theorem Memory.Same.rfl {m : MemSys} : Memory.Same m m := ⟨Eq.refl _, Eq.refl _⟩
theorem Memory.Same.trans {a b c : MemSys} (h : Memory.Same a b) (k : Memory.Same b c) : Memory.Same a c :=
  ⟨k.1.trans h.1, k.2.trans h.2⟩
theorem Memory.Same.wf {m m' : MemSys} (h : Memory.Same m m') : Memory.wf m' = Memory.wf m := by
  unfold Memory.wf; rw [h.1, h.2]

/-- Memory with the same contents is in the same form. -/
theorem Memory.wf_congr {m m' : MemSys} (h1 : m'.ram = m.ram) (h2 : m'.l3 = m.l3) : Memory.wf m' = Memory.wf m :=
  Memory.Same.wf ⟨h1, h2⟩

/-- New contents of RAM in canonical form. -/
theorem Memory.wf_ram {m m' : MemSys} (h : Memory.wf m = true) (h1 : Tab.wf m'.ram = true) (h2 : m'.l3 = m.l3) :
    Memory.wf m' = true := by
  simp only [Memory.wf, Bool.and_eq_true] at h ⊢
  exact ⟨h1, h2 ▸ h.2⟩

theorem Memory.ram_wf {m : MemSys} (h : Memory.wf m = true) : Tab.wf m.ram = true := by
  simp only [Memory.wf, Bool.and_eq_true] at h
  exact h.1

theorem setBytes_wf {t : Tab 8} (h : Tab.wf t = true) (a : Nat) (bs : List Byte) : Tab.wf (setBytes t a bs) = true := by
  induction bs generalizing t a with
  | nil => exact h
  | cons b bs ih => exact ih (Tab.wf_set h a b) (a + 1)

/-- A read of a byte after a write of bytes. -/
theorem setBytes_get (t : Tab 8) (a : Nat) (bs : List Byte) (k : Nat) :
    (setBytes t a bs).get k = if a ≤ k ∧ k < a + bs.length then bs.getD (k - a) 0 else t.get k := by
  induction bs generalizing t a with
  | nil => exact (if_neg fun h => absurd h.2 (Nat.not_lt.mpr h.1)).symm
  | cons b bs ih =>
    rw [setBytes, ih, Tab.get_set]
    simp only [List.length_cons]
    by_cases h1 : k = a
    · subst h1
      rw [if_neg (by omega), if_pos (Eq.refl _), if_pos (by omega)]
      simp
    · by_cases h2 : a ≤ k ∧ k < a + (bs.length + 1)
      · rw [if_pos (by omega), if_pos h2]
        obtain ⟨j, hj⟩ : ∃ j, k - a = j + 1 := ⟨k - a - 1, by omega⟩
        rw [hj, show k - (a + 1) = j by omega]
        simp
      · rw [if_neg (by omega), if_neg h1, if_neg h2]

/-- A fold over states keeps what each of its steps keeps. -/
theorem foldl_keeps {α β : Type} (P : α → Prop) (f : α → β → α) (hf : ∀ a b, P a → P (f a b)) (l : List β) (a : α)
    (h : P a) : P (l.foldl f a) := by
  induction l generalizing a with
  | nil => exact h
  | cons b l ih => exact ih _ (hf a b h)

/-- A fold whose steps change no contents changes none. -/
theorem foldl_same {β : Type} (f : MemSys → β → MemSys) (hf : ∀ m b, Memory.Same m (f m b)) (l : List β) (m : MemSys) :
    Memory.Same m (l.foldl f m) :=
  foldl_keeps (Memory.Same m) f (fun _ b h => h.trans (hf _ b)) l m .rfl

theorem foldl_sameS {β : Type} (f : State → β → State) (hf : ∀ s b, Memory.Same s.m (f s b).m) (l : List β) (s : State) :
    Memory.Same s.m (l.foldl f s).m :=
  foldl_keeps (fun x : State => Memory.Same s.m x.m) f (fun _ b h => h.trans (hf _ b)) l s .rfl

/-- A fold whose steps keep the form keeps it. -/
theorem foldl_wf {β : Type} (f : State → β → State) (hf : ∀ s b, Memory.wf s.m = true → Memory.wf (f s b).m = true)
    (l : List β) {s : State} (h : Memory.wf s.m = true) : Memory.wf (l.foldl f s).m = true :=
  foldl_keeps (fun x : State => Memory.wf x.m = true) f hf l s h

/-! ### What leaves the contents alone: copies, directories, requests, monitors -/

theorem watchWrite_m (s : State) (ag : Agent) (pa n : Nat) : (watchWrite s ag pa n).m = s.m := rfl
theorem wakeLane_m (s : State) (t : TeamId) (sw i : Nat) (h : Bool) : (wakeLane s t sw i h).m = s.m := rfl
theorem wakeSync_m (s : State) (t : TeamId) : (wakeSync s t).m = s.m := rfl

theorem l1Drop_same (m : MemSys) (core line : Nat) : Memory.Same m (l1Drop m core line) := .rfl
theorem l2Drop_same (m : MemSys) (die line : Nat) : Memory.Same m (l2Drop m die line) := .rfl
theorem l1Put_same (m : MemSys) (core line o : Nat) (bs : List Byte) (g : L1Line → L1Line) :
    Memory.Same m (l1Put m core line o bs g) := .rfl
theorem putMiss_same (m : MemSys) (x : Miss) : Memory.Same m (putMiss m x) := .rfl
theorem settleMiss_same (m : MemSys) (core line : Nat) : Memory.Same m (settleMiss m core line) := .rfl
theorem shareLine_same (m : MemSys) (core line : Nat) (w : Bool) : Memory.Same m (shareLine m core line w) := .rfl
theorem startM_same (m : MemSys) (core line : Nat) : Memory.Same m (startM m core line) := .rfl
theorem applyWhere_same (m : MemSys) (core : Nat) (p : InvEnt → Bool) : Memory.Same m (applyWhere m core p) := .rfl
theorem applyInvs_same (m : MemSys) (core : Nat) (sc : Scope) : Memory.Same m (applyInvs m core sc) := .rfl
theorem applyLate_same (m : MemSys) (now : Nat) : Memory.Same m (applyLate m now) :=
  foldl_same (fun m c => applyWhere m c _) (fun _ _ => applyWhere_same _ _ _) _ _

theorem putDir_same (m : MemSys) (e : DirEnt) : Memory.Same m (putDir m e) := by
  unfold putDir; simp only; split <;> exact .rfl

theorem redoDirs_same (m : MemSys) (core line : Nat) : Memory.Same m (redoDirs m core line) := by
  unfold redoDirs
  simp only
  split
  · exact foldl_same _ (fun _ _ => foldl_same _ (fun _ _ => putDir_same _ _) _ _) _ _
  · exact .rfl

theorem queueInv_same (m : MemSys) (now core line : Nat) (w : Scope) : Memory.Same m (queueInv m now core line w) := by
  unfold queueInv; simp only; split <;> exact .rfl

theorem fireMonitors_same (s : State) (line : Nat) (only : Option Nat) : Memory.Same s.m (fireMonitors s line only).m :=
  foldl_sameS (fun s (x : Monitor) => wakeLane s x.team x.swarm x.lane x.inH) (fun _ _ => .rfl) _
    { s with m := { s.m with mons := _ } }

theorem l3Touch_same (s : State) (line : Nat) (d : Bool) : Memory.Same s.m (l3Touch s line d).m := by
  unfold l3Touch; split <;> exact .rfl

theorem l2Out_same (s : State) (x : L2Line) : Memory.Same s.m (l2Out s x).m := by
  have h : Memory.Same s.m (if x.dirty = 0 then s else l3Touch s x.line true).m := by
    split
    · exact .rfl
    · exact l3Touch_same _ _ _
  exact h.trans (redoDirs_same _ _ _)

theorem l2Put_same (s : State) (x : L2Line) : Memory.Same s.m (l2Put s x).m := by
  unfold l2Put
  simp only
  split
  · split
    · exact .rfl
    · exact l2Out_same { s with m := { s.m with l2 := (l2Drop s.m x.die x.line).l2 ++ [x] } } _
  · exact .rfl

theorem l2Fill_same (s : State) (die line : Nat) (mode : CohMode) : Memory.Same s.m (l2Fill s die line mode).m := by
  unfold l2Fill
  split
  · exact .rfl
  · exact (l2Put_same _ _).trans (l3Touch_same _ _ _)

theorem l2Take_same (s : State) (die line : Nat) (mode : CohMode) (old : Tab 8) (offs : List Nat) :
    Memory.Same s.m (l2Take s die line mode old offs).m := l2Put_same _ _

theorem l2Clean_same (s : State) (die line : Nat) : Memory.Same s.m (l2Clean s die line).m := by
  unfold l2Clean
  split
  · exact .rfl
  · split
    · exact .rfl
    · exact l3Touch_same _ _ _

theorem snpOut_m (s : State) (line : Nat) (but : Option Nat) : (snpOut s line but).m = s.m := rfl

theorem ackLevel_same (s : State) (core line : Nat) (l : DirLevel) : Memory.Same s.m (ackLevel s core line l).m := by
  unfold ackLevel
  split
  · exact .rfl
  · split
    · exact .rfl
    · refine Memory.Same.trans ?_ (foldl_sameS (fun s (x : Monitor) => wakeLane s x.team x.swarm x.lane x.inH) (fun _ _ => .rfl) _ _)
      refine Memory.Same.trans ?_ (redoDirs_same _ _ _)
      exact foldl_keeps (Memory.Same s.m) _ (fun m c h => h.trans (queueInv_same _ _ _ _ _)) _ _ .rfl

theorem performAt_same (s : State) (core line : Nat) (sc : Scope) : Memory.Same s.m (performAt s core line sc).m :=
  foldl_sameS _ (fun _ _ => ackLevel_same _ _ _ _) _ _

/-! ### Writes beyond the L1s -/

theorem landLine_same (s : State) (ag : Option Agent) (mode : CohMode) (line : Nat) (old : Tab 8) (offs : List Nat) :
    Memory.Same s.m (landLine s ag mode line old offs).m := by
  unfold landLine
  simp only [snpOut_m]
  refine Memory.Same.trans ?_ (redoDirs_same _ _ _)
  refine Memory.Same.trans ?_ (fireMonitors_same _ _ _)
  refine foldl_keeps (Memory.Same s.m) _ (fun m c h => h.trans (queueInv_same _ _ _ _ _)) _ _ ?_
  have h1 : Memory.Same s.m (match ag.bind Agent.core? with
      | some c => l2Take s (dieOf c) line mode old offs
      | none => l3Touch s line true).m := by
    split
    · exact l2Take_same _ _ _ _ _ _
    · exact l3Touch_same _ _ _
  split
  · exact h1.trans (l1Drop_same _ _ _)
  · exact h1

/-- A write beyond the L1s stores its bytes, and nothing else changes the contents. -/
theorem landRam_contents (s : State) (ag : Option Agent) (mode : CohMode) (a : Nat) (bs : List Byte) :
    (landRam s ag mode a bs).m.ram = setBytes s.m.ram a bs ∧ (landRam s ag mode a bs).m.l3 = s.m.l3 :=
  foldl_keeps (fun x : State => Memory.Same { s.m with ram := setBytes s.m.ram a bs } x.m) _
    (fun _ _ h => h.trans (landLine_same _ _ _ _ _ _)) _ _ .rfl

theorem landRam_wf {s : State} (h : Memory.wf s.m = true) (ag : Option Agent) (mode : CohMode) (a : Nat) (bs : List Byte) :
    Memory.wf (landRam s ag mode a bs).m = true := by
  have hc := landRam_contents s ag mode a bs
  exact Memory.wf_ram h (hc.1 ▸ setBytes_wf (Memory.ram_wf h) a bs) hc.2

theorem writeRam_contents (s : State) (ag : Agent) (a : Nat) (bs : List Byte) :
    (writeRam s ag a bs).m.ram = setBytes s.m.ram a bs ∧ (writeRam s ag a bs).m.l3 = s.m.l3 :=
  landRam_contents s (some ag) .coh a bs

theorem writeRam_wf {s : State} (h : Memory.wf s.m = true) (ag : Agent) (a : Nat) (bs : List Byte) :
    Memory.wf (writeRam s ag a bs).m = true := landRam_wf h (some ag) .coh a bs

/-! ### The L1s -/

theorem writeBack_wf {s : State} (h : Memory.wf s.m = true) (x : L1Line) : Memory.wf (writeBack s x).m = true := by
  have h1 := foldl_wf (fun s (r : Nat × Nat) => watchWrite (landRam s (some (.lane x.by_ x.core)) x.mode (128 * x.line + r.1)
    (copyBytes x r.1 r.2)) (.lane x.by_ x.core) (128 * x.line + r.1) r.2) (fun s r hs => landRam_wf hs _ _ _ _) (runsOf (dirtyOffs x)) h
  exact h1

theorem writeBackAll_wf {s : State} (h : Memory.wf s.m = true) (core : Nat) (p : L1Line → Bool) :
    Memory.wf (writeBackAll s core p).m = true := foldl_wf _ (fun _ x h => writeBack_wf h x) _ h

theorem flushL1_wf {s : State} (h : Memory.wf s.m = true) (core : Nat) (p : L1Line → Bool) :
    Memory.wf (flushL1 s core p).m = true := writeBackAll_wf h core p

theorem l1Out_wf {s : State} (h : Memory.wf s.m = true) (x : L1Line) : Memory.wf (l1Out s x).m = true := by
  have h1 : Memory.wf (if x.dirty = 0 then s else writeBack s x).m = true := by
    split
    · exact h
    · exact writeBack_wf h x
  exact (redoDirs_same _ _ _).wf.trans h1

theorem l1Add_wf {s : State} (h : Memory.wf s.m = true) (x : L1Line) : Memory.wf (l1Add s x).m = true := by
  unfold l1Add
  simp only
  split
  · split
    · exact h
    · exact l1Out_wf (s := { s with m := { l1Drop s.m x.core x.line with l1 := (l1Drop s.m x.core x.line).l1 ++ [x] } }) h _
  · exact h

theorem l2Read_same (s : State) (core line : Nat) (mode : CohMode) : Memory.Same s.m (l2Read s core line mode).m := by
  unfold l2Read
  split
  · exact (l2Fill_same { s with m := shareLine s.m core line (l2Find s.m (dieOf core) line).isNone } _ _ _).trans (redoDirs_same _ _ _)
  · exact l2Fill_same _ _ _ _

theorem l1Fill_wf {s : State} (h : Memory.wf s.m = true) (core line : Nat) (mode : CohMode) (excl : Bool) :
    Memory.wf (l1Fill s core line mode excl).m = true := by
  have h1 : Memory.wf (l2Read s core line mode).m = true := (l2Read_same s core line mode).wf.trans h
  exact (redoDirs_same _ _ _).wf.trans (l1Add_wf h1 _)

theorem l2Newest_wf {s : State} (h : Memory.wf s.m = true) (core line : Nat) (mode : CohMode) :
    Memory.wf (l2Newest s core line mode).m = true := by
  have h1 : Memory.wf (match l1Find s.m core line with
      | some x => l1Out s x
      | none => s).m = true := by
    split
    · exact l1Out_wf h _
    · exact h
  exact (redoDirs_same _ _ _).wf.trans ((l2Take_same _ _ _ _ _ _).wf.trans ((shareLine_same _ _ _ _).wf.trans h1))

theorem loadLine_wf {s : State} (h : Memory.wf s.m = true) (core : Nat) (mode : CohMode) (a n : Nat) :
    Memory.wf (loadLine s core mode a n).1.m = true := by
  unfold loadLine
  split
  · exact h
  · exact l1Fill_wf h _ _ _ _

theorem loadL1_wf {s : State} (h : Memory.wf s.m = true) (core : Nat) (mode : CohMode) (a n : Nat) :
    Memory.wf (loadL1 s core mode a n).1.m = true := by
  unfold loadL1
  simp only
  split
  · exact loadLine_wf h _ _ _ _
  · exact loadLine_wf (loadLine_wf h _ _ _ _) _ _ _ _

theorem takeData_wf {s : State} (h : Memory.wf s.m = true) (core line : Nat) (keep : Bool) :
    Memory.wf (takeData s core line keep).m = true := by
  unfold takeData
  refine (redoDirs_same _ _ _).wf.trans ((settleMiss_same _ _ _).wf.trans ?_)
  have h1 : ∀ m1 : MemSys, Memory.Same s.m m1 → ∀ x : L1Line,
      Memory.wf (if keep then l1Add (l2Take { s with m := m1 } (dieOf core) line .coh [] []) x
        else l2Take { s with m := m1 } (dieOf core) line .coh [] []).m = true := by
    intro m1 hm x
    have h2 : Memory.wf (l2Take { s with m := m1 } (dieOf core) line .coh [] []).m = true :=
      (l2Take_same _ _ _ _ _ _).wf.trans (hm.wf.trans h)
    split
    · exact l1Add_wf h2 _
    · exact h2
  refine h1 _ ?_ _
  exact .rfl

theorem ownLine_wf {s : State} (h : Memory.wf s.m = true) (core line : Nat) (keep : Bool) :
    Memory.wf (ownLine s core line keep).m = true := by
  have h1 : ∀ s1 : State, Memory.wf s1.m = true →
      Memory.wf (if keep && ownsLine s1.m core line then s1 else takeData s1 core line keep).m = true := by
    intro s1 hs
    split
    · exact hs
    · exact takeData_wf hs _ _ _
  exact h1 _ (by split <;> exact h)

/-- Bytes put into memory keep its form. -/
theorem putRam_wf {s : State} (h : Memory.wf s.m = true) (a : Nat) (bs : List Byte) :
    Memory.wf { s.m with ram := setBytes s.m.ram a bs } = true :=
  Memory.wf_ram h (setBytes_wf (Memory.ram_wf h) a bs) rfl

theorem cohWrite_wf {s : State} (h : Memory.wf s.m = true) (ag : Agent) (core : Nat) (sc : Scope) (a : Nat) (bs : List Byte) :
    Memory.wf (cohWrite s ag core sc a bs).m = true := by
  have h2 := putRam_wf (ownLine_wf h core (a / 128) true) a bs
  unfold cohWrite
  rw [watchWrite_m]
  refine (fireMonitors_same _ _ _).wf.trans ((performAt_same _ _ _ _).wf.trans ((redoDirs_same _ _ _).wf.trans ?_))
  exact (l2Take_same _ _ _ _ _ _).wf.trans h2

theorem dirtyWrite_wf {s : State} (h : Memory.wf s.m = true) (t : TeamId) (core : Nat) (mode : CohMode) (a : Nat)
    (bs : List Byte) : Memory.wf (dirtyWrite s t core mode a bs).m = true := by
  unfold dirtyWrite
  refine (fireMonitors_same _ _ _).wf.trans ?_
  show Memory.wf (match l1Find s.m core (a / 128) with
    | some x => if x.dirty ≠ 0 ∧ x.by_ ≠ t then writeBack s x else s
    | none => l1Fill s core (a / 128) mode true).m = true
  split
  · split
    · exact writeBack_wf h _
    · exact h
  · exact l1Fill_wf h _ _ _ _

theorem storeLine_wf {s : State} (h : Memory.wf s.m = true) (t : TeamId) (core : Nat) (mode : CohMode) (sc : Scope)
    (a : Nat) (bs : List Byte) : Memory.wf (storeLine s t core mode sc a bs).m = true := by
  unfold storeLine
  simp only
  split
  · exact cohWrite_wf h _ _ _ _ _
  · split
    · exact dirtyWrite_wf h _ _ _ _ _
    · exact landRam_wf h _ _ _ _

theorem storeL1_wf {s : State} (h : Memory.wf s.m = true) (t : TeamId) (core : Nat) (mode : CohMode) (sc : Scope)
    (a : Nat) (bs : List Byte) : Memory.wf (storeL1 s t core mode sc a bs).m = true := by
  unfold storeL1
  simp only
  split
  · exact storeLine_wf h _ _ _ _ _ _
  · exact storeLine_wf (storeLine_wf h _ _ _ _ _ _) _ _ _ _ _ _

theorem dropOwn_wf {s : State} (h : Memory.wf s.m = true) (core line : Nat) : Memory.wf (dropOwn s core line).m = true := by
  unfold dropOwn
  split
  · exact l1Out_wf h _
  · exact h

/-- An atomic keeps the form where what it writes does. -/
theorem atomicAt_wf {s : State} (h : Memory.wf s.m = true) (old : List Byte) (f : List Byte → Option (List Byte))
    (put : List Byte → State) (hp : ∀ bs, Memory.wf (put bs).m = true) : Memory.wf (atomicAt s old f put).1.m = true := by
  unfold atomicAt
  split
  · exact hp _
  · exact h

theorem atomicHere_wf {s : State} (h : Memory.wf s.m = true) (t : TeamId) (core : Nat) (mode : CohMode) (sc : Scope) (a n : Nat)
    (f : List Byte → Option (List Byte)) : Memory.wf (atomicHere s t core mode sc a n f).1.m = true := by
  have key : ∀ r : State × List Byte, Memory.wf r.1.m = true → Memory.wf (atomicAt r.1 r.2 f fun bs =>
      if mode = .coh then cohWrite r.1 (.lane t core) core sc a bs else dirtyWrite r.1 t core mode a bs).1.m = true := by
    intro r hr
    refine atomicAt_wf hr _ _ _ fun bs => ?_
    split
    · exact cohWrite_wf hr _ _ _ _ _
    · exact dirtyWrite_wf hr _ _ _ _ _
  refine key _ (loadLine_wf ?_ _ _ _ _)
  split
  · exact ownLine_wf h _ _ _
  · exact h

theorem atomicPut_wf {s : State} (h : Memory.wf s.m = true) (t : TeamId) (core : Nat) (sc : Scope) (a : Nat) (bs : List Byte) :
    Memory.wf (atomicPut s t core sc a bs).m = true := by
  have h2 := putRam_wf h a bs
  unfold atomicPut
  rw [watchWrite_m]
  refine (fireMonitors_same _ _ _).wf.trans ((performAt_same _ _ _ _).wf.trans ?_)
  split
  · exact (l2Take_same _ _ _ _ _ _).wf.trans h2
  · exact (l3Touch_same _ _ _).wf.trans ((redoDirs_same _ _ _).wf.trans h2)

theorem atomicRam_wf {s : State} (h : Memory.wf s.m = true) (t : TeamId) (core : Nat) (mode : CohMode) (sc : Scope) (red : Bool)
    (a n : Nat) (f : List Byte → Option (List Byte)) : Memory.wf (atomicRam s t core mode sc red a n f).1.m = true := by
  have hd := dropOwn_wf h core (a / 128)
  have h1 := ownLine_wf hd core (a / 128) false
  unfold atomicRam
  simp only
  split
  · exact atomicHere_wf h _ _ _ _ _ _ _
  · split
    · exact atomicAt_wf h1 _ _ _ fun bs => atomicPut_wf h1 _ _ _ _ bs
    · exact atomicAt_wf hd _ _ _ fun bs => landRam_wf hd _ _ _ bs

theorem acquire_wf {s : State} (h : Memory.wf s.m = true) (core : Nat) (sc : Scope) : Memory.wf (acquire s core sc).m = true := by
  unfold acquire
  simp only
  split
  · exact h
  · exact flushL1_wf (by exact h) _ _

theorem release_wf {s : State} (h : Memory.wf s.m = true) (core : Nat) (sc : Scope) : Memory.wf (release s core sc).m = true := by
  have h1 : ∀ l : List Miss, Memory.wf (l.foldl (fun s q => performAt s q.core q.line sc) s).m = true :=
    fun l => foldl_wf _ (fun s q hs => (performAt_same s _ _ _).wf.trans hs) l h
  unfold release
  simp only
  split
  · exact h1 _
  · exact writeBackAll_wf (h1 _) _ _

theorem l2Lose_wf {s : State} (h : Memory.wf s.m = true) (die line : Nat) : Memory.wf (l2Lose s die line).m = true := by
  unfold l2Lose
  split
  · exact h
  · refine (redoDirs_same _ _ _).wf.trans (Memory.wf_ram h ?_ rfl)
    refine foldl_keeps (fun t : Tab 8 => Tab.wf t = true) _ (fun t o ht => ?_) _ _ (Memory.ram_wf h)
    split
    · exact Tab.wf_set ht _ _
    · exact ht

/-! ### Saved images, scratchpad, sync words, carved L3 -/

theorem imgWrite_wf {s : State} (h : Memory.wf s.m = true) (tm : Team) (ag : Agent) (a : Nat) (bs : List Byte) :
    Memory.wf (imgWrite s tm ag a bs).m = true := by
  unfold imgWrite
  refine foldl_wf _ (fun s x hs => ?_) _ h
  split
  · exact writeRam_wf hs _ _ _
  · exact hs

theorem setArrival_wf {s : State} (h : Memory.wf s.m = true) (tm : Team) (ag : Agent) (img off n : Nat) :
    Memory.wf (setArrival s tm ag img off n).m = true := by
  unfold setArrival
  refine foldl_wf _ (fun s u hs => ?_) _ h
  simp only
  split
  · exact imgWrite_wf hs _ _ _ _
  · exact hs

theorem imgPut_wf {s : State} (h : Memory.wf s.m = true) (tm : Team) (ag : Agent) (img off : Nat) (bs : List Byte) :
    Memory.wf (imgPut s tm ag img off bs).m = true := setArrival_wf (imgWrite_wf h _ _ _ _) _ _ _ _ _

theorem spadWrite_wf {s : State} (h : Memory.wf s.m = true) (ag : Agent) (t : TeamId) (off : Nat) (bs : List Byte) :
    Memory.wf (spadWrite s ag t off bs).m = true := by
  unfold spadWrite
  rw [wakeSync_m]
  split
  · split
    · exact imgPut_wf h _ _ _ _ _
    · simp only
      split
      · split
        · exact h
        · exact imgPut_wf (by exact h) _ _ _ _ _
      · exact h
  · exact h

theorem syncArrive_wf {s : State} (h : Memory.wf s.m = true) (ag : Agent) (t : TeamId) (off n : Nat) :
    Memory.wf (syncArrive s ag t off n).m = true := by
  unfold syncArrive
  simp only
  split
  · exact h
  · split
    · exact imgPut_wf h _ _ _ _ _
    · rw [wakeSync_m]
      split
      · split
        · exact h
        · exact imgPut_wf (by exact h) _ _ _ _ _
      · exact h

theorem l3Write_wf {s : State} (h : Memory.wf s.m = true) (stack off : Nat) (bs : List Byte) :
    Memory.wf (l3Write s stack off bs).m = true := by
  simp only [Memory.wf, l3Write, Bool.and_eq_true] at h ⊢
  exact ⟨h.1, setBytes_wf h.2 _ _⟩

/-! ### The part's own writes -/

theorem cutCarve_wf {s : State} (h : Memory.wf s.m = true) (p k stack bytes : Nat) :
    Memory.wf (cutCarve s p k stack bytes).m = true := by
  simp only [Memory.wf, cutCarve, Bool.and_eq_true] at h ⊢
  exact ⟨h.1, Tab.wf_keep _ h.2⟩

theorem sendReq_m (s : State) (part : Nat) (f : Fn) (port : Option Nat) (a : Nat) (op : ReqOp) (who : ReqFor) (fwd : Bool) :
    (sendReq s part f port a op who fwd).m = s.m := by
  unfold sendReq
  simp only
  split <;> rfl

theorem restarted_wf (s : State) {ram : Tab 8} (h : Tab.wf ram = true) : Memory.wf (restarted s ram).m = true := by
  simp only [Memory.wf, restarted, Bool.and_eq_true]
  exact ⟨h, rfl⟩

theorem placeWord_wf {s : State} (h : Memory.wf s.m = true) (bs : List Byte) : Memory.wf (placeWord s bs).m = true := by
  simp only [Memory.wf, placeWord, placeTeam, Bool.and_eq_true] at h ⊢
  exact ⟨setBytes_wf h.1 _ _, h.2⟩

/-! ### Pages and the part's controllers -/

theorem flushRuns_wf {s : State} (h : Memory.wf s.m = true) (rs : List Run) (l2 : Bool) :
    Memory.wf (flushRuns s rs l2).m = true := by
  have h1 := foldl_wf (fun s (q : Miss) => performAt s q.core q.line .sys)
    (fun s q hs => (performAt_same s _ _ _).wf.trans hs) (s.m.misses.filter fun q => q.excl && q.data && lineIn rs q.line) h
  have h2 : ∀ l : List L1Line, ∀ s1 : State, Memory.wf s1.m = true → Memory.wf (l.foldl l1Out s1).m = true :=
    fun l s1 hs => foldl_wf l1Out (fun _ x hx => l1Out_wf hx x) l hs
  have h3 : ∀ s2 : State, Memory.wf s2.m = true → Memory.wf (if l2 then
      (s2.m.l2.filter fun x => lineIn rs x.line).foldl l2Out s2 else s2).m = true := by
    intro s2 hs
    split
    · exact (foldl_sameS l2Out (fun _ _ => l2Out_same _ _) _ _).wf.trans hs
    · exact hs
  exact h3 _ (h2 _ _ h1)

theorem copyPage_wf {s : State} (h : Memory.wf s.m = true) (base to_ bits : Nat) :
    Memory.wf (copyPage s base to_ bits).m = true :=
  Memory.wf_ram (flushRuns_wf h [(to_, bits)] true) (setBytes_wf (Memory.ram_wf (flushRuns_wf h [(to_, bits)] true)) _ _) rfl

theorem foldEnds_wf {s : State} (h : Memory.wf s.m = true) (k : Nat) (st : StackSt) (f : Fold) :
    Memory.wf (foldEnds s k st f).m = true := by
  unfold foldEnds
  split
  · simp only [Memory.wf, updStack, Bool.and_eq_true] at h ⊢
    exact ⟨Tab.wf_keep _ h.1, h.2⟩
  · exact h

/-- A write by the part's own controllers, to this package's memory or over the link. -/
theorem partWrite_wf {s : State} (h : Memory.wf s.m = true) (part slice a : Nat) (bs : List Byte) :
    Memory.wf (partWrite s part slice a bs).m = true := by
  unfold partWrite
  split
  · split
    · split
      · exact h
      · rw [sendReq_m]; exact h
    · exact h
  · split
    · exact h
    · exact landRam_wf h _ _ _ _

end Sys2Proof.Machine
end

