-- ==== Sys2Proof/Tests/Slice0.lean ====
section
/-!
SUPPORT. Tests. Words written out from the encoding tables of the manual decode to the instructions that they stand
for; a term that breaks a rule of its entry is not well formed; each statement's hypotheses are met by a concrete state; and
small cases of single steps, whose expected results come from the manual's entries.
-/
set_option Elab.async false

namespace Sys2Proof.Tests
open Sys2Proof Sys2Proof.Machine

/-! ### Words of the tables (R48 to R63), the digits read OPC 2, EXT 1, GUARD 1, D 5, A 5, B 5, HINT 4, NIB 1 -/

def wd (d a b : Opnd) : Wd := ⟨false, 0, d, a, b, 0, false, 0, 0⟩
def v (n : BitVec 12) : Opnd := .main .v n 0
def im (k : BitVec 18) : Opnd := .imm k
def z0 : Opnd := .zero
def reads (ws : List (BitVec 96 × Instr)) : Bool := ws.all fun p => decide (decodeWord p.1 = .ok p.2)
def refuses (ws : List (BitVec 96 × Nat × Nat)) : Bool := ws.all fun p => decide (decodeWord p.1 = .bad p.2.1 p.2.2)
/-- The memory part of a class M word: class, order, scope. -/
def mq (c : Cls) (o : Ord) (s : Scope) : MemQ := ⟨c, o, s, false⟩

theorem test_decode_integer : reads [
  (0x001_0_80060_80040_80050_0000_0, .iadd .n32 false (wd (v 6) (v 4) (v 5))),
  (0x012_0_80060_80040_80080_0000_1, .isub .s64 true (wd (v 6) (v 4) (v 8))),
  (0x021_0_80140_80040_80060_0000_0, .iaddc .n32 false (wd (v 20) (v 4) (v 6))),
  (0x030_0_80060_80040_C0003_0000_0, .imul .s32 false (wd (v 6) (v 4) (im 3))),
  (0x041_0_80060_80040_80050_0000_0, .imulhi .n32 (wd (v 6) (v 4) (v 5))),
  (0x050_0_80060_80040_C0FFF_0000_1, .imad .s32 true (wd (v 6) (v 4) (im 0xFFF))),
  (0x060_0_80060_80040_80050_0000_0, .imin .s32 (wd (v 6) (v 4) (v 5))),
  (0x073_0_80060_80040_80080_0000_0, .imax .n64 (wd (v 6) (v 4) (v 8))),
  (0x082_0_80060_80040_00000_0000_1, .iabs true true (wd (v 6) (v 4) z0))] = true := by decide +kernel

theorem test_decode_shifts_and_logic : reads [
  (0x090_0_80060_80040_C0005_0000_0, .shl false (wd (v 6) (v 4) (im 5))),
  (0x095_0_80060_80040_80050_0000_0, .shr true (wd (v 6) (v 4) (v 5))),
  (0x098_0_80060_80040_80050_0000_0, .sar false (wd (v 6) (v 4) (v 5))),
  (0x09C_0_80060_80040_80050_0000_0, .rot false (wd (v 6) (v 4) (v 5))),
  (0x0A0_0_80060_80040_80050_0000_0, .and false (wd (v 6) (v 4) (v 5))),
  (0x0A4_0_80060_80040_80050_0000_0, .or false (wd (v 6) (v 4) (v 5))),
  (0x0A9_0_80060_80040_80080_0000_0, .xor true (wd (v 6) (v 4) (v 8))),
  (0x0AC_0_80060_80040_00000_0000_0, .not false (wd (v 6) (v 4) z0)),
  (0x0BC_0_80060_80040_80050_0000_A, .lop3 0xCA (wd (v 6) (v 4) (v 5)))] = true := by decide +kernel

theorem test_decode_fields_and_moves : reads [
  (0x0C1_0_80060_80040_80050_0000_0, .bfx true (wd (v 6) (v 4) (v 5))),
  (0x0D0_0_80060_80040_80050_0000_0, .bfi (wd (v 6) (v 4) (v 5))),
  (0x0E4_0_80060_80040_00000_0000_0, .popc true (wd (v 6) (v 4) z0)),
  (0x0E1_0_80060_80040_00000_0000_0, .clz false (wd (v 6) (v 4) z0)),
  (0x0E6_0_80060_80040_00000_0000_0, .brev true (wd (v 6) (v 4) z0)),
  (0x0F5_0_C0003_80040_80050_0000_0, .icmp false .lt true (wd (im 3) (v 4) (v 5))),
  (0x10A_0_C0003_80040_80080_0000_0, .icmp true .ge false (wd (im 3) (v 4) (v 8))),
  (0x11B_0_80060_80040_80050_0000_0, .sel true 3 (wd (v 6) (v 4) (v 5))),
  (0x122_0_80060_80040_80050_0000_0, .lea 2 (wd (v 6) (v 4) (v 5))),
  (0x131_0_80060_80040_00000_0000_0, .mov true (wd (v 6) (v 4) z0)),
  (0x140_0_800E0_44800_00000_0000_0, .movi 0x44800000 (wd (v 14) z0 z0))] = true := by decide +kernel

theorem test_decode_register_space : reads [
  (0x150_0_00000_C0100_C0004_0000_0, .view (wd z0 (im 0x100) (im 4))),
  (0x160_0_80060_80040_C0008_0000_0, .ldix (wd (v 6) (v 4) (im 8))),
  (0x170_0_80060_80040_80050_0000_0, .stix (wd (v 6) (v 4) (v 5))),
  (0x180_0_00000_80100_C0008_0000_0, .regfree (wd z0 (v 16) (im 8))),
  (0x190_0_80010_C0000_00000_0000_0, .rdsr (wd (v 1) (im 0) z0)),
  (0x1A0_0_C0018_C0010_00000_0000_0, .wrsr (wd (im 0x18) (im 16) z0))] = true := by decide +kernel

theorem test_decode_float : reads [
  -- a dual destination: v6 and o3 (R52, R58), the sign modifier - of A (R55)
  (0x200_0_80063_80041_80050_00C0_6, .fadd .rne .f32 3 false
    { wd (.main .v 6 3) (.main .v 4 1) (v 5) with dlev := 3 }),
  (0x219_0_80060_80040_80050_0000_0, .fsub .rd .f16 0 false (wd (v 6) (v 4) (v 5))),
  (0x22E_0_80060_80040_80050_0000_1, .fmul .ru .bf16 0 true (wd (v 6) (v 4) (v 5))),
  (0x234_0_80060_80040_80050_0000_0, .ffma .rz .f32 0 false (wd (v 6) (v 4) (v 5))),
  (0x240_0_80060_80040_80050_0000_0, .ffmaL .rne .f32 0 false (wd (v 6) (v 4) (v 5))),
  (0x251_0_80060_80040_80050_0000_0, .fmin .f16 (wd (v 6) (v 4) (v 5))),
  (0x260_0_80060_80040_80050_0000_0, .fmax .f32 (wd (v 6) (v 4) (v 5))),
  (0x27C_0_C0002_80040_80050_0000_0, .fcmp .f32 .un (wd (im 2) (v 4) (v 5))),
  (0x28F_0_C0002_80040_80050_0000_0, .fcmp .bf16 .num (wd (im 2) (v 4) (v 5))),
  (0x290_0_80060_80040_00000_0000_0, .frcp .rne .f32 0 false (wd (v 6) (v 4) z0)),
  (0x2A0_0_80060_80040_00000_0000_0, .frsq .rne .f32 0 false (wd (v 6) (v 4) z0)),
  (0x2B4_0_80060_80040_00000_0000_0, .fsqrt .rz .f32 0 false (wd (v 6) (v 4) z0)),
  (0x2C0_0_80060_80040_00000_0000_0, .fexp2 .rne .f32 0 false (wd (v 6) (v 4) z0)),
  (0x2D0_0_80060_80040_00000_0000_0, .flog2 .rne .f32 0 false (wd (v 6) (v 4) z0)),
  (0x2E0_0_80060_80040_00000_0000_0, .fsin .rne .f32 0 false (wd (v 6) (v 4) z0)),
  (0x2F0_0_80060_80040_00000_0000_0, .fcos .rne .f32 0 false (wd (v 6) (v 4) z0)),
  (0x304_0_80060_80040_00000_0000_0, .frnd .rz .f32 (wd (v 6) (v 4) z0)),
  -- .s32 (FMT 0x0A) from .f32 (FMT 0x00), rounded towards zero (R41, R108)
  (0x314_0_80060_80040_C000A_0000_0, .fcvt false .rz 0 false (wd (v 6) (v 4) (im 0x0A))),
  (0x321_0_80060_80040_80050_0000_0, .hfma2 .rne 1 0 false (wd (v 6) (v 4) (v 5))),
  (0x331_0_80060_80040_80050_0000_0, .fdot4 .rne true 0 false (wd (v 6) (v 4) (v 5))),
  (0x340_0_802A0_80240_00000_0000_0, .fsplit3 (wd (v 42) (v 36) z0))] = true := by decide +kernel

theorem test_decode_cross_lane : reads [
  (0x403_0_80060_80040_C0001_0000_0, .shfl .mix (wd (v 6) (v 4) (im 1))),
  (0x410_0_C0001_C0002_00000_0000_0, .vote .every (wd (im 1) (im 2) z0)),
  (0x414_0_80060_C000A_00000_0000_0, .vote .count (wd (v 6) (im 10) z0)),
  (0x421_0_80060_80040_00000_0000_0, .matchL true (wd (v 6) (v 4) z0)),
  (0x431_0_80100_800E0_C0001_0000_0, .redx .addN (wd (v 16) (v 14) (im 1))),
  (0x44B_0_80100_80040_C0001_0000_0, .scanx .xor (wd (v 16) (v 4) (im 1))),
  (0x458_0_80100_80040_C0002_0000_0, .scanxEx .maxF (wd (v 16) (v 4) (im 2))),
  (0x460_0_C0001_80040_00000_0000_0, .pset (wd (im 1) (v 4) z0)),
  (0x478_0_C0003_C0001_C0002_0000_8, .plop 0x88 (wd (im 3) (im 1) (im 2))),
  (0x480_0_80060_00000_00000_0000_0, .pmovGet (wd (v 6) z0 z0)),
  (0x481_0_00000_80030_C000E_0000_0, .pmovSet (wd z0 (v 3) (im 0x0E)))] = true := by decide +kernel

theorem test_decode_control : reads [
  (0x500_B_00000_00000_FFFFD_0000_0, .bra { wd z0 z0 (im 0x3FFFD) with inv := true, pred := 3 }),
  (0x510_0_00000_80040_C0010_0000_0, .brx (wd z0 (v 4) (im 16))),
  (0x520_0_80060_00000_C0009_0000_0, .call (wd (v 6) z0 (im 9))),
  (0x520_0_80060_00000_80080_0000_0, .call (wd (v 6) z0 (v 8))),
  (0x530_0_00000_80060_00000_0000_0, .ret (wd z0 (v 6) z0)),
  (0x540_0_80020_00000_FFFFD_0000_0, .loop (wd (v 2) z0 (im 0x3FFFD))),
  (0x550_0_00000_C0003_00000_0000_0, .bmark (wd z0 (im 3) z0)),
  (0x560_0_00000_C0003_C0009_0000_0, .bsync (wd z0 (im 3) (im 9))),
  (0x570_0_00000_00000_00000_0000_0, .exit (wd z0 z0 z0)),
  (0x580_0_00000_C0064_00000_0000_0, .yield (wd z0 (im 100) z0)),
  (0x590_0_00000_00000_00000_0000_0, .nop (wd z0 z0 z0)),
  (0x5A0_0_00000_80040_C0002_0000_0, .ipref .l1 (wd z0 (v 4) (im 2))),
  (0x5B2_0_80060_80040_C0002_0000_0, .ipin .l3 (wd (v 6) (v 4) (im 2))),
  (0x5C1_0_00000_80040_C0002_0000_0, .iunpin .l2 (wd z0 (v 4) (im 2)))] = true := by decide +kernel

theorem test_decode_memory : reads [
  (0x616_0_80060_80040_C0010_0014_A, .ld .s16 .s true (mq .ld .acq .pkg) (wd (v 6) (v 4) (im 16))),
  (0x630_0_800A0_80040_C1000_0014_E, .ld .s64 .g false (mq .ld .acq .sys) (wd (v 10) (v 4) (im 0x1000))),
  (0x64C_0_80060_80040_C0010_0020_1, .st .s8 .l3 ⟨.st, .rlx, .core, true⟩ (wd (v 6) (v 4) (im 16))),
  (0x660_2_800A0_80080_C0000_0020_A, .st .s32 .g (mq .st .rlx .pkg) { wd (v 10) (v 8) (im 0) with pred := 2 }),
  (0x682_0_80080_80040_C0000_0010_0, .ldv .x4 .g (mq .ld .rlx .core) (wd (v 8) (v 4) (im 0))),
  (0x697_0_80080_80040_C0000_0028_2, .stv .x8 .s (mq .st .rel .clus) (wd (v 8) (v 4) (im 0))),
  (0x6A1_0_00000_80040_C0000_0000_0, .pref .l2 (mq .none .rlx .core) (wd z0 (v 4) (im 0))),
  (0x6B2_0_00000_80040_C0000_0020_0, .cctl .wbinv (mq .st .rlx .core) (wd z0 (v 4) (im 0))),
  (0x6C3_0_00000_80040_C0047_0000_4, .wpset true true (mq .none .rlx .die) (wd z0 (v 4) (im 0x47))),
  (0x6D0_0_80060_00000_C0001_0000_0, .wpclr (mq .none .rlx .core) (wd (v 6) z0 (im 1))),
  (0x6E0_3_00000_00000_00000_0008_2, .fence (mq .none .rel .clus) { wd z0 z0 z0 with pred := 3 }),
  (0x6F0_0_00000_00000_00000_0000_A, .fenceSc (mq .none .rlx .pkg) (wd z0 z0 z0)),
  (0x700_0_00000_00000_00000_0000_6, .fenceLy (mq .none .rlx .stk) (wd z0 z0 z0)),
  (0x710_0_80140_80040_C0040_001C_4, .atom .g32 .add (mq .ld .ar .die) (wd (v 20) (v 4) (im 0x40))),
  (0x729_0_80080_80040_C0000_0010_4, .atom .g64 .cas (mq .ld .rlx .die) (wd (v 8) (v 4) (im 0))),
  (0x73A_0_80080_80040_C0000_0010_0, .atom .s32 .addF32 (mq .ld .rlx .core) (wd (v 8) (v 4) (im 0))),
  (0x742_0_80080_80040_C3000_0010_4, .atomv .minN (mq .ld .rlx .die) (wd (v 8) (v 4) (im 0x3000))),
  (0x757_0_80080_80040_C0000_0028_4, .red .g32 .xor (mq .st .rel .die) (wd (v 8) (v 4) (im 0))),
  (0x764_0_80080_80040_C0000_0020_4, .red .g64 .maxN (mq .st .rlx .die) (wd (v 8) (v 4) (im 0))),
  (0x770_0_80080_80040_C0000_0020_0, .red .s32 .add (mq .st .rlx .core) (wd (v 8) (v 4) (im 0))),
  (0x78B_0_80080_80040_C1000_0000_0, .waitc .ge true (mq .none .rlx .core) (wd (v 8) (v 4) (im 0x1000)))] = true := by
  decide +kernel

theorem test_decode_matrix : reads [
  (0x802_0_A0010_90000_C3800_0000_0, .mmaz .e4m3 false (wd (.main .a 1 0) (.main .t 0 0) (im 0x3800))),
  (0x811_0_A0010_80140_C3800_0000_0, .mma .bf16 true (wd (.main .a 1 0) (v 20) (im 0x3800))),
  (0x820_0_00000_80040_80080_0000_A, .wbld 5 (wd z0 (v 4) (v 8))),
  (0x830_0_A0020_80040_C0000_0004_A, .accld (mq .none .acq .pkg) (wd (.main .a 2 0) (v 4) (im 0))),
  (0x840_0_A0020_80040_C0000_0008_A, .accst (mq .none .rel .pkg) (wd (.main .a 2 0) (v 4) (im 0))),
  (0x850_0_A0020_80040_C0010_0000_3, .accdr 1 true (wd (.main .a 2 0) (v 4) (im 16))),
  (0x860_0_A0020_80040_C0009_0000_0, .epil (wd (.main .a 2 0) (v 4) (im 9))),
  (0x870_0_80080_800A0_C0010_0008_2, .ttask (mq .none .rel .clus) (wd (v 8) (v 10) (im 16)))] = true := by decide +kernel

theorem test_decode_queue : reads [
  (0x900_0_C0002_80040_C0000_0000_0, .cpy (wd (im 2) (v 4) (im 0))),
  (0x910_0_C0002_80040_C0000_0000_0, .cpy2d (wd (im 2) (v 4) (im 0))),
  (0x921_0_C0002_80040_C0000_0000_0, .gath .b8 (wd (im 2) (v 4) (im 0))),
  (0x932_0_C0002_80040_C0000_0000_0, .scat .b16 (wd (im 2) (v 4) (im 0))),
  (0x940_1_C0000_800C0_C0000_0000_0, .bread { wd (im 0) (v 12) (im 0) with pred := 1 }),
  (0x950_0_80080_80040_C0003_0000_0, .chapp (wd (v 8) (v 4) (im 3))),
  (0x960_0_C0000_C0001_00000_0804_A, .waittl (mq .none .acq .pkg) { wd (im 0) (im 1) z0 with yld := true }),
  (0x970_0_80080_C0003_C0002_0000_0, .rdtl (wd (v 8) (im 3) (im 2))),
  (0x982_0_00000_C0005_00000_0000_0, .waitcnt .cp (wd z0 (im 5) z0)),
  (0x990_0_80060_C0003_00000_0000_0, .ctxtlOpen (wd (v 6) (im 3) z0)),
  (0x991_0_80060_C0003_00000_0000_0, .ctxtlClose (wd (v 6) (im 3) z0)),
  (0x992_0_80060_C0003_00000_0000_0, .ctxtlReset (wd (v 6) (im 3) z0))] = true := by decide +kernel

theorem test_decode_barrier_and_kernel : reads [
  (0xA00_0_00000_C0013_C0004_0000_0, .bar (wd z0 (im 0x13) (im 4))),
  (0xA10_0_80060_C0013_C0004_0000_0, .bararv (wd (v 6) (im 0x13) (im 4))),
  (0xA20_0_00000_C0013_80060_0000_0, .barwt (wd z0 (im 0x13) (v 6))),
  (0xA30_0_00000_C0020_00000_0000_0, .gbar (wd z0 (im 0x20) z0)),
  (0xA40_0_80060_80040_C0010_0000_0, .syncwi (wd (v 6) (v 4) (im 16))),
  (0xA50_0_80060_80040_C0010_0004_2, .syncwt (mq .none .acq .clus) (wd (v 6) (v 4) (im 16))),
  (0xA60_0_80080_80040_C0000_0000_0, .launch (wd (v 8) (v 4) (im 0))),
  (0xA70_0_80080_80040_C0000_0000_0, .spawn (wd (v 8) (v 4) (im 0))),
  (0xA80_0_00000_80040_C0020_0000_0, .join (wd z0 (v 4) (im 0x20))),
  (0xA90_0_80060_C0000_00000_0000_0, .ticket (wd (v 6) (im 0) z0)),
  (0xB90_0_80080_80060_C0001_0000_0, .kstat (wd (v 8) (v 6) (im 1)))] = true := by decide +kernel

theorem test_decode_group : reads [
  (0xAA1_0_80060_80040_C0005_0000_0, .grpdecl true (wd (v 6) (v 4) (im 5))),
  (0xAB0_0_80060_C0001_00000_0000_0, .grpdrop (wd (v 6) (im 1) z0)),
  (0xAC0_0_800A0_80040_C0001_0000_0, .claim false (wd (v 10) (v 4) (im 1))),
  (0xAC1_0_800A0_80040_C0001_0000_0, .claim true (wd (v 10) (v 4) (im 1))),
  (0xAD0_0_00000_80060_C0001_0000_0, .object (wd z0 (v 6) (im 1))),
  (0xAE0_0_80080_80060_C0001_0000_0, .clwait (wd (v 8) (v 6) (im 1))),
  (0xAF0_0_80080_C0001_00000_0000_0, .clinbox (wd (v 8) (im 1) z0))] = true := by decide +kernel

theorem test_decode_context : reads [
  (0xB00_0_00000_C0000_00000_0000_0, .live (wd z0 (im 0) z0)),
  (0xB10_0_00000_C0123_00000_0000_0, .trap (wd z0 (im 0x123) z0)),
  (0xB20_0_00000_00000_00000_0000_0, .tret (wd z0 z0 z0)),
  (0xB30_0_80000_80020_C003F_0000_0, .ctxsave (wd (v 0) (v 2) (im 0x3F))),
  (0xB40_0_80080_80060_C007F_0000_0, .ctxload (wd (v 8) (v 6) (im 0x7F))),
  (0xB50_0_80080_C0008_00000_0000_0, .oplogrd (wd (v 8) (im 8) z0)),
  (0xB60_0_80060_C0003_00000_0000_0, .progrd (wd (v 6) (im 3) z0)),
  (0xB70_0_00000_80000_80120_0000_0, .progwr (wd z0 (v 0) (v 18))),
  (0xB80_0_00000_C00FF_00000_0000_0, .eret (wd z0 (im 0xFF) z0)),
  (0xB80_0_00000_C0100_00000_0000_0, .eretOff (wd z0 (im 0x100) z0)),
  (0xB80_0_00000_C0200_00000_0000_0, .eretEnd (wd z0 (im 0x200) z0))] = true := by decide +kernel

theorem test_decode_page_and_link : reads [
  (0xC01_0_80080_80040_00000_0000_0, .pagemode .swc (wd (v 8) (v 4) z0)),
  (0xC11_0_00000_80040_C0003_0000_0, .tlbinv false .s1 (wd z0 (v 4) (im 3))),
  (0xC17_0_00000_00000_C0003_0000_0, .tlbinv true .s3 (wd z0 z0 (im 3))),
  (0xC22_0_80080_80040_C0300_0000_0, .probe .s2 (wd (v 8) (v 4) (im 0x300))),
  (0xC30_0_80080_C0005_C0080_0000_0, .bmaprd (wd (v 8) (im 5) (im 128))),
  (0xC40_0_80080_80040_80060_0000_0, .remapPage (wd (v 8) (v 4) (v 6))),
  (0xC40_0_80080_C0015_C0100_0000_0, .remapBank (wd (v 8) (im 0x15) (im 0x100))),
  (0xC50_0_80080_80040_D0001_0028_A, .chainst (mq .st .rel .pkg) (wd (v 8) (v 4) (im 0x10001))),
  (0xC62_0_800A0_80040_C0000_0028_C, .fred .amax (mq .st .rel .fab) (wd (v 10) (v 4) (im 0))),
  (0xC70_0_80100_80140_C0000_0000_C, .fredwt (mq .none .rlx .fab) (wd (v 16) (v 20) (im 0))),
  (0xC80_0_80080_C0105_C000B_0000_0, .vfctlEnable (wd (v 8) (im 0x105) (im 0x0B))),
  (0xC81_0_80080_C0105_00000_0000_0, .vfctlDrain (wd (v 8) (im 0x105) z0)),
  (0xC82_0_80080_C0105_00000_0000_0, .vfctlStatus (wd (v 8) (im 0x105) z0))] = true := by decide +kernel

/-- R249, R252: epilogue words, OP 6, D 4, A 4, B 4, C 4, or OP 6, D 4, A 4, MODE 2, IMM16. -/
def readsEpi (ws : List (BitVec 32 × Instr)) : Bool := ws.all fun p => decide (decodeEpi p.1 = some p.2)

theorem test_decode_epilogue : readsEpi [
  (0b000000_0000_0000_0000_0000_00_00000000, .eNop),
  (0b000001_0001_1010_0000_0000_00_00000000, .eMov (.y 1) (.s 2)),
  (0b000010_1011_0000_00_0001001000110100, .eMovl 3 0x1234),
  (0b000011_1011_0000_00_0100001011001000, .eMovh 3 0x42C8),
  (0b000100_0001_0010_0011_0000_00_00000000, .eAdd (.y 1) (.y 2) (.y 3)),
  (0b000101_1001_1010_1011_0000_00_00000000, .eSub (.s 1) (.s 2) (.s 3)),
  (0b000110_0001_0010_1011_0000_00_00000000, .eMul (.y 1) (.y 2) (.s 3)),
  (0b000111_0001_0010_1011_0000_00_00000000, .eFma (.y 1) (.y 2) (.s 3) (.y 0)),
  (0b001000_0001_0010_0011_0000_00_00000000, .eMin (.y 1) (.y 2) (.y 3)),
  (0b001001_0001_0010_0011_0000_00_00000000, .eMax (.y 1) (.y 2) (.y 3)),
  (0b001010_0001_0010_0000_0000_00_00000000, .eRelu (.y 1) (.y 2)),
  (0b001011_0001_0010_0000_0000_00_00000000, .eGelu (.y 1) (.y 2)),
  (0b001100_0001_0010_1000_1001_00_00000000, .eClamp (.y 1) (.y 2) (.s 0) (.s 1)),
  (0b001101_1001_0010_0000_0000_00_00000000, .eAbsmaxRow 1 2),
  (0b001101_0001_0010_0000_0000_01_00000000, .eAbsmaxBlk 1 2),
  (0b001110_1001_0010_0000_0000_00_00000000, .eSum 1 2),
  (0b001111_0001_0000_0000_0000_00_00000000, .eIdx (.y 1)),
  (0b010000_0000_0010_0000_0000_00_00000000, .eBscale 2),
  (0b010001_0001_0010_0000_0000_00_00000000, .eQ8 1 2),
  (0b010010_0001_0010_0000_0000_00_00000000, .eCvt 1 2),
  (0b010011_0001_1010_00_0000000000010000, .eLdbColF32 1 1 0x10),
  (0b010011_0001_1010_01_0000000000010000, .eLdbColBf16 1 1 0x10),
  (0b010011_1001_1010_10_0000000000010000, .eLdbRowF32 1 1 0x10),
  (0b010100_0000_0010_00_0000000000001000, .eSt 2 8),
  (0b010101_0000_1100_00_0000000000000000, .eSts 2),
  (0b010110_0000_0000_0000_0000_00_00000000, .eNext),
  (0b010111_0000_0000_0000_0000_00_00000000, .eStop)] = true := by decide +kernel

/-- R404: the codes of the commands. -/
theorem test_decode_commands :
    let c : Cmd := ⟨.fw, 0, 1, 2, 3, 4, 5, 6⟩
    [0x01, 0x02, 0x03, 0x04, 0x05, 0x06, 0x07, 0x08, 0x09, 0x0A, 0x0B, 0x0C, 0x0D, 0x20, 0x21, 0x22, 0x23, 0x24, 0x25, 0x0E,
      0x26].map (fun k => cmdOf k c) =
    [some (.slice c), some (.unslice c), some (.setq c), some (.root c), some (.hnd c), some (.grant c), some (.run c),
      some (.preempt c), some (.freeze c), some (.thaw c), some (.carve c), some (.admits c), some (.log c), some (.part c),
      some (.unpart c), some (.vfassign c), some (.hdm c), some (.frgrant c), some (.fwupd c), none, none] := by
  decide +kernel

/-- R64: unassigned opcodes and extensions, and forbidden fields; field 0 is D, 1 is A, 2 is B, 3 none of them. -/
theorem test_refused_words : refuses [
  (0x1B0_0_00000_00000_00000_0000_0, 1, 3), (0xBA0_0_00000_00000_00000_0000_0, 1, 3),
  (0xD00_0_00000_00000_00000_0000_0, 1, 3), (0x004_0_80060_80040_80050_0000_0, 2, 3),
  (0x0FC_0_C0003_80040_80050_0000_0, 2, 3), (0x72A_0_80080_80040_C0000_0010_4, 2, 3),
  (0x668_0_80060_80040_C0000_0020_0, 3, 3), (0x590_0_00000_00000_00000_0001_0, 3, 3),
  (0x000_0_80061_80040_80050_0000_0, 3, 0), (0x000_0_80060_8004E_80050_0000_0, 3, 1),
  (0x000_0_80060_80040_80054_0000_0, 3, 2), (0x0A0_0_80060_80041_80050_0000_0, 3, 1),
  (0x0F4_0_C0000_80040_80050_0000_0, 3, 0), (0x6E0_0_00000_00000_00000_0000_2, 3, 3)] = true := by decide +kernel

/-- R259: an unassigned operation and a bit that must be 0 in an epilogue program. -/
theorem test_refused_epilogue_words : [0b011000_0000_0000_0000_0000_00_00000000, 0b000001_0001_1010_0000_0000_01_00000000,
    0b000100_1001_0010_0011_0000_00_00000000, 0b010011_0001_1011_00_0000000000010000].map decodeEpi =
    [none, none, none, none] := by decide +kernel

/-! ### Terms that are not well formed, one for each check of R51 to R63 and of the entries -/

theorem test_wf_accepts : Instr.wf (.iadd .s32 false (wd (v 6) (v 4) (im 5))) = true := by decide +kernel
/-- D: an integer result has no immediate destination, nor a modifier without the dual form. -/
theorem test_wf_destination : (Instr.iadd .s32 false (wd (im 1) (v 4) (v 5))).badField = some 0 ∧
    (Instr.iadd .s32 false (wd (.main .v 6 1) (v 4) (v 5))).badField = some 0 := by decide +kernel
/-- A: modifiers 14 and 15, and an immediate as a pair. -/
theorem test_wf_source_a : (Instr.iadd .s32 false (wd (v 6) (.main .v 4 14) (v 5))).badField = some 1 ∧
    (Instr.ret (wd z0 (im 4) z0)).badField = some 1 := by decide +kernel
/-- B: a cross-lane modifier, which only A takes, and an immediate outside the entry's range. -/
theorem test_wf_source_b : (Instr.iadd .s32 false (wd (v 6) (v 4) (.main .v 5 4))).badField = some 2 ∧
    (Instr.waitcnt .tile (wd z0 (im 16) z0)).badField = some 1 ∧
    (Instr.ipref .l1 (wd z0 (v 4) (im 0))).badField = some 2 := by decide +kernel
/-- R58: the destination level. -/
theorem test_wf_level : (Instr.iadd .s32 false { wd (v 6) (v 4) (v 5) with dlev := 1 }).badField = some 3 ∧
    (Instr.iadd .s32 false (wd (.lat 0 0) (v 4) (v 5))).badField = some 3 ∧
    (Instr.nop { wd z0 z0 z0 with dlev := 2 }).badField = some 3 := by decide +kernel
/-- R59: orders, counter classes and non-temporal of class M words. -/
theorem test_wf_order : (Instr.ld .s32 .g false (mq .ld .rel .pkg) (wd (v 6) (v 4) (im 0))).badField = some 3 ∧
    (Instr.waitc .eq false (mq .st .rlx .pkg) (wd (v 6) (v 4) (im 0))).badField = some 3 ∧
    (Instr.fred .add (mq .st .rlx .pkg) (wd (v 6) (v 4) (im 0))).badField = some 3 ∧
    (Instr.atom .g32 .add ⟨.ld, .rlx, .pkg, true⟩ (wd (v 6) (v 4) (im 0))).badField = some 3 := by decide +kernel
/-- R63, R116, R149, R156, R177 to R179: the rules that bind two parts of a word together. -/
theorem test_wf_entries : [
    Instr.redx .addN (wd (v 5) (v 4) (im 2)), .scanx .addN (wd (v 5) (v 4) (im 2)), .scanxEx .addN (wd (v 3) (v 4) (im 2)),
    .ld .s32 .g true (mq .ld .rlx .pkg) (wd (v 6) (v 4) (im 0)), .st .s32 .c (mq .st .rlx .pkg) (wd (v 6) (v 4) (im 0)),
    .wpset false false (mq .none .rlx .pkg) (wd z0 (v 4) (im 2)), .atomv .cas (mq .ld .rlx .pkg) (wd (v 8) (v 4) (im 0)),
    .atom .g64 .addF32 (mq .ld .rlx .pkg) (wd (v 8) (v 4) (im 0)), .red .g32 .exch (mq .st .rlx .pkg) (wd (v 8) (v 4) (im 0)),
    .red .g64 .addBf16x2 (mq .st .rlx .pkg) (wd (v 8) (v 4) (im 0))].map (fun i => i.badField) =
    List.replicate 10 (some 3) := by decide +kernel
/-- R252: an s destination takes only s sources. -/
theorem test_wf_epilogue : Instr.wf (.eAdd (.s 1) (.y 2) (.s 3)) = false ∧ Instr.wf (.eAdd (.s 1) (.s 2) (.s 3)) = true := by
  decide +kernel
/-- MOVI's immediate stands in fields A and B. -/
theorem test_wf_movi : Instr.wf (.movi 1 (wd (v 6) (v 4) z0)) = false := by decide +kernel

/-! ### Single steps -/

/-- The placed team of firmware level on core 0, at address 0 with the whole swarm active, its frame changed by `f`. -/
def base (f : Frame → Frame) : State := updFrame (placeTeam State.reset) placedId 0 f
/-- Register `n` of lane 0 and of lane 1. -/
def set0 (n : Nat) (x : Word) (fr : Frame) : Frame := setReg fr 0 n x
def set1 (n : Nat) (x : Word) (fr : Frame) : Frame := setReg fr 1 n x
def setAll (n : Nat) (x : Nat → Word) (fr : Frame) : Frame := eachLane 0xFFFFFFFF fr fun ln fr => setReg fr ln n (x ln)
def rg (s : State) (ln n : Nat) : Word := match frameAt s placedId 0 with
  | some fr => reg fr ln n
  | none => 0
def lan (s : State) (k : Nat) : Lane := match frameAt s placedId 0 with
  | some fr => lane fr k
  | none => lane (freshFrame 0 0 0 32) k
def next (i : Instr) (s : State) (p : State → Bool) : Bool := match exec i s with
  | .next u => p u
  | _ => false
/-- The result of one step of a word of `v4` and `v5` in lane 0: `v6`, `v7` and the flags. -/
def gives (i : Instr) (a b d : Word) (x y : Word) (fl : BitVec 6) : Bool :=
  next i (base (set0 4 a ∘ set0 5 b ∘ set0 6 d)) fun u => rg u 0 6 == x && rg u 0 7 == y && (lan u 0).fflags == fl
def w3 : Wd := wd (v 6) (v 4) (v 5)
def w2 : Wd := wd (v 6) (v 4) z0

-- R31, R92
theorem test_iadd : gives (.iadd .s32 false w3) 0x7FFFFFFF 1 0 0x80000000 0 0 = true := by decide +kernel
theorem test_iadd_sat : gives (.iadd .s32 true w3) 0x7FFFFFFF 1 0 0x7FFFFFFF 0 flSA = true := by decide +kernel
theorem test_isub : gives (.isub .n32 true w3) 3 5 0 0 0 flSA = true := by decide +kernel
theorem test_imul : gives (.imul .s32 false w3) 0xFFFFFFFF 3 0 0xFFFFFFFD 0 0 = true := by decide +kernel
theorem test_imulhi : gives (.imulhi .n32 w3) 0xFFFFFFFF 2 0 1 0 0 = true := by decide +kernel
theorem test_imad : gives (.imad .s32 false (wd (v 6) (v 4) (im 0x3FFFF))) 3 0 10 7 0 0 = true := by decide +kernel
theorem test_imin : gives (.imin .s32 w3) 0xFFFFFFFF 1 0 0xFFFFFFFF 0 0 = true := by decide +kernel
theorem test_imax : gives (.imax .s32 w3) 0xFFFFFFFF 1 0 1 0 0 = true := by decide +kernel
theorem test_iabs : gives (.iabs false true w2) 0x80000000 0 0 0x7FFFFFFF 0 flSA = true := by decide +kernel
/-- R93's own example: the sum in v20, the carry in v21, and both in the latches. -/
theorem test_iaddc : next (.iaddc .n32 false (wd (v 20) (v 4) (v 6))) (base (set0 4 0xFFFFFFFF ∘ set0 6 1))
    (fun u => rg u 0 20 == 0 && rg u 0 21 == 1 && (lan u 0).l0 == 0 && (lan u 0).l1 == 1) = true := by decide +kernel
-- R94, R95
theorem test_shl : gives (.shl false w3) 1 32 0 0 0 0 = true := by decide +kernel
theorem test_shr : gives (.shr true (wd (v 6) (v 4) (im 4))) 0x10 0x3 0 0x30000001 0 0 = true := by decide +kernel
theorem test_sar : gives (.sar false w3) 0x80000000 40 0 0xFFFFFFFF 0 0 = true := by decide +kernel
theorem test_rot : gives (.rot false w3) 0x80000001 33 0 3 0 0 = true := by decide +kernel
theorem test_and : gives (.and false w3) 0xF0F0 0xFF00 0 0xF000 0 0 = true := by decide +kernel
theorem test_or : gives (.or false w3) 0xF0F0 0xFF00 0 0xFFF0 0 0 = true := by decide +kernel
theorem test_xor : gives (.xor false w3) 0xF0F0 0xFF00 0 0x0FF0 0 0 = true := by decide +kernel
theorem test_not : gives (.not false w2) 0xF0F0 0 0 0xFFFF0F0F 0 0 = true := by decide +kernel
/-- #0xCA: B where D is 1, A where D is 0. -/
theorem test_lop3 : gives (.lop3 0xCA w3) 0x11111111 0x22222222 0xFF00FF00 0x22112211 0 0 = true := by decide +kernel
-- R96 to R101
theorem test_bfx : gives (.bfx true w3) 0xF0 0x404 0 0xFFFFFFFF 0 0 = true := by decide +kernel
theorem test_bfi : gives (.bfi w3) 0xFF 0x408 0x0 0xF00 0 0 = true := by decide +kernel
theorem test_popc : gives (.popc true w2) 0xFF 0x80000001 0 10 0 0 = true := by decide +kernel
theorem test_clz : gives (.clz false w2) 0 0 0 32 0 0 = true := by decide +kernel
theorem test_brev : gives (.brev false w2) 0x5 0 0 0xA0000000 0 0 = true := by decide +kernel
theorem test_sel : gives (.sel true 3 w3) 7 9 0 7 0 0 = true := by decide +kernel
theorem test_lea : gives (.lea 2 (wd (v 6) (v 4) (im 0x3FFFF))) 2 1 0 0xFFFFFFFE 0 0 = true := by decide +kernel
theorem test_mov : gives (.mov true w2) 8 9 0 8 9 0 = true := by decide +kernel
theorem test_movi : gives (.movi 0x44800000 (wd (v 6) z0 z0)) 0 0 0 0x44800000 0 0 = true := by decide +kernel
-- R98, R105, R117
theorem test_icmp : next (.icmp false .lt false (wd (im 3) (v 4) (im 0))) (base (set0 4 0xFFFFFFFF))
    (fun u => predOf (lan u 0) 3 && !predOf (lan u 1) 3) = true := by decide +kernel
theorem test_icmp_unsigned : next (.icmp false .lt true (wd (im 3) (v 4) (im 0))) (base (set0 4 0xFFFFFFFF))
    (fun u => !predOf (lan u 0) 3) = true := by decide +kernel
theorem test_fcmp : next (.fcmp .f32 .lt (wd (im 1) (v 4) (v 5))) (base (set0 4 0x7FC00000))
    (fun u => !predOf (lan u 0) 1 && (lan u 0).fflags == flNV && (lan u 1).fflags == 0) = true := by decide +kernel
theorem test_pset : next (.pset (wd (im 2) (v 4) z0)) (base (set1 4 9))
    (fun u => predOf (lan u 1) 2 && !predOf (lan u 0) 2) = true := by decide +kernel
theorem test_pmov_set : next (.pmovSet (wd z0 (v 3) (im 0x0E))) (base (set0 3 0xFFFFFFF5))
    (fun u => predOf (lan u 0) 2 && predOf (lan u 0) 0 && !predOf (lan u 0) 1 && !predOf (lan u 0) 3 && !predOf (lan u 0) 4) = true := by decide +kernel
theorem test_plop : next (.plop 0x55 (wd (im 3) (im 1) (im 2))) (base id) (fun u => predOf (lan u 0) 3) = true := by decide +kernel
theorem test_pmov_get : gives (.pmovGet (wd (v 6) z0 z0)) 0 0 0 1 0 0 = true := by decide +kernel
-- R83 to R87
theorem test_view : next (.view (wd z0 (im 256) (im 4))) (base id)
    (fun u => (frameAt u placedId 0).any fun fr => fr.vcnt == 256 && fr.tcnt == 4) = true := by decide +kernel
theorem test_ldix : next (.ldix (wd (v 6) (v 4) (im 8))) (base (set1 4 32 ∘ set1 40 0xAB))
    (fun u => rg u 1 6 == 0xAB && rg u 0 6 == 0) = true := by decide +kernel
theorem test_stix : next (.stix (wd (v 6) (v 4) (im 8))) (base (set1 4 32 ∘ set1 6 0xAB))
    (fun u => rg u 1 40 == 0xAB && rg u 0 40 == 0) = true := by decide +kernel
theorem test_regfree : next (.regfree (wd z0 (v 16) (im 2))) (base (set1 16 5 ∘ set1 17 6 ∘ set1 18 7))
    (fun u => rg u 1 16 == 0 && rg u 1 17 == 0 && rg u 1 18 == 7) = true := by decide +kernel
/-- R87's own example. -/
theorem test_rdsr : next (.rdsr (wd (v 1) (im 0) z0)) (base fun fr => updLane fr 5 fun l => { l with l0 := 77 })
    (fun u => rg u 5 1 == 5 && (lan u 5).l0 == 5 && (lan u 5).l1 == 77) = true := by decide +kernel
theorem test_wrsr : next (.wrsr (wd (im 0x18) (im 9) z0)) (base id)
    (fun u => (frameAt u placedId 0).any fun fr => fr.xlgw == 8) = true := by decide +kernel
-- R29, R37, R102 to R111
theorem test_fadd : gives (.fadd .rne .f32 0 false w3) 0x3F800000 0x40000000 0 0x40400000 0 0 = true := by decide +kernel
theorem test_fsub : gives (.fsub .rd .f32 0 false w3) 0x3F800000 0x3F800000 0 0x80000000 0 0 = true := by decide +kernel
theorem test_fmul : gives (.fmul .rne .f32 0 false w3) 0x7F000000 0x7F000000 0 0x7F800000 0 (flOF ||| flNX) = true := by
  decide +kernel
theorem test_fmul_sat : gives (.fmul .rne .f32 0 true w3) 0x7F000000 0x7F000000 0 0x7F7FFFFF 0 (flSA ||| flNX) = true := by
  decide +kernel
theorem test_ffma : gives (.ffma .rne .f32 0 false w3) 0x40000000 0x40400000 0x3F800000 0x40E00000 0 0 = true := by decide +kernel
theorem test_ffma_l : next (.ffmaL .rne .f32 0 false w3)
    (base ((fun fr => updLane fr 0 fun l => { l with l0 := 0x3F800000 }) ∘ set0 4 0x40000000 ∘ set0 5 0x40400000))
    (fun u => rg u 0 6 == 0x40E00000) = true := by decide +kernel
theorem test_fmin : gives (.fmin .f32 w3) 0 0x80000000 0 0x80000000 0 0 = true := by decide +kernel
theorem test_fmax : gives (.fmax .f32 w3) 0x7F800001 0x3F800000 0 0x3F800000 0 flNV = true := by decide +kernel
theorem test_frcp : gives (.frcp .rne .f32 0 false w2) 0x80000000 0 0 0xFF800000 0 flDZ = true := by decide +kernel
theorem test_frsq : gives (.frsq .rne .f32 0 false w2) 0x7F800000 0 0 0 0 0 = true := by decide +kernel
theorem test_fsqrt : gives (.fsqrt .rne .f32 0 false w2) 0x40800000 0 0 0x40000000 0 0 = true := by decide +kernel
theorem test_fexp2 : gives (.fexp2 .rne .f32 0 false w2) 0x40400000 0 0 0x41000000 0 0 = true := by decide +kernel
theorem test_flog2 : gives (.flog2 .rne .f32 0 false w2) 0x41000000 0 0 0x40400000 0 0 = true := by decide +kernel
theorem test_fsin : gives (.fsin .rne .f32 0 false w2) 0x80000000 0 0 0x80000000 0 0 = true := by decide +kernel
theorem test_fcos : gives (.fcos .rne .f32 0 false w2) 0 0 0 0x3F800000 0 0 = true := by decide +kernel
theorem test_frnd : gives (.frnd .rne .f32 w2) 0x40200000 0 0 0x40000000 0 0 = true := by decide +kernel
theorem test_fcvt : gives (.fcvt false .rz 0 false (wd (v 6) (v 4) (im 0x0A))) 0xC0390000 0 0 0xFFFFFFFE 0 flNX = true := by
  decide +kernel
/-- −6.5 in E5M2 under RNE (R30's table): −6.0 with NX. -/
theorem test_fcvt_e5m2 : cvtFF fF32 fE5m2 .rne false 0xC0D00000 = (0xC6, flNX) := by decide +kernel
theorem test_hfma2 : gives (.hfma2 .rne 1 0 false w3) 0x40003F80 0x40403F80 0 0x40004040 0 0 = true := by decide +kernel
theorem test_fdot4 : gives (.fdot4 .rne false 0 false w3) 0x38383838 0x40383838 0x3F800000 0x40C00000 0 0 = true := by decide +kernel
/-- R111's own example. -/
theorem test_fsplit3 : gives (.fsplit3 w2) 0x40490FDB 0 0 0x3A7D4049 0x3630 0 = true := by decide +kernel
-- R112 to R116
theorem test_shfl : next (.shfl .mix (wd (v 6) (v 4) (im 1))) (base (setAll 4 fun k => BitVec.ofNat 32 k))
    (fun u => rg u 6 6 == 7 && rg u 7 6 == 6) = true := by decide +kernel
theorem test_vote : next (.vote .count (wd (v 6) (im 8) z0)) (base id) (fun u => rg u 0 6 == 0) = true := by decide +kernel
theorem test_match : next (.matchL false w2) (base (setAll 4 fun k => BitVec.ofNat 32 (k % 2)))
    (fun u => rg u 0 6 == 0x55555555 && rg u 3 6 == 0xAAAAAAAA) = true := by decide +kernel
theorem test_redx : next (.redx .addN (wd (v 6) (v 4) (im 1))) (base (setAll 4 fun k => BitVec.ofNat 32 k))
    (fun u => rg u 0 6 == 496 && rg u 31 6 == 496) = true := by decide +kernel
theorem test_scanx : next (.scanx .addN (wd (v 6) (v 4) (im 1))) (base (setAll 4 fun k => BitVec.ofNat 32 k))
    (fun u => rg u 0 6 == 0 && rg u 5 6 == 15) = true := by decide +kernel
theorem test_scanx_ex : next (.scanxEx .minS (wd (v 6) (v 4) (im 1))) (base (setAll 4 fun k => BitVec.ofNat 32 k))
    (fun u => rg u 0 6 == 0x7FFFFFFF && rg u 5 6 == 0) = true := by decide +kernel
-- R126 to R130
def at_ (s : State) (k : Nat) : DWord := (lan s k).pc
theorem test_bra : next (.bra (wd z0 z0 (im 0x18))) (base id) (fun u => at_ u 0 == 96) = true := by decide +kernel
theorem test_bra_guard : next (.bra { wd z0 z0 (im 0x18) with pred := 1 }) (base fun fr => updLane fr 2 fun l => { l with preds := 2 })
    (fun u => at_ u 0 == 12 && at_ u 2 == 96) = true := by decide +kernel
theorem test_brx : next (.brx (wd z0 (v 4) (im 8))) (base (set1 4 0x100)) (fun u => at_ u 1 == 0x108 && at_ u 0 == 8) = true := by
  decide +kernel
theorem test_call : next (.call (wd (v 6) z0 (im 9))) (base id) (fun u => at_ u 0 == 36 && rg u 0 6 == 12 && rg u 0 7 == 0) = true := by
  decide +kernel
theorem test_ret : next (.ret (wd z0 (v 6) z0)) (base (setAll 6 fun _ => 0x40)) (fun u => at_ u 0 == 0x40) = true := by decide +kernel
theorem test_loop : next (.loop (wd (v 2) z0 (im 6))) (base (set0 2 3 ∘ set1 2 1))
    (fun u => rg u 0 2 == 2 && at_ u 0 == 24 && rg u 1 2 == 0 && at_ u 1 == 12 && rg u 2 2 == 0 && at_ u 2 == 12) = true := by
  decide +kernel
theorem test_bsync : next (.bsync (wd z0 (im 3) z0)) (base fun fr => { fr with marks := fr.marks.set 3 0xFFFFFFFF })
    (fun u => at_ u 7 == 12 && (frameAt u placedId 0).any fun fr => fr.marks.get 3 == 0) = true := by decide +kernel
theorem test_bmark : next (.bmark (wd z0 (im 3) z0)) (base id)
    (fun u => (frameAt u placedId 0).any fun fr => fr.marks.get 3 == 0xFFFFFFFF) = true := by decide +kernel
theorem test_exit : next (.exit (wd z0 z0 z0)) (base id) (fun u => (swarmAt u placedId 0).any fun sw => sw.ended) = true := by
  decide +kernel
theorem test_ipin : next (.ipin .l1 (wd (v 6) (v 4) (im 2))) (base (setAll 6 fun _ => 9)) (fun u => rg u 0 6 == 0) = true := by
  decide +kernel

/-! ### States that meet the statements' hypotheses -/

/-- A word stands ready, as a test, with more asked of its context. -/
def ready (i : Instr) (o : Wd) (lv : Level) (sl : SlotNeed) (fs : Ctx → FS × FS × FS) (s : State) (p : Ctx → Bool) : Bool :=
  match ctxOf s o with
  | some c => decide (c.act ≠ 0) && decide (checks c i (fs c) o lv sl = none) && !c.sw.ended && decide (firstFault c.sw.frame = none) && p c
  | none => false
theorem ready_sound {i : Instr} {o : Wd} {lv : Level} {sl : SlotNeed} {fs : Ctx → FS × FS × FS} {s : State} {p : Ctx → Bool}
    (h : ready i o lv sl fs s p = true) : ∃ c, Ready s i o lv sl (fs c) c ∧ p c = true := by
  unfold ready at h
  split at h
  · rename_i c hc
    simp only [Bool.and_eq_true, decide_eq_true_eq, Bool.not_eq_true'] at h
    exact ⟨c, ⟨hc, h.1.1.1.1, h.1.1.1.2, h.1.1.2, h.1.2⟩, h.2⟩
  · cases h
/-- A word of program level without a slot. -/
def stands (i : Instr) (s : State) (p : Ctx → Bool) : Bool := match i.wd? with
  | some o => ready i o .prog none (fun _ => i.fields) s p
  | none => false
theorem stands_sound {i : Instr} {s : State} {p : Ctx → Bool} (h : stands i s p = true) :
    ∃ o c, i.wd? = some o ∧ Stands s i o c ∧ p c = true := by
  unfold stands at h
  split at h
  · rename_i o ho
    obtain ⟨c, hc⟩ := ready_sound h
    exact ⟨o, c, ho, hc⟩
  · cases h
/-- The same of a word with a slot of a floating format. -/
def standsS (i : Instr) (slot : BitVec 3) (s : State) : Bool := match i.wd? with
  | some o => ready i o .prog (floatSlot slot) (fun _ => i.fields) s fun _ => true
  | none => false
def any : Ctx → Bool := fun _ => true
def s0 : State := base id
def w4 : Wd := wd (v 6) (v 4) (v 8)

theorem witness_IntegerArithmetic :
    ([Instr.iadd .s32 false w3, .isub .n64 true w4, .imul .s64 false w4, .imulhi .n32 w3, .imad .s32 true w3, .imin .n32 w3,
      .imax .s64 w4, .iabs true true w2, .iabs false false w2].all fun i => stands i s0 any) = true ∧
    (minOf true 8 ≤ -128 ∧ (127 : Int) ≤ maxOf true 8 ∧ -129 < minOf true 8 ∧ maxOf true 8 < 128 ∧ -1 < minOf false 8 ∧
      maxOf false 8 < 256) := by decide +kernel
theorem witness_AddWithCarry :
    (stands (.iaddc .s32 false w3) s0 any && stands (.iaddc .n64 false w4) s0 any) = true := by decide +kernel
theorem witness_ShiftsAndLogic :
    ([Instr.shl false w3, .shr true w4, .sar true w4, .rot false w3, .and true w4, .or false w3, .xor false w3, .not true w2,
      .lop3 0xCA w3].all fun i => stands i s0 any) = true := by decide +kernel
theorem witness_FieldsCountsAndMoves :
    ([Instr.bfx true w3, .bfx false w3, .bfi w3, .popc true w2, .clz false w2, .brev true w2, .sel true 7 w3, .lea 15 w3, .mov true w2,
      .movi 5 (wd (v 6) z0 z0)].all fun i => stands i s0 any) = true := by decide +kernel
/-- The last register, the last pair, the last bytes, and the first and last predicate that a word writes. -/
theorem witness_Writeback :
    (freshFrame 0 512 0 32).lanes.length = 32 ∧ (511#12).toNat < 512 ∧ (510#12).toNat + 1 < 512 ∧
    (∀ w ∈ [8, 16, 32, 64], (2048 - w / 8) % (w / 8) = 0 ∧ (BitVec.ofNat 12 (2048 - w / 8)).toNat < 2048) ∧
    (∀ k, k < 2100 → (((freshFrame 0 512 0 32).freed.get k).getLsbD 0) = false) ∧
    (im 1).immVal.toNat = 1 ∧ (im 7).immVal.toNat = 7 := by decide +kernel
theorem witness_RegisterWordFrame : (ctxOf s0 w3).isSome = true := by decide +kernel
theorem witness_ComparisonsAndPredicates :
    ([Instr.icmp true .lt true (wd (im 3) (v 4) (v 8)), .fcmp .bf16 .num (wd (im 1) (v 4) (v 5)), .pset (wd (im 7) (v 4) z0),
      .plop 0x88 (wd (im 3) (im 1) (im 2)), .pmovGet (wd (v 6) z0 z0), .pmovSet (wd z0 (v 3) (im 0xFE))].all
        fun i => stands i s0 any) = true := by decide +kernel

/-- Each format's largest finite value, and a magnitude on each side of it. -/
theorem witness_FloatRounding :
    ([fF32, fF16, fBf16, fE4m3, fE5m2].all fun f => match unpackF f (maxBits f) with
      | .fin false M E =>
        let above (m : Nat) (e : Int) : Bool :=
          let q : Int := max (e + Nat.log2 m - f.mb) (1 - f.bias - f.mb)
          decide (M * 2 ^ (E - q).toNat < (roundAt .rne false m e q).1 * 2 ^ (q - E).toNat)
        !above M E && above M (E + 1)
      | _ => false) = true := by decide +kernel
theorem witness_FloatSumsAndProducts :
    ([fF32, fF16, fBf16, fE5m2].all fun f => decide ((infBits f true + 1) / 2 ^ f.mb % 2 ^ f.eb = 2 ^ f.eb - 1) &&
      decide ((infBits f true + 1) % 2 ^ f.mb ≠ 0)) = true ∧ 0xFF % 128 = 0x7F ∧
    (FV.nan true).isNan = true ∧
    (let x : Int := -(3 : Int) * 2 ^ (0 : Nat) + 1 * 2 ^ (2 : Nat)
     x ≠ 0) ∧
    (let x : Int := -(4 : Int) * 2 ^ (0 : Nat) + 1 * 2 ^ (2 : Nat)
     x = 0) := by decide +kernel
/-- A quiet NaN and a number, both ways, two NaNs, two numbers in both orders, and two zeros. -/
theorem witness_FloatOrder :
    let n := 0x7FC00000
    let u := unpackF fF32
    (u n).isNan = true ∧ (u 0x3F800000).isNan = false ∧ (u 0x80000000).isZero = true ∧ (u 0x80000000).neg = true ∧
      (u 0).isZero = true ∧ (u 0).neg = false := by decide +kernel
theorem witness_FloatArithmetic :
    ([Instr.fadd .rne .f32 1 false w3, .fsub .rd .f16 2 true w3, .fmul .ru .bf16 7 false w3, .ffma .rz .f32 0 false w3,
      .ffmaL .rne .f32 0 false w3, .hfma2 .rne 2 0 false w3, .fdot4 .rne true 0 false w3].all fun i => standsS i 0 s0) = true ∧
    ([Instr.fmin .f16 w3, .fmax .f32 w3, .fsplit3 w2].all fun i => stands i s0 any) = true := by decide +kernel
theorem witness_SplitIsExact : unpackF fF32 0x40490FDB = .fin false 0xC90FDB (-22) ∧ (-133 : Int) ≤ -22 ∧
    unpackF fF32 1 = .fin false 1 (-149) ∧ unpackF fF32 0x10000 = .fin false 0x10000 (-149) ∧
    0x10000 % 2 ^ (-133 - (-149 : Int)).toNat = 0 ∧ unpackF fF32 0xFF800000 = .inf true ∧ unpackF fF32 0x7F800001 = .nan true := by
  decide +kernel
theorem witness_FloatFunctions :
    ([Instr.frcp .rne .f32 0 false w2, .frsq .rd .f16 0 true w2, .fsqrt .rz .bf16 0 false w2, .fexp2 .rne .f32 0 false w2,
      .flog2 .ru .f16 0 false w2, .fsin .rne .f32 0 false w2, .fcos .rne .bf16 0 false w2].all fun i => standsS i 0 s0) = true ∧
    stands (.frnd .rz .f32 w2) s0 any = true ∧
    ([0x0A, 0x0F, 0x1E0].all fun b => [false, true].all fun fs =>
      let o := wd (v 6) (v 4) (im (BitVec.ofNat 18 b))
      let i : Instr := .fcvt fs .rz 0 false o
      (numOf (b / 32 % 32)).isSome && (numOf (if fs then 0 else b % 32)).isSome &&
        ready i o .prog (if fs then fcvtSlot 0 else floatSlot 0) (fcvtFields i fs 0) s0 any) = true := by decide +kernel

/-- A NaN, zeros, infinities, a negative number, an integer at each end of FEXP2's range, and a power of two other than 1;
results of FRCP and FSQRT that are finite and not overflowed. -/
theorem witness_SpecialValues :
    let u := unpackF fF32
    u 0x7F800001 = .nan true ∧ u 0x80000000 = .fin true 0 (-149) ∧ u 0x7F800000 = .inf false ∧ u 0xFF800000 = .inf true ∧
    (match u 0xC3480000 with
     | .fin true m e => decide ((m : Int) * 2 ^ e.toNat = (-200 : Int).natAbs * 2 ^ (-e).toNat)
     | _ => false) = true ∧
    (match u 0x42FE0000 with
     | .fin false m e => decide ((m : Int) * 2 ^ e.toNat = (127 : Int).natAbs * 2 ^ (-e).toNat)
     | _ => false) = true ∧
    u 0x41000000 = .fin false (2 ^ 23) (-20) ∧ (-20 : Int) + (23 : Nat) ≠ 0 ∧
    (match u (recipF fF32 .rne false 0x40400000).1, u (recipF fF32 .rz false 0x40400000).1, u (sqrtF fF32 .rne false 0x40400000).1,
        u (sqrtF fF32 .rz false 0x40400000).1 with
     | .fin _ _ _, .fin _ _ _, .fin _ _ _, .fin _ _ _ => true
     | _, _, _, _ => false) = true ∧
    (recipF fF32 .rne false 0x40400000).2 &&& (flOF ||| flSA) = 0 ∧ (recipF fF32 .rz false 0x40400000).2 &&& (flOF ||| flSA) = 0 := by
  decide +kernel
/-- A NaN, both infinities, and values below, within and above the range of .s8, at its bounds. -/
theorem witness_Conversions :
    let u := unpackF fF32
    u 0x7FC00000 = .nan false ∧ u 0xFF800000 = .inf true ∧ minOf true 8 = -128 ∧ maxOf true 8 = 127 ∧
    ([(0xC3000000, true, true), (0xC3000001, false, true), (0x42FE0000, true, true), (0x42FE0001, true, false)].all fun x => match u x.1 with
     | .fin n m e =>
       let v : Int := (if n then -(m : Int) else m) * 2 ^ e.toNat
       let d : Int := 2 ^ (-e).toNat
       decide ((-128 * d ≤ v) = (x.2.1 = true)) && decide ((v ≤ 127 * d) = (x.2.2 = true))
     | _ => false) = true ∧
    (readInt true 8 0x80 < minOf true 4 ∧ maxOf true 4 < readInt true 8 0x7F ∧ minOf true 4 ≤ readInt true 8 0xF8 ∧
      readInt true 8 7 ≤ maxOf true 4) := by decide +kernel
theorem witness_RegisterSpace :
    ([(512, 0), (0, 8), (448, 1)].all fun b => stands (.view (wd z0 (im b.1) (im b.2))) s0 fun _ =>
      decide (b.1.toNat + 64 * b.2.toNat ≤ 512 ∧ b.2.toNat ≤ 8)) = true ∧
    (let row (c : Ctx) (i : Instr) (o : Wd) (ln : Nat) := (srcA c i o (.int false 32) ln + srcB c i o (.int false 32) ln) % 2 ^ 32
     let s := base (set1 4 511)
     let o := wd (v 6) (v 4) z0
     ([Instr.ldix o, .stix o].all fun i => (stands i s fun c => (lanesOf c.act).all fun ln => decide (row c i o ln < c.sw.frame.vcnt)) &&
       stands i (base (set1 4 512)) fun c => (lanesOf c.act).any fun ln => decide (c.sw.frame.vcnt ≤ row c i o ln)) = true) ∧
    ([(449, 1), (0, 9)].all fun b => stands (.view (wd z0 (im b.1) (im b.2))) s0 fun _ =>
      decide (512 < b.1.toNat + 64 * b.2.toNat ∨ 8 < b.2.toNat)) = true ∧
    ([Instr.regfree (wd z0 (v 16) (im 4)), .rdsr (wd (v 6) (im 0x10) z0), .rdsr (wd (v 6) (im 0x1F) z0), .rdsr (wd (v 1) (im 0) z0),
      .wrsr (wd (im 0x18) (v 4) z0), .wrsr (wd (im 0x19) (v 4) z0), .wrsr (wd (im 0x1C) (v 4) z0)].all fun i => stands i s0 any) = true ∧
    ([0x1E, 0x1F].all fun n =>
      let o := wd (im n) (v 4) z0
      ready (.wrsr o) o .two none (fun _ => (Instr.wrsr o).fields) s0 any) = true := by decide +kernel
theorem witness_SpecialRegisters : stands (.nop (wd z0 z0 z0)) s0 (fun c => decide (c.tm.core < 1536 ∧ c.sw.num < 32 ∧
    c.sw.frame.xlgw ≤ 32 ∧ c.sw.frame.vcnt ≤ 512 ∧ c.sw.frame.tcnt ≤ 8 ∧ c.tm.acnt ≤ 8)) = true := by decide +kernel
theorem witness_CrossLane :
    ([Instr.shfl .mix w3, .shfl .rot w3, .vote .every (wd (im 1) (im 2) z0), .vote .mask (wd (v 6) (im 10) z0), .matchL true w2].all
      fun i => stands i s0 any) = true ∧
    (let o := wd (v 16) (v 4) (im 1)
     [Instr.redx .addN o, .scanx .minF o, .scanxEx .xor o].all fun i => stands i s0 fun _ => decide (redCount o.b ≤ 1)) = true := by
  decide +kernel
/-- The first and the last row of a word of 64 rows, whose last register is v511. -/
theorem witness_CrossLaneRows :
    ([0, 63].all fun j => let o := wd (.main .v 448 0) (v 4) (im 64)
      [Instr.redx .addN o, .scanx .addN o, .scanxEx .addN o].all fun i => stands i (base fun fr => { fr with prog := j }) fun c =>
        decide (1 < redCount o.b ∧ redCount o.b ≤ 64 ∧ c.sw.frame.prog.toNat < redCount o.b ∧ opIdx o.d + redCount o.b ≤ 512)) = true ∧
    redCount (im 2) = 2 := by decide +kernel
theorem witness_Transfers :
    let s := base (setAll 8 fun _ => 0x40)
    let al (c : Ctx) (t : Nat → DWord) : Bool := (lanesOf c.act).all fun ln => decide ((t ln).toNat % 4 = 0)
    (stands (.bra (wd z0 z0 (im 0x18))) s (fun c => decide (c.f.pc.toNat % 4 = 0)) &&
      stands (.brx (wd z0 (v 8) (im 8))) s (fun c => al c fun ln => opPair c.sw.frame ln (v 8) + 8) &&
      stands (.call (wd (v 6) z0 (im 9))) s any && stands (.call (wd (v 6) z0 (v 8))) s (fun c => al c (opPair c.sw.frame · (v 8))) &&
      stands (.ret (wd z0 (v 8) z0)) s (fun c => al c (opPair c.sw.frame · (v 8))) &&
      stands (.loop (wd (v 2) z0 (im 6))) s any) = true := by decide +kernel
/-- A BSYNC that leaves another lane running, and marks that are full and that are not. -/
theorem witness_Reconvergence :
    ([Instr.bmark (wd z0 (im 7) z0), .nop (wd z0 z0 z0), .yield (wd z0 (im 0x3FFFF) z0), .bsync (wd z0 (im 3) (im 9))].all fun i =>
      stands i s0 any) = true ∧
    (freshFrame 0 512 0 32).lanes.length = 32 ∧
    allWait (moved ⟨placedId, 0, 0xFFFFFFFF, 0⟩ (freshFrame 0 512 0 32)) = false := by decide +kernel
theorem witness_InstructionLines :
    ([Instr.ipref .l1 (wd z0 (v 4) (im 2)), .ipref .l3 (wd z0 (v 4) (im 1)), .ipin .l1 (wd (v 6) (v 4) (im 2)),
      .iunpin .l2 (wd z0 (v 4) (im 4096))].all fun i => stands i s0 any) = true ∧
    -- a status that is 0, a range that does not translate, a pin beyond the limit
    (let o := wd (v 6) (v 4) (im 2)
     stands (.ipin .l1 o) s0 fun c => decide (((pinRange c o).filterMap (fetchLine (advance s0 c.f) c)).length = (pinRange c o).length)) =
      true := by decide +kernel

/-! Memory, barriers. -/

/-- The state after a word. -/
def after1 (i : Instr) (s : State) : State := match exec i s with
  | .next u => u
  | _ => s
def onTeam (f : Team → Team) (s : State) : State := updTeam s placedId f
def ramPut (a : Nat) (bs : List Byte) (s : State) : State := { s with m := { s.m with ram := setBytes s.m.ram a bs } }
/-- Words of 4 bytes in memory. -/
def ramWords (a : Nat) (ws : List Nat) : State → State := ramPut a (ws.flatMap (valBytes 4))
/-- The pair v4:5 of every lane. -/
def ptr (x : Nat) : Frame → Frame := setAll 4 fun _ => BitVec.ofNat 32 x
/-- Lane 0 alone issues. -/
def lane0 (s : State) : State := { s with focus := s.focus.map fun f => { f with mask := 1 } }
def slice0 : Slice := ⟨0, 1, 0, [], none, 0, [(1, 2)], false, false, false⟩
def part0 : Part := ⟨0, 1, 0, 0, [slice0], none, 0, [(1, 2)], [], 1, [], []⟩
/-- The placed team with 1,024 bytes of scratchpad and 2 MiB of carved L3 on stack 1. -/
def spaced : State := { onTeam (fun tm => { tm with spadSz := 1024, csize := 256 }) s0 with parts := [part0] }
def ldg : Instr := .ld .s32 .g false (mq .ld .rlx .die) (wd (v 6) (v 4) (im 0))
def stg (sp : Space) (sc : Scope) : Instr := .st .s32 sp (mq .st .rlx sc) (wd (v 6) (v 4) (im 0))

/-- The limits of each space, an address off its multiple, and both sides of the scratchpad's, the window's and the carve's
end. -/
theorem witness_AccessIssue :
    (∀ n ∈ [1, 2, 4, 8, 16, 32], (2 ^ 57 : Nat) % n = 0) ∧ 3 % 2 ≠ 0 ∧
    ([placedTeam].all fun tm => tm.gang == none) = true ∧ findSlice spaced 0 0 = some slice0 ∧ (slice0.carve.get 1).toNat = 2 ∧
    (let s := spaced
     [ldg, stg .g .core, .ldv .x4 .s (mq .ld .rlx .core) (wd (v 8) (v 4) (im 1008)), .stv .x8 .l3 (mq .st .rlx .die) (wd (v 8) (v 10) (im 0)),
      .atom .g32 .add (mq .ld .rlx .die) (wd (v 6) (v 4) (im 0)), .red .g64 .xor (mq .st .rlx .die) (wd (v 8) (v 4) (im 0)),
      .syncwi (wd (v 6) (v 4) (im 1008))].all fun i =>
        let s := updFrame s placedId 0 (setAll 10 fun _ => 0x101FFFE0)
        stands i s fun c =>
        let q : MemQ := match i with
          | .ld _ _ _ q _ | .st _ _ q _ | .ldv _ _ q _ | .stv _ _ q _ | .atom _ _ q _ | .red _ _ q _ => q
          | _ => mq .none .rlx .core
        match i.wd?, accKind i with
        | some o, some k => !memWait (some q) c s && (failures (accessChecks s i o k c).2).isEmpty
        | _, _ => false) = true := by decide +kernel

/-- A lane's access is due, as a test. -/
def due (s : State) (ln : Nat) (p : Team → LogEntry → LaneRec → Bool) : Bool :=
  match findTeam s placedId with
  | none => false
  | some tm => match findSwarm tm 0 with
    | none => false
    | some sw => match findEntry sw.frame 0 with
      | none => false
      | some e => match recOf e ln with
        | none => false
        | some r => mayPerform sw.frame e ln && !sw.ended && decide (firstFault sw.frame = none) && decide (sw.frame.fences = []) && p tm e r
theorem due_sound {s : State} {ln : Nat} {p : Team → LogEntry → LaneRec → Bool} (h : due s ln p = true) :
    ∃ tm sw e r, Due s placedId 0 0 ln tm sw e r ∧ p tm e r = true := by
  unfold due at h
  split at h <;> try contradiction
  rename_i tm h1
  split at h <;> try contradiction
  rename_i sw h2
  split at h <;> try contradiction
  rename_i e h3
  split at h <;> try contradiction
  rename_i r h4
  simp only [Bool.and_eq_true, decide_eq_true_eq, Bool.not_eq_true'] at h
  exact ⟨tm, sw, e, r, ⟨h1, h2, h3, h.1.1.1.1, h4, h.1.1.1.2, h.1.1.2, h.1.2⟩, h.2⟩
def reached (s : State) (core : Nat) (e : LogEntry) (r : LaneRec) (p : Place → Bool) : Bool := match r.place with
  | some x => !hostHeld s e.ins x && !movingPlace s.m x && !rebuilding s.m x && !badRead s core e.ins x && !fabHolds s e x && !isRemote x &&
      decide (heldLine s (placeAddr x) = none) && p x
  | none => false
/-- A store to the scratchpad, to the carve, and to memory at .core and beyond. -/
theorem witness_StorePerformed :
    ([(0x40, Space.s, Scope.core), (0x10000040, .l3, .die), (0x40, .g, .die), (0x40, .g, .core)].all fun x =>
      let s := after1 (stg x.2.1 x.2.2) (updFrame spaced placedId 0 (ptr x.1))
      due s 31 fun tm e r => (match accKind e.ins with
        | some (.store 4) => true
        | _ => false) && reached s tm.core e r fun p => match p with
        | .spad t _ => (findTeam s t).any fun tm => tm.image.isNone && tm.imageAt.isNone
        | .pa a m => decide (a % 128 + 4 ≤ 128) && s.m.l1.all fun x => x.mode == m
        | .l3 _ _ => true) = true := by decide +kernel
/-- A load from each space; registers v511 and v510 as the last destination. -/
theorem witness_LoadPerformed :
    ([(0x40, Space.s), (0x10000040, .l3), (0x40, .g)].all fun x =>
      let s := after1 (.ld .s32 x.2 false (mq .ld .rlx .die) (wd (v 6) (v 4) (im 0))) (updFrame spaced placedId 0 (ptr x.1))
      due s 31 fun tm e r => decide ((entryQ e).ord = .rlx) && (match accKind e.ins with
        | some (.load 4) => true
        | _ => false) && (lan s 31).exited == false && reached s tm.core e r fun p => match p with
        | .spad t _ => (findTeam s t).any fun tm => tm.image.isNone
        | .pa a _ => decide (a % 128 + 4 ≤ 128)
        | .l3 _ _ => true) = true ∧
    (511#12).toNat < 512 ∧ (510#12).toNat + 1 < 512 ∧ (504#12).toNat + VecN.count .x8 ≤ 512 := by decide +kernel
theorem witness_AtomicUpdates : (32 = 32 ∨ 32 = 64) ∧ 32 = 8 * 4 ∧ 64 = 8 * 8 := by decide
theorem witness_HintsAndWatchpoints :
    let full (c : Ctx) : Bool := decide (c.sw.frame.cSt = 63)
    let cc (op : CctlOp) : Instr := .cctl op (mq .st .rlx .core) (wd z0 (v 4) (im 0))
    (stands (.pref .l2 (mq .none .rlx .core) (wd z0 (v 4) (im 0))) s0 any && stands (.pref .l1 (mq .none .rlx .core) (wd z0 (v 4) (im 0))) s0 any &&
     stands (cc .wbinv) s0 (fun c => !full c) && stands (cc .wb) (base fun fr => { fr with cSt := 63 }) full &&
     -- addresses of no line that hardware keeps coherent
     stands (cc .inv) (base (setAll 5 fun _ => 0x2000000)) (fun c => !full c && (lanesOf c.act).all fun ln =>
       (lineOf (advance (base (setAll 5 fun _ => 0x2000000)) c.f) c (wd z0 (v 4) (im 0)) ln).isNone) &&
     stands (.wpset true true (mq .none .rlx .die) (wd z0 (v 4) (im 255))) s0 any &&
     stands (.wpclr (mq .none .rlx .core) (wd (.main .v 511 0) z0 (im 3))) s0 (fun c => (c.tm.watches[3]?).isSome)) = true := by
  decide +kernel
/-- A fence with a pending access and without one; FENCE.SC at .core, beyond, parked for its tick, and at .sys with a Snp out;
FENCE.LY with an access that it covers, with a remap of the bank of one of its lines, and with neither. -/
theorem witness_Fences :
    let f (r : Ord) : Instr := .fence (mq .none r .die) (wd z0 z0 z0)
    let sc (x : Scope) : Instr := .fenceSc (mq .none .rlx x) (wd z0 z0 z0)
    let ly : Instr := .fenceLy (mq .none .rlx .stk) (wd z0 z0 z0)
    let busy (c : Ctx) : Bool := c.sw.frame.log.any fun e => decide (c.act &&& (e.todo ||| e.away) ≠ 0)
    let opens (ln : Nat) (c : Ctx) : Bool := c.sw.frame.log.any fun e => decide (e.seq < c.sw.frame.seq) && undone e ln
    let next (s : State) : State := { s with focus := some ⟨placedId, 0, 0xFFFFFFFF, 12⟩ }
    let q := next (after1 (stg .g .die) s0)
    let l := next (after1 ldg s0)
    let t := after1 (sc .die) s0
    let w := { s0 with link := { s0.link with reqs := [⟨0, 0, .snp, .snp 0, 0, false, 16, 0, 0, some 0⟩] } }
    let y := { s0 with m := { s0.m with unlaid := [(placedId, 0, 3, 0)] } }
    let z := { y with m := { y.m with stackSts := [{ stackOf s0.m 0 with fold := some ⟨0, false, false, 0⟩ }] } }
    ([f .rel, f .acq, f .ar].all fun i => stands i l (opens 31) && stands i s0 fun c => !opens 31 c && decide (c.sw.frame.fences = [])) = true ∧
    (stands (sc .die) q busy && stands (sc .sys) w (fun c => !busy c && snpWaits w) &&
      ([sc .core, sc .die].all fun i => stands i s0 fun c => !busy c && !snpWaits s0) &&
      stands (sc .die) t fun c => !busy c && (lanesOf c.act).any fun ln => match (lane c.sw.frame ln).park with
        | some (.fenceSc _ _) => true
        | _ => false) = true ∧
    (stands ly q (fun c => stillOpen c.sw.frame c.act (covered c.tm.core .stk)) &&
      stands ly z (fun c => !stillOpen c.sw.frame c.act (covered c.tm.core .stk) && remapping z (layLines z c .stk)) &&
      stands ly y (fun c => !stillOpen c.sw.frame c.act (covered c.tm.core .stk) && !remapping y (layLines y c .stk) &&
        decide (layLines y c .stk = [0]))) = true := by decide +kernel
/-- The first and the last element of a word of two. -/
theorem witness_BulkAtomics :
    ([0, 1].all fun k =>
      let o := wd (v 8) (v 4) (im 0x1000)
      let q := mq .ld .rlx .die
      let s := base fun fr => { fr with prog := k }
      stands (.atomv .add q o) s fun c => decide (c.sw.frame.prog.toNat < o.b.immVal.toNat / 2 ^ 12 + 1) &&
        !logFull c.sw.frame && decide (cntOf c.sw.frame .ld ≠ 63) &&
        (failures (checkLanes c.tm (execLevel c.tm c.sw) ⟨.g, .rw, 4, true, true, some (.add, true)⟩ none (advance s c.f)
          ((lanesOf c.act).map fun ln => (ln, opPair c.sw.frame ln o.a + (o.b.immVal.setWidth 12).signExtend 64 +
            BitVec.ofNat 64 (4 * c.sw.frame.prog.toNat)))).2).isEmpty) = true := by decide +kernel
/-- A wait whose condition holds and one whose condition does not; monitors, ticks and arrivals with TARGET 0 and not. -/
theorem witness_Waits :
    let q := mq .none .rlx .die
    let s (x : Nat) := lane0 (updFrame spaced placedId 0 (ptr 0x40 ∘ setAll 6 fun _ => BitVec.ofNat 32 x))
    let cond (i : Instr) (x : Nat) (p : Ctx → Bool) : Bool := stands i (s x) fun c => decide (c.act = bit32 0) && decide (c.sw.frame.log = []) &&
      decide (c.sw.frame.fences = []) && !waitcWait q c (s x) && p c
    (cond (.waitc .eq false q (wd (v 6) (v 4) (im 0))) 0 (fun c => match (locate (advance (s 0) c.f) c.tm (execLevel c.tm c.sw)
        ⟨.g, .read, 4, true, false, none⟩ none (laneAddr c.sw.frame (wd (v 6) (v 4) (im 0)) 0)).2 with
      | .ok (.pa a m, _) => !isRemote (.pa a m) && decide (heldLine (s 0) a = none) && !movingAt (s 0).m a &&
        !rebuilding (s 0).m (.pa a m)
      | _ => false) &&
     cond (.waitc .eq false q (wd (v 6) (v 4) (im 0))) 1 (fun _ => true) &&
     ([0, 1].all fun x => cond (.syncwt q (wd (v 6) (v 4) (im 0))) x (fun c => match (locate (advance (s x) c.f) c.tm (execLevel c.tm c.sw)
        ⟨.s, .read, 16, true, false, none⟩ none (laneAddr c.sw.frame (wd (v 6) (v 4) (im 0)) 0)).2 with
      | .ok (.spad t _, _) => (findTeam (s x) t).any fun tm => tm.image.isNone
      | _ => false))) = true ∧
    (let w := after1 (.waitc .eq false q (wd (v 6) (v 4) (im 0))) (s 1)
     decide (w.m.mons.length = 1) && (w.m.mons.all fun x => x.line == 0 && decide (x.lane < 32) && !x.inH) &&
     (match (lan w 0).park with
      | some (.waitc _ _) => true
      | _ => false) && w.link.reqs.isEmpty) = true ∧
    (let f := after1 (.fenceSc (mq .none .rlx .die) (wd z0 z0 z0)) s0
     decide (0 < pulsePeriod .die) && decide (0 / pulsePeriod .die < pulsePeriod .die / pulsePeriod .die) &&
     decide ((lan f 0).park = some (.fenceSc .die 0))) = true ∧
    (let a := { spaced with arrivals := [⟨placedId, 0x40, 4, none⟩] }
     decide (a.arrivals.find? (fun a => a.owner == placedId && a.off == 0x40 && a.n == 4) = some ⟨placedId, 0x40, 4, none⟩) &&
     (findTeam a placedId).any fun tm => tm.image.isNone) = true := by decide +kernel
theorem witness_Barriers :
    let o := wd z0 (im 3) (im 0)
    let two (tm : Team) : Team := { tm with nsw := 2, swarms := tm.swarms ++ [newSwarm 1 .team 0 (freshFrame 0 64 0 32)] }
    let ok (s : State) (n : Nat) (c : Ctx) : Bool := decide (c.sw.kind = .team) && decide (c.sw.hidden = none) &&
      decide (c.sw.frame.arrive = []) && decide (c.act = liveLanes c.sw.frame) && !openAccess c s && ((lanesOf c.act).all fun ln => (barTok c.sw.frame ln).isNone) && decide (n ≤ c.tm.nsw)
    let t := onTeam two s0
    let g := { onTeam (fun tm => { tm with gang := some (0, 0) }) s0 with
      gangs := [{ num := 0, grid := 0, unit := 0, st := .running, die := 0, lvl := 0, place := 0, live := 1, cores := [0], bar := 0 }] }
    -- the last arrival, an arrival before the last, a count that the barrier does not have
    (stands (.bar o) s0 (ok s0 0) && stands (.bararv { o with d := v 6 }) s0 (ok s0 0) && stands (.bar o) t (ok t 0) &&
     stands (.bararv { o with d := v 6 }) t (ok t 0) &&
     ((findTeam t placedId).any fun tm => (liveSwarms tm).any fun x => x.num == 1 && !(lane (progFrame x) 0).exited) &&
     stands (.bar (wd z0 (im 3) (im 2))) s0 (fun c => decide (c.tm.nsw < 2)) &&
     stands (.barwt (wd z0 (im 3) (im 5))) s0 (fun c => decide (op32 c.sw.frame 0 (im 5) ≠ barGen (c.tm.bars.get 3))) &&
     stands (.gbar (wd z0 (im 0) z0)) s0 (fun c => decide (c.tm.gang = none)) &&
     stands (.gbar (wd z0 (im 0) z0)) g (fun c => ok g 0 c && decide ((liveSwarms c.tm).length = 1) &&
       (findGang g 0).any fun y => decide (gangExp y ≤ barArr y.bar + 1) && decide (barArr y.bar + 1 < 64))) = true := by decide +kernel

/-! Engines and the matrix engine. -/

/-- The placed team with an Opened context 1 and a Halted context 2. -/
def engs : Team → Team := fun tm =>
  { tm with engs := [closedCtx, openedCtx, ⟨.halted, 3, 5, 0, 0, 0, []⟩, closedCtx, closedCtx, closedCtx, closedCtx, closedCtx] }
def dw (k : Nat) : List Nat := [k % 2 ^ 32, k / 2 ^ 32]
/-- A chain entry: its control word and BODY. -/
def entry (ctl : Nat) (bs : List Nat) : List Nat := [0, 0, 0, 0, 0, ctl] ++ bs.flatMap dw
/-- A COPY of 256 bytes and one of none, a COPY2D, a GATHER, a SCATTER and the HREAD of c34. -/
def entries : List (Nat × Instr × List Nat) :=
  let o := wd (im 1) (v 4) (im 0)
  [(2, .cpy o, entry 0x10000000 [0x1000, 0x2000, 256, 0, 0]), (0, .cpy o, entry 0x10000000 [0x1000, 0x2000, 0, 0x10, 0]),
   (6, .cpy2d o, entry 0x20000000 [0x1000, 0x2000, 0x300000081, 0x10000000100, 0x20]),
   (5, .gath .b4 o, entry 0x30000000 [0x1000, 0x2000, 0x3000, 5, 0]), (7, .scat .b8 o, entry 0x40000000 [0x1000, 0x2000, 0x3000, 7, 0]),
   (4, .bread o, entry 0x50000000 [0x1000, 0x500400000000080, 0x200000080, 0x4000, 0x5000])]
def atEntry (ws : List Nat) : State := ramWords 0x100 ws (updFrame (onTeam engs spaced) placedId 0 (ptr 0x100))
theorem witness_IssueForms :
    (entries.all fun x =>
      let s := atEntry x.2.2
      stands x.2.1 s fun c =>
        let o := wd (im 1) (v 4) (im 0)
        let e := laneAddr c.sw.frame o ((lowest c.act).getD 0)
        match locate (advance s c.f) c.tm (execLevel c.tm c.sw) (engAsk .g .rw 64) none e with
        | (s2, .ok (.pa a m, _)) =>
          let w := entryWords (engRead (beforeAppend s2 c) (.pa a m) 64)
          let ctl : Word := match x.2.1 with
            | .gath z _ | .scat z _ => BitVec.ofNat 32 (w.1.toNat - entSz w.1 * 2 ^ 26 + ESz.num z * 2 ^ 26)
            | _ => w.1
          !isAway s (.pa a m) && !movingAt s.m a && !badData s (.pa a m) 64 && !entryBad (beforeAppend s2 c) c.tm w.1 w.2 && decide (c.tm.engs.length = 8) &&
            decide ((engOf c.tm 1).mode ≠ .closed) && decide ((engOf c.tm 1).ops = []) && decide (c.sw.frame.prog = 0) &&
            !holdRead s c && !holdSlots c 1 1 && decide (c.sw.kind = .team) && decide (elemCount ctl w.2 = x.1) && (match x.2.1 with
            | .cpy _ => decide (entKind w.1 = 1)
            | .cpy2d _ => decide (entKind w.1 = 2)
            | .gath _ _ => decide (entKind w.1 = 3)
            | .scat _ _ => decide (entKind w.1 = 4)
            | _ => decide (entKind w.1 = 5))
        | _ => false) = true := by decide +kernel

theorem witness_Timelines :
    let s := atEntry (entry 0x10000000 [0x1000, 0x2000, 256, 0, 0])
    let h := { updFrame s placedId 0 (fun fr => { fr with cCp := 2 }) with m := s.m }
    let q := mq .none .rlx .die
    (stands (.chapp (wd (v 8) (v 4) (im 1))) s (fun c => match chain c (execLevel c.tm c.sw) 64 (beforeAppend (advance s c.f) c) 0x100 with
        | (_, some (.ok es)) => decide (es.length = 1) && !holdRead s c && !holdSlots c 1 1 && decide ((engOf c.tm 1).mode ≠ .closed)
        | _ => false) &&
     -- a value that is reached and one that is not
     ([(im 5, 3), (im 3, 3)].all fun x => stands (.waittl q (wd (im 2) x.1 z0)) s fun c =>
       decide ((engOf c.tm 2).mode ≠ .closed) && decide ((engOf c.tm 2).tl = x.2)) &&
     ([(0, 0), (2, 0), (2, 1), (1, 2)].all fun x => stands (.rdtl (wd (v 8) (im (BitVec.ofNat 18 x.1)) (im (BitVec.ofNat 18 x.2)))) s any) &&
     ([Cnt.ld, .st, .cp, .tile].all fun x => stands (.waitcnt x (wd z0 (im 0) z0)) s any) &&
     stands (.waitcnt .cp (wd z0 (im 1) z0)) h (fun c => decide (1 < c.sw.frame.cCp)) &&
     ([0, 1, 2].all fun k => [Instr.ctxtlOpen (wd (v 8) (im k) z0), .ctxtlClose (wd (v 8) (im k) z0), .ctxtlReset (wd (v 8) (im k) z0)].all
       fun i => stands i s fun c => c.tm.swarms.all fun sw => sw.frame.lanes.all fun l => l.park.isNone) &&
     decide (boundOn s 0 = 2) && decide (boundOn
       { s with teams := s.teams ++ List.replicate 8 { placedTeam with id := ⟨1, 0, none⟩, engs := List.replicate 8 openedCtx } } 0 ≥ 64)) =
      true := by decide +kernel

/-- Two panels of a format stand from unit 0 on. -/
def panel (f : Nat) (tm : Team) : Team :=
  { tm with tags := (List.range (2 * panelUnits f)).foldl (fun t k => t.set k (tagWord f (k % panelUnits f))) [] }
def progWords : List (BitVec 32) := [0x58000000, 0x00000000, 0x5C000000]
theorem witness_MatrixSteps :
    ([(AType.bf16, 2, 0), (.e4m3, 3, 1), (.e5m2, 4, 1)].all fun x => [false, true].all fun zero =>
      let s := updFrame (onTeam (fun tm => { panel x.2.1 tm with spadSz := 65536 }) s0) placedId 0 fun fr => { fr with tcnt := 8, prog := x.2.2 }
      let o := wd (.main .a 0 0) (.main .t 0 0) (im 2048)
      let p := wd (.main .a 0 0) (v 4) (im 2048)
      let w (sp : Bool) : Instr := if zero then .mmaz x.1 sp (if sp then p else o) else .mma x.1 sp (if sp then p else o)
      let cond (c : Ctx) (o : Wd) : Bool :=
        let q := stepsUnit c.sw.frame 0 o.b
        !mmaWaits o c s && decide (c.sw.frame.prog.toNat < q.1) && decide (q.1 = 2) &&
          (match panelAt c.tm q.2 c.sw.frame.prog.toNat with
          | .ok _ => true
          | _ => false)
      ready (w false) o .prog none (fun _ => mmaFields x.1 false (w false) o) s (fun c => cond c o &&
        decide (opIdx o.a + ceilDiv 2 (aPerTile x.1) ≤ c.sw.frame.tcnt)) &&
      ready (w true) p .prog none (fun _ => mmaFields x.1 true (w true) p) s (fun c => cond c p &&
        !stillOpen c.sw.frame 0xFFFFFFFF (fun _ _ => true) && (match spadPanel s c.tm 0 (4096 * aSize x.1) (4096 * aSize x.1) with
        | .ok _ => true
        | _ => false))) = true ∧
    -- the word in progress, after its first step
    (let s := after1 (.mma .bf16 false (wd (.main .a 0 0) (.main .t 0 0) (im 2048))) (updFrame (onTeam (panel 2) s0) placedId 0 fun fr => { fr with tcnt := 8 })
     (findTeam s placedId).any fun tm => (findSwarm tm 0).any fun sw => sw.frame.macroAt.isSome && decide (tm.st ≠ .frozen) && onCore tm &&
       !sw.stopped && (tm.mmas.find? fun r => r.swarm == 0).any fun r => r.ins == .mma .bf16 false (wd (.main .a 0 0) (.main .t 0 0) (im 2048))) = true := by
  decide +kernel

/-- The placed team with its slots on bf16 panels, E5M2, f32 and bf16 output, 2 and 3 bound to a program, scratchpad and engines. -/
def mat : Team → Team := fun tm => engs { tm with fslots := [2, 4, 0, 2, 0, 0, 0, 0], spadSz := 65536, binds := [(3, progWords)] }
def matS (x : Nat) (ws : List (Nat × List Nat)) : State :=
  ws.foldl (fun s w => ramWords w.1 w.2 s) (updFrame (onTeam mat s0) placedId 0 (ptr x))
/-- The core of the placed team holds lines of memory in its L1. -/
def warm (line n : Nat) (s : State) : State :=
  { s with m := { s.m with l1 := (List.range n).map fun k => ⟨0, line + k, .coh, lineBytes s.m (line + k), 0, .s, noTeam⟩ } }
def isOk : SpanRd → Bool
  | .ok _ _ => true
  | _ => false
theorem witness_MatrixWords :
    let q := mq .none .rlx .die
    let prog := progWords.map fun w => w.toNat
    let acc (k : BitVec 12) : Opnd := .main .a k 0
    let free (o : Wd) (c : Ctx) : Bool := decide (c.sw.kind = .team) && !mmaBusy c.tm c.f.swarm (accUse o c) && !onceWaits (accUse o) c s0
    let va (c : Ctx) : Nat := (opPair c.sw.frame 0 (v 4)).toNat
    let rd (s : State) (c : Ctx) (via : Option MemQ) (n : Nat) : Bool :=
      isOk (readSpan (advance s c.f) c.tm (execLevel c.tm c.sw) ⟨.read, true, false, none⟩ (wordKey 0) via (va c) n)
    (let o := wd z0 (v 4) (im 0x7F0)
     let s := warm 32 128 (matS 0x1000 [])
     ready (.wbld 0 o) o .prog (some (0, fun f => panelUnits f != 0)) (fun _ => (Instr.wbld 0 o).fields) s fun c =>
       !onceWaits (wbldUse 0 o) c s && !mmaBusy c.tm 0 (wbldUse 0 o c) && decide (0x7F0 + panelUnits 2 ≤ 256 * c.tm.acnt) &&
       (formBad (va c) 64).isNone && rd s c (some plainQ) (panelBytes 2)) = true ∧
    (let o := wd (acc 7) (v 4) (im 0)
     let s := warm 32 257 (matS 0x1000 [(0x1004, [0x701])])
     stands (.accld q o) s (fun c => free o c && (formBad (va c) 64).isNone && rd s c (some q) 32832) &&
     stands (.accst q o) s (fun c => free o c && s.link.reqs.isEmpty &&
       (match locateSpan (advance s c.f) c.tm (execLevel c.tm c.sw) ⟨.write, false, true, none⟩ (va c) 32832 with
       | (s1, .ok ps) => ps.all fun p => wayOf s1 c.tm true p.1 == .here
       | _ => false))) = true ∧
    (let h := bytesVal (tabBytes (matS 0x1000 [(0x1004, [0x701])]).m.ram 0x1000 64)
     h / 2 ^ 32 % 256 = 1 ∧ h / 2 ^ 44 = 0) ∧
    (let o := wd (acc 3) (v 4) (im 3)
     let s := matS 0x1000 [(0x1000, prog)]
     stands (.epil o) s fun c => free o c && (formBad (va c) 4).isNone && rd s c (some plainQ) 12) = true ∧
    progBad progWords = none ∧
    (let o := wd (acc 3) (v 4) (im 16)
     ready (.accdr 2 true o) o .prog (some (2, outFmt)) (fun _ => (Instr.accdr 2 true o).fields) (matS 0x1000 []) fun c =>
       free o c && decide (bindOf c.tm 3 = some progWords) && !progSlotBad progWords (slotOf c 2) && !logFull c.sw.frame &&
       decide (c.sw.frame.cTile ≠ 15) && !wordBusy c.tm 0 (accUse o c)) = true := by decide +kernel

/-- A tile-task record on context 1 with its program at 0x4000, and one without a fault that another follows on context 1. -/
def trec (a : Nat) : List Nat := let r := a + 2 ^ 64 * 0x2000 + 2 ^ 128 * 0x3000 + 2 ^ 185 * 2 + 2 ^ 188 + 2 ^ 192 * 0x4000 + 2 ^ 249 * 2 + 2 ^ 256 * 64 + 2 ^ 288 * 256
  (List.range 16).map fun k => r / 2 ^ (32 * k) % 2 ^ 32
theorem witness_TileTasks :
    let s := matS 0x1000 [(0x1000, trec 0), (0x1040, trec 0x8000), (0x4000, progWords.map fun w => w.toNat)]
    let o := wd z0 (v 4) (im 2)
    let q := mq .none .rlx .die
    stands (.ttask q o) s (fun c => match readRecs c (execLevel c.tm c.sw) 2 (advance s c.f) 0x1000 with
      | (s2, some rs) => decide ((rs.filterMap fun r => r.2).length = 2) && ((rs.filterMap fun r => r.2).all fun r =>
          decide ((engOf c.tm (trCtx r)).mode ≠ .closed)) && (match checkRecs c (execLevel c.tm c.sw) s2 [] rs with
        | (s3, some none) => !appendWaits c && ctxRoom c (rs.filterMap fun r => r.2) && taskRoom s3 c.tm 2 &&
            decide (c.tm.engs.length = 8)
        | _ => false)
      | _ => false) = true ∧
    (let u := after1 (.ttask q o) s
     match u.tasks with
     | [x, y] => decide ((tasksWaiting u x.clus).find? (taskReady u) = some x) && (findTeam u x.team).isSome && decide (y.id ≠ x.id) &&
         decide (clusOf 1 = x.clus) && decide (0 < accsLent u 1) && !isFrozen u (.core 1)
     | _ => false) = true ∧
    (let u := after1 (.ttask q o) s
     let w : State := { u with tasks := u.tasks.map fun x => { x with finished := true } }
     w.tasks.all fun x => x.finished && (findTeam w x.team).isSome && !postsOut w x.team (taskKey x.id) &&
       decide ((w.tasks.find? fun y => y.id == x.id) = some x)) = true := by decide +kernel

def epi (w : BitVec 32) : State := placeEpi s0 w
def rowAt (s : State) (n : Nat) : State := { s with drains := s.drains.map fun d => { d with row := n } }
theorem witness_EpilogueWords :
    (let s := epi 0
     (epiDrain s).any fun d => decide (d.1 = 0) && (findTeam s d.2.team).any fun tm =>
       decide (d.2.row < 127) && !postsOut s d.2.team (drainKey d.2) && decide (d.2.task = none) &&
       isOk (readSpan s tm d.2.lvl ⟨.read, false, false, none⟩ (drainKey d.2) none 0x10 256) && (formBad 0x10 4).isNone &&
       isOk (readSpan s tm d.2.lvl ⟨.read, false, false, none⟩ (drainKey d.2) none 0x12 128) && (formBad 0x12 2).isNone &&
       isOk (readSpan s tm d.2.lvl ⟨.read, false, false, none⟩ (drainKey d.2) none 0x10 4) &&
       ([(0x8, 256), (0, 2)].all fun x => match locateSpan s tm d.2.lvl ⟨.write, false, false, none⟩ x.1 x.2 with
       | (s1, .ok ps) => ps.all fun p => wayOf s1 tm true p.1 == .here
       | _ => false)) = true ∧
    (epiDrain (rowAt (epi 0x5C000000) 127)).any (fun d => decide (d.2.row = 127)) = true ∧
    numOf (slotFmt 0) = some (.flt fF32) ∧
    -- no drain, and a drain whose program is e.stop alone
    (decide (nextDrain s0 0 = none) && decide (s0.epi = none)) = true ∧
    (let d := newDrain placedTeam 0 .fw 0 0 256 0 false [0x5C000000] 0 8
     let t := { s0 with drains := [d] }
     decide (nextDrain t 0 = some 0) && decide (entryWord d.prog < d.prog.length) && decide (decodeEpi 0x5C000000 = some .eStop) && !d.inSetup) =
      true := by decide +kernel

/-! Kernels. -/

/-- A launch record: one swarm and 32 registers a team, 4 teams, gangs of `gsz + 1`; the bits `x` are added. -/
def lrec (gsz x : Nat) : Nat := 0x100 + 2 ^ 192 * 4 + 2 ^ 224 + 2 ^ 256 + 2 ^ 325 * 32 + 2 ^ 366 * gsz + x
def words (n r : Nat) : List Nat := (List.range n).map fun k => r / 2 ^ (32 * k) % 2 ^ 32
def grid0 : Grid :=
  { id := 0, gid := 5, part := 0, slice := 0, asn := 0, depth := 0, parent := none, launch := parseLaunch (lrec 0 0), st := .running, queuedAt := 0,
    aged := false, tickets := [⟨0, 2, 4⟩], drawn := [], started := 2, ended := 0, children := 0, conts := 0, users := [], notify := none,
    vec := 0, func := 0 }
/-- The placed team is a team of grid 0, whose die has units left, beside a second swarm. -/
def inGrid (s : State) : State :=
  { onTeam (fun tm => { tm with nsw := 2, kspill := 0x10000, swarms := tm.swarms ++ [newSwarm 1 .team 0 (freshFrame 0 64 0 32)] }) s with
    grids := [grid0] }
theorem witness_KernelWords :
    let o := wd z0 (v 4) (im 0)
    let others (c : Ctx) : Bool := (liveSwarms c.tm).any fun x => x.num != 0 && !(lane (progFrame x) 0).exited && (lane (progFrame x) 0).park.isNone
    let ok (c : Ctx) : Bool := decide (c.sw.kind = .team) && decide (c.sw.mode = .program) && decide (c.sw.hidden = none) &&
      decide (c.sw.frame.arrive = [])
    (stands (.exit (wd z0 z0 z0)) (inGrid s0) (fun c => ok c && others c && decide (c.act = liveLanes c.sw.frame)) &&
     stands (.exit (wd z0 z0 z0)) (lane0 s0) (fun c => ok c && !c.act.getLsbD 1 && !(lane c.sw.frame 1).exited && (lane c.sw.frame 1).park.isNone)) = true ∧
    -- a record that is queued, one whose gang never fits, and a full queue
    ([(lrec 0 0, false, 0), (lrec 1 (2 ^ 343 * 384), true, 0), (lrec 0 0, false, 256)].all fun x =>
      let s := { ramWords 0x100 (words 24 x.1) (updFrame spaced placedId 0 (ptr 0x100)) with
        grids := (List.range x.2.2).map fun k => { grid0 with id := k + 1, st := .queued } }
      stands (.launch o) s fun c => ok c && leader c && decide (c.tm.depth ≠ 10) && !stillOpen c.sw.frame 0xFFFFFFFF (fun _ _ => true) &&
        (match readSpan (advance s c.f) c.tm (execLevel c.tm c.sw) ⟨.read, true, false, none⟩ (wordKey 0) (some pkgQ) 0x100 96 with
        | .ok _ bs => !launchBad (bytesVal bs) && neverFits (parseLaunch (bytesVal bs)) == x.2.1
        | _ => false) && queueFree s 0 0 == decide (x.2.2 = 0)) = true ∧
    (let s := lane0 (ramWords 0x100 (words 8 (0x1000 + 2 ^ 160 * 16)) (updFrame (inGrid s0) placedId 0 (ptr 0x100)))
     [(0 : Word), 5].all fun n => stands (.spawn { o with d := v 6 }) (updFrame s placedId 0 (set0 6 n)) fun c => ok c && !logFull c.sw.frame &&
       !teamOpen c.tm && decide (c.tm.kspill ≠ 0) && decide ((laneAddr c.sw.frame o 0).toNat = 0x100) && decide (op32 c.sw.frame 0 (v 6) = n) &&
       (match spawnDo (advance s c.f) c.tm 0 (execLevel c.tm c.sw) [(0, 0x100, n)] with
       | .done _ => true
       | _ => false)) = true ∧
    (let s := updFrame (inGrid s0) placedId 0 (ptr 0x100)
     stands (.join o) s (fun c => ok c && leader c && others c && decide (laneAddr c.sw.frame o 0 = 0x100))) = true ∧
    ([(inGrid s0, 0), ({ inGrid s0 with grids := [{ grid0 with tickets := [⟨0, 4, 4⟩] }] }, 0), (inGrid s0, 3)].all fun x =>
      stands (.ticket (wd (.main .v 511 0) (im (BitVec.ofNat 18 x.2)) (v 4))) x.1 fun c => (findGrid x.1 0).isSome && decide (dieOf c.tm.core = 0)) = true ∧
    ([0, 5, 6].all fun n => [0, 1, 2].all fun w => stands (.kstat (wd (v 8) (v 4) (im w))) (updFrame (inGrid s0) placedId 0 (ptr n)) any) = true := by decide +kernel

/-- One slice on cluster 0 of die 0, no team, and grid 7 of it. -/
def slice1 : Slice := { slice0 with clus := 1 }
def gridS (g : Grid) : State := { State.reset with parts := [{ part0 with clus := 1, slices := [slice1] }], grids := [g] }
def gangG : Grid := { grid0 with id := 7, launch := parseLaunch (lrec 1 0), st := .dispatching }
def cont1 (n : Word) : Cont :=
  { pa := 0x100, va := 0x100, grid := 7, die := 0, prio := 3, st := if n = 0 then .queued else .waiting, join := n, code := 0x1000, frame := 0,
    vcnt := 16, parent := 0, by_ := ⟨7, 0, none⟩, teamn := 1, gx := 0, gy := 0, gz := 0, num := 1 }
theorem witness_GridEvents :
    (let s := gridS { grid0 with id := 7, st := .queued, tickets := [] }
     (findGrid s 7).any (fun g => decide (topGrid queuePrio (s.grids.filter fun g => g.st == .queued && g.part == 0) = some g)) &&
       decide ((((List.range 16).map fun d => (d, sliceOnDie s 0 0 d)).filter fun d => d.2 != 0) = [(0, 1)]) && counterFree s 0 0 &&
       decide (0 < grid0.launch.teams / (grid0.launch.gsz + 1) ∧ grid0.launch.teams / (grid0.launch.gsz + 1) < 2 ^ 32)) = true ∧
    (let g := { grid0 with id := 7, st := .dispatching }
     let s := gridS g
     decide (topGrid (fun g => g.launch.prio) (s.grids.filter fun g => g.st == .dispatching && idleFor s 5 g) = some g) && !contWaits s 5 0 &&
       !savedWaits s 5 0 && decide (g.launch.gsz = 0) && decide (g.tickets.find? (fun y => y.die == dieOf 5) = some ⟨0, 2, 4⟩) &&
       idleFor (gridS { g with drawn := [(2, 5)] }) 5 { g with drawn := [(2, 5)] }) = true ∧
    -- a drawn gang that fits nowhere, and a pending one that fits
    (let k (st : GangSt) : Gang := { num := 1, grid := 7, unit := 0, st := st, die := 0, lvl := 0, place := 3, live := 3, cores := [], bar := 0 }
     let s := { gridS gangG with gangs := [k .pending] }
     let t := { s with gangs := [k .drawn], parts := [{ part0 with slices := [{ slice1 with clus := 0 }] }] }
     [s, t].all (fun s => decide (s.gangs.find? (fun k => k.grid == 7 && k.unit == 0) = findGang s 1) && (findGang s 1).isSome) &&
       !pendingBefore s (k .pending) 0 3 && decide (placeIn s gangG 0 3 (fun c => heldFrom s c (k .pending)) = some [3, 3]) &&
       (gangUnits (k .drawn)).all fun u => (placeIn t gangG 0 u fun c => heldByGang t c gangG.launch.prio).isNone) = true ∧
    (let g := { grid0 with id := 7, ended := 4, parent := some 9 }
     let s := { gridS g with grids := [g, { grid0 with id := 9, children := 1 }] }
     decide (g.st = .running ∧ g.ended = g.launch.teams ∧ g.children = 0 ∧ g.conts = 0) && (findGrid s 7).isSome && (findGrid s 9).isSome) = true ∧
    ([(1 : Word), 2].all fun n =>
      let s := { gridS { grid0 with id := 7 } with conts := [cont1 n], decs := [⟨0, 0x100, 0x100, 0, 0, 0⟩] }
      let pa := (ctlPa s 0 0 0 .prog .rw 0x100).getD 0x100
      decide (s.decs.find? (fun d => d.die == 0) = some ⟨0, 0x100, 0x100, 0, 0, 0⟩) &&
        decide (s.conts.find? (fun k => contPa s k == pa && k.st == .waiting) = findCont s 1) && decide (findCont s 1 = some (cont1 n)) &&
        broodRoom s 0 0 3 1) = true ∧
    (let g := { grid0 with id := 7 }
     let s := { gridS g with conts := [cont1 0] }
     let mine (k : Cont) : Bool := k.st == .queued && k.die == 0 && coreOf s 5 (gridHome s k.grid).1 (gridHome s k.grid).2
     decide (s.conts.find? (fun k => mine k && k.prio == 3) = some (cont1 0)) && decide (findGrid s 7 = some g) && nearerEmpty s 5 0 0 0 &&
       !isFrozen s (.core 5) && !heldByGang s 5 3 && !savedWaits s 5 3 && canHost s 5 1 1 0 0 && decide (findCont s 1 = some (cont1 0))) = true := by
  decide +kernel

/-! Traps and the context. -/

/-- Partition 0 and its slice 0 on cluster 0, each with an identity map of 1 GiB and the handler record at 0x800. -/
def mapped (s : State) : State :=
  ramWords 0x800 [0x1000, 0, 0x2000, 0, 0x3000, 0, 0x4000, 0] (ramWords 0x10000 [0x11003] (ramWords 0x11000 [0x12003] (ramWords 0x12000 [0x3D]
    (ramWords 0x13000 [0x14003] (ramWords 0x14000 [0x15003] (ramWords 0x15000 [0x1D]
      { s with parts := [{ part0 with clus := 1, root3 := 0x13000, hnd := 0x800,
                                      slices := [{ slice1 with root2 := 0x13000, roots1 := [(1, 0x10000)], hnd := 0x800 }] }] }))))))
/-- Swarm 0 of the placed team is in handler mode. -/
def handling (l : Level) (k : Nat) (h : Frame) (s : State) : State :=
  updSwarm s placedId 0 fun sw => { sw with mode := .handler l k, hidden := some h }
/-- The placed team has a second swarm. -/
def second (f : Swarm → Swarm) : Team → Team := fun tm =>
  { tm with nsw := 2, swarms := tm.swarms ++ [f (newSwarm 1 .team 0 (freshFrame 0 64 0 32))] }
def lowered (l : Level) (s : State) : State := onTeam (fun tm => { tm with level := l }) s
theorem witness_TakingATrap :
    -- the handler record with a PTENT that is no entry, and PTENT 0
    ([(0x4008, true), (0, false)].all fun x =>
      let s := ramWords 0x818 [x.1] (mapped s0)
      (findTeam s placedId).any fun tm => decide (handlerEntry s tm .two .ptent = none) &&
        decide (recWord s tm.part tm.slice .two (handlerAddr s tm.part tm.slice .two) .ptent ≠ 0) == x.2) = true ∧
    ([(0x21, true), (0x06, true), (0x36, true), (0x06, false)].all fun x =>
      let s := if x.2 then mapped s0 else s0
      (findTeam s placedId).any fun tm => (findSwarm tm 0).any fun sw => decide (sw.kind = .team) && decide (sw.frame.log = []) &&
        decide (sw.mode = .program) && decide (handlerEntry s tm .two .ptent = if x.2 then some 0x4000 else none) &&
        decide (handlerEntry s tm (routeOf x.1 0 tm.level) .tent = if x.2 ∧ routeOf x.1 0 tm.level ≠ .fw then some 0x1000 else none) &&
        decide (x.1 ≠ 0x36 ∨ routeOf x.1 0 tm.level = .fw)) = true ∧
    (let s := updFrame s0 placedId 0 fun fr => { fr with vcnt := 64 }
     let c? := ctxOf s (wd (v 64) (v 4) (v 5))
     c?.any fun c => viewBad c.sw.frame.vcnt c.sw.frame.tcnt (acntOf c) (Instr.iadd .s32 false (wd (v 64) (v 4) (v 5))).fields.1 (v 64) &&
       !viewBad c.sw.frame.vcnt c.sw.frame.tcnt (acntOf c) (Instr.iadd .s32 false (wd (v 6) (v 4) (v 64))).fields.1 (v 6) &&
       !viewBad c.sw.frame.vcnt c.sw.frame.tcnt (acntOf c) (Instr.iadd .s32 false (wd (v 6) (v 4) (v 64))).fields.2.1 (v 4) &&
       viewBad c.sw.frame.vcnt c.sw.frame.tcnt (acntOf c) (Instr.iadd .s32 false (wd (v 6) (v 4) (v 64))).fields.2.2 (v 64)) = true ∧
    (let s := onTeam (fun tm => { tm with fslots := [0x11, 0x8000, 0, 0, 0, 0, 0, 0] }) s0
     (ctxOf s w3).any fun c => decide (4 < slotFmt (slotOf c 0)) && !slotLegal (slotOf c 1)) = true ∧
    ([Level.prog, .two, .one, .fw].map fun l => (ctxOf (lowered l s0) w3).any fun c => levelLt (execLevel c.tm c.sw) .two) =
      [true, false, false, false] ∧
    ((ctxOf (lowered .two s0) w3).any fun c => levelLt (execLevel c.tm c.sw) .one && levelLt (execLevel c.tm c.sw) .fw) = true := by
  decide +kernel
theorem witness_TrapsAndReturns :
    let h := freshFrame 0x50 32 0 32
    let o := wd z0 z0 z0
    let e : LogEntry := ⟨2, 0, ldg, 0x50, 0, 0, 0xFFFFFFFF, 1, 0x30, 1, 0, [], none, false, 0⟩
    let ok (c : Ctx) : Bool := decide (c.sw.kind = .team) && decide (c.sw.frame.log = []) && decide (c.tm.st ≠ .frozen) && onCore c.tm &&
      !barDeadlock c.tm && c.sw.hidden.isSome
    let other (c : Ctx) : Bool := (liveSwarms c.tm).any fun x => x.num != 0 && !(lane (progFrame x) 0).exited && (lane (progFrame x) 0).park.isNone
    stands (.trap (wd z0 (im 7) z0)) s0 (fun c => decide (c.sw.frame.log = [])) = true ∧
    stands (.tret o) (handling .prog 0x21 h s0) ok = true ∧
    ([Level.two, .one].all fun l =>
      ready (.eret (wd z0 (im 4) z0)) (wd z0 (im 4) z0) .two none (fun _ => (Instr.eret (wd z0 (im 4) z0)).fields)
        (handling l 0x31 { h with log := [e] } s0) (fun c => ok c && (4 : Nat).testBit e.num) &&
      ready (.eretEnd o) o .two none (fun _ => (Instr.eretEnd o).fields) (handling l 0x31 h (onTeam (second id) s0)) (fun c => ok c && other c) &&
      ([(CtxSt.preempting, 0x40), (.loading, 0x41)].all fun x => [true, false].all fun off =>
        ready (.eretOff o) o .two none (fun _ => (Instr.eretOff o).fields)
          (handling l x.2 h (onTeam (fun tm => { second (fun sw => { sw with mode := .handler l x.2, off := off, hidden := some h }) tm with st := x.1, entered := true })
            s0)) (fun c => ok c && leaves c.tm && (liveSwarms c.tm).any fun x => x.num == 1 && x.off == off))) = true := by decide +kernel

theorem witness_ContextWords :
    let h := freshFrame 0x50 64 0 32
    let e : LogEntry := ⟨2, 0, ldg, 0x50, 0, 0, 0xFFFFFFFF, 1, 0x30, 1, 0, [⟨0, 0x1234, [], 0, none, false⟩], none, false, 0⟩
    let live (o : Wd) : Bool := stands (.live o) spaced fun c => !logFull c.sw.frame && decide (c.tm.st ≠ .preempting) &&
      (match liveDo (advance spaced c.f) c.tm 0 o.a.immVal.toNat none with
      | .done _ => true
      | _ => false)
    live (wd z0 (im 0) z0) = true ∧
    ([0, 8].all fun k =>
      let o := wd (.main .v 16 0) (im k) z0
      ready (.oplogrd o) o .two none (fun _ => (Instr.oplogrd o).fields)
        (handling .two 0x31 { h with log := [e] } (updSwarm s0 placedId 0 fun sw => { sw with frg := some (1, 2, 3, 4) })) fun c =>
          decide (opIdx o.d + 7 < 512) && decide (findEntry (progFrame c.sw) 2 = some e) && decide (recOf e 0 = some ⟨0, 0x1234, [], 0, none, false⟩) &&
          decide (c.sw.frg = some (1, 2, 3, 4))) = true ∧
    ([0, 9].all fun k => stands (.progrd (wd (v 8) (im k) z0)) s0 fun c => (namedSwarm c (wd (v 8) (im k) z0)).isSome == decide (k = 0)) = true ∧
    stands (.progwr (wd z0 (im 0) (v 4))) s0 (fun c => (namedSwarm c (wd z0 (im 0) (v 4))).any fun x => x.frame.macroAt.isNone) = true ∧
    (let s := handling .two 0x40 h (updFrame (onTeam (second id) (mapped s0)) placedId 0 (ptr 0x20000))
     let at_ (m : Nat) : Wd := wd (v 8) (v 4) (im (BitVec.ofNat 18 m))
     let ok (c : Ctx) : Bool := decide (c.sw.kind = .team) && decide (c.sw.mode ≠ .program) && !imageWaits c s &&
       (formBad (opPair c.sw.frame 0 (v 4)).toNat 4096).isNone
     ([Instr.ctxsave (at_ 4), .ctxload (at_ 124)].all fun i => ready i (at_ (if i = .ctxsave (at_ 4) then 4 else 124)) .two none
       (fun _ => i.fields) s fun c => ok c && someProgram c.tm) &&
     ([0, 1, 2, 3].all fun m => ready (.ctxsave (at_ m)) (at_ m) .two none (fun _ => (Instr.ctxsave (at_ m)).fields) s fun c =>
       let p := swarmPatch c.tm c.sw m ++ [(0, headerBytes 0 c.tm m none)]
       ok c && (match readSpan (advance s c.f) c.tm (execLevel c.tm c.sw) ⟨.rw, false, false, none⟩ (wordKey 0) (some pkgQ) 0x20000 64 with
       | .ok s2 old => decide (bytesVal (old.take 64) = 0) && (match locatePatch c.tm (execLevel c.tm c.sw) 0x20000 s2 p with
         | (s4, .ok ps) => ps.all fun x => wayOf s4 c.tm true x.1 == .here
         | _ => false)
       | _ => false)) &&
     (let s := ramWords (0x20000 + ctlBase 0 + 0x360) [0x80000010, 1] (ramWords 0x20000 [1] s)
      ready (.ctxload (at_ 3)) (at_ 3) .two none (fun _ => (Instr.ctxload (at_ 3)).fields) s fun c => ok c &&
       (match readRuns c.tm (execLevel c.tm c.sw) (wordKey 0) 0x20000 (advance s c.f) [(0, 64), (ctlBase 0, 0xA00)] with
       | .ok s2 [hd, ctl] =>
         let rows := (List.range 512).filter (BitVec.ofNat 512 (bytesVal ((ctl.drop 0x360).take 64))).getLsbD
         decide (bytesVal (hd.take 64) % 256 = 1) && decide (rows = [4, 31, 32]) &&
         (match readRuns c.tm (execLevel c.tm c.sw) (wordKey 0) 0x20000 s2 (rows.map fun k => (rowsBase 0 + 128 * k, 128)) with
         | .ok _ cs => decide (cs.length = 3)
         | _ => false)
       | _ => false))) = true := by decide +kernel

/-- The placed team in a state of its context. -/
def ctxSt (st : CtxSt) (f : Team → Team) : State := onTeam (fun tm => { f tm with st := st }) (mapped s0)
def sw0 (f : Swarm → Swarm) (tm : Team) : Team := { tm with swarms := upd f tm.swarms 0 }
def parked0 (sw : Swarm) : Swarm :=
  { sw with frame := { sw.frame with liveSet := some ⟨0, 0, []⟩, lanes := sw.frame.lanes.map fun l => { l with park := some (.waittl 0 5) } } }
/-- Twelve swarms whose 512 rows are live. -/
def full : List Swarm := let fr : Frame := { freshFrame 0 512 0 32 with live := (0 : BitVec 512) - 1 }
  (List.range 12).map fun k => newSwarm k .team 0 fr
theorem witness_ContextEvents :
    let got (s : State) (p : Team → Swarm → Bool) : Bool := (findTeam s placedId).any fun tm => (findSwarm tm 0).any fun sw =>
      decide (sw.kind = .team) && !sw.ended && p tm sw
    got (ctxSt .preempting id) (fun tm sw => !sw.stopped && decide (pointOf (ctxSt .preempting id) tm sw = none)) = true ∧
    (let s := ctxSt .preempting (fun tm => sw0 parked0 (second id tm))
     got s fun tm sw => !sw.stopped && decide (pointOf s tm sw = some none) && (liveSwarms tm).any fun x => x.num == 1 && !x.stopped) = true ∧
    (let s := ctxSt .preempting fun tm => sw0 (fun sw => { parked0 sw with stopped := true }) { tm with preempt := some (.two, 0, 0x800) }
     got s fun tm sw => sw.stopped && ((liveSwarms tm).all fun x => x.stopped && decide (x.mode = .program)) && teamDrained s tm &&
       (tm.engs.all fun e => e.ops.isEmpty) && decide (entryAt s tm.part tm.slice .two 0x800 .pent = some 0x2000)) = true ∧
    (let s := ctxSt .running fun tm => { tm with traps := [⟨0x1E, false, 0, 0, 0x40, 0, 0, none⟩] }
     got s fun tm sw => decide ((liveSwarms tm).find? (fun x => x.mode == .program) = some sw) && decide (sw.frame.log = []) && teamRuns s tm &&
       swarmRuns tm sw) = true ∧
    got (ctxSt .parked (sw0 fun sw => { parked0 sw with frame := updLane (parked0 sw).frame 3 fun l => { l with woken := true } }))
      (fun tm _ => decide (tm.st = .parked) && (liveSwarms tm).any fun x => x.frame.lanes.any fun l => !l.exited && l.woken) = true ∧
    (let s := ctxSt .saved id
     got s fun tm _ => canTake s 5 tm && nearestFor s 5 tm && decide (handlerEntry s tm tm.saver .rent = some 0x3000) && s.teams.all fun x => x == tm) = true ∧
    got (ctxSt .faulted id) (fun tm _ => decide (tm.st = .faulted)) = true ∧
    (let s := onTeam (fun tm => { tm with spill := 0x100000, swarms := full }) s0
     got s fun tm sw => decide ((spillList s 0 none).head? = some (tm, sw, 0)) &&
       (match locateSpan s tm tm.level ⟨.write, false, false, none⟩ (tm.spill + 65536 * 0 + 128 * 0) 128 with
       | (s1, .ok ps) => ps.all fun p => wayOf s1 tm true p.1 == .here
       | _ => false)) = true := by decide +kernel

/-! Groups, pages and banks. -/

def grp1 : Group := ⟨0x8000, 0, 0, false, 1000, 2, 3, 0, .active, [], [], []⟩
def claimR (id ts : Nat) : Claim := ⟨id, id / 2 ^ 24, 0x9000, 0x9000, false, 0x55, ts, true, placedId, 1, none, [], false⟩
def memb (x : GrpSlot → GrpSlot) (tm : Team) : Team :=
  { tm with grps := [freeSlot, x ⟨some 0x8000, 1, false, 1000, 7, [], []⟩, freeSlot, freeSlot] }
def grpS (x : GrpSlot → GrpSlot) (g : Group) : State := { onTeam (memb x) s0 with groups := [g] }
def ent1 (dl : DWord) : ClaimEnt := ⟨0x1000007, 1, true, 0x9000, 0x55, dl, false, false⟩
theorem witness_GroupWords :
    let ok (c : Ctx) : Bool := decide (c.sw.kind = .team) && decide (c.tm.grps.length = 4)
    -- a member of a record that is prepared, and a slot that is bound
    ([(0, 0), (1, 1)].all fun x =>
      let s := ramWords 0x8000 [2, 1000] (updFrame (grpS id grp1) placedId 0 (ptr 0x8000 ∘ setAll 6 fun _ => BitVec.ofNat 32 x.1))
      let s := { s with groups := [] }
      stands (.grpdecl false (wd (v 8) (v 4) (v 6))) s fun c => ok c && !stillOpen c.sw.frame 0xFFFFFFFF (fun _ _ => true) &&
        (match readSpan (advance s c.f) c.tm (execLevel c.tm c.sw) ⟨.read, true, false, none⟩ (wordKey 0)
            (some ⟨.none, .rlx, groupScope false, false⟩) 0x8000 64 with
        | .ok s2 bs => (match locateSpan s2 c.tm (execLevel c.tm c.sw) ⟨.read, false, false, none⟩ 0x8000 64 with
          | (_, .ok ((p, _) :: _)) => decide (declStatus c.tm false 0 x.1 (placeAddr p) (findGroup s (placeAddr p))
              (groupRec (findGroup s (placeAddr p)) (bytesVal bs)) = x.2)
          | _ => false)
        | _ => false)) = true ∧
    ([(0 : BitVec 18), 1].all fun k => stands (.grpdrop (wd (v 8) (im k) z0)) (grpS id grp1) fun c => ok c &&
      (slotAt c.tm k.toNat).grp.isSome == decide (k = 1)) = true ∧
    ([false, true].all fun b8 =>
      let s := updFrame (grpS id grp1) placedId 0 (ptr 0x9000)
      let o := wd (v 8) (v 4) (im 1)
      stands (.claim b8 o) s fun c => ok c && !parkDropped c && !logFull c.sw.frame && !stillOpen c.sw.frame 0xFFFFFFFF (fun _ _ => true) &&
        decide ((slotAt c.tm 1).grp = some 0x8000) && decide (findGroup s 0x8000 = some grp1) &&
        (match locate (advance s c.f) c.tm (execLevel c.tm c.sw) ⟨.g, .write, if b8 then 8 else 4, false, false, none⟩ none
            (opPair c.sw.frame 0 o.a) with
        | (_, .ok (p, _)) => claimHome false p
        | _ => false)) = true ∧
    ([(1 : DWord), 0].all fun dl => stands (.object (wd z0 (v 4) (im 1)))
      (updFrame (grpS (fun x => { x with table := [ent1 dl] }) grp1) placedId 0 (setAll 4 fun _ => 0x1000007)) fun c => ok c &&
        decide ((slotAt c.tm 1).table.find? (fun e => e.id == 0x1000007) = some (ent1 dl))) = true ∧
    ([[], [⟨0x1000007, none⟩], [⟨0x1000007, some 5⟩]].all fun cs => stands (.clwait (wd (v 8) (v 4) (im 1)))
      (updFrame (grpS (fun x => { x with claims := cs }) grp1) placedId 0 (setAll 4 fun _ => 0x1000007)) fun c => ok c && !parkDropped c &&
        decide ((slotAt c.tm 1).claims = cs)) = true ∧
    ([[], [ent1 5, ent1 6]].all fun ts => stands (.clinbox (wd (v 8) (im 1) z0)) (grpS (fun x => { x with table := ts }) grp1) fun c =>
      ok c && decide ((slotAt c.tm 1).table.filter (fun e => !e.own && !e.read) = ts)) = true := by decide +kernel
theorem witness_ClaimDecisions :
    let cl := claimR 0x1000007 100
    let s (g : Group) : State := { grpS (fun x => { x with claims := [⟨0x1000007, none⟩] }) g with pulse := 1160 }
    ((findTeam (s grp1) placedId).any fun tm => decide (tm.id = placedId) && decide (tm.grps.length = 4) &&
      decide ((slotAt tm 1).grp = some 0x8000) && decide (⟨0x1000007, none⟩ ∈ (slotAt tm 1).claims) && decide (cl.member = (slotAt tm 1).member) &&
      (s grp1).teams.all fun u => u == tm) = true ∧
    ((fun (q : Claim) => q.id == cl.id && !q.arrived) { cl with arrived := false }) = true ∧
    cl.team = placedId ∧ cl.slot = 1 ∧ cl.ts + grp1.win + 60 ≤ (s grp1).pulse.toNat ∧
    -- an earlier decided claim of member 0 that meets this one, and an objection before the deadline
    (let p := { claimR 3 99 with pa := 0x9003 }
     p.id ≠ cl.id ∧ (p.pa < cl.pa + 4 ∧ cl.pa < p.pa + 4) ∧ p.ts < cl.ts + 1000 ∧ cl.ts < p.ts + 1000 ∧ p.ts < cl.ts) ∧
    1099 < cl.ts + grp1.win ∧
    isAway (s grp1) (.pa 0x9000 .coh) = false ∧ heldLine (s grp1) 0x9000 = none ∧ isAway (s grp1) (.pa 0x8000 .coh) = false ∧
    heldLine (s grp1) 0x8000 = none ∧ (s grp1).link.hostLines = [] ∧ movingAt (s grp1).m cl.pa = false ∧
    foreignGroup 0x8000 = false := by decide +kernel

/-- Tables below a table of level 2 with one entry, which becomes a leaf of 64 KiB. -/
def split (l2 t leaf : Nat) (s : State) : State := ramWords l2 [t + 3] (ramWords t [t + 0x1003] (ramWords (t + 0x1000) [leaf] s))
/-- A team at level 2 of the mapped slice with its address-space number 1. -/
def pageS (l : Level) (x : Nat) : State :=
  updFrame (onTeam (fun tm => { tm with level := l, asn := 1 }) (mapped s0)) placedId 0 (ptr x)
theorem witness_PageWords :
    let ok (s : State) (c : Ctx) : Bool := !laneOpen c s && c.sw.frame.macroAt.isNone
    -- a page of the mode asked for, of another, and none
    ([(CohMode.coh, 0x3000, true), (.swc, 0x3000, true), (.swc, 0x40000000, false)].all fun x =>
      let s := split 0x12000 0x16000 0x3D (pageS .two x.2.1)
      let o := wd (v 8) (v 4) z0
      ready (.pagemode x.1 o) o .two none (fun _ => (Instr.pagemode x.1 o).fields) s fun c => ok s c &&
        (match leaf1 s.m (rootsOf s 0 0 1) x.2.1 with
        | some y => x.2.2 && decide (modeOf y.ent = .coh) && (leafRuns s.m (rootsOf s 0 0 1) y).all fun q => !movingAt s.m q.1
        | none => !x.2.2)) = true ∧
    ([(Stage.s1, Level.two), (.s2, .one), (.s3, .fw)].all fun x =>
      let s := pageS x.2 0x3000
      let o := wd z0 (v 4) (im 0)
      let n : BitVec 18 := if x.1 = .s1 then 1 else 0
      let p := wd (v 8) (v 4) (im n)
      decide (s.link.reqs = []) && (s.teams.all fun tm => tm.swarms.all fun sw => decide (sw.frame.log = [])) &&
      ([true, false].all fun all => let o := if all then wd z0 z0 (im 0) else o
        ready (.tlbinv all x.1 o) o (stageLevel x.1) none (fun _ => (Instr.tlbinv all x.1 o).fields) s fun c =>
          ok s c && !ctxForeign s c x.1 0) &&
      ([(0x3000, true), (0x40000000, false)].all fun y => let s := pageS x.2 y.1
        ready (.probe x.1 p) p (stageLevel x.1) none (fun _ => (Instr.probe x.1 p).fields) s fun c =>
          ok s c && !ctxForeign s c x.1 n.toNat && (match probeWalk s (pageCtx c x.1 n.toNat) x.1 y.1 with
          | .leaf _ _ _ _ _ => y.2
          | .fail _ _ => !y.2
          | _ => false))) = true ∧
    ([0, 127, 128].all fun w => let o := wd (v 8) (im 3) (im w)
      ready (.bmaprd o) o .one none (fun _ => (Instr.bmaprd o).fields) (pageS .one 0) (ok (pageS .one 0))) = true ∧
    -- a bank that is Live, one that is not, and a stack that is folding
    ([(false, 5, true), (false, 9, false), (true, 5, true)].all fun x =>
      let s := { pageS .fw 0 with m := { (pageS .fw 0).m with stackSts := [{ stackOf s0.m 0 with
        retired := [(9, false)], fold := if x.1 then some ⟨7, false, false, 0⟩ else none }] } }
      let o := wd (v 8) (im 0) (im (BitVec.ofNat 18 x.2.1))
      ready (.remapBank o) o .fw none (fun _ => (Instr.remapBank o).fields) s fun c => ok s c &&
        (stackOf s.m 0).fold.isSome == x.1 && bankLive (stackOf s.m 0) x.2.1 == x.2.2 && decide ((stackOf s.m 0).retired.length ≠ 64)) = true ∧
    -- a stage-3 leaf of 64 KiB moved to a base in the package and to one that is not a multiple, and no leaf
    ([(0x19000, 0x30000, true, false), (0x19000, 0x30100, true, true), (0x19008, 0x30000, false, false)].all fun x =>
      let s := split 0x15000 0x18000 0x2001D (updFrame (pageS .fw x.1) placedId 0 (setAll 6 fun _ => BitVec.ofNat 32 x.2.1))
      let o := wd (v 8) (v 4) (v 6)
      ready (.remapPage o) o .fw none (fun _ => (Instr.remapPage o).fields) s fun c => ok s c && s.m.moving.isEmpty && (s.m.l1.all fun y => y.dirty == 0) &&
        !isRemote (.pa x.2.1 .coh) && (match leaf3 s x.1 with
        | some (e, bits) => x.2.2.1 && newBaseBad s c.tm x.2.1 (entAddr e) bits == x.2.2.2 && decide (bits = 16)
        | none => !x.2.2.1)) = true := by decide +kernel
theorem witness_BankEvents :
    let at_ (x : StackSt → StackSt) : State := { State.reset with m := { State.reset.m with stackSts := [x (stackOf State.reset.m 0)] } }
    (match walkAll (mapped s0) 0 0 0 1 .prog .read 0x3000, walkAll (mapped s0) 0 0 0 1 .prog .read 0x40000000 with
    | .ok x, .error _ => x.ent.isSome
    | _, _ => false) = true ∧
    (at_ id).m.stackSts.length ≤ 8 ∧ (stackOf (at_ id).m 0).fold = none ∧ demandUnits (at_ id) 0 = [] ∧
    (let st := stackOf (at_ id).m 0
     let f : Fold := ⟨5, false, true, 0⟩
     0 + 1 < foldLines st f ∧ foldLines st { f with moved := foldLines st f - 1 } ≤ foldLines st f - 1 + 1 ∧ st.row < 2 ^ 17 ∧
     (∀ j, j < 4 → bankLive st (1024 * 7 + 4 * 255 + j) = true) ∧ st.assay = 0) ∧
    (stackOf (at_ fun x => { x with run := some 13, asleep := [1], waking := [1] }).m 0).run = some 13 := by decide +kernel

/-! The link. -/

def fn1 : Fn := ⟨0, 1, .enabled, some 0, 0, true, 0, [], 0, [], []⟩
def linked (f : Link → Link) (s : State) : State :=
  { s with link := f s.link, boot := { s.boot with ready := (0 : BitVec 512) - 1 }, parts := s.parts.map fun p => { p with fr := [(0, 16, 8)] } }
/-- An Enabled function of slice 0, a grant at node 0, and a reduction record at 0x1000. -/
def netS : State := linked (fun l => { l with fns := [fn1] }) (ramWords 0x1000 [0x2000100, 1, 10, 3] (updFrame spaced placedId 0 (ptr 0x1000)))
theorem witness_LinkWords :
    -- a target without a sync word and one with
    ([0, 0x20].all fun sy =>
      let s := ramWords 0x1000 [0x5000, 0, sy, 0] (updFrame spaced placedId 0 (ptr 0x1000 ∘ setAll 8 fun _ => 0x3000))
      let o := wd (v 8) (v 4) (im 0)
      let q := mq .st .rlx .pkg
      stands (.chainst q o) s fun c => !swarmOpen q c s &&
        (match readSpan (advance s c.f) c.tm (execLevel c.tm c.sw) ⟨.read, true, false, none⟩ (wordKey 0) (some plainQ) 0x1000 16 with
        | .ok s2 bs => (chainFirstBad s2 c.tm 16 (chainEntries 1 bs) 0).isNone && (match chainTargets c.tm (execLevel c.tm c.sw) 16 0x1000 s2 (chainEntries 1 bs) 0 with
          | (s3, .ok [(_, sync, pa)]) => decide (sync.toNat = sy) && !isRemote (.pa pa .coh) && !movingAt s.m pa &&
            (sy == 0 || (syncPlace s c.tm sy).isSome) &&
            (match readSpan s3 c.tm (execLevel c.tm c.sw) ⟨.read, true, false, none⟩ (wordKey 0) (some plainQ) 0x3000 16 with
            | .ok s4 _ => decide (s4.link.reqNo = s.link.reqNo) && s.link.hostLines.isEmpty && s.link.chains.isEmpty
            | _ => false)
          | _ => false)
        | _ => false)) = true ∧
    (let o := wd (v 8) (v 4) (im 0)
     let q := mq .ld .rlx .fab
     let node (c : Ctx) : Bool := (formBad (laneAddr c.sw.frame o 0).toNat 64).isNone &&
       (match readSpan (advance netS c.f) c.tm (execLevel c.tm c.sw) ⟨.read, true, false, none⟩ (wordKey 0) (some pkgQ) 0x1000 64 with
       | .ok s1 bs => (match parseFred s1 c.tm.part (bytesVal bs) with
         | some r => decide (r = ⟨0, 17, 2, 1, 10, 3⟩) && decide (sliceFn s1 c.tm.part c.tm.slice (r.node / 18) = some fn1) &&
             s1.boot.ready.getLsbD (216 + r.node) && canSend s1 c.tm.part fn1 (some r.node)
         | none => false)
       | _ => false)
     stands (.fred .add q o) netS (fun c => node c && !memWait (some q) c netS) &&
     stands (.fredwt q o) netS (fun c => node c && ((lanesOf c.act).all fun ln => (lane c.sw.frame ln).park.isNone) && decide (cntOf c.sw.frame q.cls ≠ 63)) &&
     stands (.fredwt q o) (updFrame netS placedId 0 fun fr => { fr with lanes := fr.lanes.map fun l => { l with park := some (.fredwt true (some (0, 5, 6, 7))) } })
       (fun c => (lanesOf c.act).all fun ln => (lane c.sw.frame ln).park == some (.fredwt true (some (0, 5, 6, 7))))) = true ∧
    -- functions of the partition that are Disabled, Enabled and another's, and a die whose allowances are all taken
    (let st (fns : List Fn) : State := lowered .one (linked (fun l => { l with fns := fns }) spaced)
     let o := wd (v 8) (im 1) (im 8)
     let off : Fn := { fn1 with st := .disabled }
     ([([off], true, FnSt.disabled, false), ([fn1], true, .enabled, false), ([{ off with part := some 1 }], false, .disabled, false),
       (off :: (List.range 64).map (fun k => { fn1 with num := k + 2 }), true, .disabled, true)].all fun x =>
        let s := st x.1
        [Instr.vfctlEnable o, .vfctlDrain o, .vfctlStatus o].all fun i => ready i o .one none (fun _ => i.fields) s fun c =>
          fnMine s c (fnOf s o) (some 0) == x.2.1 && fnMine s c (fnOf s o) none == x.2.1 && decide ((fnOf s o).st = x.2.2.1) &&
            decide (freeAllow s 0 < 256) == x.2.2.2)) = true := by decide +kernel

def fetchReq (port : Option Nat) : LinkReq := ⟨5, 0x8000, .read 4, .fetch placedId 7 0x8000 4, 0, false, 0, 0, 1, port⟩
theorem witness_LinkEvents :
    ([none, some 3].all fun port => let s := linked (fun l => { l with reqs := [fetchReq port] }) { s0 with pulse := 10000000 }
      decide (findReq s 5 = some (fetchReq port)) && decide ((fetchReq port).at_.toNat + 10000000 ≤ s.pulse.toNat) &&
        port.all fun m => (findPort s m).tx.isEmpty) = true ∧
    (let q : LinkReq := ⟨5, 0, .fred 17 ⟨1, 3, .add, 2, 10, 1, [9], 0⟩, .lane ⟨9, 0, none⟩ 0 0 0, 0, false, 0, 0, 1, some 0⟩
     let s := linked (fun l => { l with reqs := [q] }) s0
     decide (findReq s 5 = some q) && decide (swarmAt s ⟨9, 0, none⟩ 0 = none) && (findPort s 0).tx.isEmpty) = true ∧
    -- a write and a read of two lines through the mapped slice
    (let s := linked (fun l => { l with fns := [fn1] }) (mapped s0)
     decide ((getFn s 0 1).st = .enabled) && decide (64 ≤ maxPayload s 0 1) && (inLines s 0 1 .write (spanParts (64 / 128 + 2) 0x4060 64)).isSome &&
       (match inLines s 0 1 .read (spanParts (64 / 128 + 2) 0x4060 64) with
       | some l => decide (l.length = 2) && l.all fun x => !movingAt s.m x.1
       | none => false) && s.link.inw.isEmpty) = true ∧
    (let w : InWrite := ⟨0, 4, false, [⟨0, [], some 0, false⟩]⟩
     let s := linked (fun l => { l with inw := [w] }) s0
     (findPiece s 0 4 0).any fun x => decide (x.1 = w) && decide (x.2.lines = []) && !x.2.acked && decide (x.2.released = some 0) && !snpWaits s &&
       !earlierOn s 0 0 0 (fun q => !q.acked) && decide (x.1.pieces.length = 1)) = true ∧
    (let s := linked (fun l => { l with fns := [{ fn1 with st := .draining }, { fn1 with num := 2, st := .frozen }, { fn1 with num := 3, st := .draining, kept := [4] }] })
       { s0 with pulse := 4000000 }
     decide ((getFn s 0 1).st = .draining ∧ (getFn s 0 1).kept = []) && decide ((getFn s 0 2).st = .frozen) &&
       decide ((getFn s 0 3).kept ≠ [] ∧ (getFn s 0 3).since + 4000000 ≤ s.pulse.toNat) && s.link.reqs.isEmpty) = true ∧
    (let s := linked (fun l => { l with hostLines := [6, 7], bis := [7], cxl := [⟨8, [], true⟩] }) s0
     6 ∈ s.link.hostLines ∧ 6 ∉ s.link.bis ∧ 7 ∈ s.link.bis ∧ s.link.cxl.find? (fun y => y.line == 8) = some ⟨8, [], true⟩) ∧
    (let s := linked (fun l => { l with fns := [fn1] }) (mapped s0)
     let t := { s with parts := s.parts.map fun p => { p with grants := [(5, 0x12345)] } }
     decide (inboundFn s 0 (portDie 3) = some fn1) && !admits s 0 0x345 2 && admits t 0 0x345 2 &&
       (match walkAll t 0 0 0 0 .one .read (0x4000 % 2 ^ 40) with
       | .ok y => !y.fwd && !isRemote (.pa y.pa y.mode) && !movingAt t.m y.pa
       | _ => false)) = true ∧
    (let s := linked (fun l => { l with ports := [⟨3, [], [4, 5], 2⟩] }) s0
     (findPort s 3).num = 3 ∧ (findPort s 3).replay = [4, 5] ∧ (findPort s 3).tx = [] ∧ s.boot.ready.getLsbD 257 = true) := by decide +kernel

/-! Management and bring-up. -/

def cmd (q : QId) (a0 a1 a2 a3 a4 : DWord) : Cmd := ⟨q, 0, a0, a1, a2, a3, a4, 0⟩
def queue0 : MgmtQ := ⟨0x200000, 1, 0xFF, false, none⟩
/-- The mapped partition with a queue of its own and of its slice, firmware's queue, and every unit ready. -/
def mgmtS : State :=
  let s := linked (fun l => { l with fns := [{ fn1 with st := .disabled }, { fn1 with num := 2 }] }) (mapped s0)
  { s with fwq := some queue0
           parts := s.parts.map fun p => { p with clus := 7, queue := some queue0, slices := p.slices.map fun y => { y with queue := some queue0 } } }
theorem witness_FirmwareCommands :
    (getQueue mgmtS .fw = some queue0 ∧ getQueue mgmtS (.part 0) = some queue0 ∧ getQueue mgmtS (.slice 0 0) = some queue0 ∧
      queue0.cur = none ∧ queue0.base % 128 = 0 ∧ queue0.base + 16448 ≤ 2 ^ 40) ∧
    ((findSlice mgmtS 0 0).any fun y => !y.rP && !y.rF && !y.rL) = true ∧
    (fnOpen mgmtS (2 / 256 % 2) (2 % 256) = true ∧ fnOpen mgmtS (0x201 / 256 % 2) (0x201 % 256) = false) ∧
    -- PART of a number that is taken, of a cluster that is, and of free ones
    ([(0, 1), (1, 1), (1, 0x100)].all fun x =>
      decide (x.1 < 16 ∧ 0 < x.2 ∧ x.2 < 2 ^ 96) && ((List.range 96).all fun j => !(x.2).testBit j || clusReady mgmtS j) &&
        (mgmtS.parts.all fun y => decide (y.num = x.1) == decide (x.1 = 0)) &&
        (mgmtS.parts.all fun y => (List.range 96).all fun j => !((x.2).testBit j && y.clus.getLsbD j) || decide (x.2 = 1))) = true ∧
    ((findPart mgmtS 0).isSome && isReady mgmtS (.lrx 0) && decide ((getFn mgmtS 0 1).st = .disabled) && decide ((getFn mgmtS 0 2).st = .enabled) &&
      decide ((getFn (linked (fun l => { l with fns := [{ fn1 with st := .torn }] }) mgmtS) 0 1).st = .torn)) = true ∧
    ((mgmtRead mgmtS .fw .fw 0x8000 385).isSome && !imageOk [] ) = true := by decide +kernel

theorem witness_PartitionCommands :
    getQueue mgmtS (.part 0) = some queue0 ∧ (findPart mgmtS 0).isSome = true ∧
    (let own := maskClus 7
     own = [0, 1, 2] ∧ clusReady mgmtS 1 = true ∧ (∀ y ∈ ((findPart mgmtS 0).map fun x => x.slices).getD [], y.num = 0 ∧ y.clus.getLsbD 1 = false)) ∧
    (findSlice mgmtS 0 0).isSome = true ∧
    (let s := { mgmtS with link := { mgmtS.link with fns := [{ fn1 with st := .disabled }] } }
     s.link.fns.all (fun f => f.st == .disabled) && s.link.reqs.isEmpty && s.teams.all fun tm => tm.swarms.all fun sw => sw.frame.log.isEmpty) = true ∧
    ((mgmtSpan mgmtS (.slice 0 0) .one .rw 0x300000 16448).isSome && isReady mgmtS (.lrx 0) && isReady mgmtS (.stk 1)) = true ∧
    -- a carve within and beyond the partition's own
    (let s := { mgmtS with parts := mgmtS.parts.map fun x => { x with carve := [(1, 10)] } }
     (findPart s 0).any fun x => decide ((x.carve.get 1).toNat = 10) && decide (((x.slices.filter fun z => z.num != 0).map fun z => (z.carve.get 1).toNat).sum = 0)) =
      true ∧
    -- handler records and launch records that are in order and not
    ([(0x800, false), (0x7C0, true)].all fun x => (mgmtRead (ramWords 0x7C0 [8] mgmtS) (.part 0) .one x.1 64).any fun bs => hndBad (bytesVal bs) == x.2) = true ∧
    ([(lrec 0 0, false, false), (lrec 0 (2 ^ 57), true, false), (lrec 1 (2 ^ 343 * 384), false, true)].all fun x =>
      (mgmtRead (ramWords 0x1000 (words 24 x.1) mgmtS) (.part 0) .one 0x1000 96).any fun bs => launchBad (bytesVal bs) == x.2.1 &&
        (x.2.1 || neverFits (parseLaunch (bytesVal bs)) == x.2.2)) = true ∧
    queueFree mgmtS 0 0 = true ∧
    queueFree { mgmtS with grids := (List.range 256).map fun k => { grid0 with id := k, st := .queued } } 0 0 = false ∧
    (let c := cmd (.part 0) 5 0 0 0 0
     let mgmtS := { mgmtS with grids := [grid0] }
     (namedTeam mgmtS c).any (fun tm => decide (findTeam mgmtS tm.id = some tm) && decide (tm.st = .running) && canPreempt mgmtS tm.part tm.slice .one &&
       decide (tm.preempt = none)) && !canPreempt { mgmtS with parts := mgmtS.parts.map fun x => { x with hnd := 0 } } 0 0 .one &&
     [CtxSt.saved, .parked, .retired, .faulted, .resident].all fun st =>
       (namedTeam (onTeam (fun tm => { tm with st := st }) mgmtS) c).any fun tm => decide (tm.st = st)) = true ∧
    -- a core, an engine and a function; frozen by firmware, by the partition and by the slice
    ([(0, Master.core 0), (4 * 3 + 1, .eng 3), (4 * 2 + 2, .fn 0 2)].all fun x =>
      let c := cmd (.part 0) (BitVec.ofNat 64 x.1) 0 0 0 0
      (match masterOf mgmtS c with
      | .ok m => decide (m = x.2) && freezable mgmtS m && !isFrozen mgmtS m
      | _ => false) && [Level.fw, .one, .two].all fun l =>
        isFrozen { mgmtS with freezes := [⟨x.2, l, 0, 0⟩] } x.2) = true ∧
    (let s := { mgmtS with logs := [⟨.part 0, 1, .rebuild 0, 0⟩, ⟨.fw, 1, .rebuild 0, 0⟩, ⟨.part 0, 1, .rebuild 1, 0⟩] }
     decide ((s.logs.filter fun y => y.owner == .part 0 && y.log == 1).length = 2) && (mgmtSpan s (.part 0) .one .write 0x4000 (64 * 2)).isSome) = true ∧
    -- PREEMPT under way
    (let c := cmd (.part 0) 5 0 0 0 0
     let mgmtS := { mgmtS with grids := [grid0] }
     [(CtxSt.saved, false), (.parked, false), (.preempting, true)].all fun x =>
       let s := onTeam (fun tm => { tm with st := x.1, overdue := x.2 })
         { mgmtS with parts := mgmtS.parts.map fun p => { p with queue := some { queue0 with cur := some (.preempt c, 0xFF) } } }
       decide (getQueue s (.part 0) = some { queue0 with cur := some (.preempt c, 0xFF) }) &&
         (namedTeam s c).any fun tm => decide (tm.st = x.1 ∧ tm.overdue = x.2)) = true := by decide +kernel

theorem witness_EngineEvents :
    let hread : EngOp := ⟨1, 0x100, true, false, true, .fw, 0x50000000, [0x1000, 0x500400000000080, 0x200000080, 0x4000, 0x5000], 4, 4, 2, 0, 0, 0,
      false, 0, none, [2], [], false, [], 3, false, false, false⟩
    let copy (n : Nat) : EngOp := ⟨1, 0x100, true, false, n != 0, .fw, 0x10000000, [0x1000, 0x2000, 256, 0, 0], 2, n - 1, 1, 0, 0, 0, false, 0, none, [], [],
      false, [], 0, false, false, false⟩
    let st (o : EngOp) (ws : List Nat) : State := ramWords 0x100 ws (onTeam (fun tm => { tm with engs := ⟨.busy, 0, 1, 0x100, 0x100, 0, [o]⟩ :: tm.engs.drop 1 }) spaced)
    let got (s : State) (p : Team → EngOp → Bool) : Bool := (findTeam s placedId).any fun tm => (findOp (engOf tm 0) 1).any (p tm)
    -- an entry to be started, and one with no read grant; an element before the last, the last, one at an address that is no
    -- partition address, one with a bad source, and one whose data has an uncorrectable error
    (let s := st (copy 0) (entry 0x10000000 [0x1000, 0x2000, 256, 0, 0])
     got s fun tm o => engRuns s tm && decide ((engOf tm 0).mode = .busy) && decide (walkNext (engOf tm 0) = some o) && !o.started &&
        !startWaits (engOf tm 0) 0 o && (match locate s tm o.lvl (engAsk .g .read 64) none o.entry with
        | (s1, .ok (p, _)) => (match fetch s1 tm (walkKey 0) none p 64 with
          | (_, .ok _) => true
          | _ => false)
        | _ => false)) = true ∧
    (let s := st { copy 0 with entry := 2 ^ 57 } []
     got s fun tm o => engRuns s tm && decide (walkNext (engOf tm 0) = some o) && !o.started && !startWaits (engOf tm 0) 0 o &&
       (match locate s tm o.lvl (engAsk .g .read 64) none o.entry with
         | (_, .error _) => true
         | _ => false)) = true ∧
    ([(1, false), (2, false), (2, true)].all fun n =>
      let s := st (copy n.1) []
      let s := if n.2 then { s with m := { s.m with bad := [0x21] } } else s
      got s fun tm o => engRuns s tm && decide (walkNext (engOf tm 0) = some o) && o.started && !startWaits (engOf tm 0) 0 o &&
        (match elemOf s tm o.lvl 0 o o.reqd with
        | (s1, .ok (src, dst, len)) =>
          (match checkParts tm o.lvl (entSsp o.ctl) (entDsp o.ctl) s1 (cutParts src dst 4 len) with
          | (s2, .ok [(p, q, m)]) => decide (m = len) && !waitsLower s2 tm 0 1 [(q, len)] && badData s2 p len == n.2 &&
              wayOf s2 tm false p == .here && wayOf s2 tm true q == .here
          | _ => false)
        | _ => false)) = true ∧
    (let s := st { copy 1 with body := [2 ^ 57, 0x2000, 256, 0, 0] } []
     got s fun tm o => engRuns s tm && decide (walkNext (engOf tm 0) = some o) && o.started && !startWaits (engOf tm 0) 0 o &&
       (match elemOf s tm o.lvl 0 o o.reqd with
       | (s1, .ok (src, dst, len)) => (match checkParts tm o.lvl (entSsp o.ctl) (entDsp o.ctl) s1 (cutParts src dst 4 len) with
         | (_, .error _) => true
         | _ => false)
       | _ => false)) = true ∧
    -- an index list at no address
    (let s := st { copy 1 with ctl := 0x30000000, body := [0x1000, 0x2000, 2 ^ 57, 2, 0] } []
     got s fun tm o => engRuns s tm && decide (walkNext (engOf tm 0) = some o) && o.started && !startWaits (engOf tm 0) 0 o &&
       (match elemOf s tm o.lvl 0 o o.reqd with
       | (_, .error (some _)) => true
       | _ => false)) = true ∧
    ([false, true].all fun h =>
      let s := st { copy 3 with stat := 2, halt := h, fcode := if h then 0x18 else 0 } []
      got s fun tm o => opReady s tm 0 o && decide (o.halt = h) && decide ((engOf tm 0).ops.head? = some o)) = true ∧
    -- a burst into an open window, one that fills it, a window to close, one to run, and the final handler
    (let s := st hread []
     got s fun tm o => decide (2 ∈ o.flight) && (match burstBytes s tm 0 o 2 with
       | (_, .ok _) => true
       | _ => false)) = true ∧
    (let s := st { hread with body := 2 ^ 57 :: hread.body.drop 1 } []
     got s fun tm o => decide (2 ∈ o.flight) && (match burstBytes s tm 0 o 2 with
       | (_, .fault _) => true
       | _ => false)) = true ∧
    (let w : List (Nat × List Byte) := (List.range 31).map fun k => (k + 10, [])
     got (st { hread with window := w, winOpen := true } []) fun _ o => o.winOpen && decide (2 ∈ o.flight) && decide (o.window.length = 31)) = true ∧
    (let s := st { hread with closedW := [(0, [(0, []), (1, [])])] } []
     got s fun tm o => decide (o.closedW.length = 1) && onCore tm && firstClosed s tm.core 0 && slotFree s tm.core (body o.body 1 / 2 ^ 54)) = true ∧
    (let s := st { hread with flight := [], arrived := 4 } []
     got s fun tm o => finalReady tm 0 o && onCore tm && slotFree s tm.core (body o.body 1 / 2 ^ 44 % 1024)) = true := by decide +kernel

def memS (f : MemSys → MemSys) : State := { s0 with m := f s0.m }
def line3 (core : Nat) (st : DirSt) : L1Line := ⟨core, 3, .coh, [], 0, st, noTeam⟩
def miss3 (core : Nat) (x : Bool) (acks : List DirLevel) : Miss := ⟨core, 3, x, acks, false, false, [], []⟩
/-- Lane 0 of core 0 has an access to line 3 to perform. -/
def doing (i : Instr) (f : MemSys → MemSys) : State :=
  updFrame (memS f) placedId 0 fun fr =>
    { fr with log := [⟨0, 0, i, 0x50, 1, 0, 0, 0, 0, 0, 0, [⟨0, 0x180, [], 0, some (.pa 0x180 .coh), false⟩], none, false, 0⟩] }
theorem witness_CoherenceEvents :
    -- a store that needs the line, held by no core, and by one of another die
    ([(([] : List L1Line), (none : Option Nat)), ([line3 100 .m], some 100)].all fun x =>
      let s := doing (stg .g .die) fun m => { m with l1 := x.1 }
      dirHome s.m 3 && accessWaits s 0 3 true && needM s.m 0 3 && decide (soleOwner s.m 0 3 = x.2) && s.m.misses.isEmpty) = true ∧
    (let s := doing ldg id
     accessWaits s 0 3 false && decide (findMiss s.m 0 3 = none) && decide (l1Find s.m 0 3 = none)) = true ∧
    needM (memS fun m => { m with l1 := [line3 0 .m] }).m 0 3 = false ∧
    -- a copy to be invalidated
    (let s := memS fun m => { m with l1 := [line3 7 .s], misses := [miss3 5 true []] }
     l1Find s.m 7 3 = some (line3 7 .s) ∧ liveCopy s.m (line3 7 .s) = true ∧ miss3 5 true [] ∈ s.m.misses ∧ 5 ≠ 7 ∧
       7 ∉ (miss3 5 true []).fresh ∧ sepCores 5 7 ∉ (miss3 5 true []).acks) ∧
    -- an Ack that leaves others due, and the last one
    ([([], false), (dirLevels, true)].all fun x =>
      let q : Miss := { miss3 5 true (x.1.filter (· != DirLevel.clus)) with data := x.2 }
      let s := memS fun m => { m with misses := [q] }
      decide (findMiss s.m 5 3 = some q) && decide (DirLevel.clus ∈ dirLevels) && decide (DirLevel.clus ∉ q.acks) &&
        dirLevels.all fun k => k == .clus || q.acks.contains k == x.2) = true ∧
    -- a request to forward, and requests that are due Data: of a store, and of a load that the die's L2 serves and does not
    (let s := memS fun m => { m with l1 := [line3 7 .m], misses := [miss3 5 false []] }
     otherOwner s.m 5 3 = some 7) ∧
    ([(true, false), (false, false), (false, true)].all fun x =>
      let s := memS fun m => { m with misses := [miss3 5 x.1 []], l2 := if x.2 then [⟨0, 3, .coh, [], 0, []⟩] else [] }
      decide (findMiss s.m 5 3 = some (miss3 5 x.1 [])) && !fwdDue s (miss3 5 x.1 []) && decide (l1Find s.m 5 3 = none) &&
        decide ((s.m.l1.filter fun y => y.core == 5).length < 2048) && (l2Find s.m 0 3).isSome == x.2 &&
        s.m.dirs.all fun d => d.st != .mv) = true ∧
    (memS fun m => { m with invq := [⟨5, 3, .die, 0⟩] }).m.invq.find? (fun q => q.core == 5) = some ⟨5, 3, .die, 0⟩ ∧
    -- probes that find one owner, and two
    ([([3], 1), ([3, 4], 2)].all fun x => decide ((probeAnswers s0.m .die 0 0 x.1 [5]).1.length = x.2)) = true ∧
    (s0.teams.all fun tm => tm.swarms.all fun sw => sw.frame.log.isEmpty) = true ∧
    (let d : DirEnt := ⟨.stk, 0, 0, .s, none, [1]⟩
     let s := memS fun m => { m with dirs := [d], l2 := [⟨1, 3, .coh, [], 0, []⟩] }
     d ∈ s.m.dirs ∧ 1 ∈ d.sharers ∧ ∀ x ∈ s.m.l2, x.die = 1 → x.dirty = 0) := by decide +kernel

theorem witness_BringUp :
    (unitOk .fw = true ∧ unitOk (.lnk 1) = true ∧ unitOk (.clu 0) = true ∧ isReady s0 (.clu 0) = false ∧ isReady mgmtS (.clu 0) = true ∧
      onCore placedTeam = true ∧ unitHas (.clu 0) 0 = true ∧ unitHas (.clu 5) 0 = false) ∧
    isReady s0 .fw = false ∧
    ((384 : Word).toNat < 385 ∧ 385 ≤ (385 : Word).toNat ∧ (385 : Word).toNat ≤ 2 ^ 24 ∧ 2 ^ 24 < (0x1000001 : Word).toNat) ∧
    (let r : LinkReq := ⟨4, 0, .read 4096, .boot, 0, false, 0, 0, 0, none⟩
     let s := { s0 with link := { s0.link with reqs := [r] }, boot := { s0.boot with state := 1, len := 5000 } }
     s.link.reqs.find? (fun q => q.who == .boot) = some r ∧ s.boot.state = 1 ∧ isReady s .fw = false) ∧
    verdict [] = .length ∧
    (mgmtS.fwq = some queue0 ∧ isReady mgmtS .fw = true ∧ 16440 < 16448 ∧ 16440 % 8 = 0) := by decide +kernel

/-! Words and steps. -/

theorem witness_DestinationLevels :
    ([Instr.iadd .s32 false { wd (.lat 0 0) (v 4) (v 5) with dlev := 2 }, .iadd .s32 false { wd (.opf 3 0) (v 4) (v 5) with dlev := 1 },
      .iadd .s32 false w3, .iadd .s32 false { wd (.main .v 6 2) (v 4) (v 5) with dlev := 3 }, .icmp true .lt true (wd (im 3) (v 4) (v 8)),
      .nop (wd z0 z0 z0)].all fun i => (encode i).any fun w => decide (decodeWord w = .ok i) && i.wd?.isSome) = true := by decide +kernel
theorem witness_DecodingInvertsEncoding :
    ((Instr.iadd .s32 false w3).wf && (Instr.iadd .s32 false w3).wd?.isSome && (Instr.eFma (.y 1) (.y 2) (.s 3) (.y 0)).wf &&
      (encodeEpi (.eFma (.y 1) (.y 2) (.s 3) (.y 0))).isSome) = true := by decide +kernel
theorem witness_StepRunsDecoded :
    -- the group that issues by the rules, and a lane that a thread split lets go first
    ([false, true].all fun split =>
      let s0 : State := { placeWord State.reset (valBytes 12 0x000_0_80060_80040_80050_0000_0) with turns := [] }
      let s := { s0 with turns := [if split then .split placedId 0 else .issue placedId 0] }
      (findTeam s placedId).any fun tm => (findSwarm tm 0).any fun sw => teamRuns s tm && swarmRuns tm sw &&
        (firstFault sw.frame).isNone && (nextAgain sw.frame).isNone && !((dueTrap tm).any fun d => d.1 == 0) &&
        decide (closedLanes sw.frame = 0) && decide (spilledRows sw = []) && s.m.icache.isEmpty && (s.m.l1.all fun y => y.dirty == 0) &&
        (match translate s (clusOf tm.core) tm.part tm.slice tm.asn (execLevel tm sw) .fetch 0 with
        | .ok x => !isRemote (.pa x.pa x.mode)
        | _ => false) && (match chooseGroup s0 tm sw split with
        | some x => (peekWord s0 tm (execLevel tm sw) x.1.pc).isSome && decide (x.1.mask ≠ 0) &&
          (match fetchWord (updFrame s0 placedId 0 (noteChoice x)) tm (execLevel tm sw) x.1.pc with
          | .word s1 bs => (match decodeBytes bs with
            | .ok i => (match exec i { makeRoom s1 tm.core placedId 0 (newRows sw.frame i) with
                focus := some ⟨placedId, 0, x.1.mask, x.1.pc⟩ } with
              | .next _ => true
              | _ => false)
            | _ => false)
          | _ => false)
        | none => false)) = true ∧
    ((Instr.snp 3).isEvent && (match exec (.snp 3) s0 with
      | .next _ => true
      | _ => false)) = true ∧
    (let s := ramWords 0x200000 [1, 0] (ramWords 0x200040 [0x20, 0xFF00] mgmtS)
     match mgmtNext s .fw with
     | (s1, some i) => (match exec i s1 with
       | .next _ => true
       | _ => false)
     | _ => false) = true ∧
    (let s := epi 0
     (epiDrain s).isSome && (epiWord s).any fun w => (decodeEpi w).any fun i => match exec i s with
       | .next _ => true
       | _ => false) = true := by decide +kernel
theorem witness_NoRetiredKept :
    (s0.teams.all fun tm => tm.st != .retired) = true ∧ (match step s0 with
      | .next _ => true
      | _ => false) = true := by decide +kernel

end Sys2Proof.Tests
end

section
/-!
PROOFS. What the special registers read (R6, R71, R81, R87): a register of 32 bits reads its word, a number of the nest or of
the swarm reads itself, and the width that $xlgw takes is a power of two that brackets the value.
-/
namespace Sys2Proof.Machine

/-- A word read as a special register keeps its value. -/
theorem wordRead_toNat (x : Word) : (x.setWidth 64).toNat = x.toNat := BitVec.toNat_setWidth_of_le (by decide)

/-- A number below 2^32 read as a special register keeps its value. -/
theorem numberRead_toNat {x : Nat} (h : x < 2 ^ 32) : (BitVec.ofNat 64 (x % 2 ^ 32)).toNat = x := by
  rw [BitVec.toNat_ofNat]
  omega

/-- R71: the fields of $view lie side by side. -/
theorem viewWord_toNat {c : Ctx} (hv : c.sw.frame.vcnt ≤ 512) (ht : c.sw.frame.tcnt ≤ 8) (ha : c.tm.acnt ≤ 8) :
    (viewWord c).toNat = c.sw.frame.vcnt + 2 ^ 10 * c.sw.frame.tcnt + 2 ^ 14 * (if c.sw.kind = .team then c.tm.acnt else 0) := by
  have hacnt : acntOf c ≤ 8 := by
    unfold acntOf
    split <;> omega
  change (BitVec.ofNat 32 (_ + _ * 2 ^ 10 + acntOf c * 2 ^ 14)).toNat = _ + _ + 2 ^ 14 * acntOf c
  rw [BitVec.toNat_ofNat]
  omega

/-! ### The registers of R81 -/

/-- The swarm's number, or 32 in a forager and a final handler. -/
theorem readSpecial_swarm {s : State} {c : Ctx} {ln : Nat} (h : c.sw.num < 32) :
    (readSpecial s c ln 0x01).toNat = if c.sw.kind = .team then c.sw.num else 32 :=
  numberRead_toNat (by split <;> omega)

/-- R6: the core, and the cluster, die, stack and segment in which it lies. -/
theorem readSpecial_nest {s : State} {c : Ctx} {ln : Nat} (h : c.tm.core < 1536) :
    (readSpecial s c ln 0x07).toNat = c.tm.core ∧ (readSpecial s c ln 0x08).toNat = c.tm.core / 16 ∧
      (readSpecial s c ln 0x09).toNat = c.tm.core / 96 ∧ (readSpecial s c ln 0x0A).toNat = c.tm.core / 192 ∧
      (readSpecial s c ln 0x0B).toNat = c.tm.core / 768 := by
  have hlt (d : Nat) : c.tm.core / d < 2 ^ 32 := Nat.lt_of_le_of_lt (Nat.div_le_self _ d) (by omega)
  exact ⟨numberRead_toNat (by omega), numberRead_toNat (hlt 16), numberRead_toNat (hlt 96), numberRead_toNat (hlt 192),
    numberRead_toNat (hlt 768)⟩

/-- The registers of the team, its grid and its package that are words. -/
theorem readSpecial_teamWords (s : State) (c : Ctx) (ln : Nat) :
    (readSpecial s c ln 0x02).toNat = c.tm.lin.toNat ∧ (readSpecial s c ln 0x03).toNat = c.tm.teamn.toNat ∧
      (readSpecial s c ln 0x04).toNat = c.tm.gx.toNat ∧ (readSpecial s c ln 0x05).toNat = c.tm.gy.toNat ∧
      (readSpecial s c ln 0x06).toNat = c.tm.gz.toNat ∧ (readSpecial s c ln 0x0C).toNat = s.pkgid.toNat ∧
      (readSpecial s c ln 0x0D).toNat = c.tm.depth.toNat ∧ (readSpecial s c ln 0x19).toNat = c.tm.clwin.toNat ∧
      (readSpecial s c ln 0x1A).toNat = c.tm.coldbase.toNat :=
  ⟨wordRead_toNat _, wordRead_toNat _, wordRead_toNat _, wordRead_toNat _, wordRead_toNat _, wordRead_toNat _, wordRead_toNat _,
    wordRead_toNat _, wordRead_toNat _⟩

/-- The registers of a lane that are words: the coordinates of its burst. -/
theorem readSpecial_burst (s : State) (c : Ctx) (ln : Nat) :
    (readSpecial s c ln 0x12).toNat = (lane c.sw.frame ln).bx.toNat ∧ (readSpecial s c ln 0x13).toNat = (lane c.sw.frame ln).by_.toNat ∧
      (readSpecial s c ln 0x14).toNat = (lane c.sw.frame ln).bseq.toNat ∧
      (readSpecial s c ln 0x15).toNat = (lane c.sw.frame ln).btag.toNat ∧
      (readSpecial s c ln 0x16).toNat = (lane c.sw.frame ln).bn.toNat :=
  ⟨wordRead_toNat _, wordRead_toNat _, wordRead_toNat _, wordRead_toNat _, wordRead_toNat _⟩

/-! ### The width of a cross-lane group (R87) -/

theorem xlgwOf_small {x : Nat} (h : x < 2) : xlgwOf x = 2 := if_pos h

theorem xlgwOf_large {x : Nat} (h : 32 ≤ x) : xlgwOf x = 32 := by
  unfold xlgwOf
  rw [if_neg (by omega), if_pos h]

theorem xlgwOf_between {x : Nat} (h2 : 2 ≤ x) (h32 : x < 32) : xlgwOf x = 2 ^ Nat.log2 x := by
  unfold xlgwOf
  rw [if_neg (by omega), if_neg (by omega)]

/-- Between 2 and 32 the width is the power of two that brackets the value. -/
theorem xlgwOf_brackets {x : Nat} (h2 : 2 ≤ x) (h32 : x < 32) : xlgwOf x ≤ x ∧ x < 2 * xlgwOf x := by
  rw [xlgwOf_between h2 h32]
  exact ⟨Nat.log2_self_le (by omega), Nat.pow_succ' ▸ Nat.lt_log2_self⟩

/-- Between 2 and 32 the width is one of the powers 2^1 to 2^4. -/
theorem xlgwOf_mem {x : Nat} (h2 : 2 ≤ x) (h32 : x < 32) : xlgwOf x ∈ [2, 4, 8, 16] := by
  rw [xlgwOf_between h2 h32]
  have hlo : 1 ≤ Nat.log2 x := (Nat.le_log2 (by omega)).2 h2
  have hhi : Nat.log2 x < 5 := (Nat.log2_lt (by omega)).2 h32
  have hcases : Nat.log2 x = 1 ∨ Nat.log2 x = 2 ∨ Nat.log2 x = 3 ∨ Nat.log2 x = 4 := by omega
  rcases hcases with h | h | h | h <;> rw [h] <;> decide

/-- Settles O17, register by register, from what a word and a number read, and the bounds of the width of $xlgw. -/
theorem specialRegisters : Obligations.SpecialRegisters := by
  unfold Obligations.SpecialRegisters
  intro s c ln hln hcore hnum hxlgw hvcnt htcnt hacnt
  obtain ⟨hco, hcl, hdi, hst, hse⟩ := readSpecial_nest (s := s) (ln := ln) hcore
  obtain ⟨hlin, hteamn, hgx, hgy, hgz, hpkg, hdepth, hclwin, hcold⟩ := readSpecial_teamWords s c ln
  obtain ⟨hbx, hby, hbseq, hbtag, hbn⟩ := readSpecial_burst s c ln
  have hlane : (readSpecial s c ln 0x00).toNat = ln := numberRead_toNat (by omega)
  have hprog : (readSpecial s c ln 0x11).toNat = (progFrame c.sw).prog.toNat := wordRead_toNat _
  have hxl : (readSpecial s c ln 0x18).toNat = c.sw.frame.xlgw := numberRead_toNat (by omega)
  have hview := (wordRead_toNat (viewWord c)).trans (viewWord_toNat hvcnt htcnt hacnt)
  have hflags : (readSpecial s c ln 0x1C).toNat = (lane c.sw.frame ln).fflags.toNat := BitVec.toNat_setWidth_of_le (by decide)
  have htrapc : (readSpecial s c ln 0x1E).toNat = c.sw.trapc.toNat := wordRead_toNat _
  exact ⟨hlane, readSpecial_swarm hnum, hlin, hteamn, hgx, hgy, hgz, hco, hcl, hdi, hst, hse, hpkg, hdepth, rfl, hprog, hbx, hby,
    hbseq, hbtag, hbn, hxl, hclwin, hcold, hview, hflags, htrapc, rfl, fun _ => xlgwOf_small, fun _ => xlgwOf_large,
    fun _ h2 h32 => ⟨(xlgwOf_brackets h2 h32).1, (xlgwOf_brackets h2 h32).2, xlgwOf_mem h2 h32⟩⟩

end Sys2Proof.Machine
end

section
/-!
PROOFS. A word of several elements that changes the frame of its swarm alone (R14), and REDX and SCANX over several rows as such
words (R116); the operations of R115 and the fold of a group's values. The statement of the rows fails for a REDX
whose field D names no register: a state of such a word stands here beside what holds for every REDX that writes a register
and for every SCANX.
-/
namespace Sys2Proof.Machine

/-! ### Words that change the frame alone -/

/-- Two changes of the members of a list that a test picks, of which the first keeps the test, are one change. -/
theorem map_ite_map_ite {α : Type} {p : α → Bool} {F : α → α} (hF : ∀ x, p (F x) = p x) (G : α → α) (l : List α) :
    (l.map fun x => if p x then F x else x).map (fun x => if p x then G x else x) =
      l.map fun x => if p x then G (F x) else x := by
  rw [List.map_map]
  refine List.map_congr_left fun x _ => ?_
  by_cases hx : p x = true <;> simp [hx, hF]

/-- Two changes of one frame are one change. -/
theorem updFrame_updFrame (s : State) (t : TeamId) (n : Nat) (f g : Frame → Frame) :
    updFrame (updFrame s t n f) t n g = updFrame s t n fun fr => g (f fr) := by
  have hswarms (tm : Team) := map_ite_map_ite (p := fun x : Swarm => x.num == n)
    (F := fun sw => { sw with frame := f sw.frame }) (fun _ => rfl) (fun sw => { sw with frame := g sw.frame }) tm.swarms
  unfold updFrame updSwarm updTeam
  simp only
  rw [map_ite_map_ite (p := fun x : Team => x.id == t)]
  · unfold updSwarmIn
    simp only [hswarms]
  · intro _
    rfl

/-- A ready word whose effect is a change of its frame that leaves the operand log alone. -/
theorem runWord_wrote {i : Instr} {o : Wd} {eff : Ctx → State → State} {g : Frame → Frame} {s : State} {c : Ctx}
    (h : Stands s i o c) (heff : ∀ s1, eff c s1 = updFrame s1 c.f.team c.f.swarm g) (hg : ∀ fr, (g fr).log = fr.log) :
    runWord i o .prog (fun _ => none) (fun _ => i.fields) eff s = .next (wrote c g s) := by
  rw [← runFrame_ready (g := fun _ => g) h hg]
  unfold runFrame
  rw [runWord_ready h, runWord_ready h, heff]

/-- Choosing the broadcast group again changes no lane, no register and not $prog. -/
theorem lane_regroup (own : Bool) (m : BitVec 32) (fr : Frame) (ln : Nat) : lane (regroup own m fr) ln = lane fr ln := by
  rw [regroup_frame]; rfl
theorem reg_regroup (own : Bool) (m : BitVec 32) (fr : Frame) (ln k : Nat) : reg (regroup own m fr) ln k = reg fr ln k := by
  rw [regroup_frame]; rfl
theorem regroup_prog (own : Bool) (m : BitVec 32) (fr : Frame) : (regroup own m fr).prog = fr.prog := by
  rw [regroup_frame]

/-- The frame that a word of registers leaves. -/
theorem frameAt_wrote {c : Ctx} {g : Frame → Frame} {s : State} {o : Wd} (h : ctxOf s o = some c) :
    frameAt (wrote c g s) c.f.team c.f.swarm =
      some (regroup (ownWord c) (lanesAt c.sw.frame c.f.pc) (g (moved c.f c.sw.frame))) := by
  unfold frameAt
  rw [wrote_swarm h]
  simp [finished]

/-- The lanes that have moved past a word keep their registers. -/
theorem reg_moved (f : Focus) (fr : Frame) (ln k : Nat) : reg (moved f fr) ln k = reg fr ln k := rfl

/-! ### Words of several elements that change the frame alone (R14, R335) -/

/-- The lanes of the issuing group stand at the word again. -/
def backAtWord (c : Ctx) (fr : Frame) : Frame := eachLane c.f.mask fr fun i f => updLane f i fun l => { l with pc := c.f.pc }

/-- The frame after one element of a word of `n` elements, of which element `j` changes the frame by `g j`. -/
def macroFrame (c : Ctx) (n : Nat) (g : Nat → Frame → Frame) (fr : Frame) : Frame :=
  let j := c.sw.frame.prog.toNat
  if j + 1 = n then { g j fr with prog := 0, macroAt := none }
  else { backAtWord c (g j fr) with prog := BitVec.ofNat 32 (j + 1), macroAt := some (c.f.pc, c.f.mask) }

theorem macroStep_updFrame {c : Ctx} {n : Nat} {g : Nat → Frame → Frame} (hj : c.sw.frame.prog.toNat < n) (s : State) :
    macroStep c n (fun j s => updFrame s c.f.team c.f.swarm (g j)) s = updFrame s c.f.team c.f.swarm (macroFrame c n g) := by
  unfold macroStep macroFrame
  simp only
  rw [if_neg (Nat.not_le.2 hj)]
  split
  · rw [updFrame_updFrame]
  · unfold standAt
    rw [updFrame_updFrame, updFrame_updFrame]
    rfl

theorem backAtWord_log (c : Ctx) (fr : Frame) : (backAtWord c fr).log = fr.log := eachLane_log _ _ _ fun _ _ => rfl

theorem reg_backAtWord (c : Ctx) (fr : Frame) (ln k : Nat) : reg (backAtWord c fr) ln k = reg fr ln k := by
  unfold backAtWord
  exact eachLane_keeps (fun x => reg x ln k = reg fr ln k) _ _ (fun _ _ hx => (reg_updLane _ _ _ _ _).trans hx) fr rfl

theorem backAtWord_pc {c : Ctx} {fr : Frame} {ln : Nat} (hl : fr.lanes.length = 32) (h : ln ∈ lanesOf c.f.mask) :
    (lane (backAtWord c fr) ln).pc = c.f.pc := by
  unfold backAtWord
  rw [eachLane_view (fun x => (lane x ln).pc) (fun x => x.lanes.length = 32) ln (fun _ => c.f.pc) _ _
    (fun _ _ hx => (updLane_lanes_length _ _ _).trans hx) (fun _ _ hi => by rw [lane_updLane_ne (Ne.symm hi)])
    (fun x hx => by rw [lane_updLane_eq (hx ▸ lanesOf_lt h)]) fr hl, if_pos ((mem_lanesOf _ _).1 h)]

theorem macroFrame_log {c : Ctx} {n : Nat} {g : Nat → Frame → Frame} (hg : ∀ j fr, (g j fr).log = fr.log) (fr : Frame) :
    (macroFrame c n g fr).log = fr.log := by
  unfold macroFrame
  simp only
  split
  · exact hg _ _
  · exact (backAtWord_log _ _).trans (hg _ _)

theorem reg_macroFrame (c : Ctx) (n : Nat) (g : Nat → Frame → Frame) (fr : Frame) (ln k : Nat) :
    reg (macroFrame c n g fr) ln k = reg (g c.sw.frame.prog.toNat fr) ln k := by
  unfold macroFrame
  simp only
  split
  · rfl
  · exact reg_backAtWord _ _ _ _

theorem macroFrame_prog {c : Ctx} {n : Nat} (hn : n ≤ 64) (hj : c.sw.frame.prog.toNat < n) (g : Nat → Frame → Frame) (fr : Frame) :
    (macroFrame c n g fr).prog.toNat =
      if c.sw.frame.prog.toNat + 1 = n then 0 else c.sw.frame.prog.toNat + 1 := by
  unfold macroFrame
  simp only
  split
  · rfl
  · change (BitVec.ofNat 32 _).toNat = _
    rw [BitVec.toNat_ofNat]
    omega

/-- After the last element the lanes have moved past the word; before it they stand at the word. -/
theorem macroFrame_pc {c : Ctx} {n : Nat} {g : Nat → Frame → Frame} (hlen : ∀ j fr, (g j fr).lanes.length = fr.lanes.length)
    (hpc : ∀ j fr ln, (lane (g j fr) ln).pc = (lane fr ln).pc) {ln : Nat} (h : ln ∈ lanesOf c.f.mask) :
    (lane (macroFrame c n g (moved c.f c.sw.frame)) ln).pc =
      if c.sw.frame.prog.toNat + 1 = n then c.f.pc + 12 else c.f.pc := by
  unfold macroFrame
  simp only
  split
  · change (lane (g _ _) ln).pc = _
    rw [hpc, moved_lane _ _ _ (lanesOf_lt h), if_pos ((mem_lanesOf _ _).1 h)]
  · exact backAtWord_pc ((hlen _ _).trans (moved_length _ _)) h

/-! ### A row of a cross-lane word -/

/-- What a word of `n` rows leaves after one of them: $prog, and the place of its lanes, say whether a row is left; register `d`
of each active lane holds `x` of the lane, and nothing else of its registers and nothing beyond the swarm has changed. -/
def RowDone (s t : State) (c : Ctx) (n d : Nat) (x : Nat → Nat) : Prop :=
  let j := c.sw.frame.prog.toNat
  { t with teams := s.teams } = s ∧ ∃ fr, frameAt t c.f.team c.f.swarm = some fr ∧
    fr.prog.toNat = (if j + 1 = n then 0 else j + 1) ∧
    (∀ ln ∈ lanesOf c.f.mask, (lane fr ln).pc = if j + 1 = n then c.f.pc + 12 else c.f.pc) ∧
    ∀ ln ∈ lanesOf c.act, reg fr ln d = BitVec.ofNat 32 (x ln) ∧ ∀ k, k < 512 → k ≠ d → reg fr ln k = reg c.sw.frame ln k

/-- Row `j` of a word in every active lane: `put j ln x` writes the value, and the flags are added (R39). -/
def rowFrame (c : Ctx) (put : Nat → Nat → Nat → Frame → Frame) (x : Nat → Nat → Nat × Flags) (j : Nat) (fr : Frame) : Frame :=
  eachLane c.act fr fun ln fr => orFlags (put j ln (x j ln).1 fr) ln (x j ln).2

/-- A write of a register of a lane leaves the operand log alone, and of every lane its address. -/
structure KeepsLanes (put : Nat → Nat → Nat → Frame → Frame) : Prop where
  log   : ∀ j i v fr, (put j i v fr).log = fr.log
  count : ∀ j i v fr, (put j i v fr).lanes.length = fr.lanes.length
  pc    : ∀ j i v fr ln, (lane (put j i v fr) ln).pc = (lane fr ln).pc

/-- In row `j` a value is written into register `d` of its own lane. -/
def WritesReg (put : Nat → Nat → Nat → Frame → Frame) (j d : Nat) : Prop :=
  ∀ i ln v fr k, i < 32 → ln < 32 → reg (put j i v fr) ln k = if ln = i ∧ k = d then BitVec.ofNat 32 v else reg fr ln k

/-- An effect in each lane of a mask reaches the lanes 0 to 31 alone. -/
theorem eachLane_within (act : BitVec 32) (fr : Frame) (g : Nat → Frame → Frame) :
    eachLane act fr g = eachLane act fr fun i x => if i < 32 then g i x else x := by
  have hlt : ∀ i ∈ lanesOf act, i < 32 := fun _ hi => lanesOf_lt hi
  unfold eachLane
  generalize lanesOf act = l at hlt
  induction l generalizing fr with
  | nil => rfl
  | cons i l ih =>
    have hhead : (if i < 32 then g i fr else fr) = g i fr := if_pos (hlt i List.mem_cons_self)
    simp only [List.foldl_cons, hhead]
    exact ih _ fun k hk => hlt k (List.mem_cons_of_mem i hk)

section
variable {c : Ctx} {put : Nat → Nat → Nat → Frame → Frame} {x : Nat → Nat → Nat × Flags}

theorem rowFrame_log (h : KeepsLanes put) (j : Nat) (fr : Frame) :
    (rowFrame c put x j fr).log = fr.log := eachLane_log _ _ _ fun _ _ => h.log _ _ _ _

theorem rowFrame_length (h : KeepsLanes put) (j : Nat) (fr : Frame) :
    (rowFrame c put x j fr).lanes.length = fr.lanes.length :=
  eachLane_keeps (fun y => y.lanes.length = fr.lanes.length) _ _
    (fun _ _ hy => ((updLane_lanes_length _ _ _).trans (h.count _ _ _ _)).trans hy) fr rfl

theorem orFlags_pc (fr : Frame) (i : Nat) (fl : Flags) (ln : Nat) : (lane (orFlags fr i fl) ln).pc = (lane fr ln).pc := by
  unfold orFlags
  rw [lane_updLane]
  split
  · next h => rw [h.1]
  · rfl

theorem rowFrame_pc (h : KeepsLanes put) (j : Nat) (fr : Frame) (ln : Nat) :
    (lane (rowFrame c put x j fr) ln).pc = (lane fr ln).pc :=
  eachLane_keeps (fun y => (lane y ln).pc = (lane fr ln).pc) _ _
    (fun _ _ hy => ((orFlags_pc _ _ _ _).trans (h.pc _ _ _ _ _)).trans hy) fr rfl

/-- An active lane's registers after a row that each lane writes into its own register `d`. -/
theorem reg_rowFrame {j d ln : Nat} (h : WritesReg put j d) (hln : ln ∈ lanesOf c.act) (fr : Frame) (k : Nat) :
    reg (rowFrame c put x j fr) ln k = if k = d then BitVec.ofNat 32 (x j ln).1 else reg fr ln k := by
  have hlt := lanesOf_lt hln
  unfold rowFrame
  rw [eachLane_within, eachLane_view (fun y => reg y ln k) (fun _ => True) ln
    (fun w => if k = d then BitVec.ofNat 32 (x j ln).1 else w) _ _ (fun _ _ _ => trivial) ?_ ?_ fr trivial,
    if_pos ((mem_lanesOf _ _).1 hln)]
  · intro i y hi
    split
    · next hi32 => exact (h i ln _ y k hi32 hlt).trans (if_neg fun hc => hi hc.1.symm)
    · rfl
  · intro y _
    rw [if_pos hlt]
    exact (h ln ln _ y k hlt hlt).trans (by simp)

/-- A ready word of several rows, each written into a register of its own lane: one of its rows is done. -/
theorem rowWord_done {i : Instr} {o : Wd} {eff : Ctx → State → State} {s : State} {n d : Nat} (h : Stands s i o c)
    (heff : ∀ s1, eff c s1 = macroStep c n (fun j s => updFrame s c.f.team c.f.swarm (rowFrame c put x j)) s1)
    (hn : n ≤ 64) (hj : c.sw.frame.prog.toNat < n) (hput : KeepsLanes put) (hreg : WritesReg put c.sw.frame.prog.toNat d) :
    ∃ t, runWord i o .prog (fun _ => none) (fun _ => i.fields) eff s = .next t ∧
      RowDone s t c n d fun ln => (x c.sw.frame.prog.toNat ln).1 := by
  refine ⟨_, runWord_wrote (g := macroFrame c n (rowFrame c put x)) h (fun s1 => (heff s1).trans (macroStep_updFrame hj s1))
    (macroFrame_log (rowFrame_log hput)), rfl, _, frameAt_wrote h.ctx, ?_, ?_, ?_⟩
  · rw [regroup_prog, macroFrame_prog hn hj]
  · intro ln hln
    rw [lane_regroup, macroFrame_pc (rowFrame_length hput) (rowFrame_pc hput) hln]
  · intro ln hln
    have hrow (k : Nat) := (reg_regroup (ownWord c) (lanesAt c.sw.frame c.f.pc) _ ln k).trans
      ((reg_macroFrame c n (rowFrame c put x) (moved c.f c.sw.frame) ln k).trans (reg_rowFrame hreg hln _ k))
    exact ⟨(hrow d).trans (if_pos rfl), fun k _ hk => (hrow k).trans (if_neg hk)⟩

end

/-! ### REDX and SCANX over several rows (R116) -/

theorem latch32_pc (d : Opnd) (v : Word) (l : Lane) : (latch32 d v l).pc = l.pc := by
  unfold latch32
  repeat' split
  all_goals rfl
theorem opfile32_pc (o : Wd) (v : Word) (l : Lane) : (opfile32 o v l).pc = l.pc := by
  unfold opfile32
  repeat' split
  all_goals rfl

/-- A result of 32 bits whose field D names a v-register. -/
theorem dst32_vReg {o : Wd} {m : BitVec 12} {q : BitVec 4} (hd : o.d = .main .v m q) (fr : Frame) (sz i : Nat) (v : Word) :
    dst32 fr o sz i v = updLane (setReg fr i (opIdx o.d) v) i fun l => opfile32 o v (latch32 o.d v l) := by
  unfold dst32
  rw [hd]
  rfl

theorem dst32_pc {o : Wd} {m : BitVec 12} {q : BitVec 4} (hd : o.d = .main .v m q) (fr : Frame) (sz i : Nat) (v : Word) (ln : Nat) :
    (lane (dst32 fr o sz i v) ln).pc = (lane fr ln).pc := by
  rw [dst32_vReg hd, lane_updLane]
  split
  · next h => rw [opfile32_pc, latch32_pc, h.1]; rfl
  · rfl

/-- Every row of REDX but the last writes register D alone, and the last one is a 32-bit result. -/
theorem redWrite_inner {o : Wd} {n j : Nat} (h : j + 1 < n) (ln v : Nat) (fr : Frame) :
    redWrite o n j ln v fr = setReg fr ln (opIdx o.d) (BitVec.ofNat 32 v) := if_pos h
theorem redWrite_last {o : Wd} {n j : Nat} (h : ¬j + 1 < n) (ln v : Nat) (fr : Frame) :
    redWrite o n j ln v fr = dst32 fr o 4 ln (BitVec.ofNat 32 v) := if_neg h

theorem redWrite_keepsLanes {o : Wd} {m : BitVec 12} {q : BitVec 4} (hd : o.d = .main .v m q) (n : Nat) :
    KeepsLanes (redWrite o n) where
  log j i v fr := by
    by_cases h : j + 1 < n
    · rw [redWrite_inner h]; rfl
    · rw [redWrite_last h, dst32_log]
  count j i v fr := by
    by_cases h : j + 1 < n
    · rw [redWrite_inner h]; rfl
    · rw [redWrite_last h, dst32_length]
  pc j i v fr ln := by
    by_cases h : j + 1 < n
    · rw [redWrite_inner h]; rfl
    · rw [redWrite_last h, dst32_pc hd]

/-- Each row of REDX writes the register that field D names. -/
theorem redWrite_writesReg {o : Wd} {m : BitVec 12} {q : BitVec 4} (hd : o.d = .main .v m q) (hlt : opIdx o.d < 512) (n j : Nat) :
    WritesReg (redWrite o n) j (opIdx o.d) := by
  intro i ln v fr k hi hln
  by_cases h : j + 1 < n
  · rw [redWrite_inner h]
    exact reg_setReg _ _ _ _ _ _ hi hln hlt
  · rw [redWrite_last h, dst32_vReg hd, reg_updLane]
    exact reg_setReg _ _ _ _ _ _ hi hln hlt

/-- R116: a ready REDX of several rows that writes a register does the row that $prog names. -/
theorem redx_row {s : State} {c : Ctx} {o : Wd} {op : RedOp} {m : BitVec 12} {q : BitVec 4} (hd : o.d = .main .v m q)
    (h1 : 1 < redCount o.b) (hn : redCount o.b ≤ 64) (hj : c.sw.frame.prog.toNat < redCount o.b)
    (hd512 : opIdx o.d + redCount o.b ≤ 512) (h : Stands s (.redx op o) o c) :
    ∃ t, exec (.redx op o) s = .next t ∧ RowDone s t c (redCount o.b) (opIdx o.d) fun ln =>
      (redRow c (.redx op o) o op c.sw.frame.prog.toNat ln).1 := by
  rw [exec_redx]
  exact rowWord_done (put := redWrite o (redCount o.b)) (x := redRow c (.redx op o) o op) h
    (fun s1 => if_neg (Nat.not_le.2 h1)) hn hj (redWrite_keepsLanes hd _) (redWrite_writesReg hd (by omega) _ _)

/-- R116: a ready scan of several rows writes the row that $prog names. -/
theorem runScan_row {i : Instr} {s : State} {c : Ctx} {o : Wd} {op : RedOp} {ex : Bool}
    (h1 : 1 < redCount o.b) (hn : redCount o.b ≤ 64) (hj : c.sw.frame.prog.toNat < redCount o.b)
    (hd512 : opIdx o.d + redCount o.b ≤ 512) (h : Stands s i o c) :
    ∃ t, runScan i op ex o s = .next t ∧ RowDone s t c (redCount o.b) (opIdx o.d + c.sw.frame.prog.toNat) fun ln =>
      (scanRow c i o op ex c.sw.frame.prog.toNat ln).1 := by
  refine rowWord_done (put := fun j ln v fr => setReg fr ln (opIdx o.d + j) (BitVec.ofNat 32 v)) (x := scanRow c i o op ex) h
    (fun s1 => ?_) hn hj ⟨fun _ _ _ _ => rfl, fun _ _ _ _ => rfl, fun _ _ _ _ _ => rfl⟩
    fun i ln v fr k hi hln => reg_setReg _ _ _ _ _ _ hi hln (by omega)
  have hmany : ¬redCount o.b ≤ 1 := Nat.not_le.2 h1
  simp only [if_neg hmany]
  rfl

/-- R116: the same of both forms of SCANX. -/
theorem scanx_row {s : State} {c : Ctx} {o : Wd} {op : RedOp} (ex : Bool)
    (h1 : 1 < redCount o.b) (hn : redCount o.b ≤ 64) (hj : c.sw.frame.prog.toNat < redCount o.b)
    (hd512 : opIdx o.d + redCount o.b ≤ 512) :
    let i : Instr := if ex then .scanxEx op o else .scanx op o
    Stands s i o c → ∃ t, exec i s = .next t ∧ RowDone s t c (redCount o.b) (opIdx o.d + c.sw.frame.prog.toNat) fun ln =>
      (scanRow c i o op ex c.sw.frame.prog.toNat ln).1 := by
  cases ex with
  | false => exact runScan_row h1 hn hj hd512
  | true => exact runScan_row h1 hn hj hd512

/-! ### The operations of a reduction and the fold (R115) -/

/-- The fold of a group takes its values in ascending order and collects the flags of every operation. -/
theorem foldOp_append {op : RedOp} {ys : List Nat} (h : ys ≠ []) (x : Nat) :
    foldOp op (ys ++ [x]) =
      ((redOpF op (foldOp op ys).1 x).1, (foldOp op ys).2 ||| (redOpF op (foldOp op ys).1 x).2) := by
  cases ys with
  | nil => exact absurd rfl h
  | cons y ys => exact List.foldl_append

/-- The word that an operation makes of two words. -/
def redWord (op : RedOp) (x y : Word) : Word := BitVec.ofNat 32 (redOpF op x.toNat y.toNat).1

theorem redWord_add (x y : Word) : redWord .addS x y = x + y ∧ redWord .addN x y = x + y := by
  have h : BitVec.ofNat 32 ((x.toNat + y.toNat) % 2 ^ 32) = x + y := by
    rw [← BitVec.toNat_add, BitVec.ofNat_toNat, BitVec.setWidth_eq]
  exact ⟨h, h⟩

theorem redWord_bitwise (x y : Word) :
    redWord .and x y = x &&& y ∧ redWord .or x y = x ||| y ∧ redWord .xor x y = x ^^^ y := by
  refine ⟨?_, ?_, ?_⟩ <;> apply BitVec.eq_of_toNat_eq
  · exact Nat.mod_eq_of_lt (x &&& y).isLt
  · exact Nat.mod_eq_of_lt (x ||| y).isLt
  · exact Nat.mod_eq_of_lt (x ^^^ y).isLt

/-- A word read as a signed integer. -/
theorem sInt_word (z : Word) : sInt 32 z.toNat = z.toInt := by
  rw [sInt_eq (by decide), BitVec.ofNat_toNat, BitVec.setWidth_eq]

/-- The signed operations compare the words as signed integers. -/
theorem redWord_signed (x y : Word) :
    (redWord .minS x y).toInt = min x.toInt y.toInt ∧ (redWord .maxS x y).toInt = max x.toInt y.toInt := by
  have hword (z : Word) : (BitVec.ofNat 32 z.toNat).toInt = z.toInt := by rw [BitVec.ofNat_toNat, BitVec.setWidth_eq]
  unfold redWord redOpF
  simp only [sInt_word]
  constructor <;> split <;> rw [hword] <;> omega

theorem redWord_unsigned (x y : Word) :
    (redWord .minN x y).toNat = min x.toNat y.toNat ∧ (redWord .maxN x y).toNat = max x.toNat y.toNat :=
  ⟨Nat.mod_eq_of_lt (Nat.lt_of_le_of_lt (Nat.min_le_left _ _) x.isLt), Nat.mod_eq_of_lt (Nat.max_lt.2 ⟨x.isLt, y.isLt⟩)⟩

/-- The greatest signed word is the identity of the signed minimum, and the least one that of the maximum. -/
theorem redOpF_signed_ident (x : Word) :
    (redOpF .minS 0x7FFFFFFF x.toNat).1 = x.toNat ∧ (redOpF .maxS 0x80000000 x.toNat).1 = x.toNat := by
  have hmax : sInt 32 0x7FFFFFFF = 2 ^ 31 - 1 := by decide
  have hmin : sInt 32 0x80000000 = -2 ^ 31 := by decide
  have hx := x.isLt
  have hcond := BitVec.toInt_eq_toNat_cond x
  simp only [redOpF, sInt_word, hmax, hmin]
  refine ⟨ite_eq_left_iff.2 fun h => ?_, ite_eq_left_iff.2 fun h => ?_⟩ <;> split at hcond <;> omega

/-- The identity of an integer or bitwise operation leaves every word as it is. -/
theorem redOpF_ident {op : RedOp} (hop : op ≠ .addF ∧ op ≠ .minF ∧ op ≠ .maxF) (x : Word) :
    (redOpF op (redIdent op) x.toNat).1 = x.toNat := by
  have hx := x.isLt
  have hzero : (0 + x.toNat) % 2 ^ 32 = x.toNat := by omega
  cases op with
  | addS | addN => exact hzero
  | minS => exact (redOpF_signed_ident x).1
  | maxS => exact (redOpF_signed_ident x).2
  | minN => exact Nat.min_eq_right (Nat.le_sub_one_of_lt hx)
  | maxN => exact Nat.max_eq_right (Nat.zero_le _)
  | and =>
    calc 0xFFFFFFFF &&& x.toNat = x.toNat &&& (2 ^ 32 - 1) := Nat.and_comm _ _
      _ = x.toNat := (Nat.and_two_pow_sub_one_eq_mod _ 32).trans (Nat.mod_eq_of_lt hx)
  | or => exact Nat.zero_or _
  | xor => exact Nat.zero_xor _
  | addF => exact absurd rfl hop.1
  | minF => exact absurd rfl hop.2.1
  | maxF => exact absurd rfl hop.2.2

/-! ### A row that no register takes -/

/-- A state before the last row of a REDX of two rows: $prog is 1, and v5, the second row of an operand A at v4, holds 1 in lane 0
and 0 in every other lane. -/
def lastRowState : State := updFrame (placeTeam State.reset) placedId 0 fun fr => { setReg fr 0 5 1 with prog := 1 }

/-- The common part of a REDX of two rows with latch l0 in field D: check 4 of R64 refuses it (R116), and checks 5 to 7, which are
all that `Stands` asks for, let it pass. -/
def latchRedx : Wd := ⟨false, 0, .lat 0 0, .main .v 4 0, .imm 2, 0, false, 0, 2⟩

/-- Register v0 of lane 0 in the state that an outcome goes on to. -/
def v0After (r : Host.Outcome State Fault Refusal) : Option Word :=
  match r with
  | .next t => (frameAt t placedId 0).map fun fr => reg fr 0 0
  | _ => none

/-- The word stands ready before its last row, whose value in lane 0 is 1. -/
theorem latchRedx_stands : ∃ c, Stands lastRowState (.redx .addN latchRedx) latchRedx c ∧
    c.f = ⟨placedId, 0, 0xFFFFFFFF, 0⟩ ∧ c.act = 0xFFFFFFFF ∧ c.sw.frame.prog = 1 ∧
    (redRow c (.redx .addN latchRedx) latchRedx .addN 1 0).1 = 1 := by
  have h : (ctxOf lastRowState latchRedx).any (fun c => decide (c.act ≠ 0 ∧
      checks c (.redx .addN latchRedx) (Instr.redx .addN latchRedx).fields latchRedx .prog none = none ∧ c.sw.ended = false ∧
      firstFault c.sw.frame = none ∧ c.f = ⟨placedId, 0, 0xFFFFFFFF, 0⟩ ∧ c.act = 0xFFFFFFFF ∧ c.sw.frame.prog = 1 ∧
      (redRow c (.redx .addN latchRedx) latchRedx .addN 1 0).1 = 1)) = true := by decide +kernel
  obtain ⟨c, hc, hp⟩ := (Option.any_eq_true _ _).1 h
  obtain ⟨hact, hpass, hlive, hclean, hrest⟩ := of_decide_eq_true hp
  exact ⟨c, ⟨hc, hact, hpass, hlive, hclean⟩, hrest⟩

/-- The last row goes to the latches, and v0 keeps its 0. -/
theorem v0After_latchRedx : v0After (exec (.redx .addN latchRedx) lastRowState) = some 0 := by decide +kernel

/-- Refutes O19: its hypotheses leave out check 4, so field D of a REDX of several rows may be a latch, and then the last row
writes no register; where D is a v-register `redx_row` gives what the statement says, and `scanx_row` the same of every SCANX. -/
theorem not_crossLaneRows : ¬ Obligations.CrossLaneRows := by
  unfold Obligations.CrossLaneRows
  rintro ⟨hrows, -⟩
  obtain ⟨c, hc, hf, hact, hprog, hrow⟩ := latchRedx_stands
  obtain ⟨hredx, -⟩ := hrows lastRowState c latchRedx .addN false (by decide) (by decide) (by rw [hprog]; decide) (by decide)
  obtain ⟨t, fr, hexec, -, hfr, -, hreg⟩ := hredx hc
  have hone : reg fr 0 0 = 1 := by
    have hval := (hreg 0 (by rw [hact]; decide)).1
    rw [hprog] at hval
    exact hval.trans (congrArg (BitVec.ofNat 32) hrow)
  have hzero := v0After_latchRedx
  rw [hexec, v0After] at hzero
  rw [hf] at hfr
  rw [hfr, Option.map_some, hone] at hzero
  exact absurd hzero (by decide)

end Sys2Proof.Machine
end

section
/-!
PROOFS. The words of the register space (R83 to R87): VIEW, LDIX and STIX as words that trap or change the frame alone, what a
lane reads of rows that REGFREE frees, and what WRSR writes of the frame, the swarm and the team.
-/
namespace Sys2Proof.Machine

/-! ### Words that trap instead (R83, R84) -/

/-- A ready word whose effect is the trap `field` of its view: the word is undone and the trap is taken. -/
theorem runWord_viewTrap {i : Instr} {o : Wd} {eff : Ctx → State → State} {field : Nat} {s : State} {c : Ctx} (h : Stands s i o c)
    (heff : ∀ s1, eff c s1 = undoTrap c s1 0x06 c.f.pc field) :
    runWord i o .prog (fun _ => none) (fun _ => i.fields) eff s =
      .next (settleFaults (finish c (undoTrap c (advance s c.f) 0x06 c.f.pc field)) c.f.team c.f.swarm) := by
  rw [runWord_ready h, heff]

theorem ixBad_eq_false {c : Ctx} {i : Instr} {o : Wd} (h : ∀ ln ∈ lanesOf c.act, ixRow c i o ln < c.sw.frame.vcnt) :
    ixBad c i o = false := by
  unfold ixBad
  simpa using h

theorem ixBad_eq_true {c : Ctx} {i : Instr} {o : Wd} (h : ∃ ln ∈ lanesOf c.act, c.sw.frame.vcnt ≤ ixRow c i o ln) :
    ixBad c i o = true := by
  unfold ixBad
  simpa using h

/-- R84: a word that reaches the row which each lane names: one effect per active lane, or the trap of field A. -/
theorem runIx_ready {i : Instr} {o : Wd} {g : Ctx → Nat → Nat → Frame → Frame} {s : State} {c : Ctx} (h : Stands s i o c)
    (hg : ∀ ln n fr, (g c ln n fr).log = fr.log) :
    ((∀ ln ∈ lanesOf c.act, ixRow c i o ln < c.sw.frame.vcnt) →
      runIx i o g s = .next (wrote c (fun fr => eachLane c.act fr fun ln fr => g c ln (ixRow c i o ln) fr) s)) ∧
    ((∃ ln ∈ lanesOf c.act, c.sw.frame.vcnt ≤ ixRow c i o ln) →
      runIx i o g s = .next (settleFaults (finish c (undoTrap c (advance s c.f) 0x06 c.f.pc 1)) c.f.team c.f.swarm)) := by
  unfold runIx
  constructor
  · intro hrows
    refine runWord_wrote h (fun s1 => ?_) fun fr => eachLane_log _ _ _ fun _ _ => hg _ _ _
    rw [ixBad_eq_false hrows]
    rfl
  · intro hrow
    refine runWord_viewTrap h fun s1 => ?_
    rw [ixBad_eq_true hrow]
    rfl

/-- R83: VIEW sets the bounds of the swarm, or traps for bounds above the 512 rows. -/
theorem execView_ready {o : Wd} {s : State} {c : Ctx} (h : Stands s (.view o) o c) :
    (o.a.immVal.toNat + 64 * o.b.immVal.toNat ≤ 512 → o.b.immVal.toNat ≤ 8 → execView o s =
      .next (wrote c (fun fr => { fr with vcnt := o.a.immVal.toNat, tcnt := o.b.immVal.toNat }) s)) ∧
    (512 < o.a.immVal.toNat + 64 * o.b.immVal.toNat ∨ 8 < o.b.immVal.toNat → execView o s =
      .next (settleFaults (finish c (undoTrap c (advance s c.f) 0x06 c.f.pc)) c.f.team c.f.swarm)) := by
  unfold execView
  constructor
  · intro hrows htiles
    exact runWord_wrote h (fun s1 => if_neg (by omega)) fun _ => rfl
  · intro hbad
    exact runWord_viewTrap h fun s1 => if_pos (by omega)

/-! ### Rows that lanes free (R86) -/

/-- A lane belongs to the mask of the lanes that satisfy a test exactly when it does. -/
theorem getLsbD_maskOf (p : Nat → Bool) {i : Nat} (hi : i < 32) : (maskOf p).getLsbD i = p i := by
  have key (l : List Nat) (m : BitVec 32) : (l.foldl (fun m i => if p i then m ||| (1#32 <<< i) else m) m).getLsbD i =
      (m.getLsbD i || (l.contains i && p i)) := by
    induction l generalizing m with
    | nil => simp
    | cons j l ih =>
      rw [List.foldl_cons, ih]
      by_cases hij : i = j
      · subst hij
        cases hp : p i <;> simp [hi]
      · have hbit : (1#32 <<< j).getLsbD i = false := by
          simp only [BitVec.getLsbD_shiftLeft, BitVec.getLsbD_one]
          grind
        cases p j <;> simp [hbit, hij]
  unfold maskOf lanes32
  rw [key]
  simp [hi]

/-- A mask that another covers. -/
theorem getLsbD_of_and_not_eq_zero {a b : BitVec 32} (h : a &&& ~~~b = 0) {i : Nat} (hi : i < 32) (ha : a.getLsbD i = true) :
    b.getLsbD i = true := by
  have hbit := congrArg (fun m : BitVec 32 => m.getLsbD i) h
  simpa [ha, hi] using hbit

theorem getLsbD_bit512 {n r : Nat} (hr : r < 512) : (1#512 <<< n).getLsbD r = decide (r = n) := by
  simp only [BitVec.getLsbD_shiftLeft, BitVec.getLsbD_one]
  grind

/-- Freeing a row changes which rows are live and who has freed them, and the words of a row that no lane holds. -/
theorem freeRow_frame (act : BitVec 32) (fr : Frame) (n : Nat) :
    { freeRow act fr n with regs := fr.regs, live := fr.live, freed := fr.freed } = fr := by
  unfold freeRow
  split
  · rfl
  · dsimp only
    split <;> rfl

theorem lane_freeRow (act : BitVec 32) (fr : Frame) (n ln : Nat) : lane (freeRow act fr n) ln = lane fr ln := by
  have hlanes := congrArg Frame.lanes (freeRow_frame act fr n)
  exact congrArg (fun ls => nth deadLane ls ln) hlanes

/-- A lane reads the same of a row that is live for it as before and holds the same word. -/
theorem reg_congr {fr fr' : Frame} {ln r : Nat} (hlive : rowLive fr' r ln = rowLive fr r ln)
    (hword : rawReg fr' ln r = rawReg fr ln r) : reg fr' ln r = reg fr ln r := by
  unfold reg
  rw [hlive, hword]

/-- A row that is not the freed one reads as before. -/
theorem reg_freeRow_other {act : BitVec 32} {fr : Frame} {n ln r : Nat} (hln : ln < 32) (hr : r < 512) (hrn : r ≠ n) :
    reg (freeRow act fr n) ln r = reg fr ln r := by
  have hkey : (32 * r + ln) / 32 ≠ n := by omega
  unfold freeRow
  split
  · rfl
  · dsimp only
    split
    · have hbit : (~~~(1#512 <<< n)).getLsbD r = true := by rw [BitVec.getLsbD_not, getLsbD_bit512 hr]; simp [hr, hrn]
      refine reg_congr ?_ ?_
      · simp only [rowLive, BitVec.getLsbD_and, hbit, Bool.and_true, Tab.get_set, if_neg hrn]
      · simp only [rawReg, clearRow, Tab.get_keep, bne_iff_ne, ne_eq, hkey, not_false_eq_true, if_true]
    · refine reg_congr ?_ rfl
      simp only [rowLive, Tab.get_set, if_neg hrn]

/-- R86: of the freed row the lanes that free it read 0, and the other lanes that have not exited what they read before. -/
theorem reg_freeRow_same {act : BitVec 32} {fr : Frame} {n ln : Nat} (hln : ln < 32) (hn : n < 512)
    (hlive : (lane fr ln).exited = false) :
    reg (freeRow act fr n) ln n = if act.getLsbD ln then 0 else reg fr ln n := by
  unfold freeRow
  split
  · next hdead =>
    have hzero : reg fr ln n = 0 := if_neg (by simp_all [rowLive])
    rw [hzero, ite_self]
  · next hrow =>
    dsimp only
    split
    · next hall =>
      have hmem : (liveLanes fr).getLsbD ln = true := by
        unfold liveLanes
        rw [getLsbD_maskOf _ hln, hlive]
        rfl
      have hfreed := getLsbD_of_and_not_eq_zero hall hln hmem
      rw [BitVec.getLsbD_or, Bool.or_eq_true] at hfreed
      have hold : act.getLsbD ln = false → reg fr ln n = 0 := fun hact => if_neg (by simp_all [rowLive])
      have hnew : ∀ regs freed, reg { fr with live := fr.live &&& ~~~(1#512 <<< n), freed := freed, regs := regs } ln n = 0 :=
        fun _ _ => if_neg (by simp [rowLive, getLsbD_bit512 hn])
      rw [hnew]
      split
      · rfl
      · next hact => exact (hold (Bool.eq_false_iff.2 hact)).symm
    · simp only [reg, rowLive, rawReg, Tab.get_set, if_true, BitVec.getLsbD_or]
      cases act.getLsbD ln <;> simp

/-- REGFREE frees the rows of a list one after the other. -/
def freeRows (act : BitVec 32) (rows : List Nat) (fr : Frame) : Frame := rows.foldl (freeRow act) fr

theorem freeRows_frame (act : BitVec 32) (rows : List Nat) (fr : Frame) :
    { freeRows act rows fr with regs := fr.regs, live := fr.live, freed := fr.freed } = fr :=
  foldl_keeps (fun x : Frame => { x with regs := fr.regs, live := fr.live, freed := fr.freed } = fr) (freeRow act)
    (fun x n hx => (congrArg (fun y : Frame => { y with regs := fr.regs, live := fr.live, freed := fr.freed })
      (freeRow_frame act x n)).trans hx) rows fr rfl

theorem freeRows_log (act : BitVec 32) (rows : List Nat) (fr : Frame) : (freeRows act rows fr).log = fr.log := by
  have hlog := congrArg Frame.log (freeRows_frame act rows fr)
  exact hlog

/-- R86: what a lane that has not exited reads after rows have been freed. -/
theorem reg_freeRows {act : BitVec 32} {rows : List Nat} {fr : Frame} {ln r : Nat} (hln : ln < 32) (hr : r < 512)
    (hlive : (lane fr ln).exited = false) :
    reg (freeRows act rows fr) ln r = if act.getLsbD ln ∧ r ∈ rows then 0 else reg fr ln r := by
  unfold freeRows
  induction rows generalizing fr with
  | nil => simp
  | cons n rows ih =>
    rw [List.foldl_cons, ih ((lane_freeRow act fr n ln).symm ▸ hlive)]
    by_cases hrn : r = n
    · subst hrn
      rw [reg_freeRow_same hln hr hlive]
      cases act.getLsbD ln <;> simp
    · rw [reg_freeRow_other hln hr hrn]
      simp [hrn]

/-- R86: REGFREE changes the rows that its lanes read, and nothing else of the frame. -/
theorem execRegfree_ready {o : Wd} {s : State} {c : Ctx} (h : Stands s (.regfree o) o c) :
    execRegfree o s = .next (wrote c (freeRows c.act (rowsOf (Instr.regfree o).fields.2.1 o.a)) s) :=
  runFrame_ready (g := fun c => freeRows c.act (rowsOf (Instr.regfree o).fields.2.1 o.a)) h (freeRows_log _ _)

/-! ### Special registers (R87) -/

/-- The special registers of 64 bits are $pulse and $trapa; every other number reads as 32 bits. -/
theorem spReg_narrow {n : Nat} (hpulse : n ≠ 0x10) (htrapa : n ≠ 0x1F) : spReg n = none ∨ ∃ rw, spReg n = some (false, rw) := by
  unfold spReg
  repeat' split
  · exact .inr ⟨false, rfl⟩
  all_goals simp_all

/-- R87: RDSR delivers the register as a pair or as one word. -/
theorem execRdsr_ready {o : Wd} {s : State} {c : Ctx} (h : Stands s (.rdsr o) o c) :
    (o.a.immVal.toNat = 0x10 ∨ o.a.immVal.toNat = 0x1F → execRdsr o s = .next (wrote c (fun fr => eachLane c.act fr fun ln fr =>
      dst64 fr o ln (readSpecial s c ln o.a.immVal.toNat)) s)) ∧
    (o.a.immVal.toNat ≠ 0x10 → o.a.immVal.toNat ≠ 0x1F → execRdsr o s = .next (wrote c (fun fr => eachLane c.act fr fun ln fr =>
      dst32 fr o 4 ln (loW (readSpecial s c ln o.a.immVal.toNat))) s)) := by
  unfold execRdsr
  constructor
  · intro hn
    have hwide : ∃ rw, spReg o.a.immVal.toNat = some (true, rw) := by rcases hn with hn | hn <;> rw [hn] <;> exact ⟨_, rfl⟩
    obtain ⟨rw, hwide⟩ := hwide
    simp only [hwide]
    exact runFrame_ready h fun fr => eachLane_log _ _ _ fun _ _ => dst64_log _ _ _ _
  · intro hpulse htrapa
    rcases spReg_narrow hpulse htrapa with hnone | ⟨rw, hnarrow⟩
    · simp only [hnone]
      exact runFrame_ready h fun fr => eachLane_log _ _ _ fun _ _ => dst32_log _ _ _ _ _
    · simp only [hnarrow]
      exact runFrame_ready h fun fr => eachLane_log _ _ _ fun _ _ => dst32_log _ _ _ _ _

/-- The low word of a 64-bit value is the value as a word. -/
theorem loW_ofNat (x : Nat) : loW (BitVec.ofNat 64 x) = BitVec.ofNat 32 x := by
  apply BitVec.eq_of_toNat_eq
  simp [loW]

/-- The low six bits of a 64-bit value are those of the value as a word. -/
theorem extractFlags_ofNat (x : Nat) : (BitVec.ofNat 64 x).extractLsb' 0 6 = (BitVec.ofNat 32 x).setWidth 6 := by
  apply BitVec.eq_of_toNat_eq
  simp

/-- A ready word whose effect leaves its swarm there, with the operand log and the end of the swarm as they were. -/
theorem runWord_quiet {i : Instr} {o : Wd} {lv : Level} {eff : Ctx → State → State} {s s1 : State} {c : Ctx} {sw : Swarm}
    (h : Ready s i o lv none i.fields c) (heff : eff c (advance s c.f) = s1) (hsw : swarmAt s1 c.f.team c.f.swarm = some sw)
    (hended : sw.ended = c.sw.ended) (hlog : sw.frame.log = c.sw.frame.log) :
    runWord i o lv (fun _ => none) (fun _ => i.fields) eff s = .next (finish c s1) := by
  rw [runWord_ready (sl := fun _ => none) (fs := fun _ => i.fields) h]
  exact congrArg _ (settle_after heff hsw (hended.trans h.live) ((firstFault_congr hlog).trans h.clean))

/-- An update of a team that keeps its swarms. -/
theorem swarmAt_updTeam_of_swarms {s : State} {t u : TeamId} {n : Nat} {f : Team → Team} (hid : ∀ x, (f x).id = x.id)
    (hswarms : ∀ x, (f x).swarms = x.swarms) : swarmAt (updTeam s t f) u n = swarmAt s u n := by
  unfold swarmAt
  rw [findTeam_updTeam hid]
  cases findTeam s u with
  | none => rfl
  | some tm =>
    simp only [Option.map_some, Option.bind_some]
    split
    · unfold findSwarm
      rw [hswarms]
    · rfl

/-- A swarm after an update of it. -/
theorem swarmAt_updSwarm_self {s : State} {t : TeamId} {n : Nat} {f : Swarm → Swarm} {sw : Swarm} (hnum : ∀ x, (f x).num = x.num)
    (h : swarmAt s t n = some sw) : swarmAt (updSwarm s t n f) t n = some (f sw) := by
  rw [swarmAt_updSwarm hnum, h, Option.map_some, if_pos ⟨rfl, rfl⟩]

/-- The word that a lane gives WRSR, and the pair that it gives for $trapa. -/
def wrsrWord (c : Ctx) (o : Wd) (ln : Nat) : Word := BitVec.ofNat 32 (srcA c (.wrsr o) o (.pat 32) ln)
def wrsrPair (c : Ctx) (o : Wd) (ln : Nat) : DWord := BitVec.ofNat 64 (srcA c (.wrsr o) o (.pat 64) ln)

section
variable {o : Wd} {s : State} {c : Ctx}

/-- R87: WRSR of $xlgw and of $fflags writes the frame. -/
theorem execWrsr_xlgw (h : Stands s (.wrsr o) o c) (hn : o.d.immVal.toNat = 0x18) : execWrsr o s =
    .next (wrote c (fun fr => { fr with xlgw := xlgwOf (wrsrWord c o ((lowest c.act).getD 0)).toNat }) s) := by
  unfold execWrsr
  simp only [hn]
  refine runWord_wrote h (fun s1 => ?_) fun _ => rfl
  simp only [writeSpecial, loW_ofNat]
  rfl

theorem execWrsr_fflags (h : Stands s (.wrsr o) o c) (hn : o.d.immVal.toNat = 0x1C) : execWrsr o s =
    .next (wrote c (fun fr => eachLane c.act fr fun ln fr => updLane fr ln fun l =>
      { l with fflags := (wrsrWord c o ln).setWidth 6 }) s) := by
  unfold execWrsr
  simp only [hn]
  refine runWord_wrote h (fun s1 => ?_) fun fr => eachLane_log _ _ _ fun _ _ => rfl
  simp only [writeSpecial, extractFlags_ofNat]
  rfl

/-- R82, R87: WRSR of $clwin writes the team. -/
theorem execWrsr_clwin (h : Stands s (.wrsr o) o c) (hn : o.d.immVal.toNat = 0x19) : execWrsr o s =
    .next (finish c (updTeam (advance s c.f) c.f.team fun tm => { tm with clwin := wrsrWord c o ((lowest c.act).getD 0) })) := by
  unfold execWrsr
  simp only [hn]
  refine runWord_quiet h ?_ ((swarmAt_updTeam_of_swarms ?_ ?_).trans (advance_swarm h.ctx)) rfl rfl
  · simp only [writeSpecial, loW_ofNat]
    rfl
  all_goals exact fun _ => rfl

/-- R82, R87: WRSR of $trapc and of $trapa, words of a handler of level 2 or above, writes the swarm. -/
theorem execWrsr_trapc (h : Ready s (.wrsr o) o .two none (Instr.wrsr o).fields c) (hn : o.d.immVal.toNat = 0x1E) : execWrsr o s =
    .next (finish c (updSwarm (advance s c.f) c.f.team c.f.swarm fun sw =>
      { sw with trapc := wrsrWord c o ((lowest c.act).getD 0) })) := by
  unfold execWrsr
  simp only [hn]
  refine runWord_quiet h ?_ (swarmAt_updSwarm_self (fun _ => rfl) (advance_swarm h.ctx)) rfl rfl
  simp only [writeSpecial, loW_ofNat]
  rfl

theorem execWrsr_trapa (h : Ready s (.wrsr o) o .two none (Instr.wrsr o).fields c) (hn : o.d.immVal.toNat = 0x1F) : execWrsr o s =
    .next (finish c (updSwarm (advance s c.f) c.f.team c.f.swarm fun sw =>
      { sw with trapa := wrsrPair c o ((lowest c.act).getD 0) })) := by
  unfold execWrsr
  simp only [hn]
  exact runWord_quiet h rfl (swarmAt_updSwarm_self (fun _ => rfl) (advance_swarm h.ctx)) rfl rfl

end

/-- Settles O16, word by word. -/
theorem registerSpace : Obligations.RegisterSpace := by
  unfold Obligations.RegisterSpace
  intro s c o
  simp only [exec_view, exec_ldix, exec_stix, exec_regfree, exec_rdsr, exec_wrsr]
  exact ⟨execView_ready, fun h => runIx_ready h fun _ _ _ => dst32_log _ _ _ _ _, fun h => runIx_ready h fun _ _ _ => rfl,
    fun h => ⟨_, execRegfree_ready h, fun fr => ⟨freeRows_frame _ _ fr, fun ln r hln hr hlive => reg_freeRows hln hr hlive⟩⟩,
    execRdsr_ready, fun h => ⟨execWrsr_xlgw h, execWrsr_clwin h, execWrsr_fflags h⟩,
    fun h => ⟨execWrsr_trapc h, execWrsr_trapa h⟩⟩

end Sys2Proof.Machine
end

section
/-!
PROOFS. What a write by a swarm leaves of every swarm's rows: the bytes of a store go to memory, to a scratchpad or over the link,
and of the swarms they change which lanes are awake and which traps are pending, never a register nor the set of spilled rows.
-/
namespace Sys2Proof.Machine

/-! ### The rows of a swarm's program -/

/-- The rows of a swarm's program: which stand in the spill region, and the words. -/
def progRows (sw : Swarm) : BitVec 512 × Tab 32 := ((progFrame sw).spilled, (progFrame sw).regs)
def rowsAt (s : State) (t : TeamId) (n : Nat) : Option (BitVec 512 × Tab 32) := (swarmAt s t n).map progRows

/-- Every swarm has the rows that it had. -/
def KeepsRows (s s' : State) : Prop := ∀ t n, rowsAt s' t n = rowsAt s t n

theorem KeepsRows.rfl {s : State} : KeepsRows s s := fun _ _ => Eq.refl _
theorem KeepsRows.trans {a b c : State} (h : KeepsRows a b) (k : KeepsRows b c) : KeepsRows a c := fun t n => (k t n).trans (h t n)

/-- A state with the same teams has the same rows. -/
theorem KeepsRows.of_teams {s s' : State} (h : s'.teams = s.teams) : KeepsRows s s' := by
  intro t n
  unfold rowsAt swarmAt findTeam
  rw [h]

/-- A change of every team that keeps its number and the rows of its swarms. -/
theorem KeepsRows.of_map {s s' : State} {g : Team → Team} (h : s'.teams = s.teams.map g) (hid : ∀ tm, (g tm).id = tm.id)
    (hrows : ∀ tm n, (findSwarm (g tm) n).map progRows = (findSwarm tm n).map progRows) : KeepsRows s s' := by
  intro t n
  have hfind : findTeam s' t = (findTeam s t).map g := by
    unfold findTeam
    rw [h, List.find?_map]
    have htest : ((fun x : Team => x.id == t) ∘ g) = fun x => x.id == t := funext fun x => congrArg (· == t) (hid x)
    rw [htest]
  unfold rowsAt swarmAt
  rw [hfind]
  cases findTeam s t with
  | none => rfl
  | some tm => exact hrows tm n

/-- A change of every swarm of a team that keeps its number and rows. -/
theorem findSwarm_map_rows {tm tm' : Team} {f : Swarm → Swarm} (h : tm'.swarms = tm.swarms.map f) (hnum : ∀ x, (f x).num = x.num)
    (hrows : ∀ x, progRows (f x) = progRows x) (n : Nat) : (findSwarm tm' n).map progRows = (findSwarm tm n).map progRows := by
  unfold findSwarm
  rw [h, List.find?_map]
  have htest : ((fun x : Swarm => x.num == n) ∘ f) = fun x => x.num == n := funext fun x => congrArg (· == n) (hnum x)
  rw [htest, Option.map_map]
  exact congrArg (Option.map · _) (funext hrows)

theorem KeepsRows.updSwarm {s : State} {t : TeamId} {k : Nat} {f : Swarm → Swarm} (hnum : ∀ x, (f x).num = x.num)
    (hrows : ∀ x, progRows (f x) = progRows x) : KeepsRows s (Machine.updSwarm s t k f) := by
  intro u n
  unfold rowsAt
  rw [swarmAt_updSwarm hnum, Option.map_map]
  congr 1
  funext x
  simp only [Function.comp]
  split
  · exact hrows x
  · rfl

theorem KeepsRows.updTeam {s : State} {t : TeamId} {f : Team → Team} (hid : ∀ x, (f x).id = x.id)
    (hswarms : ∀ x, (f x).swarms = x.swarms) : KeepsRows s (Machine.updTeam s t f) :=
  fun _ _ => congrArg _ (swarmAt_updTeam_of_swarms hid hswarms)

/-- A fold keeps the rows that each of its steps keeps. -/
theorem KeepsRows.foldl {β : Type} {f : State → β → State} (hf : ∀ s b, KeepsRows s (f s b)) (l : List β) (s : State) :
    KeepsRows s (l.foldl f s) := foldl_keeps (KeepsRows s) f (fun _ b h => h.trans (hf _ b)) l s .rfl

theorem KeepsRows.ite {c : Prop} [Decidable c] {s a b : State} (ha : KeepsRows s a) (hb : KeepsRows s b) :
    KeepsRows s (if c then a else b) := by
  split
  · exact ha
  · exact hb

/-! ### What reaches swarms beside memory: wakes and watchpoints -/

theorem progFrame_updProgFrame (f : Frame → Frame) (sw : Swarm) : progFrame (updProgFrame f sw) = f (progFrame sw) := by
  unfold updProgFrame progFrame
  cases sw.hidden <;> rfl

theorem updProgFrame_num (f : Frame → Frame) (sw : Swarm) : (updProgFrame f sw).num = sw.num := by
  unfold updProgFrame
  split <;> rfl

theorem updWaitFrame_num (inH : Bool) (f : Frame → Frame) (sw : Swarm) : (updWaitFrame inH f sw).num = sw.num := by
  unfold updWaitFrame
  split
  · split <;> rfl
  · exact updProgFrame_num f sw

/-- A wait's frame is the handler's, which is not the program's, or the program's. -/
theorem progRows_updWaitFrame {f : Frame → Frame} (hf : ∀ fr, ((f fr).spilled, (f fr).regs) = (fr.spilled, fr.regs)) (inH : Bool)
    (sw : Swarm) : progRows (updWaitFrame inH f sw) = progRows sw := by
  unfold updWaitFrame
  split
  · split
    · next hhid =>
      obtain ⟨fr, hfr⟩ := Option.isSome_iff_exists.1 hhid
      simp [progRows, progFrame, hfr]
    · rfl
  · unfold progRows
    rw [progFrame_updProgFrame]
    exact hf _

theorem wakeLane_rows (s : State) (t : TeamId) (n i : Nat) (inH : Bool) : KeepsRows s (wakeLane s t n i inH) :=
  .updSwarm (updWaitFrame_num _ _) (progRows_updWaitFrame (f := fun fr => updLane fr i fun l => { l with woken := true }) (fun _ => rfl) _)

theorem fireMonitors_rows (s : State) (line : Nat) (only : Option Nat) : KeepsRows s (fireMonitors s line only) :=
  .foldl (f := fun s (x : Monitor) => wakeLane s x.team x.swarm x.lane x.inH) (fun _ _ => wakeLane_rows _ _ _ _ _) _
    { s with m := { s.m with mons := _ } }

/-- A team with the number and the swarms of another. -/
def SameSwarms (a b : Team) : Prop := b.id = a.id ∧ b.swarms = a.swarms

theorem addTrap_sameSwarms (tm : Team) (p : PendTrap) : SameSwarms tm (addTrap tm p) := by
  unfold addTrap
  split <;> exact ⟨rfl, rfl⟩

theorem SameSwarms.ite {c : Prop} [Decidable c] {tm a b : Team} (ha : SameSwarms tm a) (hb : SameSwarms tm b) :
    SameSwarms tm (if c then a else b) := by
  split
  · exact ha
  · exact hb

theorem KeepsRows.of_sameSwarms {s s' : State} {g : Team → Team} (h : s'.teams = s.teams.map g) (hg : ∀ tm, SameSwarms tm (g tm)) :
    KeepsRows s s' := by
  refine .of_map h (fun tm => (hg tm).1) fun tm n => ?_
  unfold findSwarm
  rw [(hg tm).2]

theorem watchWrite_rows (s : State) (ag : Agent) (pa n : Nat) : KeepsRows s (watchWrite s ag pa n) := by
  refine .of_sameSwarms rfl fun tm => ?_
  split
  · exact ⟨rfl, rfl⟩
  · exact .ite ⟨rfl, rfl⟩ (addTrap_sameSwarms _ _)

/-- A swarm whose parked lanes that a test picks have been woken, in its handler and in its program. -/
def wakeSwarm (p : Park → Bool) (sw : Swarm) : Swarm :=
  { sw with frame := wakeParks p sw.frame, hidden := sw.hidden.map (wakeParks p) }

theorem progRows_wakeSwarm (p : Park → Bool) (sw : Swarm) : progRows (wakeSwarm p sw) = progRows sw := by
  unfold progRows progFrame wakeSwarm
  cases sw.hidden <;> rfl

theorem wakeTeam_rows (p : Park → Bool) (tm : Team) (n : Nat) :
    (findSwarm (wakeTeam p tm) n).map progRows = (findSwarm tm n).map progRows :=
  findSwarm_map_rows (f := wakeSwarm p) rfl (fun _ => rfl) (progRows_wakeSwarm p) n

theorem wakeSync_rows (s : State) (t : TeamId) : KeepsRows s (wakeSync s t) := by
  refine .of_map rfl (fun tm => ?_) fun tm n => ?_
  · split <;> rfl
  · split
    · exact wakeTeam_rows _ _ _
    · rfl

/-! ### The caches and directories, which touch no swarm -/

theorem l3Touch_teams (s : State) (line : Nat) (d : Bool) : (l3Touch s line d).teams = s.teams := by
  unfold l3Touch
  split <;> rfl

theorem l2Out_teams (s : State) (x : L2Line) : (l2Out s x).teams = s.teams := by
  unfold l2Out
  split
  · rfl
  · exact l3Touch_teams _ _ _

theorem l2Put_teams (s : State) (x : L2Line) : (l2Put s x).teams = s.teams := by
  unfold l2Put
  simp only
  split
  · split
    · rfl
    · exact l2Out_teams _ _
  · rfl

theorem l2Fill_teams (s : State) (die line : Nat) (mode : CohMode) : (l2Fill s die line mode).teams = s.teams := by
  unfold l2Fill
  split
  · rfl
  · exact (l3Touch_teams _ _ _).trans (l2Put_teams _ _)

theorem l2Take_teams (s : State) (die line : Nat) (mode : CohMode) (old : Tab 8) (offs : List Nat) :
    (l2Take s die line mode old offs).teams = s.teams := l2Put_teams _ _

theorem l2Read_teams (s : State) (core line : Nat) (mode : CohMode) : (l2Read s core line mode).teams = s.teams := by
  unfold l2Read
  split
  · exact l2Fill_teams _ _ _ _
  · exact l2Fill_teams _ _ _ _

theorem snpOut_teams (s : State) (line : Nat) (but : Option Nat) : (snpOut s line but).teams = s.teams := rfl

/-! ### Writes to memory -/

theorem ackLevel_rows (s : State) (core line : Nat) (l : DirLevel) : KeepsRows s (ackLevel s core line l) := by
  unfold ackLevel
  split
  · exact .rfl
  · split
    · exact .rfl
    · exact .foldl (f := fun s (x : Monitor) => wakeLane s x.team x.swarm x.lane x.inH) (fun _ _ => wakeLane_rows _ _ _ _ _) _
        { s with m := _ }

theorem performAt_rows (s : State) (core line : Nat) (sc : Scope) : KeepsRows s (performAt s core line sc) :=
  (KeepsRows.foldl (f := fun s l => ackLevel s core line l) (fun _ _ => ackLevel_rows _ _ _ _) (ackLevels sc) s).trans
    (.of_teams (snpOut_teams _ _ _))

theorem landLine_rows (s : State) (ag : Option Agent) (mode : CohMode) (line : Nat) (old : Tab 8) (offs : List Nat) :
    KeepsRows s (landLine s ag mode line old offs) := by
  unfold landLine
  dsimp only
  refine KeepsRows.trans ?_ (.of_teams (snpOut_teams _ _ _))
  refine KeepsRows.trans ?_ (fireMonitors_rows _ _ _)
  refine .of_teams ?_
  dsimp only
  split
  · exact l2Take_teams _ _ _ _ _ _
  · exact l3Touch_teams _ _ _

theorem landRam_rows (s : State) (ag : Option Agent) (mode : CohMode) (a : Nat) (bs : List Byte) :
    KeepsRows s (landRam s ag mode a bs) := .foldl (fun _ _ => landLine_rows _ _ _ _ _ _) _ { s with m := _ }

theorem writeRam_rows (s : State) (ag : Agent) (a : Nat) (bs : List Byte) : KeepsRows s (writeRam s ag a bs) :=
  (landRam_rows _ _ _ _ _).trans (watchWrite_rows _ _ _ _)

theorem writeBack_rows (s : State) (x : L1Line) : KeepsRows s (writeBack s x) :=
  .foldl (f := fun s (r : Nat × Nat) => watchWrite (landRam s (some (.lane x.by_ x.core)) x.mode (128 * x.line + r.1)
    (copyBytes x r.1 r.2)) (.lane x.by_ x.core) (128 * x.line + r.1) r.2)
    (fun _ _ => (landRam_rows _ _ _ _ _).trans (watchWrite_rows _ _ _ _)) (runsOf (dirtyOffs x)) s

theorem l1Out_rows (s : State) (x : L1Line) : KeepsRows s (l1Out s x) :=
  KeepsRows.ite (c := x.dirty = 0) .rfl (writeBack_rows s x)

theorem l1Add_rows (s : State) (x : L1Line) : KeepsRows s (l1Add s x) := by
  unfold l1Add
  simp only
  split
  · split
    · exact .of_teams rfl
    · exact l1Out_rows { s with m := _ } _
  · exact .of_teams rfl

theorem l1Fill_rows (s : State) (core line : Nat) (mode : CohMode) (excl : Bool) : KeepsRows s (l1Fill s core line mode excl) :=
  (KeepsRows.of_teams (l2Read_teams s core line mode)).trans (l1Add_rows (l2Read s core line mode) _)

theorem takeData_rows (s : State) (core line : Nat) (keep : Bool) : KeepsRows s (takeData s core line keep) := by
  have htake (m1 : MemSys) : KeepsRows s (l2Take { s with m := m1 } (dieOf core) line .coh [] []) :=
    .of_teams (l2Take_teams _ _ _ _ _ _)
  exact KeepsRows.ite (c := keep = true) ((htake _).trans (l1Add_rows _ _)) (htake _)

theorem ownLine_rows (s : State) (core line : Nat) (keep : Bool) : KeepsRows s (ownLine s core line keep) := by
  have hstart : KeepsRows s (if needM s.m core line then { s with m := startM s.m core line } else s) :=
    .ite (.of_teams rfl) .rfl
  exact .ite hstart (hstart.trans (takeData_rows _ _ _ _))

theorem cohWrite_rows (s : State) (ag : Agent) (core : Nat) (sc : Scope) (a : Nat) (bs : List Byte) :
    KeepsRows s (cohWrite s ag core sc a bs) := by
  unfold cohWrite
  refine KeepsRows.trans ?_ (watchWrite_rows _ _ _ _)
  refine KeepsRows.trans ?_ (fireMonitors_rows _ _ _)
  refine KeepsRows.trans ?_ (performAt_rows _ _ _ _)
  exact (ownLine_rows s core (a / 128) true).trans (.of_teams (l2Take_teams _ _ _ _ _ _))

theorem dirtyWrite_rows (s : State) (t : TeamId) (core : Nat) (mode : CohMode) (a : Nat) (bs : List Byte) :
    KeepsRows s (dirtyWrite s t core mode a bs) := by
  unfold dirtyWrite
  refine KeepsRows.trans ?_ (fireMonitors_rows _ _ _)
  split
  · exact KeepsRows.ite (writeBack_rows _ _) .rfl
  · exact l1Fill_rows _ _ _ _ _

theorem storeLine_rows (s : State) (t : TeamId) (core : Nat) (mode : CohMode) (sc : Scope) (a : Nat) (bs : List Byte) :
    KeepsRows s (storeLine s t core mode sc a bs) :=
  .ite (cohWrite_rows _ _ _ _ _ _) (.ite (dirtyWrite_rows _ _ _ _ _ _)
    ((landRam_rows s (some (.lane t core)) mode a bs).trans (watchWrite_rows _ (.lane t core) a bs.length)))

theorem storeL1_rows (s : State) (t : TeamId) (core : Nat) (mode : CohMode) (sc : Scope) (a : Nat) (bs : List Byte) :
    KeepsRows s (storeL1 s t core mode sc a bs) :=
  .ite (storeLine_rows _ _ _ _ _ _ _) ((storeLine_rows _ _ _ _ _ _ _).trans (storeLine_rows _ _ _ _ _ _ _))

/-! ### Writes to scratchpads and over the link -/

theorem imgWrite_rows (s : State) (tm : Team) (ag : Agent) (a : Nat) (bs : List Byte) : KeepsRows s (imgWrite s tm ag a bs) := by
  refine .foldl (fun s x => ?_) _ s
  split
  · exact writeRam_rows _ _ _ _
  · exact .rfl

theorem setArrival_rows (s : State) (tm : Team) (ag : Agent) (img off n : Nat) : KeepsRows s (setArrival s tm ag img off n) := by
  refine .foldl (fun s u => ?_) _ s
  dsimp only
  split
  · exact imgWrite_rows _ _ _ _ _
  · exact .rfl

theorem imgPut_rows (s : State) (tm : Team) (ag : Agent) (img off : Nat) (bs : List Byte) : KeepsRows s (imgPut s tm ag img off bs) :=
  (imgWrite_rows _ _ _ _ _).trans (setArrival_rows _ _ _ _ _ _)

theorem spadWrite_rows (s : State) (ag : Agent) (t : TeamId) (off : Nat) (bs : List Byte) : KeepsRows s (spadWrite s ag t off bs) := by
  have hspad : KeepsRows s (updTeam s t fun x => { x with spad := setBytes x.spad off bs }) := .updTeam (fun _ => rfl) fun _ => rfl
  unfold spadWrite
  refine KeepsRows.trans ?_ (wakeSync_rows _ _)
  split
  · split
    · exact imgPut_rows _ _ _ _ _ _
    · dsimp only
      split
      · exact .ite hspad (hspad.trans (imgPut_rows _ _ _ _ _ _))
      · exact hspad
  · exact .rfl

/-- A write by a lane to a checked place leaves every swarm its rows. -/
theorem writePlace_rows (s : State) (t : TeamId) (core : Nat) (q : MemQ) (p : Place) (bs : List Byte) :
    KeepsRows s (writePlace s t core q p bs) := by
  cases p with
  | pa a m => exact .ite (.of_teams rfl) (storeL1_rows _ _ _ _ _ _ _)
  | spad u off => exact spadWrite_rows _ _ _ _ _
  | l3 k off => exact .of_teams rfl

theorem sendReq_teams (s : State) (part : Nat) (f : Fn) (port : Option Nat) (a : Nat) (op : ReqOp) (who : ReqFor) (fwd : Bool) :
    (sendReq s part f port a op who fwd).teams = s.teams := by
  unfold sendReq
  dsimp only
  split <;> rfl

/-- A write over checked parts leaves every swarm its rows when each write of a part does. -/
theorem postParts_rows {w : State → Place → List Byte → State} (hw : ∀ s p bs, KeepsRows s (w s p bs)) (tm : Team) (key : Nat)
    (ps : List (Place × Nat)) (s : State) (bs : List Byte) : KeepsRows s (postParts tm key w s ps bs) := by
  induction ps generalizing s bs with
  | nil => exact .rfl
  | cons q ps ih =>
    refine KeepsRows.trans ?_ (ih _ _)
    split
    · exact .of_teams (sendReq_teams _ _ _ _ _ _ _ _)
    · exact hw _ _ _

/-! ### Checks of an address -/

theorem tlbFill_teams (s : State) (x : Xlat) : (tlbFill s x).teams = s.teams := by
  unfold tlbFill
  split
  · split <;> rfl
  · rfl

theorem locateG_teams (s : State) (tm : Team) (lv : Level) (ask : Ask) (a : Nat) : (locateG s tm lv ask a).1.teams = s.teams := by
  unfold locateG
  split
  · rfl
  · split
    · rfl
    · dsimp only
      split
      · exact tlbFill_teams _ _
      · exact tlbFill_teams _ _

/-- The checks of a span that pass meet no watchpoint, so they change no team. -/
theorem locateParts_teams {tm : Team} {lv : Level} {q : SpanAsk} {rs : List (Nat × Nat)} {s s1 : State} {ps : List (Place × Nat)}
    (h : locateParts tm lv q s rs = (s1, .ok ps)) : s1.teams = s.teams := by
  induction rs generalizing s s1 ps with
  | nil =>
    cases h
    rfl
  | cons r rs ih =>
    obtain ⟨a, n⟩ := r
    unfold locateParts at h
    dsimp only at h
    split at h
    · cases h
    · split at h
      · cases h
      · split at h
        · cases h
        · next s2 p f hone =>
          have hfirst : s2.teams = s.teams := by
            rw [← locateG_teams s tm lv, hone]
          split at h
          · cases h
          · next s3 qs hrest =>
            cases h
            exact (ih hrest).trans hfirst

end Sys2Proof.Machine
end

section
/-!
PROOFS. The events of a context (R76, R315, R320, R325 to R328, R334): how its swarms enter a handler together, how a request stops
and then enters them, what an acquire with nothing to write back leaves of the tables and so of a handler's entry, and the
delivery, wake, retirement and spill.
-/
namespace Sys2Proof.Machine

/-! ### Teams and swarms by name -/

theorem findSwarm_mem {tm : Team} {n : Nat} {sw : Swarm} (h : findSwarm tm n = some sw) : sw ∈ tm.swarms :=
  List.mem_of_find?_eq_some h

theorem mem_liveSwarms {tm : Team} {sw : Swarm} : sw ∈ liveSwarms tm ↔ sw ∈ tm.swarms ∧ sw.kind = .team ∧ sw.ended = false := by
  simp [liveSwarms]

/-- The first swarm that has a live swarm's number. -/
theorem findSwarm_of_live {tm : Team} {x : Swarm} (h : x ∈ liveSwarms tm) : ∃ y, findSwarm tm x.num = some y :=
  Option.isSome_iff_exists.1 (List.find?_isSome.2 ⟨x, (mem_liveSwarms.1 h).1, beq_self_eq_true _⟩)

theorem swarmAt_of_findTeam {s : State} {t : TeamId} {tm : Team} (h : findTeam s t = some tm) (n : Nat) :
    swarmAt s t n = findSwarm tm n := by
  unfold swarmAt
  rw [h]
  rfl

/-- A team after an update of it. -/
theorem findTeam_updTeam_self {s : State} {t : TeamId} {tm : Team} {f : Team → Team} (hid : ∀ x, (f x).id = x.id)
    (h : findTeam s t = some tm) : findTeam (updTeam s t f) t = some (f tm) := by
  rw [findTeam_updTeam hid, h, Option.map_some, if_pos rfl]

/-! ### Entering a handler (R317) -/

theorem settleCtx_cases (tm : Team) : ∃ st, settleCtx tm = { tm with st := st } ∧ (tm.st = .loading → st = .loading) := by
  unfold settleCtx
  split
  · next h => split <;> exact ⟨_, rfl, fun hl => by simp [hl] at h⟩
  · next h => split <;> exact ⟨_, rfl, fun hl => by simp [hl] at h⟩
  · exact ⟨tm.st, rfl, id⟩

section
variable (l : Level) (pc : DWord) (i : TrapInfo) (from_ : Level) (a : DWord) (frg : Option (DWord × Word × DWord × Nat))

/-- A swarm that has entered a handler. -/
def enterSwarm (sw : Swarm) : Swarm :=
  { sw with mode := .handler l i.cause, frame := freshFrame pc 32 0 32, hidden := some (progFrame sw),
            trapc := trapcWord i from_ l, trapa := a, frg := frg, off := false, stopped := false }

/-- A team one of whose swarms has entered a handler. -/
def enterTeam (k : Nat) (tm : Team) : Team :=
  settleCtx (updSwarmIn (stopMma tm k) k (enterSwarm l pc i from_ a frg))

theorem enterTeam_cases (k : Nat) (tm : Team) : ∃ st mmas, enterTeam l pc i from_ a frg k tm =
    { updSwarmIn tm k (enterSwarm l pc i from_ a frg) with st := st, mmas := mmas } ∧ (tm.st = .loading → st = .loading) := by
  obtain ⟨st, heq, hload⟩ := settleCtx_cases (updSwarmIn (stopMma tm k) k (enterSwarm l pc i from_ a frg))
  exact ⟨st, _, heq, hload⟩

theorem findTeam_enterHandler (s : State) (t : TeamId) (k : Nat) :
    findTeam (enterHandler s t k l pc i from_ a frg) t = (findTeam s t).map (enterTeam l pc i from_ a frg k) := by
  have hid (x : Team) : (enterTeam l pc i from_ a frg k x).id = x.id := by
    obtain ⟨st, mmas, heq, -⟩ := enterTeam_cases l pc i from_ a frg k x
    rw [heq]
    rfl
  refine (findTeam_updTeam (s := dropHandler s t k) (t := t) (f := enterTeam l pc i from_ a frg k) hid).trans ?_
  simp only [if_true]
  rfl

theorem swarmAt_enterHandler (s : State) (t : TeamId) (k n : Nat) :
    swarmAt (enterHandler s t k l pc i from_ a frg) t n =
      (swarmAt s t n).map fun x => if n = k then enterSwarm l pc i from_ a frg x else x := by
  unfold swarmAt
  rw [findTeam_enterHandler]
  cases findTeam s t with
  | none => rfl
  | some tm =>
    obtain ⟨st, mmas, heq, -⟩ := enterTeam_cases l pc i from_ a frg k tm
    simp only [Option.map_some, Option.bind_some, heq]
    exact findSwarm_updSwarmIn fun _ => rfl

/-- Swarms of a team enter a handler one after the other. -/
def enterAll (t : TeamId) (sws : List Swarm) (s : State) : State :=
  sws.foldl (fun s sw => enterHandler s t sw.num l pc i from_ a frg) s

/-- What entering leaves of a swarm, its trap word apart. -/
structure Entered (y : Swarm) : Prop where
  mode   : y.mode = .handler l i.cause
  frame  : y.frame = freshFrame pc 32 0 32
  hidden : y.hidden.isSome = true
  trapa  : y.trapa = a

theorem swarmAt_enterAll_other {t : TeamId} {n : Nat} {sws : List Swarm} (hn : n ∉ sws.map Swarm.num) (s : State) :
    swarmAt (enterAll l pc i from_ a frg t sws s) t n = swarmAt s t n := by
  unfold enterAll
  induction sws generalizing s with
  | nil => rfl
  | cons sw sws ih =>
    simp only [List.map_cons, List.mem_cons, not_or] at hn
    rw [List.foldl_cons, ih hn.2, swarmAt_enterHandler]
    simp [hn.1]

/-- Every swarm whose number is entered has entered. -/
theorem enterAll_entered {t : TeamId} {n : Nat} {sws : List Swarm} (hn : n ∈ sws.map Swarm.num) {s : State} {x : Swarm}
    (hx : swarmAt s t n = some x) :
    ∃ y, swarmAt (enterAll l pc i from_ a frg t sws s) t n = some y ∧ Entered l pc i a y := by
  induction sws generalizing s x with
  | nil => cases hn
  | cons sw sws ih =>
    have hstep := swarmAt_enterHandler l pc i from_ a frg s t sw.num n
    rw [hx, Option.map_some] at hstep
    by_cases hlater : n ∈ sws.map Swarm.num
    · exact ih hlater hstep
    · have hnow : n = sw.num := by simpa [hlater] using hn
      rw [if_pos hnow] at hstep
      exact ⟨_, (swarmAt_enterAll_other l pc i from_ a frg hlater _).trans hstep, rfl, rfl, rfl, rfl⟩

/-- A context that is loaded stays so on its core while its swarms enter. -/
theorem enterAll_loading {t : TeamId} {core : Nat} {s : State} {x : Team} (hx : findTeam s t = some x) (hcore : x.core = core)
    (hst : x.st = .loading) (sws : List Swarm) :
    ∃ y, findTeam (enterAll l pc i from_ a frg t sws s) t = some y ∧ y.core = core ∧ y.st = .loading := by
  refine foldl_keeps (fun s : State => ∃ y, findTeam s t = some y ∧ y.core = core ∧ y.st = .loading) _ ?_ sws s ⟨x, hx, hcore, hst⟩
  rintro s sw ⟨y, hy, hycore, hyst⟩
  obtain ⟨st, mmas, heq, hload⟩ := enterTeam_cases l pc i from_ a frg sw.num y
  have hnew := findTeam_enterHandler l pc i from_ a frg s t sw.num
  rw [hy, Option.map_some, heq] at hnew
  exact ⟨_, hnew, hycore, hload hyst⟩

end

/-! ### Pre-emption (R325, R327) -/

section
variable {s : State} {t : TeamId} {n : Nat} {tm : Team} {sw : Swarm}

/-- R327: while a live swarm has not stopped, no swarm enters. -/
theorem preemptGo_waits (ht : findTeam s t = some tm) (hopen : ∃ x ∈ liveSwarms tm, x.stopped = false) : preemptGo s t = s := by
  have hall : ((liveSwarms tm).all fun x => x.stopped && x.mode == .program) = false := by
    obtain ⟨x, hx, hstop⟩ := hopen
    exact List.all_eq_false.2 ⟨x, hx, by simp [hstop]⟩
  unfold preemptGo
  rw [ht]
  dsimp only
  split
  · simp [hall]
  · rfl

/-- R216: an operation that has ended is written no more. -/
theorem writeDone_ended (hops : ∀ e ∈ tm.engs, ∀ o ∈ e.ops, o.ended = true) : writeDone s tm = s := by
  have hnone (e : EngCtx) (he : e ∈ tm.engs) :
      (e.ops.filter fun o => !o.task && o.stat == 1 && (o.started || !o.walked)) = [] := by
    refine List.filter_eq_nil_iff.2 fun o ho => ?_
    have hstat : 3 ≤ o.stat := of_decide_eq_true (hops e he o ho)
    have hne : o.stat ≠ 1 := by omega
    simp [hne]
  unfold writeDone
  generalize hengs : tm.engs = engs at hnone
  clear hengs
  induction engs with
  | nil => rfl
  | cons e engs ih =>
    rw [List.foldl_cons, hnone e List.mem_cons_self]
    exact ih fun e' he' => hnone e' (List.mem_cons_of_mem e he')

/-- R327: once every live swarm stands at its point and nothing is under way, all enter PENT of the requesting level. -/
theorem preemptGo_enters {lv : Level} {at_ r : Nat} {pc : DWord} (ht : findTeam s t = some tm) (hst : tm.st = .preempting)
    (hreq : tm.preempt = some (lv, at_, r)) (hlive : liveSwarms tm ≠ [])
    (hstop : ∀ x ∈ liveSwarms tm, x.stopped = true ∧ x.mode = .program) (hdrain : teamDrained s tm = true)
    (hops : ∀ e ∈ tm.engs, ∀ o ∈ e.ops, o.ended = true) (hpc : entryAt s tm.part tm.slice lv r .pent = some pc) :
    preemptGo s t = enterAll lv pc { cause := 0x40 } .prog 0 none t (liveSwarms tm)
      (updTeam s t fun tm => { tm with entered := true }) := by
  have hall : ((liveSwarms tm).all fun x => x.stopped && x.mode == .program) = true :=
    List.all_eq_true.2 fun x hx => by simp [hstop x hx]
  unfold preemptGo
  rw [ht]
  dsimp only
  rw [hst, hreq]
  dsimp only
  rw [writeDone_ended hops, hpc, hall, hdrain, if_neg (by simpa using hlive)]
  rfl

/-- A swarm that stands at its point. -/
def stopAt (i : Option Instr) (sw : Swarm) : Swarm := { sw with stopped := true, frame := joinLive i sw.frame }

/-- R325, R327: the event of a swarm that already stands at its point. -/
theorem execPreemptPointStop_stopped (ht : findTeam s t = some tm) (hsw : findSwarm tm n = some sw) (hst : tm.st = .preempting)
    (hkind : sw.kind = .team) (hended : sw.ended = false) (hstop : sw.stopped = true) :
    execPreemptPointStop t n s = .next (preemptGo s t) := by
  unfold execPreemptPointStop
  simp only [ht, Option.bind_some, hsw]
  rw [if_neg (by simp [hst, hkind, hended]), if_pos hstop]

/-- R325: a swarm that does not stand at a point goes on. -/
theorem execPreemptPointStop_none (ht : findTeam s t = some tm) (hsw : findSwarm tm n = some sw) (hst : tm.st = .preempting)
    (hkind : sw.kind = .team) (hended : sw.ended = false) (hstop : sw.stopped = false) (hpoint : pointOf s tm sw = none) :
    execPreemptPointStop t n s = .next s := by
  unfold execPreemptPointStop
  simp only [ht, Option.bind_some, hsw, hpoint]
  rw [if_neg (by simp [hst, hkind, hended]), if_neg (by simp [hstop])]

/-- R325, R327: a swarm that stands at a point stops there. -/
theorem execPreemptPointStop_some {i : Option Instr} (ht : findTeam s t = some tm) (hsw : findSwarm tm n = some sw)
    (hst : tm.st = .preempting) (hkind : sw.kind = .team) (hended : sw.ended = false) (hstop : sw.stopped = false)
    (hpoint : pointOf s tm sw = some i) : execPreemptPointStop t n s =
      .next (preemptGo (updTeam s t fun tm => updSwarmIn (stopMma tm n) n (stopAt i)) t) := by
  unfold execPreemptPointStop
  simp only [ht, Option.bind_some, hsw, hpoint]
  rw [if_neg (by simp [hst, hkind, hended]), if_neg (by simp [hstop])]
  rfl

/-- R327: one swarm of several stops at its point, and waits for the others. -/
theorem execPreemptPointStop_waits {i : Option Instr} (ht : findTeam s t = some tm) (hsw : findSwarm tm n = some sw)
    (hst : tm.st = .preempting) (hkind : sw.kind = .team) (hended : sw.ended = false) (hstop : sw.stopped = false)
    (hpoint : pointOf s tm sw = some i) (hopen : ∃ x ∈ liveSwarms tm, x.num ≠ n ∧ x.stopped = false) :
    ∃ u, execPreemptPointStop t n s = .next u ∧ swarmAt u t n = some (stopAt i sw) := by
  have hteam := findTeam_updTeam_self (f := fun tm => updSwarmIn (stopMma tm n) n (stopAt i)) (fun _ => rfl) ht
  have hswarm : findSwarm (updSwarmIn (stopMma tm n) n (stopAt i)) n = some (stopAt i sw) := by
    have hupd := findSwarm_updSwarmIn (tm := stopMma tm n) (n := n) (k := n) (f := stopAt i) fun _ => rfl
    have hold : findSwarm (stopMma tm n) n = some sw := hsw
    rw [hupd, hold, Option.map_some, if_pos rfl]
  have hother : ∃ x ∈ liveSwarms (updSwarmIn (stopMma tm n) n (stopAt i)), x.stopped = false := by
    obtain ⟨x, hx, hnum, hxstop⟩ := hopen
    obtain ⟨hmem, hxkind, hxended⟩ := mem_liveSwarms.1 hx
    refine ⟨x, mem_liveSwarms.2 ⟨?_, hxkind, hxended⟩, hxstop⟩
    exact List.mem_map.2 ⟨x, hmem, if_neg (by simpa using hnum)⟩
  refine ⟨_, execPreemptPointStop_some ht hsw hst hkind hended hstop hpoint, ?_⟩
  rw [preemptGo_waits hteam hother, swarmAt_of_findTeam hteam, hswarm]

/-- R327: with the last swarm at its point, every live swarm enters PENT. -/
theorem execPreemptPointStop_enters {lv : Level} {at_ r : Nat} {pc : DWord} (ht : findTeam s t = some tm)
    (hsw : findSwarm tm n = some sw) (hst : tm.st = .preempting) (hreq : tm.preempt = some (lv, at_, r)) (hkind : sw.kind = .team)
    (hended : sw.ended = false) (hstopped : sw.stopped = true)
    (hstop : ∀ x ∈ liveSwarms tm, x.stopped = true ∧ x.mode = .program) (hdrain : teamDrained s tm = true)
    (hops : ∀ e ∈ tm.engs, ∀ o ∈ e.ops, o.ended = true) (hpc : entryAt s tm.part tm.slice lv r .pent = some pc) :
    ∃ u, execPreemptPointStop t n s = .next u ∧ ∀ x ∈ liveSwarms tm, ∃ y, swarmAt u t x.num = some y ∧
      Entered lv pc { cause := 0x40 } 0 y := by
  have hlive : liveSwarms tm ≠ [] := List.ne_nil_of_mem (mem_liveSwarms.2 ⟨findSwarm_mem hsw, hkind, hended⟩)
  have hteam := findTeam_updTeam_self (f := fun tm => { tm with entered := true }) (fun _ => rfl) ht
  refine ⟨_, execPreemptPointStop_stopped ht hsw hst hkind hended hstopped, fun x hx => ?_⟩
  rw [preemptGo_enters ht hst hreq hlive hstop hdrain hops hpc]
  obtain ⟨z, hz⟩ := findSwarm_of_live hx
  exact enterAll_entered lv pc _ .prog 0 none (List.mem_map_of_mem hx) ((swarmAt_of_findTeam hteam _).trans hz)

/-- R327: a request is overdue 2 ms after it was accepted. -/
def overdueNow (pulse : DWord) (tm : Team) : Bool :=
  match tm.st, tm.preempt with
  | .preempting, some (_, at_, _) => decide (at_ + 2000000 ≤ pulse.toNat)
  | _, _ => false

theorem overdueNow_requested {pulse : DWord} {lv : Level} {at_ r : Nat} (hst : tm.st = .preempting)
    (hreq : tm.preempt = some (lv, at_, r)) : overdueNow pulse tm = decide (at_ + 2000000 ≤ pulse.toNat) := by
  unfold overdueNow
  rw [hst, hreq]

theorem overdueNow_other {pulse : DWord} (hnot : ∀ lv at_ r, tm.st = .preempting → tm.preempt = some (lv, at_, r) → False) :
    overdueNow pulse tm = false := by
  unfold overdueNow
  split
  · next hst hreq => exact (hnot _ _ _ hst hreq).elim
  · rfl

theorem execPreemptOverdue_eq (s : State) (t : TeamId) : execPreemptOverdue t s =
    .next (updTeam s t fun tm => { tm with overdue := tm.overdue || overdueNow s.pulse tm }) := by
  unfold execPreemptOverdue
  congr 2
  funext tm
  split
  · next hst hreq =>
    rw [overdueNow_requested hst hreq]
    split
    · next hlate => simp [hlate]
    · next hearly => simp [hearly]
  · next hnot => simp [overdueNow_other hnot]

end

/-! ### Delivery, wake and retirement (R315, R320, R328) -/

section
variable {s : State} {t : TeamId} {n : Nat} {tm : Team} {sw : Swarm}

/-- A swarm with an empty operand log has nothing to perform. -/
theorem drainAll_of_log_nil (h : swarmAt s t n = some sw) (hlog : sw.frame.log = []) : drainAll s t n = s := by
  have hfind : ((findTeam s t).bind fun tm => findSwarm tm n) = some sw := h
  unfold drainAll
  rw [hfind]
  simp only [pendingCount, hlog]
  rfl

/-- R320: a trap that no swarm of its own stops is due to the lowest-numbered live swarm in its program. -/
theorem dueTrap_shared {p : PendTrap} {ps : List PendTrap} (htraps : tm.traps = p :: ps)
    (hshared : ∀ x ∈ liveSwarms tm, p.sw ≠ some x.num)
    (hfirst : (liveSwarms tm).find? (fun x => x.mode == .program) = some sw) : dueTrap tm = some (sw.num, p) := by
  have hown : (liveSwarms tm).find? (fun x => p.sw == some x.num) = none :=
    List.find?_eq_none.2 fun x hx => by simpa using hshared x hx
  unfold dueTrap
  simp only [htraps, hown, hfirst]
  rfl

/-- The trap of a team's oldest pending imprecise trap, taken by the live lanes of a swarm. -/
theorem deliverTrap_shared {p : PendTrap} (ht : findTeam s t = some tm) (hsw : findSwarm tm n = some sw)
    (hdue : dueTrap tm = some (n, p)) (hlog : sw.frame.log = []) (hwps : p.wps = 0) :
    deliverTrap s t = takeTrap (updTeam s t fun x => { x with traps := x.traps.drop 1 }) t n (liveLanes sw.frame)
      { cause := p.cause, imp := true, frg := p.frg, lane := (lowest (liveLanes sw.frame)).getD 0 } p.addr
      (some (p.rseq, p.bseq, p.addr, p.merges)) := by
  have hat : swarmAt s t n = some sw := (swarmAt_of_findTeam ht n).trans hsw
  have hopen : openLanes sw.frame = 0 := by rw [openLanes, hlog]; rfl
  have hnone : lanesOf ((0 : BitVec 4).setWidth 32) = [] := by decide
  unfold deliverTrap
  simp only [ht, hdue, drainAll_of_log_nil hat hlog, Option.bind_some, hsw, hopen, hwps, hnone]
  rfl

theorem execImpreciseTrapDelivery_runs {p : PendTrap} (ht : findTeam s t = some tm) (hsw : findSwarm tm n = some sw)
    (hdue : dueTrap tm = some (n, p)) (hlog : sw.frame.log = []) (hteam : teamRuns s tm = true) (hswarm : swarmRuns tm sw = true) :
    execImpreciseTrapDelivery t s = .next (deliverTrap s t) := by
  have hclean : firstFault sw.frame = none := by rw [firstFault, hlog]; rfl
  unfold execImpreciseTrapDelivery
  simp only [ht, hdue, hsw, hclean, hswarm, hteam]
  rfl

/-- R328: a wait that has fired makes a Parked context Saved. -/
theorem execParkedWake_fired (ht : findTeam s t = some tm) (hst : tm.st = .parked)
    (hfired : ∃ x ∈ liveSwarms tm, ∃ l ∈ x.frame.lanes, l.exited = false ∧ l.woken = true) :
    ∃ u, execParkedWake t s = .next u ∧ { u with teams := s.teams } = s ∧ findTeam u t = some { tm with st := .saved } := by
  have hany : ((liveSwarms tm).any fun sw => sw.frame.lanes.any fun l => !l.exited && l.woken) = true := by
    simpa [List.any_eq_true] using hfired
  refine ⟨_, rfl, rfl, ?_⟩
  rw [findTeam_updTeam_self ?_ ht, if_pos ⟨hst, hany⟩]
  intro x
  split <;> rfl

/-- R315: a Faulted context retires: its swarms end and its fault record goes. -/
theorem execFaultedRetire_faulted (ht : findTeam s t = some tm) (hst : tm.st = .faulted) :
    ∃ u, execFaultedRetire t s = .next u ∧ (∀ f ∈ u.faults, f.team ≠ t) ∧
      ∀ x ∈ u.teams, x.id = t → x.st = .retired ∧ ∀ y ∈ x.swarms, y.ended = true := by
  unfold execFaultedRetire
  simp only [ht, hst, ne_eq, not_true, if_false]
  refine ⟨_, rfl, fun f hf => ?_, fun x hx hid => ?_⟩
  · simpa using (List.mem_filter.1 hf).2
  · obtain ⟨x0, -, rfl⟩ := List.mem_map.1 hx
    by_cases hself : (x0.id == t) = true
    · rw [if_pos hself]
      refine ⟨rfl, fun y hy => ?_⟩
      obtain ⟨y0, -, rfl⟩ := List.mem_map.1 hy
      rfl
    · rw [if_neg hself] at hid
      exact absurd (beq_iff_eq.2 hid) hself

/-! ### Register spilling (R76) -/

theorem postWay_here {ps : List (Place × Nat)} (h : ∀ p ∈ ps, wayOf s tm true p.1 = .here) : postWay s tm ps = .here := by
  unfold postWay partsWay
  induction ps with
  | nil => rfl
  | cons p ps ih =>
    rw [List.foldl_cons, h p List.mem_cons_self]
    exact ih fun q hq => h q (List.mem_cons_of_mem p hq)

/-- R76: a row whose bytes can be written is spilled, and every register keeps its words. -/
theorem spillRow_here {k : Nat} {s1 : State} {ps : List (Place × Nat)} (hid : tm.id = t) (hnum : sw.num = n)
    (hsw : swarmAt s t n = some sw)
    (hspan : locateSpan s tm tm.level ⟨.write, false, false, none⟩ (spillAddr tm sw.num k) 128 = (s1, .ok ps))
    (hway : ∀ p ∈ ps, wayOf s1 tm true p.1 = .here) :
    ∃ y, swarmAt (spillRow s tm sw k) t n = some y ∧ progRows y = ((progFrame sw).spilled ||| (1#512 <<< k), (progFrame sw).regs) := by
  let s2 := postParts tm 0 (fun s p bs => writePlace s tm.id tm.core plainQ p bs) s1 ps (rowBytes (progFrame sw) k)
  have hrows : rowsAt s2 t n = some (progRows sw) := by
    have hkeeps : KeepsRows s s2 := (KeepsRows.of_teams (locateParts_teams hspan)).trans
      (postParts_rows (fun _ _ _ => writePlace_rows _ _ _ _ _ _) _ _ _ _ _)
    rw [hkeeps t n, rowsAt, hsw]
    rfl
  obtain ⟨x, hx, hxrows⟩ := Option.map_eq_some_iff.1 hrows
  have hspill : spillRow s tm sw k =
      updSwarm s2 t n (updProgFrame fun fr => { fr with spilled := fr.spilled ||| (1#512 <<< k) }) := by
    unfold spillRow
    rw [hspan]
    simp only [postWay_here hway, ← hid, ← hnum]
    rfl
  refine ⟨_, hspill ▸ swarmAt_updSwarm_self (updProgFrame_num _) hx, ?_⟩
  unfold progRows at hxrows ⊢
  rw [progFrame_updProgFrame]
  obtain ⟨hsp, hregs⟩ := Prod.mk.inj hxrows
  rw [hsp, hregs]

theorem execRegisterSpill_first {core k : Nat} {rest : List (Team × Swarm × Nat)} (h : spillList s core none = (tm, sw, k) :: rest) :
    execRegisterSpill core s = .next (spillRow s tm sw k) := by
  unfold execRegisterSpill
  rw [h]

end

end Sys2Proof.Machine
end

section
/-!
PROOFS. A core takes a saved context (R334): what the walks of the tables and so a handler's entry rest on, what an acquire
with nothing to write back leaves of it, the seats of the swarms, and their entry into RENT. With the other events of a
context this settles O43.
-/
namespace Sys2Proof.Machine

/-! ### What the walks of the tables rest on (R344, R346) -/

/-- Memories that hold the same tables: bytes, pages that move and withdrawn banks. -/
structure SameTables (m m' : MemSys) : Prop where
  ram       : m'.ram = m.ram
  moving    : m'.moving = m.moving
  stackSts  : m'.stackSts = m.stackSts

namespace SameTables
variable {m m' : MemSys} (h : SameTables m m')
include h

theorem ramVal_eq (a n : Nat) : ramVal m' a n = ramVal m a n := by
  unfold ramVal
  rw [h.ram]

theorem readEnt_eq : readEnt m' = readEnt m := by
  funext a
  unfold readEnt
  rw [h.ramVal_eq]

theorem withdrawn_eq (a : Nat) : withdrawn m' a = withdrawn m a := by
  unfold withdrawn stackOf
  rw [h.stackSts]

theorem walkGo_eq (rd : Nat → Except (Nat × Nat) Nat) (stage va : Nat) (levels : List Nat) (base : Nat) :
    walkGo m' rd stage va levels base = walkGo m rd stage va levels base := by
  induction levels generalizing base with
  | nil => rfl
  | cons level more ih =>
    unfold walkGo
    simp only [ih, h.moving]

theorem walkStage_eq (rd : Nat → Except (Nat × Nat) Nat) (stage root va : Nat) :
    walkStage m' rd stage root va = walkStage m rd stage root va := by
  unfold walkStage
  rw [h.walkGo_eq]

theorem walk3_eq (r : Roots) : walk3 m' r = walk3 m r := by
  funext a
  unfold walk3
  simp only [h.readEnt_eq, h.walkStage_eq, h.withdrawn_eq]

theorem read2_eq (r : Roots) : read2 m' r = read2 m r := by
  funext a
  unfold read2
  rw [h.walk3_eq, h.readEnt_eq]

theorem walk2_eq (r : Roots) : walk2 m' r = walk2 m r := by
  funext a
  unfold walk2
  rw [h.read2_eq, h.walkStage_eq]

theorem read1_eq (r : Roots) : read1 m' r = read1 m r := by
  funext a
  unfold read1
  rw [h.walk2_eq, h.read2_eq]

theorem walk1_eq (r : Roots) : walk1 m' r = walk1 m r := by
  funext a
  unfold walk1
  rw [h.read1_eq, h.walkStage_eq]

end SameTables

section
variable {s s' : State} (hparts : s'.parts = s.parts)
include hparts

theorem findSlice_sameParts (p k : Nat) : findSlice s' p k = findSlice s p k := by
  unfold findSlice findPart
  rw [hparts]

theorem handlerAddr_sameParts (p k : Nat) (l : Level) : handlerAddr s' p k l = handlerAddr s p k l := by
  unfold handlerAddr
  rw [findSlice_sameParts hparts]
  unfold findPart
  rw [hparts]

theorem rootsOf_sameParts (p k asn : Nat) : rootsOf s' p k asn = rootsOf s p k asn := by
  unfold rootsOf
  rw [findSlice_sameParts hparts]
  unfold findPart
  rw [hparts]

variable (hm : SameTables s.m s'.m)
include hm

theorem walkAll_sameTables (clus p k asn : Nat) (l : Level) (need : AccNeed) (va : Nat) :
    walkAll s' clus p k asn l need va = walkAll s clus p k asn l need va := by
  unfold walkAll
  simp only [rootsOf_sameParts hparts, hm.walk1_eq, hm.walk2_eq, hm.walk3_eq]

/-- R316: the same tables give a route the same entry. -/
theorem handlerEntry_sameTables {tm tm' : Team} (hpart : tm'.part = tm.part) (hslice : tm'.slice = tm.slice) (l : Level)
    (e : EntrySel) : handlerEntry s' tm' l e = handlerEntry s tm l e := by
  unfold handlerEntry entryAt handlerRec
  simp only [hpart, hslice, handlerAddr_sameParts hparts, walkAll_sameTables hparts hm, hm.ramVal_eq]

end

/-! ### An acquire with nothing to write back (R143, R168) -/

theorem flushL1_clean {s : State} {core : Nat} {p : L1Line → Bool}
    (hclean : ∀ x ∈ s.m.l1, x.core = core → p x = true → x.dirty = 0) :
    flushL1 s core p = { s with m := { s.m with l1 := s.m.l1.filter fun x => !(x.core == core && p x) } } := by
  have hnone : (s.m.l1.filter fun x => x.core == core && x.dirty != 0 && p x) = [] := by
    refine List.filter_eq_nil_iff.2 fun x hx hpick => ?_
    simp only [Bool.and_eq_true, beq_iff_eq, bne_iff_ne] at hpick
    obtain ⟨⟨hcore, hdirty⟩, hp⟩ := hpick
    exact hdirty (hclean x hx hcore hp)
  unfold flushL1 writeBackAll
  rw [hnone]
  rfl

/-- R143: with no dirty SWC line in the core's L1, an acquire changes the caches and queues alone. -/
theorem acquire_clean {s : State} {core : Nat} (hclean : ∀ x ∈ s.m.l1, x.core = core → x.mode = .swc → x.dirty = 0) :
    (acquire s core .pkg).teams = s.teams ∧ (acquire s core .pkg).parts = s.parts ∧ SameTables s.m (acquire s core .pkg).m := by
  obtain ⟨m', hacq, htables⟩ : ∃ m', acquire s core .pkg = { s with m := m' } ∧ SameTables s.m m' := by
    refine ⟨_, flushL1_clean fun x hx hcore hmode => ?_, rfl, rfl, rfl⟩
    exact hclean x (List.mem_filter.1 hx).1 hcore (beq_iff_eq.1 hmode)
  rw [hacq]
  exact ⟨rfl, rfl, htables⟩

/-! ### The seats of a context that is loaded (R334) -/

theorem findSwarm_isSome {tm : Team} {n : Nat} : (findSwarm tm n).isSome = true ↔ n ∈ tm.swarms.map Swarm.num := by
  simp [findSwarm]

theorem map_num_seat (ks : List Nat) (sws : List Swarm) : (seat ks sws).map Swarm.num = sws.map Swarm.num := by
  induction sws generalizing ks with
  | nil => rfl
  | cons sw sws ih =>
    unfold seat
    split <;> rw [List.map_cons, List.map_cons, ih]

theorem loadSwarm_num (tm : Team) (xlgw : Nat) (sw : Swarm) : (loadSwarm tm xlgw sw).num = sw.num := by
  unfold loadSwarm
  split <;> rfl

/-- A context that a core has taken, its swarms in their seats. -/
def seated (s : State) (t : TeamId) (core : Nat) (tm : Team) : Team :=
  seatTeam { s with m := { s.m with mons := s.m.mons.filter fun x => x.team != t } }
    { tm with core := core, st := .loading, swarms := tm.swarms.map (loadSwarm tm (gridXlgw s t)) }

theorem map_num_seated (s : State) (t : TeamId) (core : Nat) (tm : Team) :
    (seated s t core tm).swarms.map Swarm.num = tm.swarms.map Swarm.num := by
  have hload : Swarm.num ∘ loadSwarm tm (gridXlgw s t) = Swarm.num := funext fun sw => loadSwarm_num _ _ sw
  refine (map_num_seat _ _).trans ?_
  rw [List.map_map, hload]

/-- The machine once a core has taken a context, before its acquire. -/
def takeCore (s : State) (core : Nat) (tm : Team) : State :=
  let s2 := updTeam { s with m := { s.m with mons := s.m.mons.filter fun x => x.team != tm.id } } tm.id (seated s tm.id core)
  match tm.gang with
  | some (n, k) => updGang s2 n fun g => { g with cores := g.cores.set k core }
  | none => s2

/-- The machine at the entries of a context that a core has taken: its swarms are seated, and tables and handlers as they were. -/
theorem acquire_takeCore {s : State} {core : Nat} (tm : Team)
    (hclean : ∀ x ∈ s.m.l1, x.core = core → x.mode = .swc → x.dirty = 0) :
    let s3 := acquire (takeCore s core tm) core .pkg
    s3.teams = (updTeam s tm.id (seated s tm.id core)).teams ∧ s3.parts = s.parts ∧ SameTables s.m s3.m := by
  have htake : (takeCore s core tm).teams = (updTeam s tm.id (seated s tm.id core)).teams ∧ (takeCore s core tm).parts = s.parts ∧
      (takeCore s core tm).m = { s.m with mons := s.m.mons.filter fun x => x.team != tm.id } := by
    unfold takeCore
    split <;> exact ⟨rfl, rfl, rfl⟩
  obtain ⟨hteams, hparts, hm⟩ := htake
  obtain ⟨hateams, haparts, htables⟩ := acquire_clean (s := takeCore s core tm) (core := core) (by rw [hm]; exact hclean)
  rw [hm] at htables
  exact ⟨hateams.trans hteams, haparts.trans hparts, htables.ram, htables.moving, htables.stackSts⟩

/-- R334: with a handler in the table of the level that saved, every live swarm enters RENT. -/
theorem loadTeam_enters {s : State} {core : Nat} {tm x : Team} {pc : DWord}
    (hx : findTeam (acquire (takeCore s core tm) core .pkg) tm.id = some x)
    (hpc : handlerEntry (acquire (takeCore s core tm) core .pkg) x tm.saver .rent = some pc) :
    loadTeam s tm core = enterAll tm.saver pc { cause := 0x41 } .prog tm.token none tm.id (liveSwarms tm)
      (acquire (takeCore s core tm) core .pkg) := by
  have hbind : ((findTeam (acquire (takeCore s core tm) core .pkg) tm.id).bind fun x =>
      handlerEntry (acquire (takeCore s core tm) core .pkg) x tm.saver .rent) = some pc := by
    rw [hx, Option.bind_some, hpc]
  unfold loadTeam
  dsimp only
  split
  · next heq =>
    cases heq.symm.trans hbind
    rfl
  · next heq => cases heq.symm.trans hbind

/-- R334: the core takes the context, whose live swarms stand at RENT with the resume token. -/
theorem loadTeam_loads {s : State} {t : TeamId} {core n : Nat} {tm : Team} {sw : Swarm} {pc : DWord} (ht : findTeam s t = some tm)
    (hsw : findSwarm tm n = some sw) (hlive : sw ∈ liveSwarms tm)
    (hclean : ∀ x ∈ s.m.l1, x.core = core → x.mode = .swc → x.dirty = 0) (hpc : handlerEntry s tm tm.saver .rent = some pc) :
    ∃ tm' y, findTeam (loadTeam s tm core) t = some tm' ∧ tm'.core = core ∧ tm'.st = .loading ∧ findSwarm tm' n = some y ∧
      Entered tm.saver pc { cause := 0x41 } tm.token y := by
  obtain rfl := findTeam_id ht
  obtain ⟨hteams, hparts, htables⟩ := acquire_takeCore tm hclean
  have hteam : findTeam (acquire (takeCore s core tm) core .pkg) tm.id = some (seated s tm.id core tm) := by
    unfold findTeam
    rw [hteams]
    exact findTeam_updTeam_self (fun _ => rfl) ht
  rw [loadTeam_enters hteam ((handlerEntry_sameTables hparts htables rfl rfl _ _).trans hpc)]
  have hnum : n ∈ (liveSwarms tm).map Swarm.num := List.mem_map.2 ⟨sw, hlive, findSwarm_num hsw⟩
  obtain ⟨z, hz⟩ : ∃ z, findSwarm (seated s tm.id core tm) n = some z := by
    rw [← Option.isSome_iff_exists, findSwarm_isSome, map_num_seated, ← findSwarm_isSome, hsw]
    rfl
  obtain ⟨tm', htm', hcore, hst⟩ := enterAll_loading tm.saver pc { cause := 0x41 } .prog tm.token none hteam rfl rfl (liveSwarms tm)
  obtain ⟨y, hy, hentered⟩ := enterAll_entered tm.saver pc { cause := 0x41 } .prog tm.token none hnum
    ((swarmAt_of_findTeam hteam n).trans hz)
  exact ⟨tm', y, htm', hcore, hst, (swarmAt_of_findTeam htm' n).symm.trans hy, hentered⟩

/-- R334: a core takes the oldest of the saved contexts of the highest priority that it can take. -/
theorem execContextLoad_first {s : State} {t : TeamId} {core : Nat} {tm : Team} (ht : findTeam s t = some tm) (hst : tm.st = .saved)
    (htake : canTake s core tm = true) (hnear : nearestFor s core tm = true)
    (hfirst : ∀ x ∈ s.teams, x.st = .saved → canTake s core x = true → x.prio < tm.prio ∨ x.prio = tm.prio ∧ tm.since ≤ x.since) :
    execContextLoad t core s = .next (loadTeam s tm core) := by
  have hnone : (s.teams.any fun x => x.st == .saved && canTake s core x &&
      (decide (tm.prio < x.prio) || (x.prio == tm.prio && decide (x.since < tm.since)))) = false := by
    refine List.any_eq_false.2 fun x hx hbefore => ?_
    simp only [Bool.and_eq_true, Bool.or_eq_true, beq_iff_eq, decide_eq_true_eq] at hbefore
    obtain ⟨⟨hsaved, hcan⟩, hprio⟩ := hbefore
    have := hfirst x hx hsaved hcan
    omega
  unfold execContextLoad
  simp only [ht, hnone, hst, htake, hnear]
  rfl

/-! ### O43 -/

/-- Settles O43: one lemma above for each event; the entries of several swarms go by induction over the live swarms, the load
by the tables that its acquire leaves, the spill by the rows that a write of memory keeps. -/
theorem contextEvents : Obligations.ContextEvents := by
  unfold Obligations.ContextEvents
  intro s t n core tm sw ht hsw
  have hnum : sw.num = n := findSwarm_num hsw
  have hat : swarmAt s t n = some sw := (swarmAt_of_findTeam ht n).trans hsw
  simp only [exec_preemptPointStop, exec_preemptOverdue, exec_impreciseTrapDelivery, exec_parkedWake, exec_contextLoad,
    exec_faultedRetire, exec_registerSpill]
  refine ⟨fun hst hkind hended hstop => ⟨?none, fun i => ?waits⟩, ?enters, ?overdue, ?delivery, execParkedWake_fired ht, ?load,
    execFaultedRetire_faulted ht, ?spill⟩
  case none => exact execPreemptPointStop_none ht hsw hst hkind hended hstop
  case waits => exact execPreemptPointStop_waits ht hsw hst hkind hended hstop
  case enters =>
    intro lv at_ r pc hst hreq hkind hended hstopped hstop hdrain hops hpc
    obtain ⟨u, hu, hall⟩ := execPreemptPointStop_enters ht hsw hst hreq hkind hended hstopped hstop hdrain hops hpc
    refine ⟨u, hu, fun x hx => ?_⟩
    obtain ⟨y, hy, hentered⟩ := hall x hx
    exact ⟨y, hy, hentered.mode, hentered.frame, hentered.hidden⟩
  case overdue =>
    refine ⟨_, execPreemptOverdue_eq s t, ?_⟩
    exact findTeam_updTeam_self (f := fun tm => { tm with overdue := tm.overdue || overdueNow s.pulse tm }) (fun _ => rfl) ht
  case delivery =>
    intro p ps htraps hshared hfirst hlog _ hteam hswarm hwps
    have hdue : dueTrap tm = some (n, p) := hnum ▸ dueTrap_shared htraps hshared hfirst
    rw [execImpreciseTrapDelivery_runs ht hsw hdue hlog hteam hswarm, deliverTrap_shared ht hsw hdue hlog hwps]
  case load =>
    intro hst htake hnear hended hkind hfirst hclean pc hpc
    have hlive : sw ∈ liveSwarms tm := mem_liveSwarms.2 ⟨findSwarm_mem hsw, hkind, hended⟩
    obtain ⟨tm', y, htm', hcore, hload, hy, hentered⟩ := loadTeam_loads ht hsw hlive hclean hpc
    exact ⟨_, tm', y, execContextLoad_first ht hst htake hnear hfirst, htm', hcore, hload, hy, hentered.mode, hentered.frame,
      hentered.trapa⟩
  case spill =>
    intro k rest s1 ps hlist hspan hway
    have haddr : spillAddr tm sw.num k = tm.spill + 65536 * n + 128 * k := by rw [hnum]; rfl
    obtain ⟨y, hy, hrows⟩ := spillRow_here (findTeam_id ht) hnum hat (haddr ▸ hspan) hway
    obtain ⟨hspilled, hregs⟩ := Prod.mk.inj hrows
    exact ⟨_, y, execRegisterSpill_first hlist, hy, hspilled, hregs⟩

end Sys2Proof.Machine
end
